-- ==== Sys2Proof/Word.lean ====
section
/-! DEFINITION. The words of the Ridgate GC6: bytes on the wire, keys, generations, lease-clock readings, and the
places of ports and slots. -/

namespace Sys2Proof

/-- One byte on a client port (R140, R157). -/
abbrev Byte := BitVec 8

/-- A 16-bit resource key (R1). -/
abbrev Key := BitVec 16

/-- A 16-bit duration in ms as the requests carry it (R163). -/
abbrev Ms := BitVec 16

/-- A 32-bit generation number (R28). -/
abbrev Gen := BitVec 32

/-- A 32-bit reading of the lease clock (R72). -/
abbrev Time := BitVec 32

/-- A client, and the port that serves it: 0 to 5 (R103). -/
abbrev ClientId := Fin 6

/-- A slot of the resource directory: 0 to 63 (R1). -/
abbrev SlotId := Fin 64

end Sys2Proof
end

