-- ==== Sys2Proof/Syntax.lean ====
section
/-! DEFINITION. The commands of the part: one constructor per row of spec/opcode_table.json, in the table's order.
A request's code, length and parameters stand in the request in flight of its port (R138, R150), so a request's
command names only the port it was taken from (log 6). -/

namespace Sys2Proof

/-- The commands (the table's operations and events). -/
inductive Instr where
  /-- POWER_ON (R152): the levels of the three input lines of each port at that moment, bit n for port n,
  1 for select low, reset-sense asserted and hold-sense asserted (log 9). -/
  | powerOn (selectLow resetSense holdSense : BitVec 6)
  /-- RESET_PIN (R152): the reset pin is asserted. -/
  | resetPin
  /-- RESET_PIN_RELEASE (R152, R90): the reset pin is released, with the hold-sense levels of that moment (log 10). -/
  | resetPinRelease (holdSense : BitVec 6)
  /-- STARTUP_END (R152): the 5 ms of STARTING end. -/
  | startupEnd
  /-- MILLISECOND_BOUNDARY (R72). -/
  | millisecondBoundary
  /-- FRAME_START (R141): select falls on a port. -/
  | frameStart (port : ClientId)
  /-- FRAME_END (R146): select rises, after so many rising clock edges, with the levels of data in that they sampled, the
  first at the most significant bit (R140, R142, log 11). -/
  | frameEnd (port : ClientId) (edges : Nat) (dataIn : BitVec edges)
  /-- IDLE (R148): a well-formed IDLE is dealt with at the port. -/
  | idle (port : ClientId)
  /-- REPLY_READY (R144): a request's reply reaches the port. -/
  | replyReady (port : ClientId)
  /-- JOIN (R107). -/
  | join (port : ClientId)
  /-- LEAVE (R109). -/
  | leave (port : ClientId)
  /-- ACQUIRE (R48 to R52). -/
  | acquire (port : ClientId)
  /-- ACCEPT (R61). -/
  | accept (port : ClientId)
  /-- DECLINE (R62). -/
  | decline (port : ClientId)
  /-- CANCEL (R54). -/
  | cancel (port : ClientId)
  /-- RENEW (R32). -/
  | renew (port : ClientId)
  /-- RELEASE (R33). -/
  | release (port : ClientId)
  /-- DOWNGRADE (R27). -/
  | downgrade (port : ClientId)
  /-- MARK_SOUND (R34). -/
  | markSound (port : ClientId)
  /-- QUERY (R20). -/
  | query (port : ClientId)
  /-- TAKE_NOTICE (R130). -/
  | takeNotice (port : ClientId)
  /-- DEFINE (R13). -/
  | define (port : ClientId)
  /-- AMEND (R14). -/
  | amend (port : ClientId)
  /-- RETIRE (R16, R17). -/
  | retire (port : ClientId)
  /-- REVOKE (R35, R36). -/
  | revoke (port : ClientId)
  /-- EVICT (R110). -/
  | evict (port : ClientId)
  /-- SET_CLIENT (R119). -/
  | setClient (port : ClientId)
  /-- INSPECT_CLIENT (R121). -/
  | inspectClient (port : ClientId)
  /-- UNKNOWN_CODE (R165): a taken request whose code the part does not know. -/
  | unknownCode (port : ClientId)
  /-- SWEEP_VISIT (R115): the teardown sweep of a client visits its next resource. -/
  | sweepVisit (client : ClientId)
  /-- TEARDOWN_COMPLETION (R116). -/
  | teardownCompletion (client : ClientId)
  /-- RESET_SENSE_ASSERT (R153): a reset-sense input is asserted, at the port. -/
  | resetSenseAssert (port : ClientId)
  /-- CLIENT_RESET_SENSE (R111): the assertion is taken at the client record. -/
  | clientResetSense (client : ClientId)
  /-- RESET_SENSE_RELEASE (R154). -/
  | resetSenseRelease (port : ClientId)
  /-- HOLD_ASSERTION (R92). -/
  | holdAssertion (client : ClientId)
  /-- HOLD_RELEASE (R95, R97). -/
  | holdRelease (client : ClientId)
  /-- LEASE_WARN (R84): the LEASE-WARN of the client's holding on the slot's resource is taken. -/
  | leaseWarn (slot : SlotId) (client : ClientId)
  /-- LEASE_END (R37): the LEASE-END of the client's holding on the slot's resource is taken. -/
  | leaseEnd (slot : SlotId) (client : ClientId)
  /-- OFFER_END (R63): the OFFER-END of the client's offer on the slot's resource is taken. -/
  | offerEnd (slot : SlotId) (client : ClientId)
  /-- WAIT_END (R55): the WAIT-END of the client's waiter entry on the slot's resource is taken. -/
  | waitEnd (slot : SlotId) (client : ClientId)
  /-- ALLOWANCE_END (R96): the ALLOWANCE-END of the client is taken. -/
  | allowanceEnd (client : ClientId)
  deriving DecidableEq, Repr

end Sys2Proof
end

