-- ==== Sys2Proof/Decode.lean ====
section
/-! DEFINITION. Decoding of the table's words. spec/opcode_table.json gives none of its rows any bits, so no word
spells a command (log 18). The bytes of requests on a client port are read by FRAME_END and by the requests' own
checks (Machine/Operands.lean). -/

namespace Sys2Proof

/-- The command a word of the opcode table spells: none, since no row of the table has bits. -/
def decodeTableWord (_nbits _w : Nat) : Option Instr := none

end Sys2Proof
end

