-- ==== Sys2Proof/Config.lean ====
section
/-! DEFINITION. What the part fixes: its capacities and the defaults of a client record. The spec leaves no result
value open, so there is no free value here. -/

namespace Sys2Proof.Config

/-- The Holding Pool has 96 records (R22). -/
def holdingRecords : Nat := 96

/-- The Waiter Pool has 48 entries (R45). -/
def waiterEntries : Nat := 48

/-- A notice set holds at most 16 records (R123). -/
def noticeRecords : Nat := 16

/-- The default claim quota (R103). -/
def defaultQuota : Nat := 12

/-- The default priority ceiling: 3 for client 0 and 2 for clients 1 to 5 (R103). -/
def defaultCeiling (c : ClientId) : Fin 4 := if c = 0 then 3 else 2

/-- Every notice kind enabled (R103, R135). -/
def defaultMask : BitVec 6 := 0x3F#6

/-- The supervisor is client 0 (R104). -/
def supervisor : ClientId := 0

end Sys2Proof.Config
end

