-- ==== Sys2Proof/Machine/State.lean ====
section
/-! DEFINITION. The state of the part: every record, list, flag and line of spec/01 to spec/09, as plain data, and
the machine right after power-on. Each piece of state has one home; what the spec derives is a view
(Machine/Ops.lean, log 12). -/

namespace Sys2Proof.Machine

/-! ### The Resource Directory, the Holding Pool and the Waiter Pool (R1, R23, R45) -/

/-- The two tenures (R26), and the mode of a waiter entry (R45). -/
inductive Tenure where
  | exclusive
  | shared
  deriving DecidableEq, Repr

/-- The state of a holding (R23). -/
inductive HoldState where
  | offered
  | held
  deriving DecidableEq, Repr

/-- A holding record in use (R23). Its resource is the one whose holder list it stands in, and its one deadline
stands in the Deadline List or, while its client is FROZEN, in the client's stored list (log 12). -/
structure Holding where
  client  : ClientId
  tenure  : Tenure
  state   : HoldState
  gen     : Gen
  /-- suspect-at-grant -/
  suspect : Bool
  warned  : Bool
  deriving DecidableEq, Repr

/-- A waiter entry in use (R45). Its resource is the one whose queue it stands in; its wait deadline, if any, stands
in the Deadline List or in its client's stored list (log 12). -/
structure Waiter where
  client   : ClientId
  mode     : Tenure
  priority : Fin 4
  deriving DecidableEq, Repr

/-- A resource's class, with the shared limit that only SHAREABLE has (R1). -/
inductive ResClass where
  | exclusiveOnly
  | shareable (limit : Nat)
  deriving DecidableEq, Repr

/-- A record's lifecycle (R6). -/
inductive Lifecycle where
  | active
  | retiring
  deriving DecidableEq, Repr

/-- A resource's integrity (R8). -/
inductive Integrity where
  | sound
  | suspect
  deriving DecidableEq, Repr

/-- A resource record (R1). Its slot is its place in the directory; in-backlog and occupancy are views (R9, R5). -/
structure Resource where
  key         : Key
  cls         : ResClass
  leaseTerm   : Ms
  warnMargin  : Ms
  offerWindow : Ms
  lifecycle   : Lifecycle
  integrity   : Integrity
  /-- the holder list, in order of creation (R4) -/
  holders     : List Holding
  /-- the queue, in queue order (R46) -/
  queue       : List Waiter
  deriving DecidableEq, Repr

/-! ### Deadlines (R75, R79) -/

/-- The owner of a deadline: the holding or the waiter entry of a client on a slot's resource (at most one of them,
R49), or a client record (R75). -/
inductive Owner where
  | holding (slot : SlotId) (client : ClientId)
  | waiter (slot : SlotId) (client : ClientId)
  | client (client : ClientId)
  deriving DecidableEq, Repr

/-- The kind of a deadline; a LEASE-WARN carries its warning interval (R75). -/
inductive DeadlineKind where
  | leaseWarn (interval : Ms)
  | leaseEnd
  | offerEnd
  | waitEnd
  | allowanceEnd
  deriving DecidableEq, Repr

/-- An entry of the Deadline List (R75). -/
structure Deadline where
  owner : Owner
  kind  : DeadlineKind
  due   : Time
  deriving DecidableEq, Repr

/-- A deadline set aside while its client is FROZEN, with its frozen remaining in ms (R79, R94). -/
structure StoredDeadline where
  owner     : Owner
  kind      : DeadlineKind
  remaining : Nat
  deriving DecidableEq, Repr

/-! ### The Client Table and the Hold Sense Unit (R103, R91) -/

/-- A session's state (R103). -/
inductive Session where
  | none
  | opened
  | teardown
  deriving DecidableEq, Repr

/-- A client's end cause (R108). -/
inductive EndCause where
  | none
  | leave
  | resetLine
  | evicted
  | partReset
  deriving DecidableEq, Repr

/-- A client's freeze state (R91). -/
inductive Freeze where
  | thawed
  | frozen
  | overstayed
  deriving DecidableEq, Repr

/-- A client record (R103). Its index is its place, its role follows from the index (R104), and its claim count is a
view (R106). -/
structure Client where
  session       : Session
  epoch         : BitVec 16
  endCause      : EndCause
  quota         : Nat
  ceiling       : Fin 4
  mask          : BitVec 6
  /-- hold allowance in seconds, as SET CLIENT carries it (R103) -/
  holdAllowance : Nat
  /-- hold used in ms (R91) -/
  holdUsed      : Nat
  holdConsumes  : Bool
  freeze        : Freeze
  /-- the slot from which the teardown sweep looks next (R114) -/
  sweepFrom     : Nat
  deriving DecidableEq, Repr

/-- What the Hold Sense Unit keeps for a client (R90, R91, R79). -/
structure HoldUnit where
  /-- the level last taken from the hold-sense input: true when asserted -/
  level       : Bool
  freezeStart : Option Time
  /-- the client's deadlines set aside, in the order in which they are put back (R95) -/
  stored      : List StoredDeadline
  deriving DecidableEq, Repr

/-! ### The Notice Unit (R123, R124, R127) -/

/-- The six notice kinds (R124). -/
inductive NoticeKind where
  | revoked
  | withdrawn
  | offer
  | offerLapsed
  | waitLapsed
  | expiring
  deriving DecidableEq, Repr

/-- Why a REVOKED notice was raised (R124). -/
inductive RevokedDetail where
  | expired
  | bySupervisor
  deriving DecidableEq, Repr

/-- A notice's kind with its detail (R124). -/
inductive NoticeBody where
  | revoked (why : RevokedDetail)
  | withdrawn
  | offer (tenure : Tenure) (suspect : Bool)
  | offerLapsed
  | waitLapsed
  | expiring (remaining : Ms)
  deriving DecidableEq, Repr

/-- A notice record (R123). -/
structure Notice where
  key       : Key
  body      : NoticeBody
  gen       : Option Gen
  presented : Bool
  deriving DecidableEq, Repr

/-- A client's notice set, in order of raising, with LOST and its shown mark (R123, R127). -/
structure NoticeSet where
  records   : List Notice
  lost      : Bool
  lostShown : Bool
  deriving DecidableEq, Repr

/-! ### The Client Port (R138) -/

/-- The outcomes of R171. -/
inductive Answer where
  | none
  | notReady
  | done
  | granted
  | queued
  | noNotice
  | badRequest
  | badParam
  | noSession
  | inSession
  | ending
  | notSupervisor
  | noSuchKey
  | keyInUse
  | directoryFull
  | retiring
  | unavailable
  | alreadyClaimed
  | quota
  | noWaitSpace
  | notHolder
  | stale
  | notOffered
  | notWaiting
  | inUse
  | spent
  | badTarget
  | shareRefused
  | exclusiveNeeded
  deriving DecidableEq, Repr

/-- A reply in the slot: outcome, tag, data (R138). -/
structure Reply where
  tag    : Byte
  answer : Answer
  data   : List Byte
  deriving DecidableEq, Repr

/-- The reply slot, with the pending tag or the slot reply (R138). -/
inductive ReplySlot where
  | empty
  | pending (tag : Byte)
  | filled (reply : Reply)
  deriving DecidableEq, Repr

/-- The request in flight on a port (R138, log 6). -/
inductive InFlight where
  | none
  /-- taken at frame end (R150), not yet checked at the blocks: its code and its parameters -/
  | taken (code : Byte) (params : List Byte)
  /-- a LEAVE or an EVICT whose teardown of `target` is under way (R109, R110) -/
  | waiting (target : ClientId)
  /-- its effect is complete and its reply not yet ready at the port (R144) -/
  | answered (answer : Answer) (data : List Byte)
  deriving DecidableEq, Repr

/-- The port states (R138). -/
inductive PortState where
  | starting
  | detached
  | ready
  | busy
  deriving DecidableEq, Repr

/-- The status byte's eight flags (R160). -/
structure Status where
  session  : Bool
  busy     : Bool
  notice   : Bool
  frozen   : Bool
  lost     : Bool
  crcErr   : Bool
  frameErr : Bool
  overrun  : Bool
  deriving DecidableEq, Repr

/-- The snapshot a frame shifts out (R141, R143). Its status keeps which sticky flags it showed. -/
structure Snapshot where
  status : Status
  reply  : Reply
  /-- the slot was FILLED, so that shifting the snapshot in full delivers it -/
  filled : Bool
  deriving DecidableEq, Repr

/-- A frame the port accepts: the snapshot, the count of rising clock edges and the bytes received (R138). -/
structure Frame where
  snapshot : Snapshot
  edges    : Nat
  received : List Byte
  /-- the bits sampled since the last complete byte, from which the next one is assembled (R142) -/
  partByte : List Bool
  deriving DecidableEq, Repr

/-- A client port (R138, R156). LOST is held in the notice set (R127). -/
structure Port where
  state      : PortState
  slot       : ReplySlot
  inFlight   : InFlight
  overrun    : Bool
  frameErr   : Bool
  crcErr     : Bool
  frame      : Option Frame
  /-- SELn is low -/
  selectLow  : Bool
  /-- RSNn is asserted -/
  resetSense : Bool
  /-- a reset-sense assertion has still to be taken at the client record (R111, log 8) -/
  senseOwed  : Bool
  deriving DecidableEq, Repr

/-! ### The part -/

/-- The start-up of the part (R152): the reset pin asserted, the 5 ms running, or ended. -/
inductive Startup where
  | held
  | counting
  | ended
  deriving DecidableEq, Repr

/-- Why a step of the machine can stop with a fault. No rule of the spec gives the part a fault: every error is a
reply outcome (R171) or a sticky flag (R147, R149), so the type has no constructor and no step faults. -/
inductive Fault where
  deriving DecidableEq, Repr

/-- Why a step of the machine can be refused. -/
inductive Refusal where
  /-- raised by `exec` for a command that has no meaning yet; safe, since nothing is claimed of it -/
  | notModelled (mnemonic : String)
  deriving DecidableEq, Repr

/-- The state of the Ridgate GC6, and the queue of commands that wait. -/
structure State where
  /-- the commands waiting, first in first out (log 1) -/
  pending   : List Instr
  startup   : Startup
  /-- the lease clock (R72) -/
  clock     : Time
  /-- the directory grant counter (R28) -/
  grant     : Gen
  /-- the Deadline List, front first (R75, R76) -/
  deadlines : List Deadline
  /-- the Offer Backlog, front first (R65) -/
  backlog   : List SlotId
  slots     : Vector (Option Resource) 64
  clients   : Vector Client 6
  holdUnits : Vector HoldUnit 6
  notices   : Vector NoticeSet 6
  ports     : Vector Port 6
  deriving DecidableEq, Repr

/-! ### Values after a part reset -/

/-- A client record after power-on (R103, R122). -/
def Client.initial (c : ClientId) : Client :=
  { session := .none, epoch := 0, endCause := .none, quota := Config.defaultQuota,
    ceiling := Config.defaultCeiling c, mask := Config.defaultMask, holdAllowance := 0, holdUsed := 0,
    holdConsumes := false, freeze := .thawed, sweepFrom := 0 }

/-- The Hold Sense Unit's record after a part reset: the level of the input at that moment (R90), no freeze (R91). -/
def HoldUnit.initial (level : Bool) : HoldUnit :=
  { level := level, freezeStart := none, stored := [] }

/-- A notice set after a part reset (R137). -/
def NoticeSet.empty : NoticeSet := { records := [], lost := false, lostShown := false }

/-- A port after a part reset, its two lines at the given levels (R138, R152). -/
def Port.initial (selectLow resetSense : Bool) : Port :=
  { state := .starting, slot := .empty, inFlight := .none, overrun := false, frameErr := false, crcErr := false,
    frame := none, selectLow := selectLow, resetSense := resetSense, senseOwed := false }

/-- The machine after power-on (R21, R44, R71, R89, R122, R137, R138, R152), for the input levels given and the
commands that wait. That the 5 ms run at once, the reset pin taken as released at power-on, is the model's choice
(log 22). -/
def State.powerOn (pending : List Instr) (selectLow resetSense holdSense : BitVec 6) : State :=
  { pending := pending
    startup := .counting
    clock := 0
    grant := 0
    deadlines := []
    backlog := []
    slots := Vector.replicate 64 none
    clients := Vector.ofFn Client.initial
    holdUnits := Vector.ofFn fun c => HoldUnit.initial holdSense[c]
    notices := Vector.replicate 6 NoticeSet.empty
    ports := Vector.ofFn fun p => Port.initial selectLow[p] resetSense[p] }

/-- The machine right after reset: power-on with every input line released (log 9) and the reset pin released, the 5 ms
running (log 22). -/
def State.reset : State := State.powerOn [] 0 0 0

end Sys2Proof.Machine
end

