-- ==== Sys2Proof/Machine/Operands.lean ====
section
/-! DEFINITION. Requests and replies as bytes: the CRC-8, the request codes and lengths, the parameters and their
ranges, and every encoding of chapter 9. Multi-byte fields are most significant byte first (R140). -/

namespace Sys2Proof.Machine

/-! ### The CRC-8 (R158) -/

/-- One shift of the CRC register: left one place, with 0x2F combined when the bit shifted out was 1 (R158). -/
def crcShift (r : Byte) : Byte := if r.msb then (r <<< 1) ^^^ 0x2F#8 else r <<< 1

/-- `n` shifts of the CRC register. -/
def crcShifts : Nat → Byte → Byte
  | 0, r => r
  | n + 1, r => crcShifts n (crcShift r)

/-- One byte taken into the CRC register (R158). -/
def crcByte (r b : Byte) : Byte := crcShifts 8 (r ^^^ b)

/-- The CRC-8 of a string of bytes: the register starts at 0xFF (R158). -/
def crc8 (bytes : List Byte) : Byte := bytes.foldl crcByte 0xFF#8

/-! ### Fields of several bytes -/

/-- Parameter byte `i + 1` (R163). -/
def byteAt (ps : List Byte) (i : Nat) : Byte := ps.getD i 0

/-- The two-byte field that begins at parameter byte `i + 1`. -/
def wordAt (ps : List Byte) (i : Nat) : BitVec 16 := byteAt ps i ++ byteAt ps (i + 1)

/-- The four-byte field that begins at parameter byte `i + 1`. -/
def longAt (ps : List Byte) (i : Nat) : BitVec 32 := wordAt ps i ++ wordAt ps (i + 2)

/-- The two bytes of a 16-bit field. -/
def wordBytes (w : BitVec 16) : List Byte := [w.extractLsb' 8 8, w.extractLsb' 0 8]

/-- The four bytes of a 32-bit field. -/
def longBytes (w : BitVec 32) : List Byte := wordBytes (w.extractLsb' 16 16) ++ wordBytes (w.extractLsb' 0 16)

/-- The three bytes of a count below 2^24 (hold used, R170). -/
def tripleBytes (n : Nat) : List Byte := BitVec.ofNat 8 (n / 65536) :: wordBytes (BitVec.ofNat 16 n)

/-- The bits of a byte string, each byte most significant bit first (R140). -/
def bitsOf (bytes : List Byte) : List Bool :=
  bytes.flatMap fun b => [b[7], b[6], b[5], b[4], b[3], b[2], b[1], b[0]]

/-- The bits that the rising edges of a frame sampled on data in, in their order (R140). -/
def sampledBits (edges : Nat) (dataIn : BitVec edges) : List Bool := (List.range edges).map dataIn.getMsbD

/-- The byte that eight bits make, the most significant first (R140, R142). -/
def byteOf (bits : List Bool) : Byte := bits.foldl (fun b bit => (b <<< 1) ||| (if bit then 1#8 else 0#8)) 0#8

/-- A rising clock edge in a frame (R140, R142): it is counted, and the bit it samples completes a byte or joins those
sampled since the last one. -/
def Frame.sample (f : Frame) (bit : Bool) : Frame :=
  let bits := f.partByte ++ [bit]
  if bits.length < 8 then { f with edges := f.edges + 1, partByte := bits }
  else { f with edges := f.edges + 1, received := f.received ++ [byteOf bits], partByte := [] }

/-! ### Request codes (R161) -/

/-- The requests the part knows, other than IDLE (R161). -/
inductive Request where
  | join | leave | acquire | accept | decline | cancel | renew | release | downgrade | markSound
  | query | takeNotice | define | amend | retire | revoke | evict | setClient | inspectClient
  deriving DecidableEq, Repr

/-- The code of IDLE (R161). -/
def idleCode : Byte := 0x00#8

/-- A request's code (R161). -/
def Request.code : Request → Byte
  | .join => 0x01#8
  | .leave => 0x02#8
  | .acquire => 0x10#8
  | .accept => 0x11#8
  | .decline => 0x12#8
  | .cancel => 0x13#8
  | .renew => 0x14#8
  | .release => 0x15#8
  | .downgrade => 0x16#8
  | .markSound => 0x17#8
  | .query => 0x20#8
  | .takeNotice => 0x21#8
  | .define => 0x30#8
  | .amend => 0x31#8
  | .retire => 0x32#8
  | .revoke => 0x33#8
  | .evict => 0x34#8
  | .setClient => 0x35#8
  | .inspectClient => 0x36#8

/-- The requests of R161, in its order. -/
def Request.all : List Request :=
  [.join, .leave, .acquire, .accept, .decline, .cancel, .renew, .release, .downgrade, .markSound,
   .query, .takeNotice, .define, .amend, .retire, .revoke, .evict, .setClient, .inspectClient]

/-- The part knows the code, IDLE's among them (R161). -/
def knownCode (code : Byte) : Bool := code == idleCode || Request.all.any fun q => q.code == code

/-- The request's role is the supervisor's (R104, R161). -/
def Request.supervisorOnly : Request → Bool
  | .define | .amend | .retire | .revoke | .evict | .setClient | .inspectClient => true
  | .join | .leave | .acquire | .accept | .decline | .cancel | .renew | .release | .downgrade | .markSound
  | .query | .takeNotice => false

/-- The parameter length fits the request (R161). -/
def Request.fits : Request → Nat → Bool
  | .join, n => n == 0
  | .leave, n => n == 0
  | .acquire, n => n == 6
  | .accept, n => n == 6
  | .decline, n => n == 6
  | .cancel, n => n == 2
  | .renew, n => n == 6
  | .release, n => n == 6
  | .downgrade, n => n == 6
  | .markSound, n => n == 6
  | .query, n => n == 2
  | .takeNotice, n => n == 0
  | .define, n => n == 10
  | .amend, n => n == 10
  | .retire, n => n == 2
  | .revoke, n => n == 3
  | .evict, n => n == 1
  | .setClient, n => n == 7
  | .inspectClient, n => n == 1 || n == 2

/-- The lifecycle check applies to the request (R7). -/
def Request.lifecycleChecked : Request → Bool
  | .acquire | .accept | .decline | .cancel | .amend | .retire => true
  | .join | .leave | .renew | .release | .downgrade | .markSound | .query | .takeNotice | .define | .revoke
  | .evict | .setClient | .inspectClient => false

/-! ### Named values in parameters (R162) -/

/-- The mode byte of ACQUIRE: 0x01 EXCLUSIVE, 0x02 SHARED (R162). -/
def tenureOf (b : Byte) : Tenure := if b = 0x02#8 then .shared else .exclusive

/-- The class byte and the shared limit byte of DEFINE and AMEND: 0x01 EXCLUSIVE-ONLY, 0x02 SHAREABLE (R162). -/
def classOf (b limit : Byte) : ResClass := if b = 0x02#8 then .shareable limit.toNat else .exclusiveOnly

/-- A client index in range (R166); an index above 5 is refused before this is read. -/
def clientOf (b : Byte) : ClientId := if h : b.toNat < 6 then ⟨b.toNat, h⟩ else 0

/-- A priority or a ceiling in range (R166); a value above 3 is refused before this is read. -/
def priorityOf (b : Byte) : Fin 4 := if h : b.toNat < 4 then ⟨b.toNat, h⟩ else 3

/-- A client's priority after clamping to its ceiling (R48). -/
def clampPriority (asked ceiling : Fin 4) : Fin 4 := if ceiling < asked then ceiling else asked

/-- The claim number of INSPECT CLIENT, 0 when the index stands alone (R121, R163): an absent byte reads as 0. -/
def claimNumberOf (ps : List Byte) : Nat := (byteAt ps 1).toNat

/-! ### Ranges (R166) -/

/-- Class, shared limit, lease term, warn margin and offer window are in range (R13, R166). -/
def termsInRange (cls limit : Byte) (term margin window : Ms) : Bool :=
  ((cls == 0x01#8 && limit == 0#8) || (cls == 0x02#8 && 2 ≤ limit.toNat && limit.toNat ≤ 6))
    && 10 ≤ term.toNat && margin.toNat < term.toNat && 1 ≤ window.toNat && window.toNat ≤ 2000

/-- Every parameter of the request is in range (R166). -/
def Request.inRange : Request → List Byte → Bool
  | .join, _ => true
  | .leave, _ => true
  | .takeNotice, _ => true
  | .acquire, ps =>
    wordAt ps 0 != 0 && (byteAt ps 2 == 0x01#8 || byteAt ps 2 == 0x02#8) && (byteAt ps 3).toNat ≤ 3
  | .accept, ps => wordAt ps 0 != 0 && longAt ps 2 != 0
  | .decline, ps => wordAt ps 0 != 0 && longAt ps 2 != 0
  | .renew, ps => wordAt ps 0 != 0 && longAt ps 2 != 0
  | .release, ps => wordAt ps 0 != 0 && longAt ps 2 != 0
  | .downgrade, ps => wordAt ps 0 != 0 && longAt ps 2 != 0
  | .markSound, ps => wordAt ps 0 != 0 && longAt ps 2 != 0
  | .cancel, ps => wordAt ps 0 != 0
  | .query, ps => wordAt ps 0 != 0
  | .retire, ps => wordAt ps 0 != 0
  | .define, ps =>
    wordAt ps 0 != 0 && termsInRange (byteAt ps 2) (byteAt ps 3) (wordAt ps 4) (wordAt ps 6) (wordAt ps 8)
  | .amend, ps =>
    wordAt ps 0 != 0 && termsInRange (byteAt ps 2) (byteAt ps 3) (wordAt ps 4) (wordAt ps 6) (wordAt ps 8)
  | .revoke, ps => wordAt ps 0 != 0 && (byteAt ps 2).toNat ≤ 5
  | .evict, ps => (byteAt ps 0).toNat ≤ 5
  | .setClient, ps =>
    (byteAt ps 0).toNat ≤ 5 && 1 ≤ (byteAt ps 1).toNat && (byteAt ps 1).toNat ≤ 24 && (byteAt ps 2).toNat ≤ 3
      && (byteAt ps 3).toNat < 64 && (wordAt ps 4).toNat ≤ 600 && (byteAt ps 6).toNat < 2
  | .inspectClient, ps => (byteAt ps 0).toNat ≤ 5 && claimNumberOf ps ≤ 24

/-! ### Named values in replies (R162, R168 to R171) -/

/-- The outcome codes of R171. -/
def Answer.code : Answer → Byte
  | .none => 0x00#8
  | .notReady => 0x01#8
  | .done => 0x02#8
  | .granted => 0x03#8
  | .queued => 0x04#8
  | .noNotice => 0x05#8
  | .badRequest => 0x40#8
  | .badParam => 0x41#8
  | .noSession => 0x42#8
  | .inSession => 0x43#8
  | .ending => 0x44#8
  | .notSupervisor => 0x45#8
  | .noSuchKey => 0x46#8
  | .keyInUse => 0x47#8
  | .directoryFull => 0x48#8
  | .retiring => 0x49#8
  | .unavailable => 0x4A#8
  | .alreadyClaimed => 0x4B#8
  | .quota => 0x4C#8
  | .noWaitSpace => 0x4D#8
  | .notHolder => 0x4E#8
  | .stale => 0x4F#8
  | .notOffered => 0x50#8
  | .notWaiting => 0x51#8
  | .inUse => 0x52#8
  | .spent => 0x53#8
  | .badTarget => 0x54#8
  | .shareRefused => 0x55#8
  | .exclusiveNeeded => 0x56#8

/-- The part refused the request: the codes from 0x40 (R171). -/
def Answer.isRefusal (a : Answer) : Bool := 0x40 ≤ a.code.toNat

/-- The tenure bit (R162). -/
def Tenure.bit : Tenure → Bool
  | .exclusive => false
  | .shared => true

/-- The end cause codes (R162). -/
def EndCause.code : EndCause → Byte
  | .none => 0x00#8
  | .leave => 0x01#8
  | .resetLine => 0x02#8
  | .evicted => 0x03#8
  | .partReset => 0x04#8

/-- The session codes (R170). -/
def Session.code : Session → Nat
  | .none => 0
  | .opened => 1
  | .teardown => 2

/-- The freeze state codes (R170). -/
def Freeze.code : Freeze → Nat
  | .thawed => 0
  | .frozen => 1
  | .overstayed => 2

/-- A notice's kind (R124). -/
def NoticeBody.kind : NoticeBody → NoticeKind
  | .revoked _ => .revoked
  | .withdrawn => .withdrawn
  | .offer _ _ => .offer
  | .offerLapsed => .offerLapsed
  | .waitLapsed => .waitLapsed
  | .expiring _ => .expiring

/-- A kind's rank, 1 the best, which is also its code (R124, R162). -/
def NoticeKind.rank : NoticeKind → Nat
  | .revoked => 1
  | .withdrawn => 2
  | .offer => 3
  | .offerLapsed => 4
  | .waitLapsed => 5
  | .expiring => 6

/-- The mask enables the kind: bit k - 1 for the kind of code k (R162). -/
def maskEnables (mask : BitVec 6) (kind : NoticeKind) : Bool := mask.getLsbD (kind.rank - 1)

/-- A flag as a number, to place it in a byte. -/
def bitValue (b : Bool) (place : Nat) : Nat := if b then 2 ^ place else 0

/-- The detail field of a TAKE NOTICE reply (R169). -/
def NoticeBody.detail : NoticeBody → BitVec 16
  | .revoked .expired => 0x0001#16
  | .revoked .bySupervisor => 0x0002#16
  | .withdrawn => 0x0003#16
  | .offer t suspect => BitVec.ofNat 16 (bitValue t.bit 0 + bitValue suspect 1)
  | .offerLapsed => 0x0000#16
  | .waitLapsed => 0x0000#16
  | .expiring ms => ms

/-- The data of a TAKE NOTICE reply (R169). -/
def Notice.data (n : Notice) : List Byte :=
  wordBytes n.key ++ [BitVec.ofNat 8 n.body.kind.rank] ++ longBytes (n.gen.getD 0) ++ wordBytes n.body.detail

/-- The status byte (R160). -/
def Status.byte (st : Status) : Byte :=
  BitVec.ofNat 8 (bitValue st.session 7 + bitValue st.busy 6 + bitValue st.notice 5 + bitValue st.frozen 4
    + bitValue st.lost 3 + bitValue st.crcErr 2 + bitValue st.frameErr 1 + bitValue st.overrun 0)

/-- The bytes of a snapshot: status, tag, outcome, data length, data, CRC-8 (R159). -/
def Snapshot.bytes (sn : Snapshot) : List Byte :=
  let body := [sn.status.byte, sn.reply.tag, sn.reply.answer.code, BitVec.ofNat 8 sn.reply.data.length]
    ++ sn.reply.data
  body ++ [crc8 body]

/-- The bit driven on data out for place `k` of a frame, counted from 0: the snapshot's bits, then 1 (R141). -/
def Frame.dataOut (f : Frame) (k : Nat) : Bool := (bitsOf f.snapshot.bytes).getD k true

/-- A request as the client shifts it in: code, tag, length, parameters, CRC-8 (R157). -/
def requestBytes (code tag : Byte) (params : List Byte) : List Byte :=
  let body := [code, tag, BitVec.ofNat 8 params.length] ++ params
  body ++ [crc8 body]

end Sys2Proof.Machine
end

