-- ==== Sys2Proof/Machine/Ops.lean ====
section
/-! DEFINITION. The operations the commands share: access to the state's parts, the pools and claims, the Deadline
List, the freeze, the notice sets, the offer check and the hand-over, the end of a holding, the teardown, and the
reply to a request. -/

namespace Sys2Proof.Machine

/-! ### Access to the parts of the state -/

def State.port (s : State) (p : ClientId) : Port := s.ports[p]
def State.client (s : State) (c : ClientId) : Client := s.clients[c]
def State.holdUnit (s : State) (c : ClientId) : HoldUnit := s.holdUnits[c]
def State.noticeSet (s : State) (c : ClientId) : NoticeSet := s.notices[c]
def State.record (s : State) (i : SlotId) : Option Resource := s.slots[i]

def State.setPort (s : State) (p : ClientId) (x : Port) : State := { s with ports := s.ports.set p x }
def State.setClient (s : State) (c : ClientId) (x : Client) : State := { s with clients := s.clients.set c x }
def State.setHoldUnit (s : State) (c : ClientId) (x : HoldUnit) : State := { s with holdUnits := s.holdUnits.set c x }
def State.setNoticeSet (s : State) (c : ClientId) (x : NoticeSet) : State := { s with notices := s.notices.set c x }
def State.setRecord (s : State) (i : SlotId) (x : Option Resource) : State := { s with slots := s.slots.set i x }
def State.setDeadlines (s : State) (l : List Deadline) : State := { s with deadlines := l }
def State.setBacklog (s : State) (l : List SlotId) : State := { s with backlog := l }
def State.setGrant (s : State) (g : Gen) : State := { s with grant := g }

/-- Change the record of a slot, if there is one. -/
def State.modifyRecord (s : State) (i : SlotId) (f : Resource → Resource) : State :=
  match s.record i with
  | none => s
  | some r => s.setRecord i (some (f r))

/-- Every slot, in ascending order. -/
def allSlots : List SlotId := List.finRange 64

/-- Every client, in ascending order. -/
def allClients : List ClientId := List.finRange 6

/-- Insert directly after the last element that satisfies `p`, or at the front if none does (R46, R76). -/
def insertAfterLast {α : Type} (p : α → Bool) (x : α) : List α → List α
  | [] => [x]
  | y :: ys => if (y :: ys).any p then y :: insertAfterLast p x ys else x :: y :: ys

/-! ### Records, pools and claims -/

/-- The client's holding on the resource. -/
def Resource.holdingOf (r : Resource) (c : ClientId) : Option Holding := r.holders.find? fun h => h.client == c

/-- The client's waiter entry on the resource. -/
def Resource.waiterOf (r : Resource) (c : ClientId) : Option Waiter := r.queue.find? fun w => w.client == c

/-- The slot of the record with the key, ACTIVE or RETIRING (R2). -/
def State.slotOfKey (s : State) (key : Key) : Option SlotId :=
  allSlots.find? fun i => (s.record i).any fun r => r.key == key

/-- The lowest free slot (R3). -/
def State.freeSlot (s : State) : Option SlotId := allSlots.find? fun i => (s.record i).isNone

/-- The sum of a count over the records of the directory. -/
def State.total (s : State) (f : Resource → Nat) : Nat :=
  (allSlots.map fun i => (s.record i).elim 0 f).sum

/-- The free holding records (R22). -/
def State.freeHoldings (s : State) : Nat := Config.holdingRecords - s.total fun r => r.holders.length

/-- The free waiter entries (R45). -/
def State.freeWaiters (s : State) : Nat := Config.waiterEntries - s.total fun r => r.queue.length

/-- The client's claims on one resource: its holdings and its waiter entries (R106). -/
def Resource.claimsOf (r : Resource) (c : ClientId) : Nat :=
  (r.holders.countP fun h => h.client == c) + (r.queue.countP fun w => w.client == c)

/-- The client's claim count (R106). -/
def State.claimCount (s : State) (c : ClientId) : Nat := s.total fun r => r.claimsOf c

/-- The slots of the resources on which the client has a claim, ascending (R106). -/
def State.claimSlots (s : State) (c : ClientId) : List SlotId :=
  allSlots.filter fun i => (s.record i).any fun r => (r.holdingOf c).isSome || (r.waiterOf c).isSome

/-- The slot stands in the Offer Backlog: the in-backlog field (R9). -/
def State.inBacklog (s : State) (i : SlotId) : Bool := s.backlog.contains i

/-- The occupancies of R5. -/
inductive Occupancy where
  | vacant
  | offered
  | exclusive
  | shared
  deriving DecidableEq, Repr

/-- A resource's occupancy, derived from its holder list (R5). -/
def Resource.occupancy (r : Resource) : Occupancy :=
  if r.holders.isEmpty then .vacant
  else if r.holders.any fun h => h.state == .held && h.tenure == .exclusive then .exclusive
  else if r.holders.any fun h => h.state == .held then .shared
  else .offered

/-- The grant counter is spent (R28). -/
def State.grantSpent (s : State) : Bool := s.grant == 0xFFFFFFFF#32

/-- A new holding of the tenure is compatible with the holder list (R26). -/
def Resource.compatible (r : Resource) (t : Tenure) : Bool :=
  match t, r.cls with
  | .exclusive, _ => r.holders.isEmpty
  | .shared, .shareable limit => (r.holders.all fun h => h.tenure == .shared) && r.holders.length < limit
  | .shared, .exclusiveOnly => false

/-! ### The Deadline List (R73 to R80) -/

/-- The distance of a due time ahead of the lease clock, counted modulo 2^32 (R73): the remaining time of a live
deadline (R74). -/
def State.distance (s : State) (due : Time) : Nat := (due - s.clock).toNat

/-- The client whose deadline it is. -/
def Owner.clientId : Owner → ClientId
  | .holding _ c => c
  | .waiter _ c => c
  | .client c => c

/-- The resource of a claim's deadline; none for a client record. -/
def Owner.slot? : Owner → Option SlotId
  | .holding i _ => some i
  | .waiter i _ => some i
  | .client _ => none

/-- The owner is a holding or a waiter entry of the client (R79). -/
def Owner.isClaimOf (o : Owner) (c : ClientId) : Bool := o.slot?.isSome && o.clientId == c

/-- Two owners take their expiries at the same place: the same resource, or the same client record (R80). -/
def Owner.samePlace (o o' : Owner) : Bool :=
  match o.slot?, o'.slot? with
  | some i, some j => i == j
  | none, none => o.clientId == o'.clientId
  | _, _ => false

/-- Insert a deadline by the rule of R76. -/
def State.insertDeadline (s : State) (d : Deadline) : State :=
  s.setDeadlines (insertAfterLast (fun e => s.distance e.due ≤ s.distance d.due) d s.deadlines)

/-- Remove the owner's deadline from the list (R78). -/
def State.removeLive (s : State) (o : Owner) : State :=
  s.setDeadlines (s.deadlines.filter fun d => d.owner != o)

/-- Discard the owner's frozen remaining (R78). -/
def State.discardStored (s : State) (o : Owner) : State :=
  let u := s.holdUnit o.clientId
  s.setHoldUnit o.clientId { u with stored := u.stored.filter fun d => d.owner != o }

/-- Disarm the owner's deadline, live or stored (R78). -/
def State.disarm (s : State) (o : Owner) : State := (s.removeLive o).discardStored o

/-- Store a deadline formed while its client is FROZEN, behind those stored before (R77, R95). -/
def State.store (s : State) (d : StoredDeadline) : State :=
  let u := s.holdUnit d.owner.clientId
  s.setHoldUnit d.owner.clientId { u with stored := u.stored ++ [d] }

/-- Arm a deadline of a holding or a waiter entry, in place of the one it has: in the list, or stored when its client
is FROZEN (R77, R94). -/
def State.arm (s : State) (o : Owner) (kind : DeadlineKind) (duration : Nat) : State :=
  let t := s.disarm o
  if (s.client o.clientId).freeze = .frozen then
    t.store { owner := o, kind := kind, remaining := duration }
  else
    t.insertDeadline { owner := o, kind := kind, due := s.clock + BitVec.ofNat 32 duration }

/-- Arm a lease on the terms of the record (R83). -/
def State.armLease (s : State) (i : SlotId) (c : ClientId) (r : Resource) : State :=
  if r.warnMargin = 0 then s.arm (.holding i c) .leaseEnd r.leaseTerm.toNat
  else s.arm (.holding i c) (.leaseWarn r.warnMargin) (r.leaseTerm.toNat - r.warnMargin.toNat)

/-- The owner's deadline: its kind, its remaining time and whether that is a frozen remaining (R74). -/
def State.deadlineOf (s : State) (o : Owner) : Option (DeadlineKind × Nat × Bool) :=
  match s.deadlines.find? fun d => d.owner == o with
  | some d => some (d.kind, s.distance d.due, false)
  | none =>
    match (s.holdUnit o.clientId).stored.find? fun d => d.owner == o with
    | some d => some (d.kind, d.remaining, true)
    | none => none

/-- The ms left to the end a deadline leads to: a LEASE-WARN counts its warning interval too (R74). -/
def DeadlineKind.left (kind : DeadlineKind) (remaining : Nat) : Nat :=
  match kind with
  | .leaseWarn interval => remaining + interval.toNat
  | .leaseEnd | .offerEnd | .waitEnd | .allowanceEnd => remaining

/-- The ms left that QUERY and INSPECT CLIENT report for an owner, 0 where it has no deadline (R74, R168, R170). -/
def State.msLeft (s : State) (o : Owner) : Nat :=
  match s.deadlineOf o with
  | some (kind, remaining, _) => kind.left remaining
  | none => 0

/-- The figure of `msLeft` is a frozen remaining (R121). -/
def State.leftFrozen (s : State) (o : Owner) : Bool :=
  match s.deadlineOf o with
  | some (_, _, frozen) => frozen
  | none => false

/-- The owner's deadline, if it is due and the next to be handed out at its place (R80). -/
def State.dueDeadline (s : State) (o : Owner) : Option Deadline :=
  match s.deadlines.find? fun d => d.due == s.clock && d.owner.samePlace o with
  | some d => if d.owner = o then some d else none
  | none => none

/-- A due deadline waits to be taken (R80). -/
def State.anyDue (s : State) : Bool := s.deadlines.any fun d => d.due == s.clock

/-! ### The freeze (R92 to R99) -/

/-- The hold allowance in ms (R91). -/
def Client.allowanceMs (x : Client) : Nat := 1000 * x.holdAllowance

/-- The freeze condition (R92). -/
def State.freezeCondition (s : State) (c : ClientId) : Bool :=
  (s.client c).session == .opened && (s.holdUnit c).level && (s.client c).holdUsed < (s.client c).allowanceMs

/-- What is stored of a deadline taken out of the list: its remaining time, at least 1 ms (R79). -/
def State.takenOut (s : State) (d : Deadline) : StoredDeadline :=
  { owner := d.owner, kind := d.kind, remaining := max 1 (s.distance d.due) }

/-- Freeze entry (R92): FROZEN, the freeze start, the client's deadlines taken out, the ALLOWANCE-END armed. -/
def State.enterFreeze (s : State) (c : ClientId) : State :=
  let x := s.client c
  let u := s.holdUnit c
  let mine := s.deadlines.filter fun d => d.owner.isClaimOf c
  let rest := s.deadlines.filter fun d => !d.owner.isClaimOf c
  (((s.setClient c { x with freeze := .frozen }).setHoldUnit c
    { u with freezeStart := some s.clock, stored := u.stored ++ mine.map s.takenOut }).setDeadlines rest).insertDeadline
      { owner := .client c, kind := .allowanceEnd,
        due := s.clock + BitVec.ofNat 32 (x.allowanceMs - x.holdUsed) }

/-- Evaluate the freeze condition of a THAWED client (R92). -/
def State.evaluateFreeze (s : State) (c : ClientId) : State :=
  if (s.client c).freeze = .thawed ∧ s.freezeCondition c then s.enterFreeze c else s

/-- Put one stored deadline back, due at the present reading plus its stored remaining (R79). -/
def State.putBack (s : State) (d : StoredDeadline) : State :=
  s.insertDeadline { owner := d.owner, kind := d.kind, due := s.clock + BitVec.ofNat 32 d.remaining }

/-- Leave FROZEN for the state given: the ALLOWANCE-END disarmed, the freeze start cleared, the stored deadlines put
back in their order (R95, R96). -/
def State.thaw (s : State) (c : ClientId) (next : Freeze) : State :=
  let u := s.holdUnit c
  u.stored.foldl State.putBack
    (((s.removeLive (.client c)).setClient c { s.client c with freeze := next }).setHoldUnit c
      { u with freezeStart := none, stored := [] })

/-- End the client's freeze: from FROZEN as R95 has it, from OVERSTAYED with nothing to put back (R97 to R99). -/
def State.endFreeze (s : State) (c : ClientId) : State :=
  match (s.client c).freeze with
  | .frozen => s.thaw c .thawed
  | .thawed | .overstayed => s.setClient c { s.client c with freeze := .thawed }

/-! ### The notice sets (R123 to R132) -/

/-- Two notices have the same key and kind (R125). -/
def Notice.sameAs (m n : Notice) : Bool := m.key == n.key && m.body.kind == n.body.kind

/-- Raise a notice into a set: replace its match at the tail, append it, or lose it (R125, R126). -/
def NoticeSet.raise (ns : NoticeSet) (n : Notice) : NoticeSet :=
  if ns.records.any fun m => m.sameAs n then
    { ns with records := (ns.records.filter fun m => !m.sameAs n) ++ [n] }
  else if ns.records.length < Config.noticeRecords then
    { ns with records := ns.records ++ [n] }
  else
    { ns with lost := true, lostShown := false }

/-- A notice as it is raised: not presented (R125). -/
def notice (key : Key) (body : NoticeBody) (gen : Option Gen) : Notice :=
  { key := key, body := body, gen := gen, presented := false }

/-- Raise a notice to a client, if its session is OPEN (R125). -/
def State.raiseNotice (s : State) (c : ClientId) (n : Notice) : State :=
  if (s.client c).session = .opened then s.setNoticeSet c ((s.noticeSet c).raise n) else s

/-- Clear the records of a client's set that satisfy `p` (R128). -/
def State.clearNotices (s : State) (c : ClientId) (p : Notice → Bool) : State :=
  let ns := s.noticeSet c
  s.setNoticeSet c { ns with records := ns.records.filter fun n => !p n }

/-- Clear the OFFER for the key (R128). -/
def State.clearOffer (s : State) (c : ClientId) (key : Key) : State :=
  s.clearNotices c fun n => n.key == key && n.body.kind == .offer

/-- Clear the EXPIRING for the key and the generation (R128). -/
def State.clearExpiring (s : State) (c : ClientId) (key : Key) (gen : Gen) : State :=
  s.clearNotices c fun n => n.key == key && n.body.kind == .expiring && n.gen == some gen

/-- Delivery is protected: hold sense asserted and hold consumes no (R101). -/
def State.deliveryProtected (s : State) (c : ClientId) : Bool :=
  (s.holdUnit c).level && !(s.client c).holdConsumes

/-- The delivery report at a set: the presented record is removed, or only its mark cleared when protected; LOST is
cleared if it was shown and the delivery is not protected (R127, R132). -/
def NoticeSet.delivered (ns : NoticeSet) (guarded : Bool) : NoticeSet :=
  if guarded then { ns with records := ns.records.map fun n => { n with presented := false } }
  else
    { records := ns.records.filter fun n => !n.presented
      lost := ns.lost && !ns.lostShown
      lostShown := ns.lostShown && !ns.lost }

/-- The better of two records for TAKE NOTICE: a smaller rank, else the one nearer the head (R130). -/
def bestNotice : List Notice → Option Notice
  | [] => none
  | n :: rest =>
    match bestNotice rest with
    | none => some n
    | some m => if m.body.kind.rank < n.body.kind.rank then some m else some n

/-- The attention line of a client: asserted exactly while its set holds a record of an enabled kind, outside
STARTING (R136). -/
def State.attention (s : State) (c : ClientId) : Bool :=
  s.startup == .ended && (s.noticeSet c).records.any fun n => maskEnables (s.client c).mask n.body.kind

/-! ### Holdings and waiter entries at a resource -/

/-- Change the client's holding on a slot's resource. -/
def State.modifyHolding (s : State) (i : SlotId) (c : ClientId) (f : Holding → Holding) : State :=
  s.modifyRecord i fun r => { r with holders := r.holders.map fun h => if h.client = c then f h else h }

/-- A client's waiter entry leaves its queue: removed, its wait deadline disarmed (R47). -/
def State.dropWaiter (s : State) (i : SlotId) (c : ClientId) : State :=
  (s.modifyRecord i fun r => { r with queue := r.queue.eraseP fun w => w.client == c }).disarm (.waiter i c)

/-- Create a holding: the next generation, suspect-at-grant copied from integrity, at the tail of the holder list
(R24, R28). Its deadline is armed by the caller. -/
def State.createHolding (s : State) (i : SlotId) (c : ClientId) (t : Tenure) (st : HoldState) : State :=
  (s.setGrant (s.grant + 1)).modifyRecord i fun r =>
    { r with holders := r.holders ++
        [{ client := c, tenure := t, state := st, gen := s.grant + 1, suspect := r.integrity == .suspect,
           warned := false }] }

/-! ### The offer check (R10 to R12, R57, R58) and the hand-over (R67) -/

/-- Where an offer check obtains a holding record: from the pool, or the one record handed to the front of the
backlog, which is unused or used (R11, R67). -/
inductive Source where
  | pool
  | handed
  | used
  deriving DecidableEq, Repr

/-- What is left of the source after an offer. -/
def Source.spend : Source → Source
  | .pool => .pool
  | .handed => .used
  | .used => .used

/-- A holding record can be obtained (R11 step 4, R67). -/
def State.canObtain (s : State) (i : SlotId) : Source → Bool
  | .pool => 0 < s.freeHoldings && (s.backlog.isEmpty || s.backlog.head? == some i)
  | .handed => true
  | .used => false

/-- The resource leaves the Offer Backlog, if it is there (R66). -/
def State.leaveBacklog (s : State) (i : SlotId) : State := s.setBacklog (s.backlog.filter fun j => j != i)

/-- The resource joins the tail of the Offer Backlog, unless it is there already (R65). -/
def State.joinBacklog (s : State) (i : SlotId) : State :=
  if s.inBacklog i then s else s.setBacklog (s.backlog ++ [i])

/-- An offer is due to the head entry (R11 step 2). -/
def State.offerDue (s : State) (i : SlotId) (w : Waiter) : Bool :=
  !s.grantSpent && (s.record i).any fun r => r.compatible w.mode

/-- Make the offer to the head entry (R57). -/
def State.makeOffer (s : State) (i : SlotId) (w : Waiter) : State :=
  match s.record i with
  | none => s
  | some r =>
    ((((s.dropWaiter i w.client).createHolding i w.client w.mode .offered).arm (.holding i w.client) .offerEnd
      r.offerWindow.toNat)).raiseNotice w.client
        (notice r.key (.offer w.mode (r.integrity == .suspect)) (some (s.grant + 1)))

/-- The steps of the offer check, along the queue from its head (R11): pass over entries of clients in TEARDOWN,
stop when no offer is due, make the offer or join the backlog. Answers what is left of the source too. -/
def State.offerLoop (i : SlotId) : List Waiter → Source → State → State × Source
  | [], src, s => (s.leaveBacklog i, src)
  | w :: rest, src, s =>
    if (s.client w.client).session = .teardown then State.offerLoop i rest src (s.dropWaiter i w.client)
    else if !s.offerDue i w then (s.leaveBacklog i, src)
    else if s.canObtain i src then State.offerLoop i rest src.spend (s.makeOffer i w)
    else (s.joinBacklog i, src)

/-- The offer check of a slot's resource, with what is left of its source (R11). -/
def State.offerCheckFrom (s : State) (i : SlotId) (src : Source) : State × Source :=
  State.offerLoop i ((s.record i).elim [] Resource.queue) src s

/-- The offer check of a slot's resource, with the records of the pool (R11). -/
def State.offerCheck (s : State) (i : SlotId) : State := (s.offerCheckFrom i .pool).1

/-- The hand-over of one given-back holding record along the backlog (R67). Answers the resources whose offer check
it made. -/
def State.handOver : List SlotId → State → State × List SlotId
  | [], s => (s, [])
  | front :: rest, s =>
    match s.offerCheckFrom front .handed with
    | (t, .used) => (t, [front])
    | (t, _) =>
      match State.handOver rest t with
      | (t', checked) => (t', front :: checked)

/-- Give one holding record back: handed along the backlog, or free when the backlog is empty (R25, R67). -/
def State.giveBack (s : State) : State × List SlotId := State.handOver s.backlog s

/-- Give back several holding records, one after another (R68). -/
def State.giveBackMany : Nat → State → State
  | 0, s => s
  | n + 1, s => State.giveBackMany n s.giveBack.1

/-! ### The end of a holding (R38 to R40) -/

/-- The end causes of a holding (R38). -/
inductive HoldingEnd where
  | released
  | left
  | expired
  | revoked
  | tornDown
  | declined
  | lapsed
  | withdrawn
  deriving DecidableEq, Repr

/-- The end makes the resource SUSPECT (R39). -/
def Holding.endsSuspect (h : Holding) (cause : HoldingEnd) : Bool :=
  h.state == .held && h.tenure == .exclusive
    && (cause == .expired || cause == .revoked || cause == .tornDown)

/-- The notice clears and the notice of a holding's end, at its client's set (R38, R128). -/
def State.endNotices (s : State) (key : Key) (h : Holding) (cause : HoldingEnd) : State :=
  let s := if h.state = .held then s.clearExpiring h.client key h.gen else s
  match cause with
  | .expired => s.raiseNotice h.client (notice key (.revoked .expired) (some h.gen))
  | .revoked => s.raiseNotice h.client (notice key (.revoked .bySupervisor) (some h.gen))
  | .declined => s.clearOffer h.client key
  | .lapsed => (s.clearOffer h.client key).raiseNotice h.client (notice key .offerLapsed (some h.gen))
  | .withdrawn => (s.clearOffer h.client key).raiseNotice h.client (notice key .withdrawn (some h.gen))
  | .released | .left | .tornDown => s

/-- Steps 1 to 4 of R40: the holding leaves the holder list, its deadline is disarmed, integrity is changed, and the
notices are applied. -/
def State.dropHolding (s : State) (i : SlotId) (r : Resource) (h : Holding) (cause : HoldingEnd) : State :=
  ((s.setRecord i (some { r with
      holders := r.holders.eraseP fun g => g.client == h.client
      integrity := if h.endsSuspect cause then .suspect else r.integrity })).disarm (.holding i h.client)).endNotices
    r.key h cause

/-- Remove a record: its slot becomes free (R3, R18); it leaves the backlog if it is there (R9). -/
def State.removeRecord (s : State) (i : SlotId) : State := (s.setRecord i none).leaveBacklog i

/-- The record is RETIRING and its holder list is empty (R18). -/
def State.removalDue (s : State) (i : SlotId) : Bool :=
  (s.record i).any fun r => r.lifecycle == .retiring && r.holders.isEmpty

/-- Steps 6 and 7 of R40 where the record stands: give the holding record back, then the resource's offer check
unless the hand-over made it. -/
def State.giveBackAndCheck (s : State) (i : SlotId) : State :=
  match s.giveBack with
  | (t, checked) => if checked.contains i then t else t.offerCheck i

/-- The end of the client's holding on a slot's resource, as one event (R40). -/
def State.endHolding (s : State) (i : SlotId) (c : ClientId) (cause : HoldingEnd) : State :=
  match s.record i with
  | none => s
  | some r =>
    match r.holdingOf c with
    | none => s
    | some h =>
      let t := s.dropHolding i r h cause
      if t.removalDue i then (t.removeRecord i).giveBack.1 else t.giveBackAndCheck i

/-- A waiter entry leaves its queue by CANCEL, WAIT-END or the sweep; the offer check follows if it was at the head
(R47, R54, R55). -/
def State.endWait (s : State) (i : SlotId) (c : ClientId) : State :=
  match s.record i with
  | none => s
  | some r =>
    let t := s.dropWaiter i c
    if (r.queue.head?.map Waiter.client) = some c then t.offerCheck i else t

/-! ### Requests and replies (R144, R164) -/

/-- A request's effect is complete: its reply is produced and awaits REPLY-READY (R144). -/
def State.answer (s : State) (p : ClientId) (a : Answer) (data : List Byte) : State :=
  s.setPort p { s.port p with inFlight := .answered a data }

/-- The session check (R105). -/
def sessionRefusal (session : Session) (isJoin : Bool) : Option Answer :=
  match session, isJoin with
  | .none, true => none
  | .none, false => some .noSession
  | .opened, true => some .inSession
  | .opened, false => none
  | .teardown, _ => some .ending

/-- The checks of stages 1 to 5, in order: session, role, length, ranges (R164 to R166). -/
def State.refusal (s : State) (p : ClientId) (q : Request) (params : List Byte) : Option Answer :=
  match sessionRefusal (s.client p).session (q == .join) with
  | some a => some a
  | none =>
    if q.supervisorOnly && p != Config.supervisor then some .notSupervisor
    else if !q.fits params.length then some .badRequest
    else if !q.inRange params then some .badParam
    else none

/-- A request taken from the port, when it is the request in flight: refused at stages 1 to 5, or its effect. Where
the port has no such request in flight, there is nothing to take (log 2). -/
def State.request (s : State) (p : ClientId) (q : Request) (effect : List Byte → State) : State :=
  match (s.port p).inFlight with
  | .taken code params =>
    if code = q.code then
      match s.refusal p q params with
      | some a => s.answer p a []
      | none => effect params
    else s
  | .none | .waiting _ | .answered _ _ => s

/-- Stages 6 and 7: key lookup, then the lifecycle check where it applies (R2, R7). -/
def State.atRecord (s : State) (p : ClientId) (q : Request) (key : Key) (effect : SlotId → Resource → State) : State :=
  match s.slotOfKey key with
  | none => s.answer p .noSuchKey []
  | some i =>
    match s.record i with
    | none => s.answer p .noSuchKey []
    | some r =>
      if q.lifecycleChecked && r.lifecycle == .retiring then s.answer p .retiring [] else effect i r

/-- The generation checks of R30. -/
def Resource.holderRefusal (r : Resource) (c : ClientId) (gen : Gen) : Option Answer :=
  match r.holdingOf c with
  | none => some .notHolder
  | some h => if h.state = .offered then some .notHolder else if h.gen ≠ gen then some .stale else none

/-- The checks of R60 on the caller's standing. -/
def Resource.offerRefusal (r : Resource) (c : ClientId) (gen : Gen) : Option Answer :=
  match r.holdingOf c with
  | none => some .notOffered
  | some h => if h.state = .held then some .alreadyClaimed else if h.gen ≠ gen then some .stale else none

/-- A DETACHED port becomes READY when its reset-sense input is released, it has no request in flight, its client has
no teardown under way (R154), and no reset-sense assertion has still to begin one (log 8). -/
def State.portReady (s : State) (p : ClientId) : State :=
  let x := s.port p
  if x.state = .detached ∧ x.resetSense = false ∧ x.inFlight = .none ∧ (s.client p).session ≠ .teardown
      ∧ ¬ (x.senseOwed = true ∧ (s.client p).session = .opened) then
    s.setPort p { x with state := .ready, senseOwed := false }
  else s

/-- A reply is ready at the port: it fills a PENDING slot and the port becomes READY, or it is discarded (R144). The
request is no longer in flight, which may let a DETACHED port become READY (R154). -/
def State.placeReply (s : State) (p : ClientId) (a : Answer) (data : List Byte) : State :=
  let x := s.port p
  match x.slot with
  | .pending tag =>
    (s.setPort p { x with slot := .filled { tag := tag, answer := a, data := data }, inFlight := .none,
                          state := if x.state = .busy then .ready else x.state }).portReady p
  | .empty | .filled _ => (s.setPort p { x with inFlight := .none }).portReady p

/-! ### Teardown (R113 to R116) -/

/-- The reply of a LEAVE or an EVICT that waits on port `p` for the teardown of client `c` (R116). -/
def State.answerWaiting (s : State) (p c : ClientId) : State :=
  if (s.port p).inFlight = .waiting c then s.placeReply p .done [] else s

/-- Teardown completes: the session becomes NONE, the reply of the LEAVE or EVICT that began it is produced, and the
client's port may leave DETACHED (R116, R154). -/
def State.completeTeardown (s : State) (c : ClientId) : State :=
  let t := s.setClient c { s.client c with session := .none }
  (((t.answerWaiting c c).answerWaiting Config.supervisor c)).portReady c

/-- Teardown begins (R113): TEARDOWN and the end cause, the freeze ended, the notice set cleared, the sweep from slot
0. A client with no claim completes in the same event (R116). -/
def State.beginTeardown (s : State) (c : ClientId) (cause : EndCause) : State :=
  let t1 := s.setClient c { s.client c with session := .teardown, endCause := cause, sweepFrom := 0 }
  let t2 := (t1.endFreeze c).setNoticeSet c NoticeSet.empty
  if t2.claimCount c = 0 then t2.completeTeardown c else t2

/-- The cause with which the sweep of the client ends its holdings (R115). -/
def EndCause.holdingEnd (cause : EndCause) : HoldingEnd :=
  match cause with
  | .leave => .left
  | .none | .resetLine | .evicted | .partReset => .tornDown

end Sys2Proof.Machine
end

