-- ==== Sys2Proof/Machine/Claims.lean ====
section
/-! DEFINITION. The requests that claim a resource and answer offers: ACQUIRE, ACCEPT, DECLINE, CANCEL (chapter 3). -/

namespace Sys2Proof.Machine

/-- An entry of a client not in TEARDOWN stands at a priority at or above the one given (R50). -/
def State.standsAhead (s : State) (r : Resource) (priority : Fin 4) : Bool :=
  r.queue.any fun w => decide ((s.client w.client).session ≠ .teardown) && decide (priority ≤ w.priority)

/-- A holding record can be had by an immediate grant: one is free and the backlog is empty (R50). -/
def State.grantSpace (s : State) : Bool := 0 < s.freeHoldings && s.backlog.isEmpty

/-- The UNAVAILABLE reasons of R51, encoded as R162 has them. -/
def State.unavailableReason (s : State) (r : Resource) (mode : Tenure) (priority : Fin 4) : Byte :=
  if s.standsAhead r priority then 0x02#8 else if !r.compatible mode then 0x01#8 else 0x03#8

/-- The data of a GRANTED reply (R167): generation, lease term, suspect-at-grant. -/
def grantedData (gen : Gen) (term : Ms) (suspect : Bool) : List Byte :=
  longBytes gen ++ wordBytes term ++ [if suspect then 1 else 0]

/-- An immediate grant (R50): a HELD holding on a new lease. -/
def State.grantNow (s : State) (p : ClientId) (i : SlotId) (r : Resource) (mode : Tenure) : State :=
  ((s.createHolding i p mode .held).armLease i p r).answer p .granted
    (grantedData (s.grant + 1) r.leaseTerm (r.integrity == .suspect))

/-- The queue with a new entry inserted by R46. -/
def Resource.queueWith (r : Resource) (w : Waiter) : List Waiter :=
  insertAfterLast (fun v => decide (w.priority ≤ v.priority)) w r.queue

/-- The client's position in a queue, 1 for the head (R46). -/
def positionIn (queue : List Waiter) (c : ClientId) : Nat := (queue.findIdx fun w => w.client == c) + 1

/-- A waiter entry is made (R52): inserted by priority, its WAIT-END armed unless the wait is unbounded, and the offer
check made if it stands at the head. -/
def State.enqueue (s : State) (p : ClientId) (i : SlotId) (r : Resource) (w : Waiter) (wait : Ms) : State :=
  let queue := r.queueWith w
  let t := s.setRecord i (some { r with queue := queue })
  let t := if wait = 0xFFFF#16 then t else t.arm (.waiter i p) .waitEnd wait.toNat
  let t := if positionIn queue p = 1 then t.offerCheck i else t
  t.answer p .queued [BitVec.ofNat 8 (positionIn queue p), BitVec.ofNat 8 w.priority.val]

/-- ACQUIRE's own checks and its outcomes (R49 to R52), with the priority already clamped. -/
def State.acquireAt (s : State) (p : ClientId) (i : SlotId) (r : Resource) (mode : Tenure) (priority : Fin 4)
    (wait : Ms) : State :=
  if mode = .shared ∧ r.cls = .exclusiveOnly then s.answer p .shareRefused []
  else if (r.holdingOf p).isSome || (r.waiterOf p).isSome then s.answer p .alreadyClaimed []
  else if s.grantSpent then s.answer p .spent []
  else if (s.client p).quota ≤ s.claimCount p then s.answer p .quota []
  else if !s.standsAhead r priority && r.compatible mode && s.grantSpace then s.grantNow p i r mode
  else if wait = 0 then s.answer p .unavailable [s.unavailableReason r mode priority]
  else if s.freeWaiters = 0 then s.answer p .noWaitSpace []
  else s.enqueue p i r { client := p, mode := mode, priority := priority } wait

/-- ACQUIRE (R48 to R52). -/
def execAcquire (p : ClientId) (s : State) : Host.Outcome State Fault Refusal :=
  .next <| s.request p .acquire fun ps =>
    s.atRecord p .acquire (wordAt ps 0) fun i r =>
      s.acquireAt p i r (tenureOf (byteAt ps 2)) (clampPriority (priorityOf (byteAt ps 3)) (s.client p).ceiling)
        (wordAt ps 4)

/-- An offer accepted (R61): HELD on a new lease, warned cleared, the OFFER notice cleared. -/
def State.acceptAt (s : State) (p : ClientId) (i : SlotId) (r : Resource) (h : Holding) : State :=
  (((s.modifyHolding i p fun g => { g with state := .held, warned := false }).armLease i p r).clearOffer p
    r.key).answer p .granted (grantedData h.gen r.leaseTerm h.suspect)

/-- ACCEPT (R60, R61). -/
def execAccept (p : ClientId) (s : State) : Host.Outcome State Fault Refusal :=
  .next <| s.request p .accept fun ps =>
    s.atRecord p .accept (wordAt ps 0) fun i r =>
      match r.offerRefusal p (longAt ps 2), r.holdingOf p with
      | some a, _ => s.answer p a []
      | none, some h => s.acceptAt p i r h
      | none, none => s.answer p .notOffered []

/-- DECLINE (R60, R62): the offer ends DECLINED. -/
def execDecline (p : ClientId) (s : State) : Host.Outcome State Fault Refusal :=
  .next <| s.request p .decline fun ps =>
    s.atRecord p .decline (wordAt ps 0) fun i r =>
      match r.offerRefusal p (longAt ps 2) with
      | some a => s.answer p a []
      | none => (s.endHolding i p .declined).answer p .done []

/-- CANCEL (R54): the caller's waiter entry is removed, with the offer check if it was at the head. -/
def execCancel (p : ClientId) (s : State) : Host.Outcome State Fault Refusal :=
  .next <| s.request p .cancel fun ps =>
    s.atRecord p .cancel (wordAt ps 0) fun i r =>
      if (r.waiterOf p).isSome then (s.endWait i p).answer p .done [] else s.answer p .notWaiting []

end Sys2Proof.Machine
end

