-- ==== Sys2Proof/Machine/Directory.lean ====
section
/-! DEFINITION. The requests of the Resource Directory: DEFINE, AMEND, RETIRE, QUERY (chapter 1). -/

namespace Sys2Proof.Machine

/-- The record a DEFINE creates (R13). -/
def definedRecord (ps : List Byte) : Resource :=
  { key := wordAt ps 0, cls := classOf (byteAt ps 2) (byteAt ps 3), leaseTerm := wordAt ps 4,
    warnMargin := wordAt ps 6, offerWindow := wordAt ps 8, lifecycle := .active, integrity := .sound,
    holders := [], queue := [] }

/-- DEFINE (R13): KEY-IN-USE, DIRECTORY-FULL, or a new record in the lowest free slot. -/
def execDefine (p : ClientId) (s : State) : Host.Outcome State Fault Refusal :=
  .next <| s.request p .define fun ps =>
    if (s.slotOfKey (wordAt ps 0)).isSome then s.answer p .keyInUse []
    else
      match s.freeSlot with
      | none => s.answer p .directoryFull []
      | some i => (s.setRecord i (some (definedRecord ps))).answer p .done [BitVec.ofNat 8 i.val]

/-- The class and shared-limit checks of AMEND (R14). -/
def Resource.amendRefused (r : Resource) (cls : ResClass) : Bool :=
  match cls with
  | .exclusiveOnly =>
    (r.holders.any fun h => h.tenure == .shared) || r.queue.any fun w => w.mode == .shared
  | .shareable limit => limit < r.holders.length

/-- The amendment raises the shared limit or changes the class (R15). -/
def ResClass.widens (old new : ResClass) : Bool :=
  match old, new with
  | .exclusiveOnly, .exclusiveOnly => false
  | .shareable a, .shareable b => a < b
  | .exclusiveOnly, .shareable _ => true
  | .shareable _, .exclusiveOnly => true

/-- The record with the terms of an AMEND; key, lifecycle, integrity and both lists are kept (R14). -/
def Resource.amended (r : Resource) (ps : List Byte) : Resource :=
  { r with cls := classOf (byteAt ps 2) (byteAt ps 3), leaseTerm := wordAt ps 4, warnMargin := wordAt ps 6,
           offerWindow := wordAt ps 8 }

/-- AMEND (R14, R15): IN-USE, or the new terms, with the offer check when the limit rises or the class changes. -/
def execAmend (p : ClientId) (s : State) : Host.Outcome State Fault Refusal :=
  .next <| s.request p .amend fun ps =>
    s.atRecord p .amend (wordAt ps 0) fun i r =>
      let cls := classOf (byteAt ps 2) (byteAt ps 3)
      if r.amendRefused cls then s.answer p .inUse []
      else
        let t := s.setRecord i (some (r.amended ps))
        (if r.cls.widens cls then t.offerCheck i else t).answer p .done []

/-- RETIRE withdraws one waiter entry: removed, disarmed, with a WITHDRAWN notice (R16 step 1). -/
def State.withdrawWaiter (i : SlotId) (key : Key) (s : State) (w : Waiter) : State :=
  (s.dropWaiter i w.client).raiseNotice w.client (notice key .withdrawn none)

/-- RETIRE withdraws one offer: it ends WITHDRAWN, by steps 1 to 4 of R40 (R16 step 2). -/
def State.withdrawOffer (i : SlotId) (s : State) (h : Holding) : State :=
  match s.record i with
  | none => s
  | some r => s.dropHolding i r h .withdrawn

/-- The offers of a holder list, in its order. -/
def Resource.offers (r : Resource) : List Holding := r.holders.filter fun h => h.state == .offered

/-- The withdrawal of RETIRE (R16): waiters from head to tail, offers in list order, the backlog. -/
def State.withdrawAll (s : State) (i : SlotId) (r : Resource) : State :=
  (r.offers.foldl (State.withdrawOffer i) (r.queue.foldl (State.withdrawWaiter i r.key) s)).leaveBacklog i

/-- RETIRE (R16, R17): withdrawal, then the record is removed or becomes RETIRING, then the records of the withdrawn
offers are given back in the order in which they were freed. -/
def execRetire (p : ClientId) (s : State) : Host.Outcome State Fault Refusal :=
  .next <| s.request p .retire fun ps =>
    s.atRecord p .retire (wordAt ps 0) fun i r =>
      let t := s.withdrawAll i r
      if r.holders.any fun h => h.state == .held then
        (State.giveBackMany r.offers.length
          (t.modifyRecord i fun r' => { r' with lifecycle := .retiring })).answer p .done [0x02#8]
      else (State.giveBackMany r.offers.length (t.setRecord i none)).answer p .done [0x01#8]

/-- The occupancy codes of R168. -/
def Occupancy.code : Occupancy → Nat
  | .vacant => 0
  | .offered => 1
  | .exclusive => 2
  | .shared => 3

/-- The shared limit as replies report it: 0 for EXCLUSIVE-ONLY (R20, R168). -/
def ResClass.limit : ResClass → Nat
  | .exclusiveOnly => 0
  | .shareable limit => limit

/-- The class bit of a QUERY reply: 1 for SHAREABLE (R168). -/
def ResClass.isShareable : ResClass → Bool
  | .exclusiveOnly => false
  | .shareable _ => true

/-- The resource summary of a QUERY reply, its first six bytes (R168). -/
def State.querySummary (s : State) (i : SlotId) (r : Resource) : List Byte :=
  [BitVec.ofNat 8 (r.occupancy.code * 64 + i.val), BitVec.ofNat 8 r.cls.limit] ++ wordBytes r.leaseTerm
    ++ [BitVec.ofNat 8 (bitValue r.cls.isShareable 7 + bitValue (r.lifecycle == .retiring) 6
          + bitValue (r.integrity == .suspect) 5 + bitValue (s.inBacklog i) 4 + r.holders.length),
        BitVec.ofNat 8 r.queue.length]

/-- The caller's relation in a QUERY reply (R20, R168). -/
def State.queryRelation (s : State) (i : SlotId) (r : Resource) (p : ClientId) : List Byte :=
  match r.holdingOf p, r.waiterOf p with
  | some h, _ =>
    [BitVec.ofNat 8 ((if h.state = .held then 3 else 2) * 64 + bitValue h.tenure.bit 5)] ++ longBytes h.gen
      ++ wordBytes (BitVec.ofNat 16 (s.msLeft (.holding i p)))
  | none, some w => [BitVec.ofNat 8 (1 * 64 + w.priority.val), BitVec.ofNat 8 (positionIn r.queue p)]
  | none, none => [0x00#8]

/-- QUERY (R20): the resource summary and the caller's relation. It changes nothing but the request's reply. -/
def execQuery (p : ClientId) (s : State) : Host.Outcome State Fault Refusal :=
  .next <| s.request p .query fun ps =>
    s.atRecord p .query (wordAt ps 0) fun i r =>
      s.answer p .done (s.querySummary i r ++ s.queryRelation i r p)

end Sys2Proof.Machine
end

