-- ==== Sys2Proof/Machine/Expiry.lean ====
section
/-! DEFINITION. The taking of deadlines at their owners (R80, R82). An expiry is taken only while its deadline is live
and due, and first among those due at its place; otherwise it is not taken and nothing changes (log 2, log 5). -/

namespace Sys2Proof.Machine

/-- The lease warning (R84): the LEASE-END of the same lease inserted, warned set, EXPIRING raised. -/
def State.warnLease (s : State) (i : SlotId) (c : ClientId) (due : Time) (interval : Ms) : State :=
  let o := Owner.holding i c
  let last : Time := due + interval.setWidth 32
  let t := ((s.removeLive o).insertDeadline { owner := o, kind := .leaseEnd, due := last }).modifyHolding i c
    fun h => { h with warned := true }
  match s.record i with
  | none => t
  | some r =>
    match r.holdingOf c with
    | none => t
    | some h => t.raiseNotice c (notice r.key (.expiring (BitVec.ofNat 16 (s.distance last))) (some h.gen))

/-- LEASE_WARN taken (R84). -/
def execLeaseWarn (i : SlotId) (c : ClientId) (s : State) : Host.Outcome State Fault Refusal :=
  .next <|
    match s.dueDeadline (.holding i c) with
    | some { owner := _, kind := .leaseWarn interval, due := due } => s.warnLease i c due interval
    | _ => s

/-- The owner's due deadline is of the kind. -/
def State.dueOfKind (s : State) (o : Owner) (kind : DeadlineKind) : Bool :=
  (s.dueDeadline o).any fun d => d.kind == kind

/-- LEASE_END taken (R37): the holding ends EXPIRED. -/
def execLeaseEnd (i : SlotId) (c : ClientId) (s : State) : Host.Outcome State Fault Refusal :=
  .next <|
    if s.dueOfKind (.holding i c) .leaseEnd then (s.removeLive (.holding i c)).endHolding i c .expired else s

/-- OFFER_END taken (R63): the offer ends LAPSED. -/
def execOfferEnd (i : SlotId) (c : ClientId) (s : State) : Host.Outcome State Fault Refusal :=
  .next <|
    if s.dueOfKind (.holding i c) .offerEnd then (s.removeLive (.holding i c)).endHolding i c .lapsed else s

/-- The lapse of a wait (R55): the entry leaves its queue with WAIT-LAPSED, and the offer check is made if it was at
the head. -/
def State.lapseWait (s : State) (i : SlotId) (c : ClientId) : State :=
  match s.record i with
  | none => s
  | some r =>
    let t := (s.dropWaiter i c).raiseNotice c (notice r.key .waitLapsed none)
    if (r.queue.head?.map Waiter.client) = some c then t.offerCheck i else t

/-- WAIT_END taken (R55). -/
def execWaitEnd (i : SlotId) (c : ClientId) (s : State) : Host.Outcome State Fault Refusal :=
  .next <|
    if s.dueOfKind (.waiter i c) .waitEnd then (s.removeLive (.waiter i c)).lapseWait i c else s

/-- ALLOWANCE_END taken (R96): hold used equals the allowance, the client becomes OVERSTAYED, and its stored deadlines
are put back. -/
def execAllowanceEnd (c : ClientId) (s : State) : Host.Outcome State Fault Refusal :=
  .next <|
    if s.dueOfKind (.client c) .allowanceEnd = true ∧ (s.client c).freeze = .frozen then
      (s.setClient c { s.client c with holdUsed := (s.client c).allowanceMs }).thaw c .overstayed
    else s

end Sys2Proof.Machine
end

