-- ==== Sys2Proof/Machine/HoldSense.lean ====
section
/-! DEFINITION. The changes of a hold-sense input, taken at the client record (chapter 5). -/

namespace Sys2Proof.Machine

/-- Record the level of a hold-sense input (R90). -/
def State.setLevel (s : State) (c : ClientId) (level : Bool) : State :=
  s.setHoldUnit c { s.holdUnit c with level := level }

/-- The allowance is spent: OPEN, the allowance above 0 and hold used equal to it (R97). -/
def Client.allowanceSpent (x : Client) : Bool :=
  x.session == .opened && 0 < x.holdAllowance && x.holdUsed == x.allowanceMs

/-- HOLD_ASSERTION (R90, R92, R97): the level is recorded, and a THAWED client becomes FROZEN if the freeze condition
holds, or OVERSTAYED if its allowance is spent. A level already asserted does not change (log 2). -/
def execHoldAssertion (c : ClientId) (s : State) : Host.Outcome State Fault Refusal :=
  .next <|
    if (s.holdUnit c).level then s
    else
      let t := s.setLevel c true
      if (t.client c).freeze = .thawed then
        if t.freezeCondition c then t.enterFreeze c
        else if (t.client c).allowanceSpent then t.setClient c { t.client c with freeze := .overstayed }
        else t
      else t

/-- HOLD_RELEASE (R90, R95, R97): the level is recorded; a FROZEN client thaws with its deadlines put back, and an
OVERSTAYED one becomes THAWED. -/
def execHoldRelease (c : ClientId) (s : State) : Host.Outcome State Fault Refusal :=
  .next <|
    if (s.holdUnit c).level then (s.setLevel c false).endFreeze c else s

end Sys2Proof.Machine
end

