-- ==== Sys2Proof/Machine/Holdings.lean ====
section
/-! DEFINITION. The requests on a HELD holding: RENEW, RELEASE, DOWNGRADE, MARK SOUND, REVOKE (chapter 2). -/

namespace Sys2Proof.Machine

/-- A lease renewed (R32): armed anew on the record's present terms, warned cleared, EXPIRING cleared. -/
def State.renewAt (s : State) (p : ClientId) (i : SlotId) (r : Resource) (gen : Gen) : State :=
  (((s.modifyHolding i p fun h => { h with warned := false }).armLease i p r).clearExpiring p r.key gen).answer p
    .done (wordBytes r.leaseTerm)

/-- RENEW (R30, R32). -/
def execRenew (p : ClientId) (s : State) : Host.Outcome State Fault Refusal :=
  .next <| s.request p .renew fun ps =>
    s.atRecord p .renew (wordAt ps 0) fun i r =>
      match r.holderRefusal p (longAt ps 2) with
      | some a => s.answer p a []
      | none => s.renewAt p i r (longAt ps 2)

/-- RELEASE (R30, R33): the holding ends RELEASED. -/
def execRelease (p : ClientId) (s : State) : Host.Outcome State Fault Refusal :=
  .next <| s.request p .release fun ps =>
    s.atRecord p .release (wordAt ps 0) fun i r =>
      match r.holderRefusal p (longAt ps 2) with
      | some a => s.answer p a []
      | none => (s.endHolding i p .released).answer p .done []

/-- The caller's holding is SHARED (R27, R34). -/
def Resource.holdsShared (r : Resource) (p : ClientId) : Bool := (r.holdingOf p).any fun h => h.tenure == .shared

/-- DOWNGRADE (R27, R30): EXCLUSIVE to SHARED, everything else of the holding kept, then the offer check. -/
def execDowngrade (p : ClientId) (s : State) : Host.Outcome State Fault Refusal :=
  .next <| s.request p .downgrade fun ps =>
    s.atRecord p .downgrade (wordAt ps 0) fun i r =>
      match r.holderRefusal p (longAt ps 2) with
      | some a => s.answer p a []
      | none =>
        if r.cls = .exclusiveOnly then s.answer p .shareRefused []
        else if r.holdsShared p then s.answer p .exclusiveNeeded []
        else
          ((s.modifyHolding i p fun h => { h with tenure := .shared }).offerCheck i).answer p .done []

/-- MARK SOUND (R30, R34): the EXCLUSIVE holder makes the resource SOUND. -/
def execMarkSound (p : ClientId) (s : State) : Host.Outcome State Fault Refusal :=
  .next <| s.request p .markSound fun ps =>
    s.atRecord p .markSound (wordAt ps 0) fun i r =>
      match r.holderRefusal p (longAt ps 2) with
      | some a => s.answer p a []
      | none =>
        if r.holdsShared p then s.answer p .exclusiveNeeded []
        else (s.setRecord i (some { r with integrity := .sound })).answer p .done []

/-- The named client has a HELD holding on the resource (R35). -/
def Resource.hasHeld (r : Resource) (c : ClientId) : Bool := (r.holdingOf c).any fun h => h.state == .held

/-- REVOKE (R35, R36): the named client's HELD holding ends REVOKED. -/
def execRevoke (p : ClientId) (s : State) : Host.Outcome State Fault Refusal :=
  .next <| s.request p .revoke fun ps =>
    s.atRecord p .revoke (wordAt ps 0) fun i r =>
      let c := clientOf (byteAt ps 2)
      if r.hasHeld c then (s.endHolding i c .revoked).answer p .done [] else s.answer p .notHolder []

end Sys2Proof.Machine
end

