-- ==== Sys2Proof/Machine/Notices.lean ====
section
/-! DEFINITION. TAKE NOTICE, the request by which a client reads its notice set (chapter 7). -/

namespace Sys2Proof.Machine

/-- The set with the record of `n`'s key and kind marked presented (R130). -/
def NoticeSet.present (ns : NoticeSet) (n : Notice) : NoticeSet :=
  { ns with records := ns.records.map fun m => if m.sameAs n then { m with presented := true } else m }

/-- TAKE NOTICE (R130): the record of best rank, the earliest of that rank, is presented and marked; an empty set is
answered NO-NOTICE. -/
def execTakeNotice (p : ClientId) (s : State) : Host.Outcome State Fault Refusal :=
  .next <| s.request p .takeNotice fun _ =>
    match bestNotice (s.noticeSet p).records with
    | none => s.answer p .noNotice []
    | some n => (s.setNoticeSet p ((s.noticeSet p).present n)).answer p .done n.data

end Sys2Proof.Machine
end

