-- ==== Sys2Proof/Machine/Part.lean ====
section
/-! DEFINITION. The commands of the part as a whole: power-on, the reset pin, the end of start-up, and the millisecond
boundary. -/

namespace Sys2Proof.Machine

/-- POWER_ON (R152, R21, R44, R71, R89, R91, R122, R137, R138): every block in its reset state, STARTING, the 5 ms
running, the input lines at the levels given. The reset pin is taken as released, even where it was held before, and a
RESET_PIN after it stands for a pin that is held at power-on (log 22). -/
def execPowerOn (selectLow resetSense holdSense : BitVec 6) (s : State) : Host.Outcome State Fault Refusal :=
  .next (State.powerOn s.pending selectLow resetSense holdSense)

/-- A client record after an assertion of the reset pin: the defaults, with its epoch kept, and PART-RESET where a
session stood (R108, R122). -/
def Client.afterResetPin (x : Client) (c : ClientId) : Client :=
  { Client.initial c with
    epoch := x.epoch
    endCause := match x.session with
      | .none => x.endCause
      | .opened | .teardown => .partReset }

/-- RESET_PIN (R152, R21, R44, R71, R89, R122, R137, R138): everything is discarded but the epochs and the end
causes; the ports are held in STARTING, and the input lines stay as they are (log 10). -/
def execResetPin (s : State) : Host.Outcome State Fault Refusal :=
  .next
    { pending := s.pending
      startup := .held
      clock := 0
      grant := 0
      deadlines := []
      backlog := []
      slots := Vector.replicate 64 none
      clients := Vector.ofFn fun c => (s.client c).afterResetPin c
      holdUnits := Vector.ofFn fun c => HoldUnit.initial (s.holdUnit c).level
      notices := Vector.replicate 6 NoticeSet.empty
      ports := Vector.ofFn fun p => Port.initial (s.port p).selectLow (s.port p).resetSense }

/-- RESET_PIN_RELEASE (R152, R90): the 5 ms start, and the Hold Sense Unit takes the levels of that moment. A pin that
is not asserted cannot be released (log 2). -/
def execResetPinRelease (holdSense : BitVec 6) (s : State) : Host.Outcome State Fault Refusal :=
  .next <|
    if s.startup = .held then
      { s with
        startup := .counting
        holdUnits := Vector.ofFn fun c => { s.holdUnit c with level := holdSense[c] } }
    else s

/-- STARTUP_END (R152): the lease clock may count, and each port becomes DETACHED or READY by its reset-sense input.
It comes only while the 5 ms run (log 2). -/
def execStartupEnd (s : State) : Host.Outcome State Fault Refusal :=
  .next <|
    if s.startup = .counting then
      { s with
        startup := .ended
        ports := Vector.ofFn fun p =>
          { s.port p with state := if (s.port p).resetSense then .detached else .ready } }
    else s

/-- A client's hold used after a millisecond boundary: one more while FROZEN, up to the allowance (R93). -/
def Client.countHold (x : Client) : Client :=
  if x.freeze = .frozen then { x with holdUsed := min (x.holdUsed + 1) x.allowanceMs } else x

/-- MILLISECOND_BOUNDARY (R72, R93): the lease clock advances by one, modulo 2^32, and hold used of every FROZEN
client with it. The clock stands still until STARTING ends, and it does not reach the next boundary while a due
deadline waits to be taken (R80, log 4). -/
def execMillisecondBoundary (s : State) : Host.Outcome State Fault Refusal :=
  .next <|
    if s.startup = .ended ∧ s.anyDue = false then
      { s with
        clock := s.clock + 1
        clients := Vector.ofFn fun c => (s.client c).countHold }
    else s

end Sys2Proof.Machine
end

