-- ==== Sys2Proof/Machine/Flags.lean ====
section
/-! DEFINITION. The flags of a port: the status byte as a frame samples it, the sticky flags, and the delivery of a
reply, which clears them (R143, R145, R151, R160). -/

namespace Sys2Proof.Machine

/-- The status flags at this moment (R143, R160). -/
def State.sampleStatus (s : State) (p : ClientId) : Status :=
  { session := (s.client p).session == .opened
    busy := match (s.port p).slot with
      | .pending _ => true
      | .empty | .filled _ => false
    notice := (s.noticeSet p).records.any fun n => !n.presented
    frozen := (s.client p).freeze == .frozen
    lost := (s.noticeSet p).lost
    crcErr := (s.port p).crcErr
    frameErr := (s.port p).frameErr
    overrun := (s.port p).overrun }

/-- The reply a slot shows: NONE, NOT-READY with the pending tag, or the slot reply (R143). -/
def ReplySlot.shown : ReplySlot → Reply
  | .empty => { tag := 0, answer := .none, data := [] }
  | .pending tag => { tag := tag, answer := .notReady, data := [] }
  | .filled r => r

/-- The slot is FILLED. -/
def ReplySlot.isFilled : ReplySlot → Bool
  | .filled _ => true
  | .empty | .pending _ => false

/-- The snapshot a frame takes at its start (R141, R143). -/
def State.snapshot (s : State) (p : ClientId) : Snapshot :=
  { status := s.sampleStatus p, reply := (s.port p).slot.shown, filled := (s.port p).slot.isFilled }

/-- Sampling for a FILLED reply sets LOST's shown mark if LOST is set (R127). -/
def NoticeSet.markShown (ns : NoticeSet) (filled : Bool) : NoticeSet :=
  if filled && ns.lost then { ns with lostShown := true } else ns

/-- The frame's snapshot was a FILLED reply and every byte of it has been shifted out (R141, R145). -/
def Frame.delivers (f : Frame) : Bool := f.snapshot.filled && 8 * f.snapshot.bytes.length ≤ f.edges

/-- The sticky flags after a delivery: those the snapshot showed clear, unless the delivery is protected (R151). -/
def Port.clearShown (x : Port) (st : Status) (guarded : Bool) : Port :=
  if guarded then x
  else { x with overrun := x.overrun && !st.overrun
                frameErr := x.frameErr && !st.frameErr
                crcErr := x.crcErr && !st.crcErr }

/-- A delivery (R145): the slot empties, then the sticky flags and the notice set take the report. -/
def State.deliver (s : State) (p : ClientId) (f : Frame) : State :=
  let guarded := s.deliveryProtected p
  (s.setPort p ({ s.port p with slot := .empty }.clearShown f.snapshot.status guarded)).setNoticeSet p
    ((s.noticeSet p).delivered guarded)

/-- What the port makes of the bytes received in a frame (R146, R147). -/
inductive Verdict where
  | frameErr
  | crcErr
  | wellFormed (code tag : Byte) (params : List Byte)
  deriving DecidableEq, Repr

/-- The frame-level checks, in order: length, then CRC (R147). -/
def judgeBytes (bytes : List Byte) : Verdict :=
  match bytes with
  | code :: tag :: p :: rest =>
    if 12 < p.toNat then .frameErr
    else if rest.length < p.toNat + 1 then .frameErr
    else
      let params := rest.take p.toNat
      if crc8 ([code, tag, p] ++ params) = byteAt rest p.toNat then .wellFormed code tag params else .crcErr
  | [] | [_] | [_, _] => .frameErr

/-- The request received in a frame, judged against the slot (R146, R148 to R150). -/
def Port.judge (x : Port) (bytes : List Byte) : Port :=
  match judgeBytes bytes with
  | .frameErr => { x with frameErr := true }
  | .crcErr => { x with crcErr := true }
  | .wellFormed code tag params =>
    if code = idleCode then x
    else
      match x.slot with
      | .empty => { x with slot := .pending tag, state := .busy, inFlight := .taken code params }
      | .pending _ | .filled _ => { x with overrun := true }

/-- The level of data out after `k` rising edges of the present frame, each followed by its falling edge; none when
the line is released: with select high, in STARTING and in DETACHED (R141), and for the rest of an ignored or aborted
frame when the port has become READY with select still low, of which the spec says nothing (log 23). -/
def State.dataOut (s : State) (p : ClientId) (k : Nat) : Option Bool :=
  if (s.port p).selectLow then (s.port p).frame.map fun f => f.dataOut k else none

end Sys2Proof.Machine
end

