-- ==== Sys2Proof/Machine/PortOps.lean ====
section
/-! DEFINITION. The commands of a client port: frames, IDLE, the reply's arrival, and the reset-sense input at the
port (chapter 8). -/

namespace Sys2Proof.Machine

/-- FRAME_START (R141, R143, R127): select falls. A port that is READY or BUSY takes the snapshot; in STARTING and
DETACHED the frame is ignored for its whole length (R140). -/
def execFrameStart (p : ClientId) (s : State) : Host.Outcome State Fault Refusal :=
  .next <|
    let x := s.port p
    if x.selectLow then s
    else if x.state = .ready ∨ x.state = .busy then
      (s.setPort p { x with
        selectLow := true
        frame := some { snapshot := s.snapshot p, edges := 0, received := [], partByte := [] } }).setNoticeSet p
          ((s.noticeSet p).markShown x.slot.isFilled)
    else s.setPort p { x with selectLow := true }

/-- FRAME_END (R146): select rises after the rising edges and the bits they sampled, which the port has assembled into bytes, those left over
discarded (R142). An ignored or aborted frame ends with nothing, and so does one without a rising edge (R140). Else a
FILLED reply shifted in full is delivered, and then the request received is judged. -/
def execFrameEnd (p : ClientId) (edges : Nat) (dataIn : BitVec edges) (s : State) : Host.Outcome State Fault Refusal :=
  .next <|
    let x := s.port p
    if x.selectLow = false then s
    else
      let closed := s.setPort p { x with selectLow := false, frame := none }
      match x.frame with
      | none => closed
      | some f =>
        let f' := (sampledBits edges dataIn).foldl Frame.sample f
        if f'.edges = 0 then closed
        else
          let t := if f'.delivers then closed.deliver p f' else closed
          t.setPort p ((t.port p).judge f'.received)

/-- IDLE (R148): dealt with at the port, it does nothing and sets no flag. -/
def execIdle (_p : ClientId) (s : State) : Host.Outcome State Fault Refusal := .next s

/-- REPLY_READY (R144): the reply of a request whose effect is complete reaches the port. Without one there is
nothing to place (log 2). -/
def execReplyReady (p : ClientId) (s : State) : Host.Outcome State Fault Refusal :=
  .next <|
    match (s.port p).inFlight with
    | .answered a data => s.placeReply p a data
    | .none | .taken _ _ | .waiting _ => s

/-- RESET_SENSE_ASSERT (R153): in READY and BUSY the frame is aborted, the slot empties, the sticky flags clear and
the port becomes DETACHED, while a request in flight goes on. In STARTING and DETACHED only the line's level changes.
Outside STARTING the assertion is owed to the client record (R111, log 8). -/
def execResetSenseAssert (p : ClientId) (s : State) : Host.Outcome State Fault Refusal :=
  .next <|
    let x := s.port p
    if x.resetSense then s
    else
      match x.state with
      | .starting => s.setPort p { x with resetSense := true }
      | .detached => s.setPort p { x with resetSense := true, senseOwed := true }
      | .ready | .busy =>
        s.setPort p { x with
          resetSense := true, senseOwed := true, frame := none, slot := .empty, overrun := false, frameErr := false,
          crcErr := false, state := .detached }

/-- RESET_SENSE_RELEASE (R154): the input is released, which may let a DETACHED port become READY. -/
def execResetSenseRelease (p : ClientId) (s : State) : Host.Outcome State Fault Refusal :=
  .next <|
    if (s.port p).resetSense then (s.setPort p { s.port p with resetSense := false }).portReady p else s

end Sys2Proof.Machine
end

