-- ==== Sys2Proof/Machine/Sessions.lean ====
section
/-! DEFINITION. The commands of the Client Table: JOIN, LEAVE, EVICT, SET CLIENT, INSPECT CLIENT, an unknown code, the
reset-sense assertion at the client record, and the teardown sweep (chapter 6). -/

namespace Sys2Proof.Machine

/-- The epoch of the next session: 65,535 becomes 1 (R107). -/
def nextEpoch (e : BitVec 16) : BitVec 16 := if e = 0xFFFF#16 then 1 else e + 1

/-- JOIN (R107): the epoch advances, the session becomes OPEN, hold used is 0 and the freeze is evaluated; the reply
carries the index, the epoch and the previous end cause. -/
def execJoin (p : ClientId) (s : State) : Host.Outcome State Fault Refusal :=
  .next <| s.request p .join fun _ =>
    let x := s.client p
    let y := { x with epoch := nextEpoch x.epoch, session := .opened, holdUsed := 0 }
    ((s.setClient p y).evaluateFreeze p).answer p .done
      ([BitVec.ofNat 8 p.val] ++ wordBytes y.epoch ++ [x.endCause.code])

/-- LEAVE (R109): the caller's teardown begins with end cause LEAVE, and the request waits for it. -/
def execLeave (p : ClientId) (s : State) : Host.Outcome State Fault Refusal :=
  .next <| s.request p .leave fun _ =>
    (s.setPort p { s.port p with inFlight := .waiting p }).beginTeardown p .leave

/-- EVICT (R110): BAD-TARGET for client 0 and for a client without an OPEN session; else the named client's teardown
begins with end cause EVICTED, and the request waits for it. -/
def execEvict (p : ClientId) (s : State) : Host.Outcome State Fault Refusal :=
  .next <| s.request p .evict fun ps =>
    let c := clientOf (byteAt ps 0)
    if c = Config.supervisor ∨ (s.client c).session ≠ .opened then s.answer p .badTarget []
    else (s.setPort p { s.port p with inFlight := .waiting c }).beginTeardown c .evicted

/-- The named client's record with the settings of a SET CLIENT, hold used 0 and its freeze ended (R99, R119). -/
def State.applySettings (s : State) (c : ClientId) (ps : List Byte) : State :=
  let t := s.endFreeze c
  t.setClient c { t.client c with
    quota := (byteAt ps 1).toNat
    ceiling := priorityOf (byteAt ps 2)
    mask := (byteAt ps 3).setWidth 6
    holdAllowance := (wordAt ps 4).toNat
    holdConsumes := (byteAt ps 6).getLsbD 0
    holdUsed := 0 }

/-- SET CLIENT (R119, R99): IN-USE below the present claims; else every setting is replaced, hold used is 0, and the
freeze is ended and evaluated anew. -/
def execSetClient (p : ClientId) (s : State) : Host.Outcome State Fault Refusal :=
  .next <| s.request p .setClient fun ps =>
    let c := clientOf (byteAt ps 0)
    if (byteAt ps 1).toNat < s.claimCount c then s.answer p .inUse []
    else ((s.applySettings c ps).evaluateFreeze c).answer p .done []

/-- The record summary of INSPECT CLIENT with claim number 0 (R121, R170). -/
def State.inspectSummary (s : State) (c : ClientId) : List Byte :=
  let x := s.client c
  let ns := s.noticeSet c
  [BitVec.ofNat 8 (x.session.code * 64 + x.freeze.code * 16 + bitValue x.holdConsumes 3 + bitValue ns.lost 2)]
    ++ wordBytes x.epoch
    ++ [BitVec.ofNat 8 (x.endCause.code.toNat * 16 + x.ceiling.val), BitVec.ofNat 8 x.quota, x.mask.setWidth 8]
    ++ wordBytes (BitVec.ofNat 16 x.holdAllowance)
    ++ tripleBytes x.holdUsed
    ++ [BitVec.ofNat 8 (s.claimCount c), BitVec.ofNat 8 ns.records.length]

/-- The bytes of a claim's description (R170). -/
def claimBytes (flags : Nat) (key : Key) (i : SlotId) (priority : Nat) (gen : Gen) (left : Nat) : List Byte :=
  [BitVec.ofNat 8 flags] ++ wordBytes key ++ [BitVec.ofNat 8 i.val, BitVec.ofNat 8 priority] ++ longBytes gen
    ++ wordBytes (BitVec.ofNat 16 left)

/-- The description of the client's claim on a slot's resource (R121, R170): its holding, else its waiter entry. The bits
of its first byte that R170 gives to other relations only are sent as 0: suspect-at-grant and warned of a WAITING claim,
warned of an OFFERED one, and unbounded wait of an OFFERED or HELD one (log 24). -/
def State.inspectClaim (s : State) (i : SlotId) (c : ClientId) : List Byte :=
  match s.record i with
  | none => [0]
  | some r =>
    match r.holdingOf c, r.waiterOf c with
    | some h, _ =>
      let o := Owner.holding i c
      claimBytes ((if h.state = .held then 3 else 2) * 64 + bitValue h.tenure.bit 5 + bitValue h.suspect 4
          + bitValue (h.state == .held && h.warned) 3 + bitValue (s.leftFrozen o) 2)
        r.key i 0 h.gen (s.msLeft o)
    | none, some w =>
      let o := Owner.waiter i c
      claimBytes (1 * 64 + bitValue w.mode.bit 5 + bitValue (s.leftFrozen o) 2
          + bitValue (s.deadlineOf o).isNone 1)
        r.key i w.priority.val 0 (s.msLeft o)
    | none, none => [0]

/-- INSPECT CLIENT (R121): the record summary, or the description of the n-th claim in ascending order of slot, or
relation NONE. It changes nothing but the request's reply. -/
def execInspectClient (p : ClientId) (s : State) : Host.Outcome State Fault Refusal :=
  .next <| s.request p .inspectClient fun ps =>
    let c := clientOf (byteAt ps 0)
    match claimNumberOf ps with
    | 0 => s.answer p .done (s.inspectSummary c)
    | n + 1 =>
      match (s.claimSlots c)[n]? with
      | none => s.answer p .done [0]
      | some i => s.answer p .done (s.inspectClaim i c)

/-- UNKNOWN_CODE (R165): a taken request with a code the part does not know meets the session check, and is then
answered BAD-REQUEST. -/
def execUnknownCode (p : ClientId) (s : State) : Host.Outcome State Fault Refusal :=
  .next <|
    match (s.port p).inFlight with
    | .taken code _ =>
      if knownCode code then s
      else s.answer p ((sessionRefusal (s.client p).session false).getD .badRequest) []
    | .none | .waiting _ | .answered _ _ => s

/-- The assertion can be taken at the client record: the request in flight has completed its effect, or is the
client's own LEAVE, whose teardown is under way (R111). -/
def InFlight.letsAssertion (f : InFlight) (c : ClientId) : Bool :=
  match f with
  | .none | .answered _ _ => true
  | .waiting target => target == c
  | .taken _ _ => false

/-- CLIENT_RESET_SENSE (R111): the assertion owed to the client record is taken: an OPEN session begins its teardown
with end cause RESET-LINE, one in TEARDOWN or NONE is left as it is. -/
def execClientResetSense (c : ClientId) (s : State) : Host.Outcome State Fault Refusal :=
  .next <|
    let x := s.port c
    if x.senseOwed = true ∧ x.inFlight.letsAssertion c = true then
      let t := s.setPort c { x with senseOwed := false }
      if (s.client c).session = .opened then t.beginTeardown c .resetLine else t
    else s

/-- The next slot the client's sweep visits: the lowest with a claim, at or above its position (R114). -/
def State.nextVisit (s : State) (c : ClientId) : Option SlotId :=
  (s.claimSlots c).find? fun i => decide ((s.client c).sweepFrom ≤ i.val)

/-- SWEEP_VISIT (R114, R115): the sweep of a client in TEARDOWN ends its one claim on the next resource. -/
def execSweepVisit (c : ClientId) (s : State) : Host.Outcome State Fault Refusal :=
  .next <|
    if (s.client c).session = .teardown then
      match s.nextVisit c with
      | none => s
      | some i =>
        let t := s.setClient c { s.client c with sweepFrom := i.val + 1 }
        if (s.record i).any fun r => (r.holdingOf c).isSome then
          t.endHolding i c (s.client c).endCause.holdingEnd
        else t.endWait i c
    else s

/-- TEARDOWN_COMPLETION (R116): a client in TEARDOWN whose claim count is 0 has its session NONE. -/
def execTeardownCompletion (c : ClientId) (s : State) : Host.Outcome State Fault Refusal :=
  .next <|
    if (s.client c).session = .teardown ∧ s.claimCount c = 0 then s.completeTeardown c else s

end Sys2Proof.Machine
end

