-- ==== Sys2Proof/Machine/Dispatch.lean ====
section
/-! DEFINITION. The effect of one command, arm by arm. -/

namespace Sys2Proof.Machine

def exec (i : Instr) (s : State) : Host.Outcome State Fault Refusal :=
  match i with
  | .powerOn selectLow resetSense holdSense => Sys2Proof.Machine.execPowerOn selectLow resetSense holdSense s
  | .resetPin => Sys2Proof.Machine.execResetPin s
  | .resetPinRelease holdSense => Sys2Proof.Machine.execResetPinRelease holdSense s
  | .startupEnd => Sys2Proof.Machine.execStartupEnd s
  | .millisecondBoundary => Sys2Proof.Machine.execMillisecondBoundary s
  | .frameStart port => Sys2Proof.Machine.execFrameStart port s
  | .frameEnd port edges dataIn => Sys2Proof.Machine.execFrameEnd port edges dataIn s
  | .idle port => Sys2Proof.Machine.execIdle port s
  | .replyReady port => Sys2Proof.Machine.execReplyReady port s
  | .join port => Sys2Proof.Machine.execJoin port s
  | .leave port => Sys2Proof.Machine.execLeave port s
  | .acquire port => Sys2Proof.Machine.execAcquire port s
  | .accept port => Sys2Proof.Machine.execAccept port s
  | .decline port => Sys2Proof.Machine.execDecline port s
  | .cancel port => Sys2Proof.Machine.execCancel port s
  | .renew port => Sys2Proof.Machine.execRenew port s
  | .release port => Sys2Proof.Machine.execRelease port s
  | .downgrade port => Sys2Proof.Machine.execDowngrade port s
  | .markSound port => Sys2Proof.Machine.execMarkSound port s
  | .query port => Sys2Proof.Machine.execQuery port s
  | .takeNotice port => Sys2Proof.Machine.execTakeNotice port s
  | .define port => Sys2Proof.Machine.execDefine port s
  | .amend port => Sys2Proof.Machine.execAmend port s
  | .retire port => Sys2Proof.Machine.execRetire port s
  | .revoke port => Sys2Proof.Machine.execRevoke port s
  | .evict port => Sys2Proof.Machine.execEvict port s
  | .setClient port => Sys2Proof.Machine.execSetClient port s
  | .inspectClient port => Sys2Proof.Machine.execInspectClient port s
  | .unknownCode port => Sys2Proof.Machine.execUnknownCode port s
  | .sweepVisit client => Sys2Proof.Machine.execSweepVisit client s
  | .teardownCompletion client => Sys2Proof.Machine.execTeardownCompletion client s
  | .resetSenseAssert port => Sys2Proof.Machine.execResetSenseAssert port s
  | .clientResetSense client => Sys2Proof.Machine.execClientResetSense client s
  | .resetSenseRelease port => Sys2Proof.Machine.execResetSenseRelease port s
  | .holdAssertion client => Sys2Proof.Machine.execHoldAssertion client s
  | .holdRelease client => Sys2Proof.Machine.execHoldRelease client s
  | .leaseWarn slot client => Sys2Proof.Machine.execLeaseWarn slot client s
  | .leaseEnd slot client => Sys2Proof.Machine.execLeaseEnd slot client s
  | .offerEnd slot client => Sys2Proof.Machine.execOfferEnd slot client s
  | .waitEnd slot client => Sys2Proof.Machine.execWaitEnd slot client s
  | .allowanceEnd client => Sys2Proof.Machine.execAllowanceEnd client s

end Sys2Proof.Machine
end

