-- ==== Sys2Proof/Safety.lean ====
section
/-! DEFINITION. The laws of the device, as predicates of the state: what a run keeps, in the terms the statements
use. Each cites the rule that states it. -/

namespace Sys2Proof.Machine

/-- One port is consistent (R138, R140, R143): BUSY exactly while its slot is PENDING; a READY port has no request in
flight and a BUSY port has one; a frame is present only while select is low in READY or BUSY, and a FILLED snapshot is
of a slot still FILLED; a port in STARTING or DETACHED has its slot EMPTY; STARTING has no request in flight, and is the
state of every port exactly until start-up has ended. That a frame counts no edge and has received nothing before its
end is the model's choice: edges and bits come with FRAME_END (log 11). -/
def State.PortConsistent (s : State) (p : ClientId) : Prop :=
  let x := s.port p
  ((x.state = .busy) ↔ ∃ tag, x.slot = .pending tag)
  ∧ (x.state = .ready → x.inFlight = .none)
  ∧ (x.state = .busy → x.inFlight ≠ .none)
  ∧ (∀ f, x.frame = some f →
      x.selectLow = true ∧ (x.state = .ready ∨ x.state = .busy)
      ∧ f.edges = 0 ∧ f.received = [] ∧ f.partByte = [] ∧ (f.snapshot.filled = true → x.slot.isFilled = true))
  ∧ (x.state = .detached → x.slot = .empty)
  ∧ (x.state = .starting → x.slot = .empty ∧ x.inFlight = .none)
  ∧ (x.state = .starting ↔ s.startup ≠ .ended)

/-- Every port is consistent. -/
def State.PortsConsistent (s : State) : Prop := ∀ p, s.PortConsistent p

/-- The terms of a record are in range (R1, R13). -/
def Resource.TermsLegal (r : Resource) : Prop :=
  r.key ≠ 0 ∧ 10 ≤ r.leaseTerm.toNat ∧ r.warnMargin.toNat < r.leaseTerm.toNat
  ∧ 1 ≤ r.offerWindow.toNat ∧ r.offerWindow.toNat ≤ 2000
  ∧ ∀ limit, r.cls = .shareable limit → 2 ≤ limit ∧ limit ≤ 6

/-- The directory's records have terms in range and distinct keys (R1, R4). -/
def State.DirectoryLegal (s : State) : Prop :=
  (∀ i r, s.record i = some r → r.TermsLegal)
  ∧ ∀ i j r r', s.record i = some r → s.record j = some r' → r.key = r'.key → i = j

/-- The first two laws of the device at one resource (R26): an EXCLUSIVE holding stands alone; the holdings of a
SHAREABLE resource do not exceed its limit, and an EXCLUSIVE-ONLY resource has at most one, none of them SHARED, nor a
SHARED entry in its queue. -/
def Resource.TenureLaw (r : Resource) : Prop :=
  (∀ h ∈ r.holders, h.tenure = .exclusive → r.holders.length = 1)
  ∧ match r.cls with
    | .exclusiveOnly =>
      r.holders.length ≤ 1 ∧ (∀ h ∈ r.holders, h.tenure = .exclusive) ∧ ∀ w ∈ r.queue, w.mode = .exclusive
    | .shareable limit => 2 ≤ limit ∧ r.holders.length ≤ limit

/-- The tenure laws at every resource (R26). -/
def State.TenureLaw (s : State) : Prop := ∀ i r, s.record i = some r → r.TenureLaw

/-- A queue is in priority order, highest first (R46). -/
def State.QueuesOrdered (s : State) : Prop :=
  ∀ i r, s.record i = some r → r.queue.Pairwise fun v w => w.priority ≤ v.priority

/-- For each resource and client at most one holding record or waiter entry (R49). -/
def State.OneClaimEach (s : State) : Prop := ∀ i r c, s.record i = some r → r.claimsOf c ≤ 1

/-- A client's claims never exceed its claim quota (R49). -/
def State.WithinQuota (s : State) : Prop := ∀ c, s.claimCount c ≤ (s.client c).quota

/-- Generations (R28): every holding's generation is above 0 and at most the grant counter, and no two holdings of
one resource or of two share one. -/
def State.GenerationsLegal (s : State) : Prop :=
  (∀ i r h, s.record i = some r → h ∈ r.holders → h.gen ≠ 0 ∧ h.gen ≤ s.grant)
  ∧ (∀ i r, s.record i = some r → (r.holders.map Holding.gen).Nodup)
  ∧ ∀ i j r r' h h', s.record i = some r → s.record j = some r' → h ∈ r.holders → h' ∈ r'.holders →
      h.gen = h'.gen → i = j

/-- The pools (R22, R45): at most 96 holding records and 48 waiter entries are in use. -/
def State.WithinPools (s : State) : Prop :=
  (s.total fun r => r.holders.length) ≤ Config.holdingRecords
  ∧ (s.total fun r => r.queue.length) ≤ Config.waiterEntries

/-- The Offer Backlog (R65, R69): each resource at most once, every one of them a record, and while it is not empty no
holding record is free. -/
def State.BacklogLaw (s : State) : Prop :=
  s.backlog.Nodup ∧ (∀ i ∈ s.backlog, (s.record i).isSome = true) ∧ (s.backlog ≠ [] → s.freeHoldings = 0)

/-- A holding of the tenure is compatible with the holder list (R26, the table; for SHARED at an EXCLUSIVE-ONLY resource,
log 16). -/
def Resource.Admits (r : Resource) (t : Tenure) : Prop :=
  match t, r.cls with
  | .exclusive, _ => r.holders = []
  | .shared, .shareable limit => (∀ h ∈ r.holders, h.tenure = .shared) ∧ r.holders.length < limit
  | .shared, .exclusiveOnly => False

/-- An offer is owed to the entry at the head of the slot's queue (R11 step 2): its tenure is compatible and the grant
counter is not spent (R28). -/
def State.OwesAnOffer (s : State) (i : SlotId) : Prop :=
  ∃ r w, s.record i = some r ∧ r.queue.head? = some w ∧ r.Admits w.mode ∧ s.grant ≠ 0xFFFFFFFF#32

/-- The offer check's condition (R12): while the grant counter is not spent, a resource outside the backlog has at the
head of its queue no entry, of a client not in TEARDOWN, whose tenure is compatible with the holder list. -/
def State.NoneUnserved (s : State) : Prop :=
  ∀ i r w, s.record i = some r → r.queue.head? = some w → (s.client w.client).session ≠ .teardown →
    r.Admits w.mode → s.grant ≠ 0xFFFFFFFF#32 → i ∈ s.backlog

/-- A RETIRING record has an empty queue, no offer, and a holding left, and is not in the backlog (R6, R18). -/
def State.RetiringLaw (s : State) : Prop :=
  ∀ i r, s.record i = some r → r.lifecycle = .retiring →
    r.queue = [] ∧ r.holders ≠ [] ∧ (∀ h ∈ r.holders, h.state = .held) ∧ i ∉ s.backlog

/-- A notice set (R123): at most 16 records, at most one for each key and kind. -/
def NoticeSet.Legal (ns : NoticeSet) : Prop :=
  ns.records.length ≤ Config.noticeRecords ∧ ns.records.Pairwise fun m n => m.sameAs n = false

/-- Every notice set is legal (R123). -/
def State.NoticesLegal (s : State) : Prop := ∀ c, (s.noticeSet c).Legal

/-- The presented mark (R131): at most one record of a client's set has it, and while one has, the client's port has no
request still to take effect. The reply that carries the record is on its way or stands in the slot; or the port is
DETACHED, the reply discarded or to be discarded, with the reset-sense assertion still to end the session and clear the
set (R129, R132; the mark senseOwed is the model's, log 8). The last clause is what a request that goes on in DETACHED
needs for that: its port's assertion is still owed (R111). -/
def State.PresentedLaw (s : State) : Prop :=
  ∀ c,
    let x := s.port c
    let taken := ∃ code ps, x.inFlight = .taken code ps
    ((s.noticeSet c).records.countP fun n => n.presented) ≤ 1
    ∧ ((∃ n ∈ (s.noticeSet c).records, n.presented = true) →
        x.slot.isFilled = true
        ∨ (x.state = .busy ∧ ∃ a data, x.inFlight = .answered a data)
        ∨ (x.state = .detached ∧ x.senseOwed = true ∧ ¬ taken))
    ∧ (x.state = .detached → taken → x.senseOwed = true)

/-- Hold used never exceeds the hold allowance, which is at most 600 s (R91). -/
def State.HoldWithinAllowance (s : State) : Prop :=
  ∀ c, (s.client c).holdUsed ≤ (s.client c).allowanceMs ∧ (s.client c).holdAllowance ≤ 600

/-- Settings in range (R103). -/
def State.SettingsLegal (s : State) : Prop :=
  ∀ c, 1 ≤ (s.client c).quota ∧ (s.client c).quota ≤ 24 ∧ (s.client c).holdAllowance ≤ 600

/-- A client whose session is NONE owns no claim, no notice and no LOST; one in TEARDOWN owns no notice (R116, R129). -/
def State.SessionsClean (s : State) : Prop :=
  ∀ c, ((s.client c).session = .none → s.claimCount c = 0)
    ∧ ((s.client c).session ≠ .opened → s.noticeSet c = NoticeSet.empty)

/-- A request waits only for a teardown that is under way: a LEAVE for its own client's, an EVICT for that of the client
it names (R109, R110). -/
def State.WaitsLegal (s : State) : Prop :=
  ∀ p c, (s.port p).inFlight = .waiting c →
    (s.client c).session = .teardown ∧ (p = c ∨ p = Config.supervisor)

/-- The freeze (R91, R92, R98): a FROZEN client has an OPEN session, its hold sense asserted and a freeze start, none of
its claims' deadlines is in the list, and what is stored for it belongs to its claims; a client that is not FROZEN has
no freeze start, nothing stored and no ALLOWANCE-END; an OVERSTAYED client has an OPEN session and its hold sense
asserted. -/
def State.FreezeLaw (s : State) : Prop :=
  ∀ c,
    ((s.client c).freeze = .frozen →
      (s.client c).session = .opened ∧ (s.holdUnit c).level = true ∧ (s.holdUnit c).freezeStart.isSome = true
      ∧ (∀ d ∈ s.deadlines, d.owner.isClaimOf c = false)
      ∧ ∀ d ∈ (s.holdUnit c).stored, d.owner.isClaimOf c = true)
    ∧ ((s.client c).freeze ≠ .frozen →
      (s.holdUnit c).freezeStart = none ∧ (s.holdUnit c).stored = [] ∧ ∀ d ∈ s.deadlines, d.owner ≠ .client c)
    ∧ ((s.client c).freeze = .overstayed → (s.client c).session = .opened ∧ (s.holdUnit c).level = true)

/-- The Deadline List is in order of distance ahead of the clock, every due time less than 2^31 ms ahead, and no
stored remaining is 0 or as much (R73, R76, R79). -/
def State.DeadlinesOrdered (s : State) : Prop :=
  (s.deadlines.Pairwise fun d e => s.distance d.due ≤ s.distance e.due)
  ∧ (∀ d ∈ s.deadlines, s.distance d.due < 2 ^ 31)
  ∧ ∀ c, ∀ d ∈ (s.holdUnit c).stored, 1 ≤ d.remaining ∧ d.remaining < 2 ^ 31

/-- An owner has at most one deadline in the list (R75), and at most one stored (R23). -/
def State.OneDeadlineEach (s : State) : Prop :=
  (s.deadlines.map Deadline.owner).Nodup ∧ ∀ c, ((s.holdUnit c).stored.map StoredDeadline.owner).Nodup

/-- The holding has the one deadline its state asks for (R23): OFFER-END while OFFERED, LEASE-WARN or LEASE-END while
HELD. -/
def State.HoldingHasDeadline (s : State) (i : SlotId) (h : Holding) : Prop :=
  ∃ kind left isStored, s.deadlineOf (.holding i h.client) = some (kind, left, isStored)
    ∧ (h.state = .offered → kind = .offerEnd)
    ∧ (h.state = .held → kind = .leaseEnd ∨ ∃ interval, kind = .leaseWarn interval)

/-- The owner of a deadline is in use, and the kind is one it can have (R75). -/
def State.OwnerInUse (s : State) (o : Owner) (kind : DeadlineKind) : Prop :=
  match o with
  | .holding i c => ∃ r h, s.record i = some r ∧ h ∈ r.holders ∧ h.client = c ∧ kind ≠ .waitEnd ∧ kind ≠ .allowanceEnd
  | .waiter i c => ∃ r w, s.record i = some r ∧ w ∈ r.queue ∧ w.client = c ∧ kind = .waitEnd
  | .client c => (s.client c).freeze = .frozen ∧ kind = .allowanceEnd

/-- Deadlines and owners (R23, R75, R92): every holding in use has its deadline and every FROZEN client its ALLOWANCE-END,
and every deadline, live or stored, has an owner in use. -/
def State.DeadlinesOwned (s : State) : Prop :=
  (∀ i r h, s.record i = some r → h ∈ r.holders → s.HoldingHasDeadline i h)
  ∧ (∀ c, (s.client c).freeze = .frozen → ∃ d ∈ s.deadlines, d.owner = .client c)
  ∧ (∀ d ∈ s.deadlines, s.OwnerInUse d.owner d.kind)
  ∧ ∀ c, ∀ d ∈ (s.holdUnit c).stored, s.OwnerInUse d.owner d.kind

/-- The part before start-up has ended (R72, R89, R152): the clock stands at 0 and no session is OPEN. -/
def State.StartupQuiet (s : State) : Prop :=
  s.startup ≠ .ended → s.clock = 0 ∧ s.deadlines = [] ∧ ∀ c, (s.client c).session = .none

/-! ### What statements about one command say: requests -/

/-- The command that takes a request from a port. -/
def Request.instr (q : Request) (p : ClientId) : Instr :=
  match q with
  | .join => .join p
  | .leave => .leave p
  | .acquire => .acquire p
  | .accept => .accept p
  | .decline => .decline p
  | .cancel => .cancel p
  | .renew => .renew p
  | .release => .release p
  | .downgrade => .downgrade p
  | .markSound => .markSound p
  | .query => .query p
  | .takeNotice => .takeNotice p
  | .define => .define p
  | .amend => .amend p
  | .retire => .retire p
  | .revoke => .revoke p
  | .evict => .evict p
  | .setClient => .setClient p
  | .inspectClient => .inspectClient p

/-- The request names a resource whose record it needs (R2): stages 6 and 7 of R164 apply to it. -/
def Request.namesRecord : Request → Bool
  | .acquire | .accept | .decline | .cancel | .renew | .release | .downgrade | .markSound | .query | .amend | .retire
  | .revoke => true
  | .join | .leave | .takeNotice | .define | .evict | .setClient | .inspectClient => false

/-- The request's role is the supervisor's (R104, R161). -/
def Request.ForSupervisor (q : Request) : Prop :=
  q = .define ∨ q = .amend ∨ q = .retire ∨ q = .revoke ∨ q = .evict ∨ q = .setClient ∨ q = .inspectClient

/-- The parameter length is one the request has (R161). -/
def Request.LengthFits (q : Request) (n : Nat) : Prop :=
  match q with
  | .join | .leave | .takeNotice => n = 0
  | .acquire | .accept | .decline | .renew | .release | .downgrade | .markSound => n = 6
  | .cancel | .query | .retire => n = 2
  | .define | .amend => n = 10
  | .revoke => n = 3
  | .evict => n = 1
  | .setClient => n = 7
  | .inspectClient => n = 1 ∨ n = 2

/-- Class, shared limit, lease term, warn margin and offer window of a DEFINE or an AMEND are in range (R13, R163,
R166). -/
def TermsHold (ps : List Byte) : Prop :=
  (((byteAt ps 2).toNat = 1 ∧ (byteAt ps 3).toNat = 0)
    ∨ ((byteAt ps 2).toNat = 2 ∧ 2 ≤ (byteAt ps 3).toNat ∧ (byteAt ps 3).toNat ≤ 6))
  ∧ 10 ≤ (wordAt ps 4).toNat ∧ (wordAt ps 6).toNat < (wordAt ps 4).toNat
  ∧ 1 ≤ (wordAt ps 8).toNat ∧ (wordAt ps 8).toNat ≤ 2000

/-- Every parameter is in its range (R166), at its place (R163). -/
def Request.RangesHold (q : Request) (ps : List Byte) : Prop :=
  match q with
  | .join | .leave | .takeNotice => True
  | .acquire =>
    1 ≤ (wordAt ps 0).toNat ∧ 1 ≤ (byteAt ps 2).toNat ∧ (byteAt ps 2).toNat ≤ 2 ∧ (byteAt ps 3).toNat ≤ 3
  | .accept | .decline | .renew | .release | .downgrade | .markSound =>
    1 ≤ (wordAt ps 0).toNat ∧ 1 ≤ (longAt ps 2).toNat
  | .cancel | .query | .retire => 1 ≤ (wordAt ps 0).toNat
  | .define | .amend => 1 ≤ (wordAt ps 0).toNat ∧ TermsHold ps
  | .revoke => 1 ≤ (wordAt ps 0).toNat ∧ (byteAt ps 2).toNat ≤ 5
  | .evict => (byteAt ps 0).toNat ≤ 5
  | .setClient =>
    (byteAt ps 0).toNat ≤ 5 ∧ 1 ≤ (byteAt ps 1).toNat ∧ (byteAt ps 1).toNat ≤ 24 ∧ (byteAt ps 2).toNat ≤ 3
    ∧ (byteAt ps 3).toNat < 64 ∧ (wordAt ps 4).toNat ≤ 600 ∧ (byteAt ps 6).toNat < 2
  | .inspectClient => (byteAt ps 0).toNat ≤ 5 ∧ (byteAt ps 1).toNat ≤ 24

/-- The lifecycle check applies to the request (R7). -/
def Request.NeedsActive (q : Request) : Prop :=
  q = .acquire ∨ q = .accept ∨ q = .decline ∨ q = .cancel ∨ q = .amend ∨ q = .retire

/-- The request is in flight on the port with these parameters, taken and not yet checked (R150). -/
def State.InFlight (s : State) (p : ClientId) (q : Request) (ps : List Byte) : Prop :=
  (s.port p).inFlight = .taken q.code ps

/-- The session check passes (R105). -/
def State.SessionPasses (s : State) (p : ClientId) (q : Request) : Prop :=
  (s.client p).session = if q = .join then .none else .opened

/-- The request is in flight and passes stages 1 to 5 (R164): session, role, length, ranges. -/
def State.Passes (s : State) (p : ClientId) (q : Request) (ps : List Byte) : Prop :=
  s.InFlight p q ps ∧ s.SessionPasses p q ∧ (q.ForSupervisor → p = 0) ∧ q.LengthFits ps.length ∧ q.RangesHold ps

/-- The request passes stages 1 to 7 at the record of a slot (R164): the record has the key it names, and it is ACTIVE
where the lifecycle check applies. -/
def State.Reaches (s : State) (p : ClientId) (q : Request) (ps : List Byte) (i : SlotId) (r : Resource) : Prop :=
  s.Passes p q ps ∧ s.DirectoryLegal ∧ s.record i = some r ∧ r.key = wordAt ps 0
  ∧ (q.NeedsActive → r.lifecycle = .active)

/-! ### Frames -/

/-- The queue of commands, the start-up and the lease clock are as before. -/
def State.SameTime (s t : State) : Prop :=
  t.pending = s.pending ∧ t.startup = s.startup ∧ t.clock = s.clock

/-- The directory, the pools, the deadlines, the backlog and the grant counter are as before. -/
def State.SameResources (s t : State) : Prop :=
  t.slots = s.slots ∧ t.deadlines = s.deadlines ∧ t.backlog = s.backlog ∧ t.grant = s.grant

/-- The client records, the Hold Sense Unit and the notice sets are as before. -/
def State.SameClientSide (s t : State) : Prop :=
  t.clients = s.clients ∧ t.holdUnits = s.holdUnits ∧ t.notices = s.notices

/-- Every port but port `p` is as before. -/
def State.SamePortsBut (s t : State) (p : ClientId) : Prop := ∀ q, q ≠ p → t.port q = s.port q

/-- Every client record but that of `c` is as before. -/
def State.SameClientsBut (s t : State) (c : ClientId) : Prop := ∀ d, d ≠ c → t.client d = s.client d

/-- Every record of the Hold Sense Unit but that of `c` is as before. -/
def State.SameUnitsBut (s t : State) (c : ClientId) : Prop := ∀ d, d ≠ c → t.holdUnit d = s.holdUnit d

/-- Every notice set but that of `c` is as before. -/
def State.SameNoticesBut (s t : State) (c : ClientId) : Prop := ∀ d, d ≠ c → t.noticeSet d = s.noticeSet d

/-- Every record but that of slot `i` is as before. -/
def State.SameRecordsBut (s t : State) (i : SlotId) : Prop := ∀ j, j ≠ i → t.record j = s.record j

/-- Every deadline, live or stored, is as before but those of the owners that satisfy `changed`. -/
def State.SameDeadlinesBut (s t : State) (changed : Owner → Prop) : Prop :=
  ∀ o, ¬ changed o → t.deadlineOf o = s.deadlineOf o

/-- The hold-sense levels and the freeze starts are as before. -/
def State.SameFreezes (s t : State) : Prop :=
  ∀ c, (t.holdUnit c).level = (s.holdUnit c).level ∧ (t.holdUnit c).freezeStart = (s.holdUnit c).freezeStart

/-- Nothing has changed but port `p`. -/
def State.OnlyPort (s t : State) (p : ClientId) : Prop :=
  s.SameTime t ∧ s.SameResources t ∧ s.SameClientSide t ∧ s.SamePortsBut t p

/-- Every port is as before but port `p`, whose request in flight has its reply (R144). -/
def State.Answered (s t : State) (p : ClientId) (a : Answer) (data : List Byte) : Prop :=
  t.port p = { s.port p with inFlight := .answered a data } ∧ s.SamePortsBut t p

/-- Nothing has changed but the reply of port `p`'s request: what a refusal and a reading request leave. -/
def State.OnlyAnswered (s t : State) (p : ClientId) (a : Answer) (data : List Byte) : Prop :=
  s.Answered t p a data ∧ s.SameTime t ∧ s.SameResources t ∧ s.SameClientSide t

/-! ### Deadlines and the freeze -/

/-- The deadline stands in the list, its owner the one given, due now, and no deadline of the same place that is due
too stands before it (R80). -/
def State.IsDue (s : State) (o : Owner) (kind : DeadlineKind) : Prop :=
  ∃ before after, s.deadlines = before ++ { owner := o, kind := kind, due := s.clock } :: after
    ∧ ∀ e ∈ before, e.due = s.clock → e.owner.samePlace o = false

/-- The lease that the record's terms form, as `deadlineOf` reports it (R83, R94): its kind, the ms to it, and whether
they are stored. -/
def Resource.lease (r : Resource) (frozen : Bool) : DeadlineKind × Nat × Bool :=
  if r.warnMargin = 0 then (.leaseEnd, r.leaseTerm.toNat, frozen)
  else (.leaseWarn r.warnMargin, r.leaseTerm.toNat - r.warnMargin.toNat, frozen)

/-- The client is FROZEN. -/
def State.isFrozen (s : State) (c : ClientId) : Bool := (s.client c).freeze == .frozen

/-- The list `new` is `old` with the deadline inserted (R76): directly after the last entry due no later, or at the front if
there is none. -/
def State.InsertedInto (s : State) (d : Deadline) (old new : List Deadline) : Prop :=
  ∃ before after, old = before ++ after ∧ new = before ++ d :: after
    ∧ (∀ e, before.getLast? = some e → s.distance e.due ≤ s.distance d.due)
    ∧ ∀ e ∈ after, s.distance d.due < s.distance e.due

/-- The list `new` is `old` with the deadlines inserted one after another (R76, R95). -/
def State.InsertedInTurn (s : State) : List Deadline → List Deadline → List Deadline → Prop
  | [], old, new => new = old
  | d :: rest, old, new => ∃ mid, s.InsertedInto d old mid ∧ s.InsertedInTurn rest mid new

/-- A deadline of a holding or a waiter entry is armed, in place of the one it has (R77): inserted in the list, or stored
behind those stored before while its client is FROZEN. -/
def State.Arms (s t : State) (o : Owner) (kind : DeadlineKind) (duration : Nat) : Prop :=
  let c := o.clientId
  let others := s.deadlines.filter fun d => d.owner != o
  let kept := (s.holdUnit c).stored.filter fun d => d.owner != o
  (s.isFrozen c = true → t.deadlines = others
    ∧ t.holdUnit c = { s.holdUnit c with stored := kept ++ [{ owner := o, kind := kind, remaining := duration }] })
  ∧ (s.isFrozen c = false →
    s.InsertedInto { owner := o, kind := kind, due := s.clock + BitVec.ofNat 32 duration } others t.deadlines
    ∧ t.holdUnit c = { s.holdUnit c with stored := kept })
  ∧ s.SameUnitsBut t c

/-- A lease on the record's terms is armed on the holding (R83). -/
def State.ArmsLease (s t : State) (i : SlotId) (c : ClientId) (r : Resource) : Prop :=
  s.Arms t (.holding i c) (if r.warnMargin = 0 then .leaseEnd else .leaseWarn r.warnMargin)
    (r.leaseTerm.toNat - r.warnMargin.toNat)

/-- The list `live` is that of `s` when what is stored for the client has been put back, in the order in which it is
stored, each due at the present reading plus its stored remaining, and its ALLOWANCE-END is gone (R79, R95). -/
def State.PutsBack (s : State) (c : ClientId) (live : List Deadline) : Prop :=
  s.InsertedInTurn
    ((s.holdUnit c).stored.map fun d =>
      { owner := d.owner, kind := d.kind, due := s.clock + BitVec.ofNat 32 d.remaining })
    (s.deadlines.filter fun d => d.owner != .client c) live

/-- What freeze entry makes of the deadlines and the freeze start (R92, R79): the client's claims' deadlines are stored
with at least 1 ms, in list order, the ALLOWANCE-END is inserted for the allowance left, and no other client's deadline
changes. What was stored for the client before, as at a SET CLIENT, is put back first (R99). -/
def State.DeadlinesFreeze (s t : State) (c : ClientId) (allowanceLeft : Nat) : Prop :=
  (t.holdUnit c).freezeStart = some s.clock
  ∧ (∀ o, o.isClaimOf c = true →
      t.deadlineOf o = (s.deadlineOf o).map fun d => (d.1, max 1 d.2.1, true))
  ∧ t.deadlineOf (.client c) = some (.allowanceEnd, allowanceLeft, false)
  ∧ (∀ o, o.clientId ≠ c → t.deadlineOf o = s.deadlineOf o)
  ∧ ∃ live, s.PutsBack c live
    ∧ (t.holdUnit c).stored = (live.filter fun d => d.owner.isClaimOf c).map (fun d =>
        { owner := d.owner, kind := d.kind, remaining := max 1 (s.distance d.due) })
    ∧ s.InsertedInto
        { owner := .client c, kind := .allowanceEnd, due := s.clock + BitVec.ofNat 32 allowanceLeft }
        (live.filter fun d => !d.owner.isClaimOf c) t.deadlines

/-- What the end of a freeze makes of the deadlines and the freeze start (R95): every deadline of the client's claims runs
with the time it had, at the place R76 gives it, there is no ALLOWANCE-END, and no other client's deadline changes. For
a client that is not FROZEN it says that nothing changes. -/
def State.DeadlinesThaw (s t : State) (c : ClientId) : Prop :=
  (t.holdUnit c).freezeStart = none ∧ (t.holdUnit c).stored = []
  ∧ (∀ o, o.isClaimOf c = true → t.deadlineOf o = (s.deadlineOf o).map fun d => (d.1, d.2.1, false))
  ∧ t.deadlineOf (.client c) = none
  ∧ (∀ o, o.clientId ≠ c → t.deadlineOf o = s.deadlineOf o)
  ∧ s.PutsBack c t.deadlines

/-- The figure and the frozen bit that replies give for an owner's deadline (R74, R121): its remaining time, with the
warning interval added for a LEASE-WARN, whether that is a frozen remaining, and 0 where there is no deadline. -/
def State.Left (s : State) (o : Owner) (left : Nat) (isStored : Bool) : Prop :=
  (∀ interval remaining kept, s.deadlineOf o = some (.leaseWarn interval, remaining, kept) →
    left = remaining + interval.toNat ∧ isStored = kept)
  ∧ (∀ kind remaining kept, s.deadlineOf o = some (kind, remaining, kept) → (∀ interval, kind ≠ .leaseWarn interval) →
    left = remaining ∧ isStored = kept)
  ∧ (s.deadlineOf o = none → left = 0 ∧ isStored = false)

/-- The laws that make a client's deadlines either run or be stored, once each. -/
def State.DeadlinesLawful (s : State) : Prop := s.FreezeLaw ∧ s.OneDeadlineEach ∧ s.DeadlinesOrdered

/-! ### Notices -/

/-- The set without the records that satisfy `p` (R128). -/
def NoticeSet.without (ns : NoticeSet) (p : Notice → Bool) : NoticeSet :=
  { ns with records := ns.records.filter fun n => !p n }

/-- The record is the OFFER for the key (R128). -/
def Notice.isOfferFor (key : Key) (n : Notice) : Bool := n.key == key && n.body.kind == .offer

/-- The record is the EXPIRING for the key and the generation (R128). -/
def Notice.isExpiringFor (key : Key) (gen : Gen) (n : Notice) : Bool :=
  n.key == key && n.body.kind == .expiring && n.gen == some gen

/-- A notice raised into the client's set, or not, by its session (R125). -/
def State.raisedFor (s : State) (c : ClientId) (ns : NoticeSet) (n : Notice) : NoticeSet :=
  if (s.client c).session = .opened then ns.raise n else ns

/-- The number of a notice's kind, which is its rank and its code (R124, R162). -/
def NoticeBody.number : NoticeBody → Nat
  | .revoked _ => 1
  | .withdrawn => 2
  | .offer _ _ => 3
  | .offerLapsed => 4
  | .waitLapsed => 5
  | .expiring _ => 6

/-- The delivery of the client's reply is protected (R101): hold sense asserted and hold consumes no. -/
def State.DeliveryProtected (s : State) (c : ClientId) : Prop :=
  (s.holdUnit c).level = true ∧ (s.client c).holdConsumes = false

/-- What a delivery makes of the client's notice set (R127, R132): the presented record is removed and LOST clears if it
was shown; when the delivery is protected only the presented mark is cleared (R101). -/
def State.NoticesDelivered (s t : State) (c : ClientId) : Prop :=
  (s.DeliveryProtected c → t.noticeSet c = { s.noticeSet c with
    records := (s.noticeSet c).records.map fun n => { n with presented := false } })
  ∧ (¬ s.DeliveryProtected c →
    (t.noticeSet c).records = (s.noticeSet c).records.filter (fun n => !n.presented)
    ∧ ((s.noticeSet c).lost = true → (s.noticeSet c).lostShown = true →
        (t.noticeSet c).lost = false ∧ (t.noticeSet c).lostShown = false)
    ∧ ((s.noticeSet c).lostShown = false →
        (t.noticeSet c).lost = (s.noticeSet c).lost ∧ (t.noticeSet c).lostShown = false))

/-- The port after a delivery at the end of its frame (R145, R151): the slot EMPTY, the sticky flags that the snapshot
showed clear, or all of them as they were when the delivery is protected. -/
def State.PortDelivered (s : State) (p : ClientId) (shown : Status) (x : Port) : Prop :=
  let closed : Port := { s.port p with selectLow := false, frame := none, slot := .empty }
  (s.DeliveryProtected p → x = closed)
  ∧ (¬ s.DeliveryProtected p → x = { closed with
      overrun := (s.port p).overrun && !shown.overrun
      frameErr := (s.port p).frameErr && !shown.frameErr
      crcErr := (s.port p).crcErr && !shown.crcErr })

/-! ### Offers -/

/-- An offer made: to which client, at which resource, with which tenure, suspect-at-grant and generation (R57). -/
structure Offer where
  slot    : SlotId
  key     : Key
  client  : ClientId
  tenure  : Tenure
  suspect : Bool
  gen     : Gen
  deriving DecidableEq, Repr

/-- The holding an offer creates (R24, R57). -/
def Offer.holding (x : Offer) : Holding :=
  { client := x.client, tenure := x.tenure, state := .offered, gen := x.gen, suspect := x.suspect, warned := false }

/-- The owner of its OFFER-END (R57). -/
def Offer.owner (x : Offer) : Owner := .holding x.slot x.client

/-- One of the offers is to the owner. -/
def offered (offers : List Offer) (o : Owner) : Bool := offers.any fun x => x.owner == o

/-- The OFFER notice (R57, R124). -/
def Offer.notice (x : Offer) : Notice :=
  { key := x.key, body := .offer x.tenure x.suspect, gen := some x.gen, presented := false }

/-- The offers, in their order, and nothing else, turn the record `r` into `r'` (R11, R57, R58): the entries `gone` have
left the head of the queue, those of clients not in TEARDOWN (R11 step 1) each for its offer; each offer was compatible
with the holdings then in the list; the new holdings stand at its tail. -/
def State.OffersInto (s : State) (offers : List Offer) (gone : List Waiter) (r r' : Resource) : Prop :=
  r' = { r with holders := r.holders ++ offers.map Offer.holding, queue := r'.queue }
  ∧ r.queue = gone ++ r'.queue
  ∧ offers.map (fun x => (x.client, x.tenure))
      = (gone.filter fun w => (s.client w.client).session != .teardown).map (fun w => (w.client, w.mode))
  ∧ (∀ x ∈ offers, x.key = r.key ∧ x.suspect = (r.integrity == .suspect))
  ∧ ∀ before x after, offers = before ++ x :: after →
      Resource.Admits { r with holders := r.holders ++ before.map Offer.holding } x.tenure

/-- The offers, in their order, are all that the state `t` differs by from `s`, apart from the backlog and the ports: the
generations follow the grant counter (R28), the records change as `OffersInto` says, the wait deadline of an entry that
has left is disarmed, the OFFER-END of an offer is armed for the record's offer window, stored when its client is FROZEN
(R57, R86, R94), and its OFFER notice is raised (R57, R125). The deadlines that stay keep their order, live and stored;
behind an OFFER-END in the list stand only later due times and the OFFER-ENDs of later offers (R76), and behind a stored
one only the latter (R95). -/
structure State.OffersMade (s t : State) (offers : List Offer) : Prop where
  time : s.SameTime t
  clients : t.clients = s.clients
  freezes : s.SameFreezes t
  grant : t.grant.toNat = s.grant.toNat + offers.length
  gens : offers.map (fun x => x.gen.toNat) = List.range' (s.grant.toNat + 1) offers.length
  free : ∀ j, s.record j = none → t.record j = none ∧ (∀ x ∈ offers, x.slot ≠ j)
    ∧ ∀ c, t.deadlineOf (.waiter j c) = s.deadlineOf (.waiter j c)
  record : ∀ j r, s.record j = some r → ∃ r' gone, t.record j = some r'
    ∧ s.OffersInto (offers.filter fun x => x.slot == j) gone r r'
    ∧ ∀ c, ((∃ w ∈ gone, w.client = c) → t.deadlineOf (.waiter j c) = none)
      ∧ ((∀ w ∈ gone, w.client ≠ c) → t.deadlineOf (.waiter j c) = s.deadlineOf (.waiter j c))
  offerEnd : ∀ j r c, s.record j = some r → (∃ x ∈ offers, x.slot = j ∧ x.client = c) →
    t.deadlineOf (.holding j c) = some (.offerEnd, r.offerWindow.toNat, s.isFrozen c)
  otherHolding : ∀ j c, (∀ x ∈ offers, ¬ (x.slot = j ∧ x.client = c)) →
    t.deadlineOf (.holding j c) = s.deadlineOf (.holding j c)
  allowance : ∀ c, t.deadlineOf (.client c) = s.deadlineOf (.client c)
  notices : ∀ c, t.noticeSet c =
    (offers.filter fun x => x.client == c).foldl (fun ns x => s.raisedFor c ns x.notice) (s.noticeSet c)
  live : (t.deadlines.filter fun d => !offered offers d.owner)
    = s.deadlines.filter fun d => !offered offers d.owner && (t.deadlineOf d.owner).isSome
  stored : ∀ c, ((t.holdUnit c).stored.filter fun d => !offered offers d.owner)
    = (s.holdUnit c).stored.filter fun d =>
        !offered offers d.owner && (d.owner.clientId != c || (t.deadlineOf d.owner).isSome)
  place : ∀ before x after r, offers = before ++ x :: after → offered after x.owner = false → s.record x.slot = some r →
    (s.isFrozen x.client = false → ∃ ahead behind,
      t.deadlines = ahead ++ { owner := x.owner, kind := .offerEnd,
                               due := s.clock + BitVec.ofNat 32 r.offerWindow.toNat } :: behind
      ∧ ∀ d ∈ behind, r.offerWindow.toNat < s.distance d.due ∨ offered after d.owner = true)
    ∧ (s.isFrozen x.client = true → ∃ ahead behind,
      (t.holdUnit x.client).stored
        = ahead ++ { owner := x.owner, kind := .offerEnd, remaining := r.offerWindow.toNat } :: behind
      ∧ ∀ d ∈ behind, offered after d.owner = true)

/-- The offer check of the slot has been made, and has stopped (R11): the head of the queue is no entry of a client in
TEARDOWN, and the resource stands in the Offer Backlog exactly if an offer is still owed. -/
def State.Checked (s : State) (i : SlotId) : Prop :=
  (∀ r w, s.record i = some r → r.queue.head? = some w → (s.client w.client).session ≠ .teardown)
  ∧ (i ∈ s.backlog ↔ s.OwesAnOffer i)

/-- The holdings of all resources. -/
def State.holdingsInUse (s : State) : Nat := s.total fun r => r.holders.length

/-- What the offer check of slot `i` makes of `s`, after the hand-over of `n` holding records given back (R11, R40 steps 6
and 7, R67, R68). Each record handed over makes at most one offer. It goes along the backlog: resources `served` have left
it, owed nothing, and beyond them only the one now at the front, and slot `i`, can have been offered anything. A record given
back serves the backlog before the slot that gave it back (R40): an offer is made at slot `i` only where the hand-over
reached it, or nothing was left in the backlog, or it stood at the front; and the offers are made in the order of the
backlog, those of a slot outside it last. While the backlog is not empty no holding record
is free (R69), and the offers take no more records than the pool has (R22). Slot `i` keeps its place in the backlog, leaves
it or joins its tail. -/
def State.OffersFrom (s t : State) (i : SlotId) (n : Nat) : Prop :=
  ∃ offers, s.OffersMade t offers
    ∧ (offers.countP fun x => x.slot != i) ≤ n
    ∧ t.Checked i
    ∧ (n = 0 → s.SameRecordsBut t i)
    ∧ (s.holdingsInUse + n ≤ 96 → t.holdingsInUse ≤ 96)
    ∧ (s.backlog.Nodup → ∃ served rest, s.backlog = served ++ rest ∧ (n = 0 → served = [])
        ∧ (∀ j ∈ served, t.Checked j)
        ∧ (∀ j, j ≠ i → j ∉ served → rest.head? ≠ some j → t.record j = s.record j)
        ∧ (∀ x ∈ offers, x.slot = i → i ∈ served ∨ rest = [] ∨ rest.head? = some i)
        ∧ (offers.Pairwise fun x y => s.backlog.idxOf x.slot ≤ s.backlog.idxOf y.slot)
        ∧ (t.backlog = rest ∨ t.backlog = rest.filter (fun j => j != i) ∨ (i ∉ rest ∧ t.backlog = rest ++ [i]))
        ∧ ((s.backlog ≠ [] → 96 ≤ s.holdingsInUse + n) → t.backlog ≠ [] → 96 ≤ t.holdingsInUse))

/-! ### The end of a holding and of a wait -/

/-- The integrity after a holding's end (R39). -/
def Holding.integrityAfter (h : Holding) (cause : HoldingEnd) (before : Integrity) : Integrity :=
  if h.state = .held ∧ h.tenure = .exclusive ∧ (cause = .expired ∨ cause = .revoked ∨ cause = .tornDown) then .suspect
  else before

/-- The notice set of a holding's client after its end, apart from offers made in the same event (R38, R128). -/
def State.noticesAfter (s : State) (key : Key) (h : Holding) (cause : HoldingEnd) : NoticeSet :=
  let c := h.client
  let ns := s.noticeSet c
  let kept := if h.state = .held then ns.without (Notice.isExpiringFor key h.gen) else ns
  match cause with
  | .released | .left | .tornDown => kept
  | .expired => s.raisedFor c kept (notice key (.revoked .expired) (some h.gen))
  | .revoked => s.raisedFor c kept (notice key (.revoked .bySupervisor) (some h.gen))
  | .declined => kept.without (Notice.isOfferFor key)
  | .lapsed => s.raisedFor c (kept.without (Notice.isOfferFor key)) (notice key .offerLapsed (some h.gen))
  | .withdrawn => s.raisedFor c (kept.without (Notice.isOfferFor key)) (notice key .withdrawn (some h.gen))

/-- The state after steps 1 to 5 of R40 at the end of holding `h` on slot `i`'s resource `r`: the holding is gone, its
deadline disarmed, the integrity changed, the notices applied to its client, and the record removed if it was RETIRING
and this its last holding (R18). -/
def State.holdingDropped (s : State) (i : SlotId) (r : Resource) (h : Holding) (cause : HoldingEnd) : State :=
  let c := h.client
  let rest := r.holders.filter fun g => g.client != c
  let u := (((s.setDeadlines (s.deadlines.filter fun d => d.owner != .holding i c)).setHoldUnit c
    { s.holdUnit c with stored := (s.holdUnit c).stored.filter fun d => d.owner != .holding i c }).setNoticeSet c
      (s.noticesAfter r.key h cause))
  if r.lifecycle = .retiring ∧ rest = [] then
    (u.setRecord i none).setBacklog (s.backlog.filter fun j => j != i)
  else u.setRecord i (some { r with holders := rest, integrity := h.integrityAfter cause r.integrity })

/-- The end of holding `h` on slot `i`'s resource, as one event (R40): steps 1 to 5, then the holding record is given back
and the offer check made. -/
def State.HoldingEnds (s t : State) (i : SlotId) (r : Resource) (h : Holding) (cause : HoldingEnd) : Prop :=
  (s.holdingDropped i r h cause).OffersFrom t i 1

/-- The state after client `c`'s waiter entry has left slot `i`'s queue (R47): the others keep their order, its deadline is
disarmed, and the client's notice set is `told`. -/
def State.waiterDropped (s : State) (i : SlotId) (r : Resource) (c : ClientId) (told : NoticeSet) : State :=
  (((s.setRecord i (some { r with queue := r.queue.filter fun w => w.client != c })).setDeadlines
    (s.deadlines.filter fun d => d.owner != .waiter i c)).setHoldUnit c
      { s.holdUnit c with stored := (s.holdUnit c).stored.filter fun d => d.owner != .waiter i c }).setNoticeSet c told

/-- Client `c`'s waiter entry leaves slot `i`'s queue (R47): the offer check follows if it stood at the head, and nothing
else happens if it did not. -/
def State.WaitEnds (s t : State) (i : SlotId) (r : Resource) (c : ClientId) (told : NoticeSet) : Prop :=
  (r.queue.head?.map Waiter.client = some c → (s.waiterDropped i r c told).OffersFrom t i 0)
  ∧ (r.queue.head?.map Waiter.client ≠ some c → t = { s.waiterDropped i r c told with ports := t.ports })

/-! ### RETIRE -/

/-- The HELD holdings of a resource. -/
def Resource.heldOnes (r : Resource) : List Holding := r.holders.filter fun h => h.state == .held

/-- The owner is a waiter entry or an OFFERED holding of slot `i`'s resource: what RETIRE withdraws (R16). -/
def Resource.promises (r : Resource) (i : SlotId) : Owner → Bool
  | .holding j c => j == i && r.holders.any fun h => h.client == c && h.state == .offered
  | .waiter j c => j == i && r.queue.any fun w => w.client == c
  | .client _ => false

/-- The notice set of a client after the withdrawals of RETIRE (R16): WITHDRAWN without a generation for its waiter entry;
for its offer, the OFFER cleared and WITHDRAWN with the generation. -/
def State.noticesWithdrawn (s : State) (r : Resource) (c : ClientId) : NoticeSet :=
  if (r.queue.any fun w => w.client == c) = true then s.raisedFor c (s.noticeSet c) (notice r.key .withdrawn none)
  else
    match r.holders.find? fun h => h.client == c && h.state == .offered with
    | some h => s.noticesAfter r.key h .withdrawn
    | none => s.noticeSet c

/-- The state after the withdrawals of RETIRE and the removal of the record, or its change to RETIRING, before the freed
holding records are handed over (R16, R17). -/
def State.resourceWithdrawn (s : State) (i : SlotId) (r : Resource) : State :=
  { s with
    slots := s.slots.set i
      (if r.heldOnes = [] then none else some { r with lifecycle := .retiring, holders := r.heldOnes, queue := [] })
    deadlines := s.deadlines.filter fun d => !r.promises i d.owner
    holdUnits := Vector.ofFn fun c =>
      { s.holdUnit c with
        stored := (s.holdUnit c).stored.filter fun d => !(d.owner.clientId == c && r.promises i d.owner) }
    notices := Vector.ofFn fun c => s.noticesWithdrawn r c
    backlog := s.backlog.filter fun j => j != i }

/-! ### Teardown and settings -/

/-- The start of a client's teardown (R113): the session, the end cause, the freeze, the notice set; with no claim, its
completion too (R116). The ports are said apart. -/
def State.TeardownBegins (s t : State) (c : ClientId) (cause : EndCause) : Prop :=
  t.client c = { s.client c with session := if s.claimCount c = 0 then .none else .teardown, endCause := cause,
                                 freeze := .thawed, sweepFrom := 0 }
  ∧ t.noticeSet c = { records := [], lost := false, lostShown := false }
  ∧ (t.holdUnit c).level = (s.holdUnit c).level ∧ s.DeadlinesThaw t c
  ∧ s.SameTime t ∧ t.slots = s.slots ∧ t.backlog = s.backlog ∧ t.grant = s.grant
  ∧ s.SameClientsBut t c ∧ s.SameNoticesBut t c ∧ s.SameUnitsBut t c

/-- The port after its PENDING slot has taken a reply (R144). -/
def Port.filledWith (x : Port) (tag : Byte) (a : Answer) (data : List Byte) : Port :=
  { x with slot := .filled { tag := tag, answer := a, data := data }, state := .ready, inFlight := .none }

/-- The port becomes READY if the conditions of R154 hold, with the client's session as given: DETACHED, the reset-sense
input released, no request in flight, no teardown under way; and no reset-sense assertion still to end the session, the
model's reading (log 8). Else it stays as it is. -/
def Port.Settles (x y : Port) (session : Session) : Prop :=
  let ready := x.state = .detached ∧ x.resetSense = false ∧ x.inFlight = .none ∧ session ≠ .teardown
    ∧ ¬ (x.senseOwed = true ∧ session = .opened)
  (ready → y = { x with state := .ready, senseOwed := false }) ∧ (¬ ready → y = x)

/-- The port after the DONE of the LEAVE or EVICT that waits on it (R116, R144): it fills a PENDING slot; where a
reset-sense assertion has emptied the slot it is discarded, and the port may become READY (R154). -/
def Port.TakesDone (x y : Port) (session : Session) : Prop :=
  (∀ tag, x.slot = .pending tag → x.state = .busy → y = x.filledWith tag .done [])
  ∧ (x.slot = .empty → Port.Settles { x with inFlight := .none } y session)

/-- The code of an end cause (R162). -/
def EndCause.number : EndCause → Nat
  | .none => 0
  | .leave => 1
  | .resetLine => 2
  | .evicted => 3
  | .partReset => 4

/-! ### ACQUIRE -/

/-- The tenure that the mode byte of ACQUIRE asks for (R162). -/
def modeAsked (ps : List Byte) : Tenure := if byteAt ps 2 = 0x02#8 then .shared else .exclusive

/-- The priority used: the one asked for, or the client's ceiling where that is lower (R48). -/
def State.priorityUsed (s : State) (p : ClientId) (ps : List Byte) : Fin 4 :=
  ⟨min (byteAt ps 3).toNat (s.client p).ceiling.val,
    Nat.lt_of_le_of_lt (Nat.min_le_right _ _) (s.client p).ceiling.isLt⟩

/-- ACQUIRE passes its own four checks (R49). -/
def State.AcquirePasses (s : State) (p : ClientId) (r : Resource) (mode : Tenure) : Prop :=
  ¬ (mode = .shared ∧ r.cls = .exclusiveOnly) ∧ r.holdingOf p = none ∧ r.waiterOf p = none
  ∧ s.grant ≠ 0xFFFFFFFF#32 ∧ s.claimCount p < (s.client p).quota

/-- No entry of a client not in TEARDOWN stands at or above the priority (R50). -/
def State.NoneAhead (s : State) (r : Resource) (priority : Fin 4) : Prop :=
  ∀ w ∈ r.queue, (s.client w.client).session ≠ .teardown → w.priority < priority

/-- A holding record is free and the backlog is empty (R50). -/
def State.HasSpace (s : State) : Prop := (s.total fun r => r.holders.length) < 96 ∧ s.backlog = []

end Sys2Proof.Machine
end

