-- ==== Sys2Proof/Certificates/Slice0/Obligations.lean ====
section
/-! DEFINITION. The statements for the provers. The vocabulary is that of Sys2Proof/Safety.lean; a premise that is a law
of the device (a `…Law`, `…Legal`, `…Each` or `…Ordered` predicate of the state) rules out states that no run reaches,
and is stated as an invariant of its own below. -/

open Sys2Proof Sys2Proof.Machine

/-! ### The queue of commands -/

/-- A step runs the command at the front of the queue on the queue's rest; on an empty queue the block idles (log 1,
the model's choice). -/
def Obligations.StepRunsFrontCommand : Prop :=
  (∀ (c : Instr) (rest : List Instr) (s : State), s.pending = c :: rest → step s = exec c { s with pending := rest })
  ∧ ∀ s : State, s.pending = [] → step s = .next s

/-- Every command gives a next state, and leaves the queue as it is: no command faults, none is refused. That every
refusal of the part is a reply and every line error a flag is the spec's (R171, R147). The queue (log 1), a next state
where the event cannot be taken (log 2) and POWER_ON in any state with the queue kept (log 21) are the model's choice. -/
def Obligations.EveryCommandGivesANextState : Prop :=
  ∀ (c : Instr) (s : State), ∃ t, exec c s = .next t ∧ t.pending = s.pending

/-! ### The part as a whole -/

/-- POWER_ON: every block in its reset state, the ports STARTING, the 5 ms running (R21, R44, R71, R89, R122, R137,
R138, R152). The model's choice: the lines are at the levels it carries (log 9), the reset pin is released, so that the
5 ms run at once (log 22), the sweep position is 0 and no assertion is owed (log 15), and it is taken in any state, with
the queue kept (log 21). -/
def Obligations.PowerOnResetsEveryBlock : Prop :=
  ∀ (sel rsn hld : BitVec 6) (s : State), ∃ t, exec (.powerOn sel rsn hld) s = .next t
    ∧ t.pending = s.pending ∧ t.startup = .counting ∧ t.clock = 0 ∧ t.grant = 0 ∧ t.deadlines = [] ∧ t.backlog = []
    ∧ (∀ i, t.record i = none)
    ∧ (∀ c, t.client c = { session := .none, epoch := 0, endCause := .none, quota := 12,
                           ceiling := if c = 0 then 3 else 2, mask := 0b111111#6, holdAllowance := 0, holdUsed := 0,
                           holdConsumes := false, freeze := .thawed, sweepFrom := 0 })
    ∧ (∀ c, t.holdUnit c = { level := hld[c], freezeStart := none, stored := [] })
    ∧ (∀ c, t.noticeSet c = { records := [], lost := false, lostShown := false })
    ∧ ∀ p, t.port p = { state := .starting, slot := .empty, inFlight := .none, overrun := false, frameErr := false,
                        crcErr := false, frame := none, selectLow := sel[p], resetSense := rsn[p],
                        senseOwed := false }

/-- RESET_PIN: as power-on, but every epoch is kept and the end cause of a client with a session becomes PART-RESET
(R122); the ports are held in STARTING (R152); the lines stay as they are (log 10, an inference). That the sweep
position is 0 and no assertion is owed afterwards is the model's choice (log 15), and so is the queue it leaves (log 1). -/
def Obligations.ResetPinKeepsOnlyEpochsAndEndCauses : Prop :=
  ∀ s : State, ∃ t, exec .resetPin s = .next t
    ∧ t.pending = s.pending ∧ t.startup = .held ∧ t.clock = 0 ∧ t.grant = 0 ∧ t.deadlines = [] ∧ t.backlog = []
    ∧ (∀ i, t.record i = none)
    ∧ (∀ c, t.client c = { session := .none, epoch := (s.client c).epoch,
                           endCause := if (s.client c).session = .none then (s.client c).endCause else .partReset,
                           quota := 12, ceiling := if c = 0 then 3 else 2, mask := 0b111111#6, holdAllowance := 0,
                           holdUsed := 0, holdConsumes := false, freeze := .thawed, sweepFrom := 0 })
    ∧ (∀ c, t.holdUnit c = { level := (s.holdUnit c).level, freezeStart := none, stored := [] })
    ∧ (∀ c, t.noticeSet c = { records := [], lost := false, lostShown := false })
    ∧ ∀ p, t.port p = { state := .starting, slot := .empty, inFlight := .none, overrun := false, frameErr := false,
                        crcErr := false, frame := none, selectLow := (s.port p).selectLow,
                        resetSense := (s.port p).resetSense, senseOwed := false }

/-- The release of the reset pin starts the 5 ms and takes the hold-sense levels of that moment; the end of the 5 ms
makes each port DETACHED or READY by its reset-sense input (R90, R152). Neither is taken out of its turn (log 2). -/
def Obligations.StartUpReleasesThePorts : Prop :=
  (∀ (hld : BitVec 6) (s : State), s.startup = .held → ∃ t, exec (.resetPinRelease hld) s = .next t
    ∧ t.startup = .counting ∧ (∀ c, t.holdUnit c = { s.holdUnit c with level := hld[c] })
    ∧ t.pending = s.pending ∧ t.clock = s.clock ∧ s.SameResources t ∧ t.clients = s.clients ∧ t.notices = s.notices
    ∧ t.ports = s.ports)
  ∧ (∀ s : State, s.startup = .counting → ∃ t, exec .startupEnd s = .next t
    ∧ t.startup = .ended
    ∧ (∀ p, t.port p = { s.port p with state := if (s.port p).resetSense = true then .detached else .ready })
    ∧ t.pending = s.pending ∧ t.clock = s.clock ∧ s.SameResources t ∧ s.SameClientSide t)
  ∧ (∀ (hld : BitVec 6) (s : State), s.startup ≠ .held → exec (.resetPinRelease hld) s = .next s)
  ∧ ∀ s : State, s.startup ≠ .counting → exec .startupEnd s = .next s

/-- MILLISECOND_BOUNDARY: the lease clock advances by one, modulo 2^32, and hold used of every FROZEN client with it, up
to its allowance; the clock stands still until STARTING has ended (R72, R93). It waits while a due deadline is to be
taken (R80, log 4). -/
def Obligations.MillisecondBoundaryCounts : Prop :=
  (∀ s : State, s.startup = .ended → (∀ d ∈ s.deadlines, d.due ≠ s.clock) →
    ∃ t, exec .millisecondBoundary s = .next t ∧ t.clock = s.clock + 1
      ∧ (∀ c, t.client c = { s.client c with
            holdUsed := if (s.client c).freeze = .frozen
              then min ((s.client c).holdUsed + 1) (1000 * (s.client c).holdAllowance) else (s.client c).holdUsed })
      ∧ t.pending = s.pending ∧ t.startup = s.startup ∧ s.SameResources t ∧ t.holdUnits = s.holdUnits
      ∧ t.notices = s.notices ∧ t.ports = s.ports)
  ∧ (∀ s : State, s.startup ≠ .ended → exec .millisecondBoundary s = .next s)
  ∧ ∀ s : State, (∃ d ∈ s.deadlines, d.due = s.clock) → exec .millisecondBoundary s = .next s

/-! ### The client port -/

/-- FRAME_START in READY or BUSY takes the snapshot: the reply the slot shows, and the status byte with its eight flags
sampled from their owners (R141, R143, R160); a FILLED reply that shows LOST marks it shown (R127). Its bytes are status,
tag, outcome, data length, the data and the CRC-8 over them (R159), the outcome one of the codes of R171. Data out
carries them, each byte most significant bit first, bit k of the snapshot after k rising edges, and then 1; it is
released while select is high (R141). In STARTING and DETACHED only the line's level changes (R140), and data out stays
released (R141). -/
def Obligations.FrameStartTakesTheSnapshot : Prop :=
  (∀ (p : ClientId) (s : State), (s.port p).selectLow = false →
    (∀ k, s.dataOut p k = none)
    ∧ ((s.port p).state = .ready ∨ (s.port p).state = .busy →
      ∃ t f status body, exec (.frameStart p) s = .next t
        ∧ t.port p = { s.port p with selectLow := true, frame := some f }
        ∧ f.edges = 0 ∧ f.received = [] ∧ f.partByte = []
        ∧ ((s.port p).slot = .empty →
            f.snapshot.reply = { tag := 0, answer := .none, data := [] } ∧ f.snapshot.filled = false)
        ∧ (∀ tag, (s.port p).slot = .pending tag →
            f.snapshot.reply = { tag := tag, answer := .notReady, data := [] } ∧ f.snapshot.filled = false)
        ∧ (∀ reply, (s.port p).slot = .filled reply → f.snapshot.reply = reply ∧ f.snapshot.filled = true)
        ∧ body = [status, f.snapshot.reply.tag, f.snapshot.reply.answer.code,
                  BitVec.ofNat 8 f.snapshot.reply.data.length] ++ f.snapshot.reply.data
        ∧ f.snapshot.bytes = body ++ [crc8 body]
        ∧ (∀ n byte k, f.snapshot.bytes[n]? = some byte → k < 8 →
            t.dataOut p (8 * n + k) = some (byte.getLsbD (7 - k)))
        ∧ (∀ k, 8 * f.snapshot.bytes.length ≤ k → t.dataOut p k = some true)
        ∧ (status.getLsbD 7 = true ↔ (s.client p).session = .opened)
        ∧ (status.getLsbD 6 = true ↔ ∃ tag, (s.port p).slot = .pending tag)
        ∧ (status.getLsbD 5 = true ↔ ∃ n ∈ (s.noticeSet p).records, n.presented = false)
        ∧ (status.getLsbD 4 = true ↔ (s.client p).freeze = .frozen)
        ∧ status.getLsbD 3 = (s.noticeSet p).lost
        ∧ status.getLsbD 2 = (s.port p).crcErr
        ∧ status.getLsbD 1 = (s.port p).frameErr
        ∧ status.getLsbD 0 = (s.port p).overrun
        ∧ t.noticeSet p = (if f.snapshot.filled = true ∧ (s.noticeSet p).lost = true
            then { s.noticeSet p with lostShown := true } else s.noticeSet p)
        ∧ s.SameTime t ∧ s.SameResources t ∧ t.clients = s.clients ∧ t.holdUnits = s.holdUnits
        ∧ s.SameNoticesBut t p ∧ s.SamePortsBut t p)
    ∧ ((s.port p).state = .starting ∨ (s.port p).state = .detached →
      ∃ t, exec (.frameStart p) s = .next t ∧ t.port p = { s.port p with selectLow := true } ∧ s.OnlyPort t p
        ∧ ((s.port p).frame = none → ∀ k, t.dataOut p k = none)))
  ∧ ([.none, .notReady, .done, .granted, .queued, .noNotice, .badRequest, .badParam, .noSession, .inSession, .ending,
      .notSupervisor, .noSuchKey, .keyInUse, .directoryFull, .retiring, .unavailable, .alreadyClaimed, .quota,
      .noWaitSpace, .notHolder, .stale, .notOffered, .notWaiting, .inUse, .spent, .badTarget, .shareRefused,
      .exclusiveNeeded].map fun a : Answer => a.code.toNat)
    = [0x00, 0x01, 0x02, 0x03, 0x04, 0x05, 0x40, 0x41, 0x42, 0x43, 0x44,
       0x45, 0x46, 0x47, 0x48, 0x49, 0x4A, 0x4B, 0x4C,
       0x4D, 0x4E, 0x4F, 0x50, 0x51, 0x52, 0x53, 0x54, 0x55,
       0x56]

/-- FRAME_END of a frame that delivers nothing (R145: no FILLED reply, or not all of it shifted) judges the request
received (R146, R147, R149, R150): taken when the slot is EMPTY, OVERRUN when it is not, CRC-ERR when its CRC is wrong,
FRAME-ERR when it is truncated or its length is above 12. The bits sampled make bytes, eight to a byte, the most
significant first, and those left over are discarded (R140, R142). A frame without a rising edge, and an ignored one, end
with nothing (R140). -/
def Obligations.FrameEndJudgesTheRequest : Prop :=
  ∀ (p : ClientId) (s : State), (s.port p).selectLow = true →
    let closed : Port := { s.port p with selectLow := false, frame := none }
    ((s.port p).frame = none → ∀ edges dataIn,
      ∃ t, exec (.frameEnd p edges dataIn) s = .next t ∧ t.port p = closed ∧ s.OnlyPort t p)
    ∧ ∀ f, (s.port p).frame = some f → f.edges = 0 → f.received = [] → f.partByte = [] →
      (∃ t, exec (.frameEnd p 0 0#0) s = .next t ∧ t.port p = closed ∧ s.OnlyPort t p)
      ∧ ∀ (edges : Nat) (dataIn : BitVec edges) (bytes : List Byte) (extra : List Bool),
        sampledBits edges dataIn = bitsOf bytes ++ extra → extra.length < 8 →
        0 < edges → f.snapshot.filled = false ∨ edges < 8 * f.snapshot.bytes.length →
        (∀ code tag ps filler, bytes = requestBytes code tag ps ++ filler → ps.length ≤ 12 → code ≠ 0x00#8 →
          ∃ t, exec (.frameEnd p edges dataIn) s = .next t ∧ s.OnlyPort t p
            ∧ ((s.port p).slot = .empty →
                t.port p = { closed with slot := .pending tag, state := .busy, inFlight := .taken code ps })
            ∧ ((s.port p).slot ≠ .empty → t.port p = { closed with overrun := true }))
        ∧ (∀ code tag ps crc filler,
            bytes = [code, tag, BitVec.ofNat 8 ps.length] ++ ps ++ crc :: filler → ps.length ≤ 12 →
            crc ≠ crc8 ([code, tag, BitVec.ofNat 8 ps.length] ++ ps) →
          ∃ t, exec (.frameEnd p edges dataIn) s = .next t ∧ t.port p = { closed with crcErr := true } ∧ s.OnlyPort t p)
        ∧ (bytes.length < 3 ∨ 12 < (byteAt bytes 2).toNat ∨ bytes.length < 4 + (byteAt bytes 2).toNat →
          ∃ t, exec (.frameEnd p edges dataIn) s = .next t ∧ t.port p = { closed with frameErr := true }
            ∧ s.OnlyPort t p)

/-- FRAME_END of a frame that shifted a FILLED reply in full: the slot empties, then the sticky flags the snapshot showed
clear, the presented notice is removed and LOST clears if it was shown, unless the delivery is protected by hold sense,
when flags and LOST stay and only the presented mark is cleared (R101, R127, R132, R145, R151). Then the request is
judged against the EMPTY slot: a well-formed one is taken, IDLE does nothing, a wrong CRC sets CRC-ERR, a truncated
request or a length above 12 sets FRAME-ERR, and that flag stays set (R146). -/
def Obligations.FrameEndDeliversTheReply : Prop :=
  ∀ (p : ClientId) (s : State) (f : Frame) (edges : Nat) (dataIn : BitVec edges) (bytes : List Byte)
    (extra : List Bool), (s.port p).selectLow = true → (s.port p).frame = some f → f.edges = 0 → f.received = [] → f.partByte = [] →
    f.snapshot.filled = true → sampledBits edges dataIn = bitsOf bytes ++ extra → extra.length < 8 →
    8 * f.snapshot.bytes.length ≤ edges →
    ∃ t x, exec (.frameEnd p edges dataIn) s = .next t ∧ s.PortDelivered p f.snapshot.status x ∧ s.NoticesDelivered t p
      ∧ (∀ code tag ps filler, bytes = requestBytes code tag ps ++ filler → ps.length ≤ 12 →
          (code ≠ 0x00#8 → t.port p = { x with slot := .pending tag, state := .busy, inFlight := .taken code ps })
          ∧ (code = 0x00#8 → t.port p = x))
      ∧ (∀ code tag ps crc filler,
          bytes = [code, tag, BitVec.ofNat 8 ps.length] ++ ps ++ crc :: filler → ps.length ≤ 12 →
          crc ≠ crc8 ([code, tag, BitVec.ofNat 8 ps.length] ++ ps) → t.port p = { x with crcErr := true })
      ∧ (bytes.length < 3 ∨ 12 < (byteAt bytes 2).toNat ∨ bytes.length < 4 + (byteAt bytes 2).toNat →
          t.port p = { x with frameErr := true })
      ∧ s.SameTime t ∧ s.SameResources t ∧ t.clients = s.clients ∧ t.holdUnits = s.holdUnits
      ∧ s.SameNoticesBut t p ∧ s.SamePortsBut t p

/-- A well-formed IDLE does nothing (R148): the event changes no state, and at frame end it sets no flag and takes
nothing, whatever the slot and the session, so that a frame which delivers nothing leaves all but the line and the frame
as it was, and a frame which delivers (R145) leaves what the delivery alone makes of port and notice set. The four bytes
0x00 0x00 0x00 0x69 are one (R158). -/
def Obligations.IdleDoesNothing : Prop :=
  (∀ (p : ClientId) (s : State), exec (.idle p) s = .next s)
  ∧ requestBytes 0x00#8 0x00#8 [] = [0x00#8, 0x00#8, 0x00#8, 0x69#8]
  ∧ ∀ (p : ClientId) (s : State) (f : Frame) (edges : Nat) (dataIn : BitVec edges) (tag : Byte) (ps filler : List Byte)
    (extra : List Bool),
    (s.port p).selectLow = true → (s.port p).frame = some f → f.edges = 0 → f.received = [] → f.partByte = [] →
    ps.length ≤ 12 → sampledBits edges dataIn = bitsOf (requestBytes 0x00#8 tag ps ++ filler) ++ extra →
    extra.length < 8 →
    ∃ t, exec (.frameEnd p edges dataIn) s = .next t
      ∧ (f.snapshot.filled = false ∨ edges < 8 * f.snapshot.bytes.length →
          t.port p = { s.port p with selectLow := false, frame := none } ∧ s.OnlyPort t p)
      ∧ (f.snapshot.filled = true → 8 * f.snapshot.bytes.length ≤ edges →
          s.PortDelivered p f.snapshot.status (t.port p) ∧ s.NoticesDelivered t p
          ∧ s.SameTime t ∧ s.SameResources t ∧ t.clients = s.clients ∧ t.holdUnits = s.holdUnits
          ∧ s.SameNoticesBut t p ∧ s.SamePortsBut t p)

/-- REPLY_READY: the reply fills a PENDING slot and the port goes from BUSY to READY; with the slot EMPTY it is discarded,
and a DETACHED port whose conditions are now complete becomes READY (R144, R154). Beside the three conditions of R154
the model asks that no reset-sense assertion has still to end an OPEN session (log 8, an inference). -/
def Obligations.ReplyReadyFillsTheSlot : Prop :=
  ∀ (p : ClientId) (s : State) (a : Answer) (data : List Byte), (s.port p).inFlight = .answered a data →
    (∀ tag, (s.port p).slot = .pending tag → (s.port p).state = .busy →
      ∃ t, exec (.replyReady p) s = .next t ∧ t.port p = (s.port p).filledWith tag a data ∧ s.OnlyPort t p)
    ∧ ((s.port p).slot = .empty → (s.port p).state = .detached →
      ∃ t, exec (.replyReady p) s = .next t ∧ s.OnlyPort t p
        ∧ ((s.port p).resetSense = false ∧ (s.client p).session ≠ .teardown
              ∧ ¬ ((s.port p).senseOwed = true ∧ (s.client p).session = .opened) →
            t.port p = { s.port p with inFlight := .none, state := .ready, senseOwed := false })
        ∧ (¬ ((s.port p).resetSense = false ∧ (s.client p).session ≠ .teardown
              ∧ ¬ ((s.port p).senseOwed = true ∧ (s.client p).session = .opened)) →
            t.port p = { s.port p with inFlight := .none }))

/-- The reset-sense input at the port. Its assertion in READY and BUSY aborts the frame, empties the slot, clears the
sticky flags and makes the port DETACHED, while a request in flight goes on; in DETACHED and STARTING the port stays
as it is (R153). Its release lets a DETACHED port become READY when the conditions of R154 hold. The assertion is owed
to the client record from then on (R111, log 8). -/
def Obligations.ResetSenseActsAtThePort : Prop :=
  (∀ (p : ClientId) (s : State), (s.port p).resetSense = false →
    ∃ t, exec (.resetSenseAssert p) s = .next t ∧ s.OnlyPort t p
      ∧ ((s.port p).state = .ready ∨ (s.port p).state = .busy →
          t.port p = { s.port p with resetSense := true, senseOwed := true, frame := none, slot := .empty,
                                     overrun := false, frameErr := false, crcErr := false, state := .detached })
      ∧ ((s.port p).state = .detached → t.port p = { s.port p with resetSense := true, senseOwed := true })
      ∧ ((s.port p).state = .starting → t.port p = { s.port p with resetSense := true }))
  ∧ ∀ (p : ClientId) (s : State), (s.port p).resetSense = true →
    ∃ t, exec (.resetSenseRelease p) s = .next t ∧ s.OnlyPort t p
      ∧ ((s.port p).state = .detached ∧ (s.port p).inFlight = .none ∧ (s.client p).session ≠ .teardown
            ∧ ¬ ((s.port p).senseOwed = true ∧ (s.client p).session = .opened) →
          t.port p = { s.port p with resetSense := false, state := .ready, senseOwed := false })
      ∧ (¬ ((s.port p).state = .detached ∧ (s.port p).inFlight = .none ∧ (s.client p).session ≠ .teardown
            ∧ ¬ ((s.port p).senseOwed = true ∧ (s.client p).session = .opened)) →
          t.port p = { s.port p with resetSense := false })

/-! ### The checks of a taken request -/

/-- The session check (R105), the first that every request but IDLE meets, one of an unknown code too; a request it
refuses changes nothing, and one that proceeds is not answered by it. -/
def Obligations.SessionCheckComesFirst : Prop :=
  (∀ (q : Request) (p : ClientId) (s : State) (ps : List Byte), s.InFlight p q ps →
    ((s.client p).session = .none → q ≠ .join →
      ∃ t, exec (q.instr p) s = .next t ∧ s.OnlyAnswered t p .noSession [])
    ∧ ((s.client p).session = .opened → q = .join →
      ∃ t, exec (q.instr p) s = .next t ∧ s.OnlyAnswered t p .inSession [])
    ∧ ((s.client p).session = .teardown →
      ∃ t, exec (q.instr p) s = .next t ∧ s.OnlyAnswered t p .ending [])
    ∧ (s.SessionPasses p q →
      ∃ t, exec (q.instr p) s = .next t ∧ ∀ a data, (t.port p).inFlight = .answered a data →
        a ≠ .noSession ∧ a ≠ .inSession ∧ a ≠ .ending))
  ∧ (∀ (p : ClientId) (s : State) (code : Byte) (ps : List Byte), (s.port p).inFlight = .taken code ps →
    code ≠ 0x00#8 → (∀ q : Request, code ≠ q.code) →
    ((s.client p).session = .none →
      ∃ t, exec (.unknownCode p) s = .next t ∧ s.OnlyAnswered t p .noSession [])
    ∧ ((s.client p).session = .teardown →
      ∃ t, exec (.unknownCode p) s = .next t ∧ s.OnlyAnswered t p .ending []))
  ∧ ∀ (p : ClientId) (s : State), exec (.idle p) s = .next s

/-- Stages 3, 4 and 5 of R164, in their order: role, length, ranges, by the tables of R104, R161 and R166; a request they
refuse changes nothing (R165), and one that passes them is not answered by them. -/
def Obligations.RoleLengthAndRangesInOrder : Prop :=
  ∀ (q : Request) (p : ClientId) (s : State) (ps : List Byte), s.InFlight p q ps → s.SessionPasses p q →
    (q.ForSupervisor → p ≠ 0 → ∃ t, exec (q.instr p) s = .next t ∧ s.OnlyAnswered t p .notSupervisor [])
    ∧ ((q.ForSupervisor → p = 0) → ¬ q.LengthFits ps.length →
      ∃ t, exec (q.instr p) s = .next t ∧ s.OnlyAnswered t p .badRequest [])
    ∧ ((q.ForSupervisor → p = 0) → q.LengthFits ps.length → ¬ q.RangesHold ps →
      ∃ t, exec (q.instr p) s = .next t ∧ s.OnlyAnswered t p .badParam [])
    ∧ ((q.ForSupervisor → p = 0) → q.LengthFits ps.length → q.RangesHold ps →
      ∃ t, exec (q.instr p) s = .next t ∧ ∀ a data, (t.port p).inFlight = .answered a data →
        a ≠ .notSupervisor ∧ a ≠ .badRequest ∧ a ≠ .badParam)

/-- Stages 6 and 7 of R164: a key that no record has is answered NO-SUCH-KEY (R2), and a RETIRING record is answered
RETIRING to ACQUIRE, ACCEPT, DECLINE, CANCEL, AMEND and RETIRE (R7); neither changes anything. -/
def Obligations.KeyLookupThenLifecycle : Prop :=
  ∀ (q : Request) (p : ClientId) (s : State) (ps : List Byte), s.Passes p q ps → q.namesRecord = true →
    ((∀ i r, s.record i = some r → r.key ≠ wordAt ps 0) →
      ∃ t, exec (q.instr p) s = .next t ∧ s.OnlyAnswered t p .noSuchKey [])
    ∧ ∀ i r, s.DirectoryLegal → s.record i = some r → r.key = wordAt ps 0 → r.lifecycle = .retiring →
      q.NeedsActive → ∃ t, exec (q.instr p) s = .next t ∧ s.OnlyAnswered t p .retiring []

/-- A request with a code the part does not know meets the session check, and from an OPEN session is answered
BAD-REQUEST whatever its parameters; one with a known code and a length that does not fit it is answered BAD-REQUEST
after the session and role checks, its parameters not examined. INSPECT CLIENT fits with a length of 1 or 2 (R165). -/
def Obligations.UnknownCodesAndWrongLengths : Prop :=
  (∀ (p : ClientId) (s : State) (code : Byte) (ps : List Byte), (s.port p).inFlight = .taken code ps →
    code ≠ 0x00#8 → (∀ q : Request, code ≠ q.code) →
    ∃ t, exec (.unknownCode p) s = .next t
      ∧ s.OnlyAnswered t p
          (match (s.client p).session with
            | .none => .noSession
            | .teardown => .ending
            | .opened => .badRequest) [])
  ∧ (∀ (q : Request) (p : ClientId) (s : State) (ps : List Byte), s.InFlight p q ps → s.SessionPasses p q →
    (q.ForSupervisor → p = 0) → ¬ q.LengthFits ps.length →
    ∃ t, exec (q.instr p) s = .next t ∧ s.OnlyAnswered t p .badRequest [])
  ∧ ∀ (s : State) (ps : List Byte), s.InFlight 0 .inspectClient ps → s.SessionPasses 0 .inspectClient →
    ps.length = 1 ∨ ps.length = 2 →
    ∃ t, exec (.inspectClient 0) s = .next t ∧ ∀ a data, (t.port 0).inFlight = .answered a data → a ≠ .badRequest

/-! ### Sessions -/

/-- JOIN (R107, R92): the epoch advances, 65,535 and 0 becoming 1, the session becomes OPEN, hold used 0, and the client
enters FROZEN if its hold sense is asserted and its allowance is above 0; the reply carries the index, the new epoch
and the end cause, which is not changed; the notice set is empty and there are no claims. -/
def Obligations.JoinOpensTheSession : Prop :=
  ∀ (p : ClientId) (s : State), s.Passes p .join [] → s.DeadlinesLawful → s.HoldWithinAllowance →
    ∃ t epoch, exec (.join p) s = .next t
      ∧ epoch = (if (s.client p).epoch = 65535#16 then 1#16 else (s.client p).epoch + 1)
      ∧ s.Answered t p .done ([BitVec.ofNat 8 p.val] ++ wordBytes epoch
          ++ [BitVec.ofNat 8 (s.client p).endCause.number])
      ∧ ((s.holdUnit p).level = true ∧ 0 < (s.client p).holdAllowance →
          t.client p = { s.client p with epoch := epoch, session := .opened, holdUsed := 0, freeze := .frozen }
          ∧ s.DeadlinesFreeze t p (1000 * (s.client p).holdAllowance))
      ∧ (¬ ((s.holdUnit p).level = true ∧ 0 < (s.client p).holdAllowance) →
          t.client p = { s.client p with epoch := epoch, session := .opened, holdUsed := 0, freeze := .thawed }
          ∧ t.deadlines = s.deadlines ∧ t.holdUnits = s.holdUnits)
      ∧ (t.holdUnit p).level = (s.holdUnit p).level ∧ s.SameUnitsBut t p
      ∧ s.SameTime t ∧ t.slots = s.slots ∧ t.backlog = s.backlog ∧ t.grant = s.grant ∧ t.notices = s.notices
      ∧ s.SameClientsBut t p
      ∧ (s.SessionsClean → t.noticeSet p = { records := [], lost := false, lostShown := false }
          ∧ t.claimCount p = 0)

/-- LEAVE (R109, R113, R116): the caller's teardown begins with end cause LEAVE, and the request stays in flight for it;
with no claim the teardown completes in the same event and the DONE fills the PENDING slot, or is discarded where a
reset-sense assertion has emptied it, and the port may become READY (R144, R154). The DONE in the same event, with no
REPLY_READY, is an inference (log 7), and so is the condition on an assertion still owed (log 8). -/
def Obligations.LeaveBeginsTheTeardown : Prop :=
  ∀ (p : ClientId) (s : State), s.Passes p .leave [] → s.DeadlinesLawful → s.WaitsLegal →
    ∃ t, exec (.leave p) s = .next t ∧ s.TeardownBegins t p .leave ∧ s.SamePortsBut t p
      ∧ (s.claimCount p ≠ 0 → t.port p = { s.port p with inFlight := .waiting p })
      ∧ (s.claimCount p = 0 → (s.port p).TakesDone (t.port p) .none)

/-- EVICT (R110, R113, R116): BAD-TARGET for client 0 and for a client without an OPEN session; else the named client's
teardown begins with end cause EVICTED and the request stays in flight for it, or is answered in the same event when
the client has no claim. The evicted client's port is not reset, but a DETACHED one may become READY when the teardown
completes (R154). The DONE in the same event, with no REPLY_READY, is an inference (log 7), and so is the condition on an
assertion still owed (log 8). -/
def Obligations.EvictBeginsTheTeardown : Prop :=
  ∀ (p : ClientId) (s : State) (ps : List Byte) (c : ClientId), s.Passes p .evict ps → (byteAt ps 0).toNat = c.val →
    (c = 0 ∨ (s.client c).session ≠ .opened →
      ∃ t, exec (.evict p) s = .next t ∧ s.OnlyAnswered t p .badTarget [])
    ∧ (c ≠ 0 → (s.client c).session = .opened → s.DeadlinesLawful → s.WaitsLegal →
      ∃ t, exec (.evict p) s = .next t ∧ s.TeardownBegins t c .evicted
        ∧ (∀ q, q ≠ p → q ≠ c → t.port q = s.port q)
        ∧ (s.claimCount c ≠ 0 → t.port p = { s.port p with inFlight := .waiting c } ∧ t.port c = s.port c)
        ∧ (s.claimCount c = 0 → (s.port p).TakesDone (t.port p) (s.client p).session
            ∧ (s.port c).Settles (t.port c) .none))

/-- CLIENT_RESET_SENSE (R111, R113): an assertion owed to the client record is taken once no request of the client is on
its way to its effect: an OPEN session begins its teardown with end cause RESET-LINE, a session in TEARDOWN or NONE is
left as it is. With no claim the teardown completes in the same event (R116), and a DETACHED port may become READY
(R154). The mark senseOwed, on which this rests and which is cleared, is the model's own (log 8, an inference). -/
def Obligations.ResetSenseEndsTheSession : Prop :=
  ∀ (c : ClientId) (s : State), (s.port c).senseOwed = true →
    ((s.port c).inFlight = .none ∨ (∃ a data, (s.port c).inFlight = .answered a data)
      ∨ (s.port c).inFlight = .waiting c) →
    ((s.client c).session = .opened → s.DeadlinesLawful → s.WaitsLegal →
      ∃ t, exec (.clientResetSense c) s = .next t ∧ s.TeardownBegins t c .resetLine ∧ s.SamePortsBut t c
        ∧ (s.claimCount c ≠ 0 → t.port c = { s.port c with senseOwed := false })
        ∧ (s.claimCount c = 0 → Port.Settles { s.port c with senseOwed := false } (t.port c) .none))
    ∧ ((s.client c).session ≠ .opened →
      ∃ t, exec (.clientResetSense c) s = .next t ∧ t.port c = { s.port c with senseOwed := false }
        ∧ s.OnlyPort t c)

/-- SWEEP_VISIT (R114, R115): the sweep of a client in TEARDOWN visits the lowest slot, not yet passed, with a claim of the
client, and ends that claim: a holding LEFT or TORN-DOWN in the steps of R40, a waiter entry as R47 states, with no
notice to the client; the hand-over and the offer check follow, with the offers they make (R11, R57, R67). With no claim
left there is no visit, and the command changes nothing (log 2, the model's choice). -/
def Obligations.SweepVisitEndsTheNextClaim : Prop :=
  ∀ (c : ClientId) (s : State), (s.client c).session = .teardown →
    (∀ (i : SlotId) (r : Resource), s.OneClaimEach → s.record i = some r → (s.client c).sweepFrom ≤ i.val →
      (∀ j r', s.record j = some r' → (s.client c).sweepFrom ≤ j.val → j.val < i.val → r'.claimsOf c = 0) →
      (∀ h, r.holdingOf c = some h →
        ∃ t, exec (.sweepVisit c) s = .next t ∧ t.ports = s.ports
          ∧ (s.setClient c { s.client c with sweepFrom := i.val + 1 }).HoldingEnds t i r h
              (if (s.client c).endCause = .leave then .left else .tornDown))
      ∧ (r.holdingOf c = none → (r.waiterOf c).isSome = true →
        ∃ t, exec (.sweepVisit c) s = .next t ∧ t.ports = s.ports
          ∧ (s.setClient c { s.client c with sweepFrom := i.val + 1 }).WaitEnds t i r c (s.noticeSet c)))
    ∧ ((∀ i r, s.record i = some r → (s.client c).sweepFrom ≤ i.val → r.claimsOf c = 0) →
      exec (.sweepVisit c) s = .next s)

/-- TEARDOWN_COMPLETION (R116, R154): with no claim left the session becomes NONE, the rest of the record is kept, and the
LEAVE or the EVICT that waits for it has its DONE: in its PENDING slot, or discarded where a reset-sense assertion has
emptied the slot (R144); a DETACHED port may then become READY. With a claim left nothing is completed (that the command then changes nothing is
the model's choice, log 2). The DONE with no
REPLY_READY is an inference (log 7), and so are the condition on an assertion still owed and that leaving DETACHED
clears the mark (log 8). -/
def Obligations.TeardownCompletes : Prop :=
  ∀ (c : ClientId) (s : State), (s.client c).session = .teardown →
    (s.claimCount c = 0 →
      ∃ t, exec (.teardownCompletion c) s = .next t
        ∧ t.client c = { s.client c with session := .none } ∧ s.SameClientsBut t c
        ∧ s.SameTime t ∧ s.SameResources t ∧ t.holdUnits = s.holdUnits ∧ t.notices = s.notices
        ∧ (∀ q, q ≠ c → q ≠ 0 → t.port q = s.port q)
        ∧ ((s.port c).inFlight = .waiting c → (s.port c).TakesDone (t.port c) .none)
        ∧ ((s.port c).inFlight ≠ .waiting c → (s.port c).Settles (t.port c) .none)
        ∧ (c ≠ 0 → (s.port 0).inFlight = .waiting c → (s.port 0).TakesDone (t.port 0) (s.client 0).session)
        ∧ (c ≠ 0 → (s.port 0).inFlight ≠ .waiting c → t.port 0 = s.port 0))
    ∧ (s.claimCount c ≠ 0 → exec (.teardownCompletion c) s = .next s)

/-- SET CLIENT (R99, R119): IN-USE when the quota is below the present claims; else every setting is replaced, hold used is
0, the freeze ends, and it is entered anew if the session is OPEN, hold sense asserted and the new allowance above 0. -/
def Obligations.SetClientReplacesTheSettings : Prop :=
  ∀ (p : ClientId) (s : State) (ps : List Byte) (c : ClientId), s.Passes p .setClient ps →
    (byteAt ps 0).toNat = c.val →
    ((byteAt ps 1).toNat < s.claimCount c →
      ∃ t, exec (.setClient p) s = .next t ∧ s.OnlyAnswered t p .inUse [])
    ∧ (s.claimCount c ≤ (byteAt ps 1).toNat → s.DeadlinesLawful →
      ∃ t, exec (.setClient p) s = .next t ∧ s.Answered t p .done []
        ∧ (t.client c).quota = (byteAt ps 1).toNat ∧ (t.client c).ceiling.val = (byteAt ps 2).toNat
        ∧ (∀ k, k < 6 → (t.client c).mask.getLsbD k = (byteAt ps 3).getLsbD k)
        ∧ (t.client c).holdAllowance = (wordAt ps 4).toNat ∧ (t.client c).holdConsumes = (byteAt ps 6).getLsbD 0
        ∧ (t.client c).holdUsed = 0
        ∧ (t.client c).session = (s.client c).session ∧ (t.client c).epoch = (s.client c).epoch
        ∧ (t.client c).endCause = (s.client c).endCause ∧ (t.client c).sweepFrom = (s.client c).sweepFrom
        ∧ ((s.client c).session = .opened ∧ (s.holdUnit c).level = true ∧ 0 < (wordAt ps 4).toNat →
            (t.client c).freeze = .frozen ∧ s.DeadlinesFreeze t c (1000 * (wordAt ps 4).toNat))
        ∧ (¬ ((s.client c).session = .opened ∧ (s.holdUnit c).level = true ∧ 0 < (wordAt ps 4).toNat) →
            (t.client c).freeze = .thawed ∧ s.DeadlinesThaw t c)
        ∧ (t.holdUnit c).level = (s.holdUnit c).level ∧ s.SameUnitsBut t c ∧ s.SameClientsBut t c
        ∧ s.SameTime t ∧ t.slots = s.slots ∧ t.backlog = s.backlog ∧ t.grant = s.grant ∧ t.notices = s.notices)

/-- INSPECT CLIENT (R74, R121, R170): it changes nothing but its reply. Claim number 0 reads the record summary, 13 bytes; a
claim number within the claim count reads the client's claim of that place in ascending order of slot, 11 bytes; one
above it reads relation NONE. That the warned bit of an OFFERED claim reads 0 is the model's choice (log 24). -/
def Obligations.InspectClientReads : Prop :=
  ∀ (p : ClientId) (s : State) (ps : List Byte) (c : ClientId), s.Passes p .inspectClient ps →
    (byteAt ps 0).toNat = c.val →
    ((byteAt ps 1).toNat = 0 → s.HoldWithinAllowance → s.SettingsLegal → s.WithinQuota → s.NoticesLegal →
      ∃ t data, exec (.inspectClient p) s = .next t ∧ s.OnlyAnswered t p .done data ∧ data.length = 13
        ∧ (byteAt data 0).toNat
          = (match (s.client c).session with | .none => 0 | .opened => 64 | .teardown => 128)
            + (match (s.client c).freeze with | .thawed => 0 | .frozen => 16 | .overstayed => 32)
            + (if (s.client c).holdConsumes = true then 8 else 0) + (if (s.noticeSet c).lost = true then 4 else 0)
        ∧ wordAt data 1 = (s.client c).epoch
        ∧ (byteAt data 3).toNat = (s.client c).endCause.number * 16 + (s.client c).ceiling.val
        ∧ (byteAt data 4).toNat = (s.client c).quota
        ∧ (byteAt data 5).toNat = (s.client c).mask.toNat
        ∧ (wordAt data 6).toNat = (s.client c).holdAllowance
        ∧ (byteAt data 8).toNat * 65536 + (wordAt data 9).toNat = (s.client c).holdUsed
        ∧ (byteAt data 11).toNat = s.claimCount c
        ∧ (byteAt data 12).toNat = (s.noticeSet c).records.length)
    ∧ (∀ (i : SlotId) (r : Resource), s.record i = some r →
        (allSlots.countP fun j => decide (j ≤ i) && (s.record j).any fun r' => decide (r'.claimsOf c ≠ 0))
          = (byteAt ps 1).toNat →
        r.claimsOf c ≠ 0 →
        ∃ t data left isStored, exec (.inspectClient p) s = .next t ∧ s.OnlyAnswered t p .done data
          ∧ data.length = 11 ∧ (byteAt data 0).getLsbD 2 = isStored ∧ wordAt data 9 = BitVec.ofNat 16 left
          ∧ wordAt data 1 = r.key ∧ (byteAt data 3).toNat = i.val
          ∧ (∀ h, r.holdingOf c = some h → s.Left (.holding i c) left isStored
              ∧ (byteAt data 0).toNat / 64 = (if h.state = .held then 3 else 2)
              ∧ ((byteAt data 0).getLsbD 5 = true ↔ h.tenure = .shared)
              ∧ (byteAt data 0).getLsbD 4 = h.suspect
              ∧ ((byteAt data 0).getLsbD 3 = true ↔ h.state = .held ∧ h.warned = true)
              ∧ (byteAt data 4).toNat = 0 ∧ longAt data 5 = h.gen)
          ∧ (∀ w, r.holdingOf c = none → r.waiterOf c = some w → s.Left (.waiter i c) left isStored
              ∧ (byteAt data 0).toNat / 64 = 1
              ∧ ((byteAt data 0).getLsbD 5 = true ↔ w.mode = .shared)
              ∧ ((byteAt data 0).getLsbD 1 = true ↔ s.deadlineOf (.waiter i c) = none)
              ∧ (byteAt data 4).toNat = w.priority.val ∧ longAt data 5 = 0))
    ∧ ((allSlots.countP fun j => (s.record j).any fun r' => decide (r'.claimsOf c ≠ 0)) < (byteAt ps 1).toNat →
        ∃ t, exec (.inspectClient p) s = .next t ∧ s.OnlyAnswered t p .done [0x00#8])

/-! ### ACQUIRE -/

/-- ACQUIRE's own refusals, in their order (R49, R51, R52): SHARE-REFUSED, ALREADY-CLAIMED, SPENT, QUOTA; and where it is
not granted at once, UNAVAILABLE with the first reason that applies when it will not wait, NO-WAIT-SPACE when it would
and no waiter entry is free. None changes anything. -/
def Obligations.AcquireRefusals : Prop :=
  ∀ (p : ClientId) (s : State) (ps : List Byte) (i : SlotId) (r : Resource), s.Reaches p .acquire ps i r →
    let mode := modeAsked ps
    let priority := s.priorityUsed p ps
    let shareRefused := mode = .shared ∧ r.cls = .exclusiveOnly
    (shareRefused → ∃ t, exec (.acquire p) s = .next t ∧ s.OnlyAnswered t p .shareRefused [])
    ∧ (¬ shareRefused → r.claimsOf p ≠ 0 →
        ∃ t, exec (.acquire p) s = .next t ∧ s.OnlyAnswered t p .alreadyClaimed [])
    ∧ (¬ shareRefused → r.claimsOf p = 0 → s.grant = 0xFFFFFFFF#32 →
        ∃ t, exec (.acquire p) s = .next t ∧ s.OnlyAnswered t p .spent [])
    ∧ (¬ shareRefused → r.claimsOf p = 0 → s.grant ≠ 0xFFFFFFFF#32 → (s.client p).quota ≤ s.claimCount p →
        ∃ t, exec (.acquire p) s = .next t ∧ s.OnlyAnswered t p .quota [])
    ∧ (s.AcquirePasses p r mode → wordAt ps 4 = 0 →
        (¬ s.NoneAhead r priority →
          ∃ t, exec (.acquire p) s = .next t ∧ s.OnlyAnswered t p .unavailable [0x02#8])
        ∧ (s.NoneAhead r priority → ¬ r.Admits mode →
          ∃ t, exec (.acquire p) s = .next t ∧ s.OnlyAnswered t p .unavailable [0x01#8])
        ∧ (s.NoneAhead r priority → r.Admits mode → ¬ s.HasSpace →
          ∃ t, exec (.acquire p) s = .next t ∧ s.OnlyAnswered t p .unavailable [0x03#8]))
    ∧ (s.AcquirePasses p r mode → wordAt ps 4 ≠ 0 →
        ¬ (s.NoneAhead r priority ∧ r.Admits mode ∧ s.HasSpace) → 48 ≤ (s.total fun r' => r'.queue.length) →
        ∃ t, exec (.acquire p) s = .next t ∧ s.OnlyAnswered t p .noWaitSpace [])

/-- An immediate grant (R24, R28, R50, R76, R83, R94, R167): with no one ahead, a compatible tenure and a holding record to be
had, ACQUIRE creates a HELD holding at the tail of the holder list, with the next generation and a lease on the record's
terms, at its place in the list, or stored when the caller is FROZEN. -/
def Obligations.AcquireGrantsAtOnce : Prop :=
  ∀ (p : ClientId) (s : State) (ps : List Byte) (i : SlotId) (r : Resource), s.Reaches p .acquire ps i r →
    let mode := modeAsked ps
    let priority := s.priorityUsed p ps
    s.AcquirePasses p r mode → s.NoneAhead r priority → r.Admits mode → s.HasSpace →
    ∃ t, exec (.acquire p) s = .next t
      ∧ s.Answered t p .granted
          (longBytes (s.grant + 1) ++ wordBytes r.leaseTerm ++ [if r.integrity = .suspect then 1 else 0])
      ∧ t.grant = s.grant + 1
      ∧ t.record i = some { r with holders := r.holders ++
          [{ client := p, tenure := mode, state := .held, gen := s.grant + 1, suspect := r.integrity == .suspect,
             warned := false }] }
      ∧ t.deadlineOf (.holding i p) = some (r.lease (s.isFrozen p))
      ∧ s.SameDeadlinesBut t (fun o => o = .holding i p) ∧ s.ArmsLease t i p r
      ∧ s.SameTime t ∧ s.SameRecordsBut t i ∧ t.backlog = s.backlog ∧ t.clients = s.clients ∧ t.notices = s.notices
      ∧ s.SameFreezes t

/-- A waiter entry is made (R46, R52, R76, R87): directly behind the last entry of no lower priority, with its WAIT-END unless the
wait is unbounded; the reply gives the position and the priority used. At the head, the resource joins or keeps its
place in the Offer Backlog if an offer is owed to the entry, and leaves it if not. -/
def Obligations.AcquireQueues : Prop :=
  ∀ (p : ClientId) (s : State) (ps : List Byte) (i : SlotId) (r : Resource), s.Reaches p .acquire ps i r →
    let mode := modeAsked ps
    let priority := s.priorityUsed p ps
    let wait := wordAt ps 4
    s.AcquirePasses p r mode → ¬ (s.NoneAhead r priority ∧ r.Admits mode ∧ s.HasSpace) → wait ≠ 0 →
    (s.total fun r' => r'.queue.length) < 48 → s.BacklogLaw →
    ∃ t before after, exec (.acquire p) s = .next t
      ∧ r.queue = before ++ after
      ∧ (∀ w, before.getLast? = some w → priority ≤ w.priority) ∧ (∀ w ∈ after, w.priority < priority)
      ∧ t.record i = some { r with
          queue := before ++ { client := p, mode := mode, priority := priority } :: after }
      ∧ s.Answered t p .queued [BitVec.ofNat 8 (before.length + 1), BitVec.ofNat 8 priority.val]
      ∧ (wait ≠ 65535#16 → t.deadlineOf (.waiter i p) = some (.waitEnd, wait.toNat, s.isFrozen p))
      ∧ (wait ≠ 65535#16 → s.Arms t (.waiter i p) .waitEnd wait.toNat)
      ∧ (wait = 65535#16 → t.deadlines = s.deadlines ∧ t.holdUnits = s.holdUnits)
      ∧ s.SameDeadlinesBut t (fun o => o = .waiter i p)
      ∧ (before ≠ [] → t.backlog = s.backlog)
      ∧ (before = [] → r.Admits mode → t.backlog = if i ∈ s.backlog then s.backlog else s.backlog ++ [i])
      ∧ (before = [] → ¬ r.Admits mode → t.backlog = s.backlog.filter fun j => j != i)
      ∧ t.grant = s.grant ∧ s.SameTime t ∧ s.SameRecordsBut t i ∧ t.clients = s.clients ∧ t.notices = s.notices
      ∧ s.SameFreezes t

/-! ### Offers and waits -/

/-- The checks on the caller's standing, before any change (R30, R60): a key or a generation of 0 is BAD-PARAM; for ACCEPT
and DECLINE, NOT-OFFERED without a
holding, ALREADY-CLAIMED with a HELD one, STALE with another generation; for RENEW, RELEASE, DOWNGRADE and MARK SOUND,
NOT-HOLDER without a HELD holding, STALE with another generation. -/
def Obligations.StandingChecks : Prop :=
  (∀ (q : Request) (p : ClientId) (s : State) (ps : List Byte), s.InFlight p q ps → s.SessionPasses p q →
    q = .accept ∨ q = .decline ∨ q = .renew ∨ q = .release ∨ q = .downgrade ∨ q = .markSound →
    ps.length = 6 → wordAt ps 0 = 0 ∨ longAt ps 2 = 0 →
    ∃ t, exec (q.instr p) s = .next t ∧ s.OnlyAnswered t p .badParam [])
  ∧ ∀ (q : Request) (p : ClientId) (s : State) (ps : List Byte) (i : SlotId) (r : Resource), s.Reaches p q ps i r →
    (q = .accept ∨ q = .decline →
      (r.holdingOf p = none → ∃ t, exec (q.instr p) s = .next t ∧ s.OnlyAnswered t p .notOffered [])
      ∧ (∀ h, r.holdingOf p = some h → h.state = .held →
          ∃ t, exec (q.instr p) s = .next t ∧ s.OnlyAnswered t p .alreadyClaimed [])
      ∧ (∀ h, r.holdingOf p = some h → h.state = .offered → h.gen ≠ longAt ps 2 →
          ∃ t, exec (q.instr p) s = .next t ∧ s.OnlyAnswered t p .stale []))
    ∧ (q = .renew ∨ q = .release ∨ q = .downgrade ∨ q = .markSound →
      (r.holdingOf p = none → ∃ t, exec (q.instr p) s = .next t ∧ s.OnlyAnswered t p .notHolder [])
      ∧ (∀ h, r.holdingOf p = some h → h.state = .offered →
          ∃ t, exec (q.instr p) s = .next t ∧ s.OnlyAnswered t p .notHolder [])
      ∧ (∀ h, r.holdingOf p = some h → h.state = .held → h.gen ≠ longAt ps 2 →
          ∃ t, exec (q.instr p) s = .next t ∧ s.OnlyAnswered t p .stale []))

/-- ACCEPT turns the caller's offer into a HELD holding on a new lease, stored when the caller is FROZEN, and clears its
OFFER notice; the holding keeps its generation, tenure, suspect-at-grant and place (R61). -/
def Obligations.AcceptTakesTheOffer : Prop :=
  ∀ (p : ClientId) (s : State) (ps : List Byte) (i : SlotId) (r : Resource) (h : Holding),
    s.Reaches p .accept ps i r → s.OneClaimEach → r.holdingOf p = some h → h.state = .offered → h.gen = longAt ps 2 →
    ∃ t, exec (.accept p) s = .next t
      ∧ s.Answered t p .granted (longBytes h.gen ++ wordBytes r.leaseTerm ++ [if h.suspect = true then 1 else 0])
      ∧ t.record i = some { r with holders := r.holders.map fun g =>
          if g.client = p then { h with state := .held, warned := false } else g }
      ∧ t.deadlineOf (.holding i p) = some (r.lease (s.isFrozen p))
      ∧ s.SameDeadlinesBut t (fun o => o = .holding i p) ∧ s.ArmsLease t i p r
      ∧ t.noticeSet p = (s.noticeSet p).without (Notice.isOfferFor r.key)
      ∧ s.SameNoticesBut t p
      ∧ s.SameTime t ∧ s.SameRecordsBut t i ∧ t.backlog = s.backlog ∧ t.grant = s.grant ∧ t.clients = s.clients
      ∧ s.SameFreezes t

/-- DECLINE ends the caller's offer DECLINED and RELEASE its HELD holding RELEASED, in the steps of R40, with the offers
that the hand-over and the offer check make (R11, R57, R67); the reply is DONE (R33, R62). -/
def Obligations.DeclineAndReleaseEndTheHolding : Prop :=
  ∀ (p : ClientId) (s : State) (ps : List Byte) (i : SlotId) (r : Resource) (h : Holding), s.OneClaimEach →
    r.holdingOf p = some h → h.gen = longAt ps 2 →
    (s.Reaches p .decline ps i r → h.state = .offered →
      ∃ t, exec (.decline p) s = .next t ∧ s.HoldingEnds t i r h .declined ∧ s.Answered t p .done []
        ∧ ∀ n ∈ (t.noticeSet p).records, n.isOfferFor r.key = false)
    ∧ (s.Reaches p .release ps i r → h.state = .held →
      ∃ t, exec (.release p) s = .next t ∧ s.HoldingEnds t i r h .released ∧ s.Answered t p .done [])

/-- CANCEL removes the caller's waiter entry, with no notice, and is answered DONE; if the entry was the head, the offer
check is made (R11, R57). Without an entry it is refused NOT-WAITING and changes nothing (R47, R54). -/
def Obligations.CancelLeavesTheQueue : Prop :=
  ∀ (p : ClientId) (s : State) (ps : List Byte) (i : SlotId) (r : Resource), s.Reaches p .cancel ps i r →
    (r.waiterOf p = none → ∃ t, exec (.cancel p) s = .next t ∧ s.OnlyAnswered t p .notWaiting [])
    ∧ (∀ w, s.OneClaimEach → r.waiterOf p = some w →
      ∃ t, exec (.cancel p) s = .next t ∧ s.WaitEnds t i r p (s.noticeSet p) ∧ s.Answered t p .done [])

/-! ### Holdings -/

/-- RENEW arms a new lease on the record's present terms, clears warned and the EXPIRING for the generation, and is
answered with the lease term (R32). -/
def Obligations.RenewArmsANewLease : Prop :=
  ∀ (p : ClientId) (s : State) (ps : List Byte) (i : SlotId) (r : Resource) (h : Holding),
    s.Reaches p .renew ps i r → s.OneClaimEach → r.holdingOf p = some h → h.state = .held → h.gen = longAt ps 2 →
    ∃ t, exec (.renew p) s = .next t ∧ s.Answered t p .done (wordBytes r.leaseTerm)
      ∧ t.record i = some { r with holders := r.holders.map fun g =>
          if g.client = p then { h with warned := false } else g }
      ∧ t.deadlineOf (.holding i p) = some (r.lease (s.isFrozen p))
      ∧ s.SameDeadlinesBut t (fun o => o = .holding i p) ∧ s.ArmsLease t i p r
      ∧ t.noticeSet p = (s.noticeSet p).without (Notice.isExpiringFor r.key h.gen)
      ∧ s.SameNoticesBut t p
      ∧ s.SameTime t ∧ s.SameRecordsBut t i ∧ t.backlog = s.backlog ∧ t.grant = s.grant ∧ t.clients = s.clients
      ∧ s.SameFreezes t

/-- DOWNGRADE: SHARE-REFUSED on an EXCLUSIVE-ONLY resource, EXCLUSIVE-NEEDED for a SHARED holder; else the holding's tenure
becomes SHARED, everything else of it and its deadline kept, the offer check follows and the reply is DONE (R11, R27,
R57). -/
def Obligations.DowngradeSharesTheHolding : Prop :=
  ∀ (p : ClientId) (s : State) (ps : List Byte) (i : SlotId) (r : Resource) (h : Holding),
    s.Reaches p .downgrade ps i r → r.holdingOf p = some h → h.state = .held → h.gen = longAt ps 2 →
    (r.cls = .exclusiveOnly → ∃ t, exec (.downgrade p) s = .next t ∧ s.OnlyAnswered t p .shareRefused [])
    ∧ (r.cls ≠ .exclusiveOnly → h.tenure = .shared →
      ∃ t, exec (.downgrade p) s = .next t ∧ s.OnlyAnswered t p .exclusiveNeeded [])
    ∧ (r.cls ≠ .exclusiveOnly → h.tenure = .exclusive → s.OneClaimEach →
      ∃ t, exec (.downgrade p) s = .next t ∧ s.Answered t p .done []
        ∧ t.deadlineOf (.holding i p) = s.deadlineOf (.holding i p)
        ∧ (s.setRecord i (some { r with holders := r.holders.map fun g =>
            if g.client = p then { h with tenure := .shared } else g })).OffersFrom t i 0)

/-- MARK SOUND: EXCLUSIVE-NEEDED for a SHARED holder; else the resource becomes SOUND and nothing else changes (R34). -/
def Obligations.MarkSoundClearsTheDoubt : Prop :=
  ∀ (p : ClientId) (s : State) (ps : List Byte) (i : SlotId) (r : Resource) (h : Holding),
    s.Reaches p .markSound ps i r → r.holdingOf p = some h → h.state = .held → h.gen = longAt ps 2 →
    (h.tenure = .shared → ∃ t, exec (.markSound p) s = .next t ∧ s.OnlyAnswered t p .exclusiveNeeded [])
    ∧ (h.tenure = .exclusive →
      ∃ t, exec (.markSound p) s = .next t ∧ s.Answered t p .done []
        ∧ t.record i = some { r with integrity := .sound } ∧ s.SameRecordsBut t i
        ∧ t.deadlines = s.deadlines ∧ t.backlog = s.backlog ∧ t.grant = s.grant ∧ s.SameTime t ∧ s.SameClientSide t)

/-- REVOKE: NOT-HOLDER where the named client has no HELD holding; else that holding ends REVOKED in the steps of R40, with
a REVOKED notice to its client and the offers that the hand-over and the offer check make (R11, R57, R67), and the
supervisor is answered DONE (R35, R36). -/
def Obligations.RevokeEndsTheNamedHolding : Prop :=
  ∀ (p : ClientId) (s : State) (ps : List Byte) (i : SlotId) (r : Resource) (c : ClientId),
    s.Reaches p .revoke ps i r → (byteAt ps 2).toNat = c.val →
    ((∀ h, r.holdingOf c = some h → h.state = .offered) →
      ∃ t, exec (.revoke p) s = .next t ∧ s.OnlyAnswered t p .notHolder [])
    ∧ (∀ h, r.holdingOf c = some h → h.state = .held → s.OneClaimEach →
      ∃ t, exec (.revoke p) s = .next t ∧ s.HoldingEnds t i r h .revoked ∧ s.Answered t p .done [])

/-- The end of a holding changes integrity in one case: a HELD EXCLUSIVE holding that ends EXPIRED, REVOKED or TORN-DOWN
makes the resource SUSPECT; every other end leaves integrity as it is, in the record if it still stands (R39). -/
def Obligations.IntegrityAtTheEndOfAHolding : Prop :=
  ∀ (s : State) (i : SlotId) (r : Resource) (h : Holding) (cause : HoldingEnd),
    s.record i = some r → r.holdingOf h.client = some h →
    ∀ r', (s.endHolding i h.client cause).record i = some r' →
      ((h.state = .held ∧ h.tenure = .exclusive ∧ (cause = .expired ∨ cause = .revoked ∨ cause = .tornDown)) →
        r'.integrity = .suspect)
      ∧ (¬ (h.state = .held ∧ h.tenure = .exclusive ∧ (cause = .expired ∨ cause = .revoked ∨ cause = .tornDown)) →
        r'.integrity = r.integrity)

/-! ### The directory -/

/-- DEFINE (R3, R13): KEY-IN-USE where a record has the key, DIRECTORY-FULL where no slot is free; else an ACTIVE, SOUND
record with the request's terms and empty lists in the lowest free slot, which the reply names. -/
def Obligations.DefineFillsTheLowestFreeSlot : Prop :=
  ∀ (p : ClientId) (s : State) (ps : List Byte), s.Passes p .define ps →
    ((∃ i r, s.record i = some r ∧ r.key = wordAt ps 0) →
      ∃ t, exec (.define p) s = .next t ∧ s.OnlyAnswered t p .keyInUse [])
    ∧ ((∀ i r, s.record i = some r → r.key ≠ wordAt ps 0) → (∀ i, (s.record i).isSome = true) →
      ∃ t, exec (.define p) s = .next t ∧ s.OnlyAnswered t p .directoryFull [])
    ∧ ((∀ i r, s.record i = some r → r.key ≠ wordAt ps 0) →
      ∀ i, s.record i = none → (∀ j, j.val < i.val → (s.record j).isSome = true) →
      ∃ t, exec (.define p) s = .next t ∧ s.Answered t p .done [BitVec.ofNat 8 i.val]
        ∧ t.record i = some
            { key := wordAt ps 0
              cls := if byteAt ps 2 = 0x02#8 then .shareable (byteAt ps 3).toNat else .exclusiveOnly
              leaseTerm := wordAt ps 4, warnMargin := wordAt ps 6, offerWindow := wordAt ps 8
              lifecycle := .active, integrity := .sound, holders := [], queue := [] }
        ∧ s.SameRecordsBut t i ∧ t.deadlines = s.deadlines ∧ t.backlog = s.backlog ∧ t.grant = s.grant
        ∧ s.SameTime t ∧ s.SameClientSide t)

/-- AMEND (R14, R15): IN-USE where SHARED claims stand against EXCLUSIVE-ONLY, or the limit would be below the holdings;
else the terms are replaced and everything else of the record is kept; a raised limit or a changed class makes the
offer check (R11, R57), and nothing else changes. -/
def Obligations.AmendReplacesTheTerms : Prop :=
  ∀ (p : ClientId) (s : State) (ps : List Byte) (i : SlotId) (r : Resource), s.Reaches p .amend ps i r →
    let cls : ResClass := if byteAt ps 2 = 0x02#8 then .shareable (byteAt ps 3).toNat else .exclusiveOnly
    let inUse := (cls = .exclusiveOnly ∧ ((∃ h ∈ r.holders, h.tenure = .shared) ∨ ∃ w ∈ r.queue, w.mode = .shared))
      ∨ ∃ limit, cls = .shareable limit ∧ limit < r.holders.length
    let amended := { r with cls := cls, leaseTerm := wordAt ps 4, warnMargin := wordAt ps 6,
                            offerWindow := wordAt ps 8 }
    (inUse → ∃ t, exec (.amend p) s = .next t ∧ s.OnlyAnswered t p .inUse [])
    ∧ (¬ inUse →
      let noWider := cls = r.cls ∨ ∃ old new, r.cls = .shareable old ∧ cls = .shareable new ∧ new ≤ old
      (noWider →
        ∃ t, exec (.amend p) s = .next t ∧ s.Answered t p .done [] ∧ t.record i = some amended
          ∧ s.SameRecordsBut t i ∧ t.deadlines = s.deadlines ∧ t.backlog = s.backlog ∧ t.grant = s.grant
          ∧ s.SameTime t ∧ s.SameClientSide t)
      ∧ (¬ noWider →
        ∃ t, exec (.amend p) s = .next t ∧ s.Answered t p .done [] ∧ (s.setRecord i (some amended)).OffersFrom t i 0))

/-- RETIRE (R16, R17): every waiter entry and every offer is withdrawn, its deadline disarmed, with a WITHDRAWN notice to
each OPEN client and the offer's OFFER notice cleared, and the resource leaves the backlog; then the record is removed, or
becomes RETIRING with its HELD holdings untouched where there are any. The holding records freed are handed over one
after another (R67, R68); beyond the withdrawals and the offers that follow from them, nothing changes but the reply. -/
def Obligations.RetireWithdrawsThenRemoves : Prop :=
  ∀ (p : ClientId) (s : State) (ps : List Byte) (i : SlotId) (r : Resource),
    s.Reaches p .retire ps i r → s.OneClaimEach →
    ∃ t, exec (.retire p) s = .next t
      ∧ (r.heldOnes = [] → t.record i = none ∧ s.Answered t p .done [0x01#8])
      ∧ (r.heldOnes ≠ [] →
          t.record i = some { r with lifecycle := .retiring, holders := r.heldOnes, queue := [] }
          ∧ s.Answered t p .done [0x02#8])
      ∧ i ∉ t.backlog
      ∧ (∀ w ∈ r.queue, t.deadlineOf (.waiter i w.client) = none)
      ∧ (∀ h ∈ r.holders, h.state = .offered → t.deadlineOf (.holding i h.client) = none)
      ∧ (s.resourceWithdrawn i r).OffersFrom t i (r.holders.countP fun h => h.state == .offered)

/-- QUERY (R5, R20, R74, R168): it changes nothing but its reply, which reads the record and the caller's relation, with
the time left to its lease or offer end. -/
def Obligations.QueryReadsTheRecord : Prop :=
  ∀ (p : ClientId) (s : State) (ps : List Byte) (i : SlotId) (r : Resource),
    s.Reaches p .query ps i r → s.TenureLaw → s.WithinPools →
    ∃ t data left isStored, exec (.query p) s = .next t ∧ s.OnlyAnswered t p .done data
      ∧ (byteAt data 0).toNat % 64 = i.val
      ∧ (r.holders = [] → (byteAt data 0).toNat / 64 = 0)
      ∧ (r.holders ≠ [] → (∀ h ∈ r.holders, h.state = .offered) → (byteAt data 0).toNat / 64 = 1)
      ∧ ((∃ h ∈ r.holders, h.state = .held ∧ h.tenure = .exclusive) → (byteAt data 0).toNat / 64 = 2)
      ∧ ((∃ h ∈ r.holders, h.state = .held ∧ h.tenure = .shared) → (byteAt data 0).toNat / 64 = 3)
      ∧ (r.cls = .exclusiveOnly → (byteAt data 1).toNat = 0 ∧ (byteAt data 4).getLsbD 7 = false)
      ∧ (∀ limit, r.cls = .shareable limit → (byteAt data 1).toNat = limit ∧ (byteAt data 4).getLsbD 7 = true)
      ∧ wordAt data 2 = r.leaseTerm
      ∧ ((byteAt data 4).getLsbD 6 = true ↔ r.lifecycle = .retiring)
      ∧ ((byteAt data 4).getLsbD 5 = true ↔ r.integrity = .suspect)
      ∧ ((byteAt data 4).getLsbD 4 = true ↔ i ∈ s.backlog)
      ∧ (byteAt data 4).getLsbD 3 = false
      ∧ (byteAt data 4).toNat % 8 = r.holders.length
      ∧ (byteAt data 5).toNat = r.queue.length
      ∧ (r.claimsOf p = 0 → data.length = 7 ∧ byteAt data 6 = 0)
      ∧ (∀ w before after, r.holdingOf p = none → r.queue = before ++ w :: after → w.client = p →
          (∀ v ∈ before, v.client ≠ p) →
          data.length = 8 ∧ (byteAt data 6).toNat = 64 + w.priority.val
          ∧ (byteAt data 7).toNat = before.length + 1)
      ∧ (∀ h, r.holdingOf p = some h →
          data.length = 13
          ∧ (byteAt data 6).toNat = (if h.state = .held then 192 else 128) + (if h.tenure = .shared then 32 else 0)
          ∧ longAt data 7 = h.gen ∧ s.Left (.holding i p) left isStored ∧ wordAt data 11 = BitVec.ofNat 16 left)

/-! ### Notices -/

/-- TAKE NOTICE (R130, R169): an empty set is answered NO-NOTICE; else the record of best rank, and of that rank the one
nearest the head, is marked presented and its key, kind, generation and detail are the reply's data. No record is
removed or moved, and LOST is not touched. -/
def Obligations.TakeNoticePresentsTheBest : Prop :=
  ∀ (p : ClientId) (s : State), s.Passes p .takeNotice [] →
    ((s.noticeSet p).records = [] → ∃ t, exec (.takeNotice p) s = .next t ∧ s.OnlyAnswered t p .noNotice [])
    ∧ ∀ before n after, s.NoticesLegal → (s.noticeSet p).records = before ++ n :: after →
      (∀ m ∈ before, n.body.number < m.body.number) → (∀ m ∈ after, n.body.number ≤ m.body.number) →
      ∃ t data, exec (.takeNotice p) s = .next t ∧ s.Answered t p .done data
        ∧ t.noticeSet p = { s.noticeSet p with records := before ++ { n with presented := true } :: after }
        ∧ s.SameNoticesBut t p ∧ s.SameTime t ∧ s.SameResources t ∧ t.clients = s.clients
        ∧ t.holdUnits = s.holdUnits
        ∧ data.length = 9 ∧ wordAt data 0 = n.key ∧ (byteAt data 2).toNat = n.body.number
        ∧ longAt data 3 = n.gen.getD 0
        ∧ (n.body = .revoked .expired → wordAt data 7 = 0x0001#16)
        ∧ (n.body = .revoked .bySupervisor → wordAt data 7 = 0x0002#16)
        ∧ (n.body = .withdrawn → wordAt data 7 = 0x0003#16)
        ∧ (∀ tenure suspect, n.body = .offer tenure suspect →
            (wordAt data 7).toNat = (if tenure = .shared then 1 else 0) + (if suspect = true then 2 else 0))
        ∧ (n.body = .offerLapsed ∨ n.body = .waitLapsed → wordAt data 7 = 0x0000#16)
        ∧ ∀ ms, n.body = .expiring ms → wordAt data 7 = ms

/-! ### Expiries and hold sense -/

/-- LEASE-WARN taken (R76, R84): the LEASE-END of the lease replaces it, due after the warning interval, warned is set, and
EXPIRING with the remaining time is raised to an OPEN client; nothing else changes. -/
def Obligations.LeaseWarnRaisesExpiring : Prop :=
  ∀ (i : SlotId) (c : ClientId) (s : State) (r : Resource) (h : Holding) (interval : Ms),
    s.IsDue (.holding i c) (.leaseWarn interval) → s.record i = some r → r.holdingOf c = some h → s.OneClaimEach →
    ∃ t, exec (.leaseWarn i c) s = .next t
      ∧ t.deadlineOf (.holding i c) = some (.leaseEnd, interval.toNat, false)
      ∧ s.SameDeadlinesBut t (fun o => o = .holding i c)
      ∧ s.InsertedInto { owner := .holding i c, kind := .leaseEnd, due := s.clock + interval.setWidth 32 }
          (s.deadlines.filter fun d => d.owner != .holding i c) t.deadlines
      ∧ t.record i = some { r with holders := r.holders.map fun g =>
          if g.client = c then { h with warned := true } else g }
      ∧ ((s.client c).session = .opened →
          t.noticeSet c = (s.noticeSet c).raise
            { key := r.key, body := .expiring interval, gen := some h.gen, presented := false })
      ∧ ((s.client c).session ≠ .opened → t.noticeSet c = s.noticeSet c)
      ∧ s.SameNoticesBut t c ∧ s.SameTime t ∧ s.SameRecordsBut t i ∧ t.backlog = s.backlog ∧ t.grant = s.grant
      ∧ t.clients = s.clients ∧ t.holdUnits = s.holdUnits ∧ t.ports = s.ports

/-- LEASE-END taken ends the holding EXPIRED, with REVOKED to its client (R37); OFFER-END taken ends it LAPSED, with
OFFER-LAPSED (R63); each in the steps of R40, with the offers that the hand-over and the offer check make (R11, R57,
R67). -/
def Obligations.LeaseEndAndOfferEndEndTheHolding : Prop :=
  ∀ (i : SlotId) (c : ClientId) (s : State) (r : Resource) (h : Holding),
    s.record i = some r → r.holdingOf c = some h → s.OneClaimEach →
    (s.IsDue (.holding i c) .leaseEnd →
      ∃ t, exec (.leaseEnd i c) s = .next t ∧ s.HoldingEnds t i r h .expired ∧ t.ports = s.ports)
    ∧ (s.IsDue (.holding i c) .offerEnd →
      ∃ t, exec (.offerEnd i c) s = .next t ∧ s.HoldingEnds t i r h .lapsed ∧ t.ports = s.ports)

/-- WAIT-END taken (R55): the entry leaves its queue as R47 states, with WAIT-LAPSED to an OPEN client, and the offer check
follows if it was the head (R11, R57). -/
def Obligations.WaitEndLapsesTheWait : Prop :=
  ∀ (i : SlotId) (c : ClientId) (s : State) (r : Resource) (w : Waiter),
    s.IsDue (.waiter i c) .waitEnd → s.record i = some r → r.waiterOf c = some w → s.OneClaimEach →
    ∃ t, exec (.waitEnd i c) s = .next t ∧ t.ports = s.ports
      ∧ s.WaitEnds t i r c (s.raisedFor c (s.noticeSet c) (notice r.key .waitLapsed none))

/-- ALLOWANCE-END taken (R96): hold used equals the allowance, the client becomes OVERSTAYED, and its stored deadlines run
again, with no notice and no reply. One that is not live (R96), or not due yet (R80), is not taken: that the command then
changes nothing is the model's choice (log 2). -/
def Obligations.AllowanceEndOverstays : Prop :=
  (∀ (c : ClientId) (s : State), (∀ d ∈ s.deadlines, d.owner = .client c → d.due ≠ s.clock) →
    exec (.allowanceEnd c) s = .next s)
  ∧ ∀ (c : ClientId) (s : State), s.IsDue (.client c) .allowanceEnd → s.DeadlinesLawful →
    ∃ t, exec (.allowanceEnd c) s = .next t
      ∧ t.client c = { s.client c with holdUsed := 1000 * (s.client c).holdAllowance, freeze := .overstayed }
      ∧ s.DeadlinesThaw t c ∧ (t.holdUnit c).level = (s.holdUnit c).level
      ∧ s.SameClientsBut t c ∧ s.SameUnitsBut t c ∧ s.SameTime t ∧ t.slots = s.slots ∧ t.backlog = s.backlog
      ∧ t.grant = s.grant ∧ t.notices = s.notices ∧ t.ports = s.ports

/-- An expiry is taken only while its deadline is live and due (R37, R55, R63, R78, R96): without such a deadline in the list
the command changes nothing (log 2). -/
def Obligations.ExpiriesNeedALiveDueDeadline : Prop :=
  ∀ (i : SlotId) (c : ClientId) (s : State),
    ((∀ d ∈ s.deadlines, d.owner = .holding i c → d.due ≠ s.clock) →
      exec (.leaseWarn i c) s = .next s ∧ exec (.leaseEnd i c) s = .next s ∧ exec (.offerEnd i c) s = .next s)
    ∧ ((∀ d ∈ s.deadlines, d.owner = .waiter i c → d.due ≠ s.clock) → exec (.waitEnd i c) s = .next s)
    ∧ ((∀ d ∈ s.deadlines, d.owner = .client c → d.due ≠ s.clock) → exec (.allowanceEnd c) s = .next s)

/-- HOLD_ASSERTION (R90, R92, R97): the level is recorded; a client that meets the freeze condition enters FROZEN, its
deadlines set aside in list order and its ALLOWANCE-END armed (R76, R79); one whose allowance is spent becomes OVERSTAYED; any other stays
THAWED. -/
def Obligations.HoldAssertionFreezes : Prop :=
  ∀ (c : ClientId) (s : State), (s.holdUnit c).level = false → s.DeadlinesLawful → s.HoldWithinAllowance →
    ∃ t, exec (.holdAssertion c) s = .next t ∧ (t.holdUnit c).level = true
      ∧ ((s.client c).session = .opened ∧ (s.client c).holdUsed < 1000 * (s.client c).holdAllowance →
          t.client c = { s.client c with freeze := .frozen }
          ∧ s.DeadlinesFreeze t c (1000 * (s.client c).holdAllowance - (s.client c).holdUsed))
      ∧ ((s.client c).session = .opened ∧ 0 < (s.client c).holdAllowance
            ∧ (s.client c).holdUsed = 1000 * (s.client c).holdAllowance →
          t.client c = { s.client c with freeze := .overstayed } ∧ t.deadlines = s.deadlines
          ∧ (t.holdUnit c).freezeStart = none ∧ (t.holdUnit c).stored = [])
      ∧ ((s.client c).session ≠ .opened ∨ (s.client c).holdAllowance = 0 →
          t.client c = { s.client c with freeze := .thawed } ∧ t.deadlines = s.deadlines
          ∧ (t.holdUnit c).freezeStart = none ∧ (t.holdUnit c).stored = [])
      ∧ s.SameClientsBut t c ∧ s.SameUnitsBut t c ∧ s.SameTime t ∧ t.slots = s.slots ∧ t.backlog = s.backlog
      ∧ t.grant = s.grant ∧ t.notices = s.notices ∧ t.ports = s.ports

/-- HOLD_RELEASE (R90, R95, R97): the level is recorded and the client is THAWED, hold used kept; what was set aside of a
FROZEN client runs again with the time it had, put back one after another behind equal due times (R76), and for another
client nothing else changes. -/
def Obligations.HoldReleaseThaws : Prop :=
  ∀ (c : ClientId) (s : State), (s.holdUnit c).level = true → s.DeadlinesLawful →
    ∃ t, exec (.holdRelease c) s = .next t ∧ (t.holdUnit c).level = false
      ∧ t.client c = { s.client c with freeze := .thawed } ∧ s.DeadlinesThaw t c
      ∧ ((s.client c).freeze ≠ .frozen → t.deadlines = s.deadlines)
      ∧ s.SameClientsBut t c ∧ s.SameUnitsBut t c ∧ s.SameTime t ∧ t.slots = s.slots ∧ t.backlog = s.backlog
      ∧ t.grant = s.grant ∧ t.notices = s.notices ∧ t.ports = s.ports

/-! ### The laws of the device, kept by every step -/

/-- The machine right after reset meets every law stated below. -/
def Obligations.ResetMeetsTheLaws : Prop :=
  State.reset.PortsConsistent ∧ State.reset.StartupQuiet ∧ State.reset.DirectoryLegal ∧ State.reset.TenureLaw
  ∧ State.reset.QueuesOrdered ∧ State.reset.OneClaimEach ∧ State.reset.WithinQuota ∧ State.reset.GenerationsLegal
  ∧ State.reset.WithinPools ∧ State.reset.BacklogLaw ∧ State.reset.NoneUnserved ∧ State.reset.RetiringLaw
  ∧ State.reset.NoticesLegal ∧ State.reset.HoldWithinAllowance ∧ State.reset.SettingsLegal
  ∧ State.reset.SessionsClean ∧ State.reset.WaitsLegal ∧ State.reset.DeadlinesLawful ∧ State.reset.DeadlinesOwned
  ∧ State.reset.PresentedLaw

/-- Every step keeps the ports consistent (R138), and the part quiet until start-up has ended (R72, R89, R152). That a
frame in progress has counted no edge and received no bit is the model's choice, which gives both with FRAME_END
(log 11). -/
def Obligations.StepKeepsPortsConsistent : Prop :=
  ∀ s t : State, s.PortsConsistent → s.StartupQuiet → s.FreezeLaw → step s = .next t →
    t.PortsConsistent ∧ t.StartupQuiet

/-- Every step keeps the directory's terms in range and its keys distinct (R1, R4), and the settings of the clients and
their hold used in range (R91, R103). -/
def Obligations.StepKeepsTermsAndSettings : Prop :=
  ∀ s t : State, s.DirectoryLegal → s.HoldWithinAllowance → s.SettingsLegal → step s = .next t →
    t.DirectoryLegal ∧ t.HoldWithinAllowance ∧ t.SettingsLegal

/-- Every step keeps the first two laws of the device (R26): an EXCLUSIVE holding stands alone, and the holdings of a
resource do not exceed its limit. -/
def Obligations.StepKeepsTheTenureLaw : Prop :=
  ∀ s t : State, s.TenureLaw → step s = .next t → t.TenureLaw

/-- Every step keeps at most one claim for each resource and client, and every client within its claim quota (R49). -/
def Obligations.StepKeepsTheClaimLaws : Prop :=
  ∀ s t : State, s.OneClaimEach → s.WithinQuota → step s = .next t → t.OneClaimEach ∧ t.WithinQuota

/-- Every step keeps generations distinct and no greater than the grant counter, and the counter never decreases but at a
part reset (R28). -/
def Obligations.StepKeepsTheGenerationLaw : Prop :=
  ∀ s t : State, s.GenerationsLegal → step s = .next t →
    t.GenerationsLegal
    ∧ ((∀ a b c rest, s.pending ≠ .powerOn a b c :: rest) → (∀ rest, s.pending ≠ .resetPin :: rest) →
        s.grant ≤ t.grant)

/-- Every step keeps the pools within 96 holding records and 48 waiter entries (R22, R45), and the law of the Offer Backlog:
each resource at most once, and no free holding record while it is not empty (R69). -/
def Obligations.StepKeepsPoolsAndBacklog : Prop :=
  ∀ s t : State, s.OneClaimEach → s.WithinPools → s.BacklogLaw → step s = .next t → t.WithinPools ∧ t.BacklogLaw

/-- Every step keeps the offer check's condition (R12): outside the Offer Backlog no waiter at the head of a queue is due
an offer; and queues stay in priority order (R46). -/
def Obligations.StepLeavesNoneUnserved : Prop :=
  ∀ s t : State, s.OneClaimEach → s.SessionsClean → s.RetiringLaw → s.QueuesOrdered → s.NoneUnserved →
    step s = .next t → t.NoneUnserved ∧ t.QueuesOrdered ∧ t.RetiringLaw

/-- Every step keeps the law that a client without a session owns no claim, and that only an OPEN one owns a notice (R116,
R129); and no request waits for a teardown that is not under way (R109, R110). -/
def Obligations.StepKeepsSessionsClean : Prop :=
  ∀ s t : State, s.SessionsClean → s.WaitsLegal → step s = .next t → t.SessionsClean ∧ t.WaitsLegal

/-- Every step keeps the deadlines of a client either in the list or, exactly while it is FROZEN, stored, one for each owner
(R23, R75, R92); every holding in use has the one deadline its state asks for, every FROZEN client its ALLOWANCE-END, and
no deadline is left whose owner has gone. -/
def Obligations.StepKeepsTheFreezeLaw : Prop :=
  (∀ s t : State, s.PortsConsistent → s.StartupQuiet → s.FreezeLaw → s.OneDeadlineEach → step s = .next t →
    t.FreezeLaw ∧ t.OneDeadlineEach)
  ∧ ∀ s t : State, s.PortsConsistent → s.StartupQuiet → s.FreezeLaw → s.OneDeadlineEach → s.OneClaimEach →
    s.RetiringLaw → s.DirectoryLegal → s.DeadlinesOwned → step s = .next t → t.DeadlinesOwned

/-- Every step keeps the Deadline List in order of due time, every due time less than 2^31 ms ahead (R73, R76). -/
def Obligations.StepKeepsTheDeadlineOrder : Prop :=
  ∀ s t : State, s.DirectoryLegal → s.HoldWithinAllowance → s.DeadlinesOrdered → step s = .next t →
    t.DeadlinesOrdered

/-- Every step keeps each notice set within 16 records, at most one for each pair of key and kind (R123), and at most one
of them marked presented, with what bounds the mark's life (R131, R132; it names the owed mark, log 8). In every state a
client's attention output is asserted exactly while, outside STARTING, its set holds a record of a kind that its mask
enables, bit k - 1 for the kind of number k (R136, R162). -/
def Obligations.StepKeepsTheNoticeSets : Prop :=
  (∀ s t : State, s.NoticesLegal → step s = .next t → t.NoticesLegal)
  ∧ (∀ s t : State, s.PortsConsistent → s.StartupQuiet → s.SessionsClean → s.NoticesLegal → s.PresentedLaw →
      step s = .next t → t.PresentedLaw)
  ∧ ∀ (s : State) (c : ClientId), s.attention c = true ↔
      s.startup = .ended ∧ ∃ n ∈ (s.noticeSet c).records, (s.client c).mask.getLsbD (n.body.number - 1) = true
end

