-- ==== Sys2Proof/Laws/Lists.lean ====
section
/-! SUPPORT. The insertion that queues and the Deadline List share (R46, R76). -/

namespace Sys2Proof.Machine

variable {α : Type}

/-- An insertion splits the list: behind the last element that satisfies `p`, ahead of all that follow. -/
theorem insertAfterLast_split (p : α → Bool) (x : α) (l : List α) :
    ∃ before after, l = before ++ after ∧ insertAfterLast p x l = before ++ x :: after
      ∧ (∀ y ∈ after, p y = false) ∧ ∀ y, before.getLast? = some y → p y = true := by
  induction l with
  | nil => exact ⟨[], [], rfl, rfl, by simp, by simp⟩
  | cons y ys ih =>
    by_cases h : (y :: ys).any p = true
    · obtain ⟨b, a, hl, hi, ha, hb⟩ := ih
      refine ⟨y :: b, a, by simp [hl], by simp only [insertAfterLast, h, if_true, hi, List.cons_append], ha, ?_⟩
      intro z hz
      cases b with
      | nil =>
        simp only [List.getLast?_singleton, Option.some.injEq] at hz
        subst hz
        rcases List.any_eq_true.mp h with ⟨w, hw, hpw⟩
        rcases List.mem_cons.mp hw with rfl | hw
        · exact hpw
        · rw [hl, List.nil_append] at hw
          exact absurd (ha w hw) (by simp [hpw])
      | cons b bs => exact hb z (by simpa [List.getLast?_cons_cons] using hz)
    · refine ⟨[], y :: ys, rfl, by simp only [insertAfterLast, h]; rfl, ?_, by simp⟩
      intro z hz
      by_contra hp
      exact h (List.any_eq_true.mpr ⟨z, hz, by simpa using hp⟩)

theorem mem_insertAfterLast {p : α → Bool} {x y : α} {l : List α} :
    y ∈ insertAfterLast p x l ↔ y = x ∨ y ∈ l := by
  obtain ⟨b, a, rfl, hi, -, -⟩ := insertAfterLast_split p x l
  simp only [hi, List.mem_append, List.mem_cons]
  tauto

theorem perm_insertAfterLast (p : α → Bool) (x : α) (l : List α) : (insertAfterLast p x l).Perm (x :: l) := by
  obtain ⟨b, a, rfl, hi, -, -⟩ := insertAfterLast_split p x l
  rw [hi]
  exact List.perm_middle

/-- An insertion does not disturb a search that the new element fails. -/
theorem find?_insertAfterLast_ne (p q : α → Bool) (x : α) (l : List α) (h : q x = false) :
    (insertAfterLast p x l).find? q = l.find? q := by
  obtain ⟨b, a, rfl, hi, -, -⟩ := insertAfterLast_split p x l
  simp [hi, List.find?_append, h]

/-- An insertion finds the new element when no other satisfies the search. -/
theorem find?_insertAfterLast_self (p q : α → Bool) (x : α) (l : List α) (hx : q x = true)
    (h : ∀ y ∈ l, q y = false) : (insertAfterLast p x l).find? q = some x := by
  obtain ⟨b, a, rfl, hi, -, -⟩ := insertAfterLast_split p x l
  have hb : b.find? q = none := List.find?_eq_none.mpr fun y hy => by simp [h y (List.mem_append_left _ hy)]
  simp [hi, List.find?_append, hb, hx]

/-- Insertion by a measure keeps a list in ascending order of it, the new element behind its equals. -/
theorem pairwise_insertAfterLast (f : α → Nat) (x : α) (l : List α) (h : l.Pairwise fun y z => f y ≤ f z) :
    (insertAfterLast (fun y => decide (f y ≤ f x)) x l).Pairwise fun y z => f y ≤ f z := by
  obtain ⟨b, a, rfl, hi, ha, hb⟩ := insertAfterLast_split (fun y => decide (f y ≤ f x)) x l
  rw [hi]
  rw [List.pairwise_append] at h ⊢
  obtain ⟨h1, h2, h3⟩ := h
  have hbx : ∀ y ∈ b, f y ≤ f x := by
    intro y hy
    rcases List.eq_nil_or_concat b with rfl | ⟨bs, z, rfl⟩
    · simp at hy
    · have hz : f z ≤ f x := by simpa using hb z (by simp)
      simp only [List.concat_eq_append, List.mem_append, List.mem_singleton] at hy
      rcases hy with hy | rfl
      · have := (List.pairwise_append.mp (by simpa using h1)).2.2 y hy z (by simp)
        exact Nat.le_trans this hz
      · exact hz
  refine ⟨h1, List.pairwise_cons.mpr ⟨fun y hy => ?_, h2⟩, ?_⟩
  · have := ha y hy
    simp only [decide_eq_false_iff_not, Nat.not_le] at this
    exact Nat.le_of_lt this
  · intro y hy z hz
    rcases List.mem_cons.mp hz with rfl | hz
    · exact hbx y hy
    · exact h3 y hy z hz

/-- What stands in the first part of a list, or at the head of the second, stands before what is not in the first. -/
theorem idxOf_le_idxOf {α : Type} [DecidableEq α] {l l1 l2 : List α} (h : l = l1 ++ l2) {x y : α}
    (hx : x ∈ l1 ∨ l2.head? = some x) (hy : y ∉ l1) : l.idxOf x ≤ l.idxOf y := by
  rw [h, List.idxOf_append, List.idxOf_append, if_neg hy]
  split
  · rename_i hm
    exact Nat.le_trans (Nat.le_of_lt (List.idxOf_lt_length_iff.mpr hm)) (Nat.le_add_left _ _)
  · rename_i hm
    cases l2 with
    | nil => exact absurd hx (by simp [hm])
    | cons z l2 =>
      obtain rfl : z = x := by simpa [hm] using hx
      simp

end Sys2Proof.Machine
end

