-- ==== Sys2Proof/Laws/State.lean ====
section
/-! SUPPORT. One lemma for each field of the state under each update of Machine/Ops.lean, and for each access under each
update, so that no proof unfolds a record update. -/

namespace Sys2Proof.Machine

/-! ### `setPort` -/

@[simp] theorem State.pending_setPort (s : State) (p : ClientId) (x : Port) : (s.setPort p x).pending = s.pending := rfl
@[simp] theorem State.startup_setPort (s : State) (p : ClientId) (x : Port) : (s.setPort p x).startup = s.startup := rfl
@[simp] theorem State.clock_setPort (s : State) (p : ClientId) (x : Port) : (s.setPort p x).clock = s.clock := rfl
@[simp] theorem State.grant_setPort (s : State) (p : ClientId) (x : Port) : (s.setPort p x).grant = s.grant := rfl
@[simp] theorem State.deadlines_setPort (s : State) (p : ClientId) (x : Port) : (s.setPort p x).deadlines = s.deadlines := rfl
@[simp] theorem State.backlog_setPort (s : State) (p : ClientId) (x : Port) : (s.setPort p x).backlog = s.backlog := rfl
@[simp] theorem State.slots_setPort (s : State) (p : ClientId) (x : Port) : (s.setPort p x).slots = s.slots := rfl
@[simp] theorem State.clients_setPort (s : State) (p : ClientId) (x : Port) : (s.setPort p x).clients = s.clients := rfl
@[simp] theorem State.holdUnits_setPort (s : State) (p : ClientId) (x : Port) : (s.setPort p x).holdUnits = s.holdUnits := rfl
@[simp] theorem State.notices_setPort (s : State) (p : ClientId) (x : Port) : (s.setPort p x).notices = s.notices := rfl
@[simp] theorem State.port_setPort_self (s : State) (p : ClientId) (x : Port) : (s.setPort p x).port p = x := by
  simp [State.port, State.setPort]
theorem State.port_setPort (s : State) (p : ClientId) (x : Port) (j : ClientId) :
    (s.setPort p x).port j = if j = p then x else s.port j := by
  by_cases h : j = p
  · simp [h]
  · have : p.val ≠ j.val := fun e => h (Fin.ext e.symm)
    simp [State.port, State.setPort, h, this]
@[simp] theorem State.port_setPort_ne (s : State) (p : ClientId) (x : Port) (j : ClientId) (h : j ≠ p) :
    (s.setPort p x).port j = s.port j := by
  simp [State.port_setPort, h]
@[simp] theorem State.client_setPort (s : State) (p : ClientId) (x : Port) (j : ClientId) : (s.setPort p x).client j = s.client j := rfl
@[simp] theorem State.holdUnit_setPort (s : State) (p : ClientId) (x : Port) (j : ClientId) : (s.setPort p x).holdUnit j = s.holdUnit j := rfl
@[simp] theorem State.noticeSet_setPort (s : State) (p : ClientId) (x : Port) (j : ClientId) : (s.setPort p x).noticeSet j = s.noticeSet j := rfl
@[simp] theorem State.record_setPort (s : State) (p : ClientId) (x : Port) (j : SlotId) : (s.setPort p x).record j = s.record j := rfl

/-! ### `setClient` -/

@[simp] theorem State.pending_setClient (s : State) (c : ClientId) (x : Client) : (s.setClient c x).pending = s.pending := rfl
@[simp] theorem State.startup_setClient (s : State) (c : ClientId) (x : Client) : (s.setClient c x).startup = s.startup := rfl
@[simp] theorem State.clock_setClient (s : State) (c : ClientId) (x : Client) : (s.setClient c x).clock = s.clock := rfl
@[simp] theorem State.grant_setClient (s : State) (c : ClientId) (x : Client) : (s.setClient c x).grant = s.grant := rfl
@[simp] theorem State.deadlines_setClient (s : State) (c : ClientId) (x : Client) : (s.setClient c x).deadlines = s.deadlines := rfl
@[simp] theorem State.backlog_setClient (s : State) (c : ClientId) (x : Client) : (s.setClient c x).backlog = s.backlog := rfl
@[simp] theorem State.slots_setClient (s : State) (c : ClientId) (x : Client) : (s.setClient c x).slots = s.slots := rfl
@[simp] theorem State.holdUnits_setClient (s : State) (c : ClientId) (x : Client) : (s.setClient c x).holdUnits = s.holdUnits := rfl
@[simp] theorem State.notices_setClient (s : State) (c : ClientId) (x : Client) : (s.setClient c x).notices = s.notices := rfl
@[simp] theorem State.ports_setClient (s : State) (c : ClientId) (x : Client) : (s.setClient c x).ports = s.ports := rfl
@[simp] theorem State.port_setClient (s : State) (c : ClientId) (x : Client) (j : ClientId) : (s.setClient c x).port j = s.port j := rfl
@[simp] theorem State.client_setClient_self (s : State) (c : ClientId) (x : Client) : (s.setClient c x).client c = x := by
  simp [State.client, State.setClient]
theorem State.client_setClient (s : State) (c : ClientId) (x : Client) (j : ClientId) :
    (s.setClient c x).client j = if j = c then x else s.client j := by
  by_cases h : j = c
  · simp [h]
  · have : c.val ≠ j.val := fun e => h (Fin.ext e.symm)
    simp [State.client, State.setClient, h, this]
@[simp] theorem State.client_setClient_ne (s : State) (c : ClientId) (x : Client) (j : ClientId) (h : j ≠ c) :
    (s.setClient c x).client j = s.client j := by
  simp [State.client_setClient, h]
@[simp] theorem State.holdUnit_setClient (s : State) (c : ClientId) (x : Client) (j : ClientId) : (s.setClient c x).holdUnit j = s.holdUnit j := rfl
@[simp] theorem State.noticeSet_setClient (s : State) (c : ClientId) (x : Client) (j : ClientId) : (s.setClient c x).noticeSet j = s.noticeSet j := rfl
@[simp] theorem State.record_setClient (s : State) (c : ClientId) (x : Client) (j : SlotId) : (s.setClient c x).record j = s.record j := rfl

/-! ### `setHoldUnit` -/

@[simp] theorem State.pending_setHoldUnit (s : State) (c : ClientId) (x : HoldUnit) : (s.setHoldUnit c x).pending = s.pending := rfl
@[simp] theorem State.startup_setHoldUnit (s : State) (c : ClientId) (x : HoldUnit) : (s.setHoldUnit c x).startup = s.startup := rfl
@[simp] theorem State.clock_setHoldUnit (s : State) (c : ClientId) (x : HoldUnit) : (s.setHoldUnit c x).clock = s.clock := rfl
@[simp] theorem State.grant_setHoldUnit (s : State) (c : ClientId) (x : HoldUnit) : (s.setHoldUnit c x).grant = s.grant := rfl
@[simp] theorem State.deadlines_setHoldUnit (s : State) (c : ClientId) (x : HoldUnit) : (s.setHoldUnit c x).deadlines = s.deadlines := rfl
@[simp] theorem State.backlog_setHoldUnit (s : State) (c : ClientId) (x : HoldUnit) : (s.setHoldUnit c x).backlog = s.backlog := rfl
@[simp] theorem State.slots_setHoldUnit (s : State) (c : ClientId) (x : HoldUnit) : (s.setHoldUnit c x).slots = s.slots := rfl
@[simp] theorem State.clients_setHoldUnit (s : State) (c : ClientId) (x : HoldUnit) : (s.setHoldUnit c x).clients = s.clients := rfl
@[simp] theorem State.notices_setHoldUnit (s : State) (c : ClientId) (x : HoldUnit) : (s.setHoldUnit c x).notices = s.notices := rfl
@[simp] theorem State.ports_setHoldUnit (s : State) (c : ClientId) (x : HoldUnit) : (s.setHoldUnit c x).ports = s.ports := rfl
@[simp] theorem State.port_setHoldUnit (s : State) (c : ClientId) (x : HoldUnit) (j : ClientId) : (s.setHoldUnit c x).port j = s.port j := rfl
@[simp] theorem State.client_setHoldUnit (s : State) (c : ClientId) (x : HoldUnit) (j : ClientId) : (s.setHoldUnit c x).client j = s.client j := rfl
@[simp] theorem State.holdUnit_setHoldUnit_self (s : State) (c : ClientId) (x : HoldUnit) : (s.setHoldUnit c x).holdUnit c = x := by
  simp [State.holdUnit, State.setHoldUnit]
theorem State.holdUnit_setHoldUnit (s : State) (c : ClientId) (x : HoldUnit) (j : ClientId) :
    (s.setHoldUnit c x).holdUnit j = if j = c then x else s.holdUnit j := by
  by_cases h : j = c
  · simp [h]
  · have : c.val ≠ j.val := fun e => h (Fin.ext e.symm)
    simp [State.holdUnit, State.setHoldUnit, h, this]
@[simp] theorem State.holdUnit_setHoldUnit_ne (s : State) (c : ClientId) (x : HoldUnit) (j : ClientId) (h : j ≠ c) :
    (s.setHoldUnit c x).holdUnit j = s.holdUnit j := by
  simp [State.holdUnit_setHoldUnit, h]
@[simp] theorem State.noticeSet_setHoldUnit (s : State) (c : ClientId) (x : HoldUnit) (j : ClientId) : (s.setHoldUnit c x).noticeSet j = s.noticeSet j := rfl
@[simp] theorem State.record_setHoldUnit (s : State) (c : ClientId) (x : HoldUnit) (j : SlotId) : (s.setHoldUnit c x).record j = s.record j := rfl

/-! ### `setNoticeSet` -/

@[simp] theorem State.pending_setNoticeSet (s : State) (c : ClientId) (x : NoticeSet) : (s.setNoticeSet c x).pending = s.pending := rfl
@[simp] theorem State.startup_setNoticeSet (s : State) (c : ClientId) (x : NoticeSet) : (s.setNoticeSet c x).startup = s.startup := rfl
@[simp] theorem State.clock_setNoticeSet (s : State) (c : ClientId) (x : NoticeSet) : (s.setNoticeSet c x).clock = s.clock := rfl
@[simp] theorem State.grant_setNoticeSet (s : State) (c : ClientId) (x : NoticeSet) : (s.setNoticeSet c x).grant = s.grant := rfl
@[simp] theorem State.deadlines_setNoticeSet (s : State) (c : ClientId) (x : NoticeSet) : (s.setNoticeSet c x).deadlines = s.deadlines := rfl
@[simp] theorem State.backlog_setNoticeSet (s : State) (c : ClientId) (x : NoticeSet) : (s.setNoticeSet c x).backlog = s.backlog := rfl
@[simp] theorem State.slots_setNoticeSet (s : State) (c : ClientId) (x : NoticeSet) : (s.setNoticeSet c x).slots = s.slots := rfl
@[simp] theorem State.clients_setNoticeSet (s : State) (c : ClientId) (x : NoticeSet) : (s.setNoticeSet c x).clients = s.clients := rfl
@[simp] theorem State.holdUnits_setNoticeSet (s : State) (c : ClientId) (x : NoticeSet) : (s.setNoticeSet c x).holdUnits = s.holdUnits := rfl
@[simp] theorem State.ports_setNoticeSet (s : State) (c : ClientId) (x : NoticeSet) : (s.setNoticeSet c x).ports = s.ports := rfl
@[simp] theorem State.port_setNoticeSet (s : State) (c : ClientId) (x : NoticeSet) (j : ClientId) : (s.setNoticeSet c x).port j = s.port j := rfl
@[simp] theorem State.client_setNoticeSet (s : State) (c : ClientId) (x : NoticeSet) (j : ClientId) : (s.setNoticeSet c x).client j = s.client j := rfl
@[simp] theorem State.holdUnit_setNoticeSet (s : State) (c : ClientId) (x : NoticeSet) (j : ClientId) : (s.setNoticeSet c x).holdUnit j = s.holdUnit j := rfl
@[simp] theorem State.noticeSet_setNoticeSet_self (s : State) (c : ClientId) (x : NoticeSet) : (s.setNoticeSet c x).noticeSet c = x := by
  simp [State.noticeSet, State.setNoticeSet]
theorem State.noticeSet_setNoticeSet (s : State) (c : ClientId) (x : NoticeSet) (j : ClientId) :
    (s.setNoticeSet c x).noticeSet j = if j = c then x else s.noticeSet j := by
  by_cases h : j = c
  · simp [h]
  · have : c.val ≠ j.val := fun e => h (Fin.ext e.symm)
    simp [State.noticeSet, State.setNoticeSet, h, this]
@[simp] theorem State.noticeSet_setNoticeSet_ne (s : State) (c : ClientId) (x : NoticeSet) (j : ClientId) (h : j ≠ c) :
    (s.setNoticeSet c x).noticeSet j = s.noticeSet j := by
  simp [State.noticeSet_setNoticeSet, h]
@[simp] theorem State.record_setNoticeSet (s : State) (c : ClientId) (x : NoticeSet) (j : SlotId) : (s.setNoticeSet c x).record j = s.record j := rfl

/-! ### `setRecord` -/

@[simp] theorem State.pending_setRecord (s : State) (i : SlotId) (x : Option Resource) : (s.setRecord i x).pending = s.pending := rfl
@[simp] theorem State.startup_setRecord (s : State) (i : SlotId) (x : Option Resource) : (s.setRecord i x).startup = s.startup := rfl
@[simp] theorem State.clock_setRecord (s : State) (i : SlotId) (x : Option Resource) : (s.setRecord i x).clock = s.clock := rfl
@[simp] theorem State.grant_setRecord (s : State) (i : SlotId) (x : Option Resource) : (s.setRecord i x).grant = s.grant := rfl
@[simp] theorem State.deadlines_setRecord (s : State) (i : SlotId) (x : Option Resource) : (s.setRecord i x).deadlines = s.deadlines := rfl
@[simp] theorem State.backlog_setRecord (s : State) (i : SlotId) (x : Option Resource) : (s.setRecord i x).backlog = s.backlog := rfl
@[simp] theorem State.clients_setRecord (s : State) (i : SlotId) (x : Option Resource) : (s.setRecord i x).clients = s.clients := rfl
@[simp] theorem State.holdUnits_setRecord (s : State) (i : SlotId) (x : Option Resource) : (s.setRecord i x).holdUnits = s.holdUnits := rfl
@[simp] theorem State.notices_setRecord (s : State) (i : SlotId) (x : Option Resource) : (s.setRecord i x).notices = s.notices := rfl
@[simp] theorem State.ports_setRecord (s : State) (i : SlotId) (x : Option Resource) : (s.setRecord i x).ports = s.ports := rfl
@[simp] theorem State.port_setRecord (s : State) (i : SlotId) (x : Option Resource) (j : ClientId) : (s.setRecord i x).port j = s.port j := rfl
@[simp] theorem State.client_setRecord (s : State) (i : SlotId) (x : Option Resource) (j : ClientId) : (s.setRecord i x).client j = s.client j := rfl
@[simp] theorem State.holdUnit_setRecord (s : State) (i : SlotId) (x : Option Resource) (j : ClientId) : (s.setRecord i x).holdUnit j = s.holdUnit j := rfl
@[simp] theorem State.noticeSet_setRecord (s : State) (i : SlotId) (x : Option Resource) (j : ClientId) : (s.setRecord i x).noticeSet j = s.noticeSet j := rfl
@[simp] theorem State.record_setRecord_self (s : State) (i : SlotId) (x : Option Resource) : (s.setRecord i x).record i = x := by
  simp [State.record, State.setRecord]
theorem State.record_setRecord (s : State) (i : SlotId) (x : Option Resource) (j : SlotId) :
    (s.setRecord i x).record j = if j = i then x else s.record j := by
  by_cases h : j = i
  · simp [h]
  · have : i.val ≠ j.val := fun e => h (Fin.ext e.symm)
    simp [State.record, State.setRecord, h, this]
@[simp] theorem State.record_setRecord_ne (s : State) (i : SlotId) (x : Option Resource) (j : SlotId) (h : j ≠ i) :
    (s.setRecord i x).record j = s.record j := by
  simp [State.record_setRecord, h]

/-! ### `setDeadlines` -/

@[simp] theorem State.pending_setDeadlines (s : State) (l : List Deadline) : (s.setDeadlines l).pending = s.pending := rfl
@[simp] theorem State.startup_setDeadlines (s : State) (l : List Deadline) : (s.setDeadlines l).startup = s.startup := rfl
@[simp] theorem State.clock_setDeadlines (s : State) (l : List Deadline) : (s.setDeadlines l).clock = s.clock := rfl
@[simp] theorem State.grant_setDeadlines (s : State) (l : List Deadline) : (s.setDeadlines l).grant = s.grant := rfl
@[simp] theorem State.deadlines_setDeadlines (s : State) (l : List Deadline) : (s.setDeadlines l).deadlines = l := rfl
@[simp] theorem State.backlog_setDeadlines (s : State) (l : List Deadline) : (s.setDeadlines l).backlog = s.backlog := rfl
@[simp] theorem State.slots_setDeadlines (s : State) (l : List Deadline) : (s.setDeadlines l).slots = s.slots := rfl
@[simp] theorem State.clients_setDeadlines (s : State) (l : List Deadline) : (s.setDeadlines l).clients = s.clients := rfl
@[simp] theorem State.holdUnits_setDeadlines (s : State) (l : List Deadline) : (s.setDeadlines l).holdUnits = s.holdUnits := rfl
@[simp] theorem State.notices_setDeadlines (s : State) (l : List Deadline) : (s.setDeadlines l).notices = s.notices := rfl
@[simp] theorem State.ports_setDeadlines (s : State) (l : List Deadline) : (s.setDeadlines l).ports = s.ports := rfl
@[simp] theorem State.port_setDeadlines (s : State) (l : List Deadline) (j : ClientId) : (s.setDeadlines l).port j = s.port j := rfl
@[simp] theorem State.client_setDeadlines (s : State) (l : List Deadline) (j : ClientId) : (s.setDeadlines l).client j = s.client j := rfl
@[simp] theorem State.holdUnit_setDeadlines (s : State) (l : List Deadline) (j : ClientId) : (s.setDeadlines l).holdUnit j = s.holdUnit j := rfl
@[simp] theorem State.noticeSet_setDeadlines (s : State) (l : List Deadline) (j : ClientId) : (s.setDeadlines l).noticeSet j = s.noticeSet j := rfl
@[simp] theorem State.record_setDeadlines (s : State) (l : List Deadline) (j : SlotId) : (s.setDeadlines l).record j = s.record j := rfl

/-! ### `setBacklog` -/

@[simp] theorem State.pending_setBacklog (s : State) (l : List SlotId) : (s.setBacklog l).pending = s.pending := rfl
@[simp] theorem State.startup_setBacklog (s : State) (l : List SlotId) : (s.setBacklog l).startup = s.startup := rfl
@[simp] theorem State.clock_setBacklog (s : State) (l : List SlotId) : (s.setBacklog l).clock = s.clock := rfl
@[simp] theorem State.grant_setBacklog (s : State) (l : List SlotId) : (s.setBacklog l).grant = s.grant := rfl
@[simp] theorem State.deadlines_setBacklog (s : State) (l : List SlotId) : (s.setBacklog l).deadlines = s.deadlines := rfl
@[simp] theorem State.backlog_setBacklog (s : State) (l : List SlotId) : (s.setBacklog l).backlog = l := rfl
@[simp] theorem State.slots_setBacklog (s : State) (l : List SlotId) : (s.setBacklog l).slots = s.slots := rfl
@[simp] theorem State.clients_setBacklog (s : State) (l : List SlotId) : (s.setBacklog l).clients = s.clients := rfl
@[simp] theorem State.holdUnits_setBacklog (s : State) (l : List SlotId) : (s.setBacklog l).holdUnits = s.holdUnits := rfl
@[simp] theorem State.notices_setBacklog (s : State) (l : List SlotId) : (s.setBacklog l).notices = s.notices := rfl
@[simp] theorem State.ports_setBacklog (s : State) (l : List SlotId) : (s.setBacklog l).ports = s.ports := rfl
@[simp] theorem State.port_setBacklog (s : State) (l : List SlotId) (j : ClientId) : (s.setBacklog l).port j = s.port j := rfl
@[simp] theorem State.client_setBacklog (s : State) (l : List SlotId) (j : ClientId) : (s.setBacklog l).client j = s.client j := rfl
@[simp] theorem State.holdUnit_setBacklog (s : State) (l : List SlotId) (j : ClientId) : (s.setBacklog l).holdUnit j = s.holdUnit j := rfl
@[simp] theorem State.noticeSet_setBacklog (s : State) (l : List SlotId) (j : ClientId) : (s.setBacklog l).noticeSet j = s.noticeSet j := rfl
@[simp] theorem State.record_setBacklog (s : State) (l : List SlotId) (j : SlotId) : (s.setBacklog l).record j = s.record j := rfl

/-! ### `setGrant` -/

@[simp] theorem State.pending_setGrant (s : State) (g : Gen) : (s.setGrant g).pending = s.pending := rfl
@[simp] theorem State.startup_setGrant (s : State) (g : Gen) : (s.setGrant g).startup = s.startup := rfl
@[simp] theorem State.clock_setGrant (s : State) (g : Gen) : (s.setGrant g).clock = s.clock := rfl
@[simp] theorem State.grant_setGrant (s : State) (g : Gen) : (s.setGrant g).grant = g := rfl
@[simp] theorem State.deadlines_setGrant (s : State) (g : Gen) : (s.setGrant g).deadlines = s.deadlines := rfl
@[simp] theorem State.backlog_setGrant (s : State) (g : Gen) : (s.setGrant g).backlog = s.backlog := rfl
@[simp] theorem State.slots_setGrant (s : State) (g : Gen) : (s.setGrant g).slots = s.slots := rfl
@[simp] theorem State.clients_setGrant (s : State) (g : Gen) : (s.setGrant g).clients = s.clients := rfl
@[simp] theorem State.holdUnits_setGrant (s : State) (g : Gen) : (s.setGrant g).holdUnits = s.holdUnits := rfl
@[simp] theorem State.notices_setGrant (s : State) (g : Gen) : (s.setGrant g).notices = s.notices := rfl
@[simp] theorem State.ports_setGrant (s : State) (g : Gen) : (s.setGrant g).ports = s.ports := rfl
@[simp] theorem State.port_setGrant (s : State) (g : Gen) (j : ClientId) : (s.setGrant g).port j = s.port j := rfl
@[simp] theorem State.client_setGrant (s : State) (g : Gen) (j : ClientId) : (s.setGrant g).client j = s.client j := rfl
@[simp] theorem State.holdUnit_setGrant (s : State) (g : Gen) (j : ClientId) : (s.setGrant g).holdUnit j = s.holdUnit j := rfl
@[simp] theorem State.noticeSet_setGrant (s : State) (g : Gen) (j : ClientId) : (s.setGrant g).noticeSet j = s.noticeSet j := rfl
@[simp] theorem State.record_setGrant (s : State) (g : Gen) (j : SlotId) : (s.setGrant g).record j = s.record j := rfl

/-! ### The queue of commands -/

@[simp] theorem State.port_withPending (s : State) (q : List Instr) (j : ClientId) :
    State.port { s with pending := q } j = s.port j := rfl
@[simp] theorem State.client_withPending (s : State) (q : List Instr) (j : ClientId) :
    State.client { s with pending := q } j = s.client j := rfl
@[simp] theorem State.holdUnit_withPending (s : State) (q : List Instr) (j : ClientId) :
    State.holdUnit { s with pending := q } j = s.holdUnit j := rfl
@[simp] theorem State.noticeSet_withPending (s : State) (q : List Instr) (j : ClientId) :
    State.noticeSet { s with pending := q } j = s.noticeSet j := rfl
@[simp] theorem State.record_withPending (s : State) (q : List Instr) (j : SlotId) :
    State.record { s with pending := q } j = s.record j := rfl

/-! ### Two states are equal when everything they hold is -/

theorem State.slots_ext {s t : State} (h : ∀ i, s.record i = t.record i) : s.slots = t.slots :=
  Vector.ext fun i hi => h ⟨i, hi⟩

theorem State.clients_ext {s t : State} (h : ∀ c, s.client c = t.client c) : s.clients = t.clients :=
  Vector.ext fun i hi => h ⟨i, hi⟩

theorem State.holdUnits_ext {s t : State} (h : ∀ c, s.holdUnit c = t.holdUnit c) : s.holdUnits = t.holdUnits :=
  Vector.ext fun i hi => h ⟨i, hi⟩

theorem State.notices_ext {s t : State} (h : ∀ c, s.noticeSet c = t.noticeSet c) : s.notices = t.notices :=
  Vector.ext fun i hi => h ⟨i, hi⟩

theorem State.ports_ext {s t : State} (h : ∀ p, s.port p = t.port p) : s.ports = t.ports :=
  Vector.ext fun i hi => h ⟨i, hi⟩

end Sys2Proof.Machine
end

