-- ==== Sys2Proof/Laws/Deadlines.lean ====
section
/-! SUPPORT. What each operation on deadlines does to `deadlineOf`, the one view statements use, and what it leaves. -/

namespace Sys2Proof.Machine

/-- Everything but deadlines, live and stored, is as before. -/
structure State.SameButDeadlines (s t : State) : Prop where
  pending : t.pending = s.pending
  startup : t.startup = s.startup
  clock : t.clock = s.clock
  grant : t.grant = s.grant
  backlog : t.backlog = s.backlog
  slots : t.slots = s.slots
  clients : t.clients = s.clients
  notices : t.notices = s.notices
  ports : t.ports = s.ports
  level : ∀ c, (t.holdUnit c).level = (s.holdUnit c).level
  freezeStart : ∀ c, (t.holdUnit c).freezeStart = (s.holdUnit c).freezeStart

namespace State.SameButDeadlines

theorem refl (s : State) : s.SameButDeadlines s :=
  ⟨rfl, rfl, rfl, rfl, rfl, rfl, rfl, rfl, rfl, fun _ => rfl, fun _ => rfl⟩

theorem trans {s t u : State} (h : s.SameButDeadlines t) (k : t.SameButDeadlines u) : s.SameButDeadlines u :=
  ⟨k.pending.trans h.pending, k.startup.trans h.startup, k.clock.trans h.clock, k.grant.trans h.grant,
   k.backlog.trans h.backlog, k.slots.trans h.slots, k.clients.trans h.clients, k.notices.trans h.notices,
   k.ports.trans h.ports, fun c => (k.level c).trans (h.level c), fun c => (k.freezeStart c).trans (h.freezeStart c)⟩

theorem record {s t : State} (h : s.SameButDeadlines t) (i : SlotId) : t.record i = s.record i := by
  simp [State.record, h.slots]

theorem client {s t : State} (h : s.SameButDeadlines t) (c : ClientId) : t.client c = s.client c := by
  simp [State.client, h.clients]

theorem noticeSet {s t : State} (h : s.SameButDeadlines t) (c : ClientId) : t.noticeSet c = s.noticeSet c := by
  simp [State.noticeSet, h.notices]

theorem port {s t : State} (h : s.SameButDeadlines t) (p : ClientId) : t.port p = s.port p := by
  simp [State.port, h.ports]

end State.SameButDeadlines

/-! ### Frames -/

theorem State.setDeadlines_same (s : State) (l : List Deadline) : s.SameButDeadlines (s.setDeadlines l) :=
  ⟨rfl, rfl, rfl, rfl, rfl, rfl, rfl, rfl, rfl, fun _ => rfl, fun _ => rfl⟩

/-- A record of the Hold Sense Unit whose stored deadlines alone change. -/
theorem State.setStored_same (s : State) (c : ClientId) (l : List StoredDeadline) :
    s.SameButDeadlines (s.setHoldUnit c { s.holdUnit c with stored := l }) := by
  refine ⟨rfl, rfl, rfl, rfl, rfl, rfl, rfl, rfl, rfl, fun d => ?_, fun d => ?_⟩ <;>
  · by_cases h : d = c
    · subst h; simp
    · simp [h]

theorem State.insertDeadline_same (s : State) (d : Deadline) : s.SameButDeadlines (s.insertDeadline d) :=
  s.setDeadlines_same _

theorem State.removeLive_same (s : State) (o : Owner) : s.SameButDeadlines (s.removeLive o) := s.setDeadlines_same _

theorem State.discardStored_same (s : State) (o : Owner) : s.SameButDeadlines (s.discardStored o) :=
  s.setStored_same _ _

theorem State.store_same (s : State) (d : StoredDeadline) : s.SameButDeadlines (s.store d) := s.setStored_same _ _

theorem State.disarm_same (s : State) (o : Owner) : s.SameButDeadlines (s.disarm o) :=
  (s.removeLive_same o).trans (State.discardStored_same _ o)

theorem State.arm_same (s : State) (o : Owner) (k : DeadlineKind) (n : Nat) : s.SameButDeadlines (s.arm o k n) := by
  unfold State.arm
  refine (s.disarm_same o).trans ?_
  split
  · exact State.store_same _ _
  · exact State.insertDeadline_same _ _

theorem State.armLease_same (s : State) (i : SlotId) (c : ClientId) (r : Resource) :
    s.SameButDeadlines (s.armLease i c r) := by
  unfold State.armLease
  split <;> exact s.arm_same _ _ _

/-! ### `deadlineOf` -/

/-- `deadlineOf` reads the clock, the list and the stored deadlines, and nothing else. -/
theorem State.deadlineOf_congr {s t : State} (o : Owner) (hc : t.clock = s.clock)
    (hl : (t.deadlines.find? fun d => d.owner == o) = s.deadlines.find? fun d => d.owner == o)
    (hs : ((t.holdUnit o.clientId).stored.find? fun d => d.owner == o)
      = (s.holdUnit o.clientId).stored.find? fun d => d.owner == o) : t.deadlineOf o = s.deadlineOf o := by
  simp [State.deadlineOf, hl, hs, State.distance, hc]

theorem find?_filter_owner_ne {α : Type} (f : α → Owner) (l : List α) (o o' : Owner) (h : o' ≠ o) :
    ((l.filter fun d => f d != o).find? fun d => f d == o') = l.find? fun d => f d == o' := by
  rw [List.find?_filter]
  congr 1
  funext d
  by_cases hd : f d = o'
  · simp [hd, h]
  · simp [hd]

theorem find?_filter_owner_self {α : Type} (f : α → Owner) (l : List α) (o : Owner) :
    ((l.filter fun d => f d != o).find? fun d => f d == o) = none := by
  simp [List.find?_eq_none]

theorem State.deadlineOf_insertDeadline_ne (s : State) (d : Deadline) (o : Owner) (h : d.owner ≠ o) :
    (s.insertDeadline d).deadlineOf o = s.deadlineOf o := by
  apply State.deadlineOf_congr
  · rfl
  · exact find?_insertAfterLast_ne _ _ _ _ (by simpa using h)
  · rfl

theorem State.deadlineOf_insertDeadline_self (s : State) (d : Deadline)
    (h : ∀ e ∈ s.deadlines, e.owner ≠ d.owner) :
    (s.insertDeadline d).deadlineOf d.owner = some (d.kind, s.distance d.due, false) := by
  have : ((s.insertDeadline d).deadlines.find? fun e => e.owner == d.owner) = some d :=
    find?_insertAfterLast_self _ _ _ _ (by simp) fun e he => by simpa using h e he
  simp only [State.deadlineOf, this]
  rfl

theorem State.deadlineOf_removeLive_ne (s : State) (o o' : Owner) (h : o' ≠ o) :
    (s.removeLive o).deadlineOf o' = s.deadlineOf o' := by
  apply State.deadlineOf_congr
  · rfl
  · exact find?_filter_owner_ne Deadline.owner _ _ _ h
  · rfl

theorem State.deadlineOf_discardStored_ne (s : State) (o o' : Owner) (h : o' ≠ o) :
    (s.discardStored o).deadlineOf o' = s.deadlineOf o' := by
  apply State.deadlineOf_congr
  · rfl
  · rfl
  · by_cases hc : o'.clientId = o.clientId
    · simp only [State.discardStored, hc, State.holdUnit_setHoldUnit_self]
      exact find?_filter_owner_ne StoredDeadline.owner _ _ _ h
    · simp [State.discardStored, hc]

theorem State.deadlineOf_store_ne (s : State) (d : StoredDeadline) (o : Owner) (h : d.owner ≠ o) :
    (s.store d).deadlineOf o = s.deadlineOf o := by
  apply State.deadlineOf_congr
  · rfl
  · rfl
  · by_cases hc : o.clientId = d.owner.clientId
    · simp [State.store, hc, List.find?_append, h]
    · simp [State.store, hc]

/-- After a disarming the owner has no deadline (R78). -/
theorem State.deadlineOf_disarm_self (s : State) (o : Owner) : (s.disarm o).deadlineOf o = none := by
  have h1 : ((s.disarm o).deadlines.find? fun d => d.owner == o) = none :=
    find?_filter_owner_self Deadline.owner _ _
  have h2 : (((s.disarm o).holdUnit o.clientId).stored.find? fun d => d.owner == o) = none := by
    simp only [State.disarm, State.discardStored, State.holdUnit_setHoldUnit_self]
    exact find?_filter_owner_self StoredDeadline.owner _ _
  simp [State.deadlineOf, h1, h2]

/-- A disarming leaves every other owner's deadline (R78). -/
theorem State.deadlineOf_disarm_ne (s : State) (o o' : Owner) (h : o' ≠ o) :
    (s.disarm o).deadlineOf o' = s.deadlineOf o' := by
  unfold State.disarm
  rw [State.deadlineOf_discardStored_ne _ _ _ h, State.deadlineOf_removeLive_ne _ _ _ h]

/-- An arming leaves every other owner's deadline (R77). -/
theorem State.deadlineOf_arm_ne (s : State) (o o' : Owner) (k : DeadlineKind) (n : Nat) (h : o' ≠ o) :
    (s.arm o k n).deadlineOf o' = s.deadlineOf o' := by
  unfold State.arm
  simp only
  split
  · rw [State.deadlineOf_store_ne _ _ _ (Ne.symm h), State.deadlineOf_disarm_ne _ _ _ h]
  · rw [State.deadlineOf_insertDeadline_ne _ _ _ (Ne.symm h), State.deadlineOf_disarm_ne _ _ _ h]

theorem State.deadlines_disarm_owner_ne (s : State) (o : Owner) : ∀ d ∈ (s.disarm o).deadlines, d.owner ≠ o := by
  intro d hd
  have : d ∈ s.deadlines.filter fun d => d.owner != o := hd
  simpa using (List.mem_filter.mp this).2

/-- After an arming the owner has the deadline armed: in the list, or stored when its client is FROZEN (R73, R77). -/
theorem State.deadlineOf_arm_self (s : State) (o : Owner) (k : DeadlineKind) (n : Nat) (h : n < 2 ^ 32) :
    (s.arm o k n).deadlineOf o = some (k, n, s.isFrozen o.clientId) := by
  unfold State.arm
  simp only
  split
  case isTrue hf =>
    have h1 : ((s.disarm o).deadlines.find? fun d => d.owner == o) = none :=
      find?_filter_owner_self Deadline.owner _ _
    have h2 : (((s.disarm o).holdUnit o.clientId).stored.find? fun d => d.owner == o) = none := by
      simp only [State.disarm, State.discardStored, State.holdUnit_setHoldUnit_self]
      exact find?_filter_owner_self StoredDeadline.owner _ _
    simp [State.deadlineOf, State.store, h1, List.find?_append, h2, State.isFrozen, hf]
  case isFalse hf =>
    have := State.deadlineOf_insertDeadline_self (s.disarm o)
      { owner := o, kind := k, due := s.clock + BitVec.ofNat 32 n } (s.deadlines_disarm_owner_ne o)
    rw [this]
    have hclk : (s.disarm o).clock = s.clock := (s.disarm_same o).clock
    have hd : (s.clock + BitVec.ofNat 32 n - s.clock).toNat = n := by
      have : s.clock + BitVec.ofNat 32 n - s.clock = BitVec.ofNat 32 n := by
        rw [BitVec.add_comm, BitVec.add_sub_cancel]
      rw [this, BitVec.toNat_ofNat, Nat.mod_eq_of_lt h]
    simp only [State.distance, hclk, hd, State.isFrozen]
    simp [hf]

/-- A lease armed on a record's terms (R83, R94). -/
theorem State.deadlineOf_armLease_self (s : State) (i : SlotId) (c : ClientId) (r : Resource) :
    (s.armLease i c r).deadlineOf (.holding i c) = some (r.lease (s.isFrozen c)) := by
  have h1 : r.leaseTerm.toNat < 2 ^ 32 := Nat.lt_of_lt_of_le r.leaseTerm.isLt (by norm_num)
  unfold State.armLease Resource.lease
  split
  · rw [State.deadlineOf_arm_self _ _ _ _ h1]; rfl
  · rw [State.deadlineOf_arm_self _ _ _ _ (Nat.lt_of_le_of_lt (Nat.sub_le _ _) h1)]; rfl

theorem State.deadlineOf_armLease_ne (s : State) (i : SlotId) (c : ClientId) (r : Resource) (o : Owner)
    (h : o ≠ .holding i c) : (s.armLease i c r).deadlineOf o = s.deadlineOf o := by
  unfold State.armLease
  split <;> exact s.deadlineOf_arm_ne _ _ _ _ h

/-! ### Where a deadline stands (R76, R77) -/

/-- An insertion stands where R76 puts it. -/
theorem State.insertDeadline_insertedInto (s : State) (d : Deadline) :
    s.InsertedInto d s.deadlines (s.insertDeadline d).deadlines := by
  obtain ⟨b, a, hl, hi, ha, hb⟩ := insertAfterLast_split
    (fun e : Deadline => decide (s.distance e.due ≤ s.distance d.due)) d s.deadlines
  exact ⟨b, a, hl, hi, fun e he => by simpa using hb e he, fun e he => by simpa using ha e he⟩

theorem State.holdUnit_disarm (s : State) (o : Owner) (c : ClientId) :
    (s.disarm o).holdUnit c = if c = o.clientId
      then { s.holdUnit c with stored := (s.holdUnit c).stored.filter fun d => d.owner != o } else s.holdUnit c := by
  simp only [State.disarm, State.discardStored, State.holdUnit_setHoldUnit]
  split
  · rename_i h
    rw [h]
    rfl
  · rfl

theorem State.stored_disarm (s : State) (o : Owner) (c : ClientId) :
    ((s.disarm o).holdUnit c).stored = if c = o.clientId
      then (s.holdUnit c).stored.filter (fun d => d.owner != o) else (s.holdUnit c).stored := by
  rw [State.holdUnit_disarm]
  split <;> rfl

/-- Arming puts the deadline in its place in the list, or behind those stored before (R76, R77). -/
theorem State.arm_arms (s : State) (o : Owner) (k : DeadlineKind) (n : Nat) : s.Arms (s.arm o k n) o k n := by
  have hu := s.holdUnit_disarm o
  have hself := hu o.clientId
  rw [if_pos rfl] at hself
  refine ⟨fun hf => ?_, fun hf => ?_, fun d hd => ?_⟩
  · have hf' : (s.client o.clientId).freeze = .frozen := by simpa [State.isFrozen] using hf
    have : s.arm o k n = (s.disarm o).store { owner := o, kind := k, remaining := n } := by simp [State.arm, hf']
    rw [this]
    refine ⟨rfl, ?_⟩
    simp only [State.store, State.holdUnit_setHoldUnit_self, hself]
  · have hf' : ¬ (s.client o.clientId).freeze = .frozen := by simpa [State.isFrozen] using hf
    have : s.arm o k n
        = (s.disarm o).insertDeadline { owner := o, kind := k, due := s.clock + BitVec.ofNat 32 n } := by
      simp [State.arm, hf']
    rw [this]
    exact ⟨(s.disarm o).insertDeadline_insertedInto _, hself⟩
  · have hd' := hu d
    rw [if_neg hd] at hd'
    unfold State.arm
    simp only
    split
    · simp only [State.store, State.holdUnit_setHoldUnit, if_neg hd, hd']
    · exact hd'

/-- A lease is armed on the terms of the record (R83). -/
theorem State.armLease_arms (s : State) (i : SlotId) (c : ClientId) (r : Resource) :
    s.ArmsLease (s.armLease i c r) i c r := by
  unfold State.armLease State.ArmsLease
  split
  · rename_i h
    rw [h]
    exact s.arm_arms _ _ _
  · exact s.arm_arms _ _ _

end Sys2Proof.Machine
end

