-- ==== Sys2Proof/Laws/Notices.lean ====
section
/-! SUPPORT. What raising and clearing notices leaves, and what it makes of the notice sets (R125, R128). -/

namespace Sys2Proof.Machine

/-- Everything but the notice sets is as before. -/
structure State.SameButNotices (s t : State) : Prop where
  pending : t.pending = s.pending
  startup : t.startup = s.startup
  clock : t.clock = s.clock
  grant : t.grant = s.grant
  deadlines : t.deadlines = s.deadlines
  backlog : t.backlog = s.backlog
  slots : t.slots = s.slots
  clients : t.clients = s.clients
  holdUnits : t.holdUnits = s.holdUnits
  ports : t.ports = s.ports

theorem State.SameButNotices.refl (s : State) : s.SameButNotices s := ⟨rfl, rfl, rfl, rfl, rfl, rfl, rfl, rfl, rfl, rfl⟩

theorem State.SameButNotices.trans {s t u : State} (h : s.SameButNotices t) (k : t.SameButNotices u) :
    s.SameButNotices u :=
  ⟨k.pending.trans h.pending, k.startup.trans h.startup, k.clock.trans h.clock, k.grant.trans h.grant,
   k.deadlines.trans h.deadlines, k.backlog.trans h.backlog, k.slots.trans h.slots, k.clients.trans h.clients,
   k.holdUnits.trans h.holdUnits, k.ports.trans h.ports⟩

theorem State.setNoticeSet_same (s : State) (c : ClientId) (ns : NoticeSet) : s.SameButNotices (s.setNoticeSet c ns) :=
  ⟨rfl, rfl, rfl, rfl, rfl, rfl, rfl, rfl, rfl, rfl⟩

theorem State.raiseNotice_same (s : State) (c : ClientId) (n : Notice) : s.SameButNotices (s.raiseNotice c n) := by
  unfold State.raiseNotice
  split
  · exact s.setNoticeSet_same _ _
  · exact .refl s

theorem State.noticeSet_raiseNotice_self (s : State) (c : ClientId) (n : Notice) :
    (s.raiseNotice c n).noticeSet c = s.raisedFor c (s.noticeSet c) n := by
  unfold State.raiseNotice State.raisedFor
  split <;> simp

theorem State.noticeSet_raiseNotice_ne (s : State) (c d : ClientId) (n : Notice) (h : d ≠ c) :
    (s.raiseNotice c n).noticeSet d = s.noticeSet d := by
  unfold State.raiseNotice
  split <;> simp [h]

theorem State.noticeSet_clearNotices_self (s : State) (c : ClientId) (p : Notice → Bool) :
    (s.clearNotices c p).noticeSet c = (s.noticeSet c).without p := by
  simp [State.clearNotices, NoticeSet.without]

theorem State.noticeSet_clearNotices_ne (s : State) (c d : ClientId) (p : Notice → Bool) (h : d ≠ c) :
    (s.clearNotices c p).noticeSet d = s.noticeSet d := by
  simp [State.clearNotices, h]

theorem State.deadlineOf_same {s t : State} (h : s.SameButNotices t) (o : Owner) : t.deadlineOf o = s.deadlineOf o := by
  simp [State.deadlineOf, State.holdUnit, State.distance, h.deadlines, h.holdUnits, h.clock]

end Sys2Proof.Machine
end

