-- ==== Sys2Proof/Laws/Offers.lean ====
section
/-! SUPPORT. What the offer check, the hand-over and the giving back of holding records do: offers made, one after
another (`State.OffersMade`), and where they stop (`State.Checked`). -/

namespace Sys2Proof.Machine

/-! ### Offers made in sequence -/

/-- A record with other lists depends on the rest of it alone. -/
theorem Resource.withLists_eq {a b : Resource} {hs : List Holding} {q : List Waiter}
    (h : b = { a with holders := hs, queue := q }) (hs' : List Holding) (q' : List Waiter) :
    { b with holders := hs', queue := q' } = { a with holders := hs', queue := q' } := by
  subst h
  rfl

theorem State.OffersInto.congr {s t : State} {os : List Offer} {gone : List Waiter} {r r' : Resource}
    (hc : t.clients = s.clients) (h : t.OffersInto os gone r r') : s.OffersInto os gone r r' := by
  simpa only [State.OffersInto, State.client, hc] using h

theorem State.OffersInto.refl (s : State) (r : Resource) : s.OffersInto [] [] r r := by
  refine ⟨by simp, by simp, rfl, by simp, by simp⟩

theorem State.OffersInto.trans {s : State} {os os' : List Offer} {gone gone' : List Waiter} {a b c : Resource}
    (h : s.OffersInto os gone a b) (k : s.OffersInto os' gone' b c) :
    s.OffersInto (os ++ os') (gone ++ gone') a c := by
  obtain ⟨h1, h2, h3, h4, h5⟩ := h
  obtain ⟨k1, k2, k3, k4, k5⟩ := k
  have hh : b.holders = a.holders ++ os.map Offer.holding := congrArg Resource.holders h1
  have hkey : b.key = a.key := (congrArg Resource.key h1).trans rfl
  have hint : b.integrity = a.integrity := (congrArg Resource.integrity h1).trans rfl
  have hcls : b.cls = a.cls := (congrArg Resource.cls h1).trans rfl
  have hadm : ∀ hs t, Resource.Admits { b with holders := hs } t → Resource.Admits { a with holders := hs } t := by
    intro hs t ht
    simpa only [Resource.Admits, hcls] using ht
  refine ⟨?_, by rw [h2, k2, List.append_assoc], by simp [h3, k3], ?_, ?_⟩
  · rw [Resource.withLists_eq h1, hh, List.append_assoc, ← List.map_append] at k1
    exact k1
  · intro x hx
    rcases List.mem_append.mp hx with hx | hx
    · exact h4 x hx
    · have := k4 x hx
      rwa [hkey, hint] at this
  · intro before x after hsplit
    rcases List.append_eq_append_iff.mp hsplit with ⟨l, hl, hr⟩ | ⟨l, hl, hr⟩
    · have := hadm _ _ (k5 l x after hr)
      rwa [hh, List.append_assoc, ← List.map_append, ← hl] at this
    · cases l with
      | nil =>
        have := hadm _ _ (k5 [] x after (by simpa using hr.symm))
        rw [List.append_nil] at hl
        rwa [hh, List.append_assoc, ← List.map_append, List.append_nil, hl] at this
      | cons y l =>
        obtain ⟨rfl, -⟩ := List.cons.inj hr
        exact h5 before x l hl

/-- An owner with a deadline in the list has one. -/
theorem State.deadlineOf_isSome_of_live {s : State} {d : Deadline} (h : d ∈ s.deadlines) :
    (s.deadlineOf d.owner).isSome = true := by
  cases hf : s.deadlines.find? fun e => e.owner == d.owner with
  | some e => simp [State.deadlineOf, hf]
  | none => exact absurd (List.find?_eq_none.mp hf d h) (by simp)

/-- An owner with a deadline stored for its client has one. -/
theorem State.deadlineOf_isSome_of_stored {s : State} {d : StoredDeadline}
    (h : d ∈ (s.holdUnit d.owner.clientId).stored) : (s.deadlineOf d.owner).isSome = true := by
  cases hf : s.deadlines.find? fun e => e.owner == d.owner with
  | some e => simp [State.deadlineOf, hf]
  | none =>
    cases hg : (s.holdUnit d.owner.clientId).stored.find? fun e => e.owner == d.owner with
    | some e => simp [State.deadlineOf, hf, hg]
    | none => exact absurd (List.find?_eq_none.mp hg d h) (by simp)

theorem State.stored_stays {s : State} {c : ClientId} {d : StoredDeadline} (h : d ∈ (s.holdUnit c).stored) :
    (d.owner.clientId != c || (s.deadlineOf d.owner).isSome) = true := by
  by_cases hc : d.owner.clientId = c
  · subst hc
    simp [State.deadlineOf_isSome_of_stored h]
  · simp [hc]

theorem offered_append (os os' : List Offer) (o : Owner) : offered (os ++ os') o = (offered os o || offered os' o) := by
  simp [offered]

/-- An element that a filter keeps splits the list as it splits what is kept. -/
theorem filter_split {α : Type} {p : α → Bool} {l a b : List α} {x : α} (h : l.filter p = a ++ x :: b) :
    ∃ a' b', l = a' ++ x :: b' ∧ b'.filter p = b := by
  obtain ⟨l1, l2, rfl, -, h2⟩ := List.filter_eq_append_iff.mp h
  obtain ⟨l3, l4, rfl, -, -, h4⟩ := List.filter_eq_cons_iff.mp h2
  exact ⟨l1 ++ l3, l4, by simp, h4⟩

namespace State.OffersMade

/-- A backlog alone changed. -/
theorem setBacklog (s : State) (l : List SlotId) : s.OffersMade (s.setBacklog l) [] where
  time := ⟨rfl, rfl, rfl⟩
  clients := rfl
  freezes _ := ⟨rfl, rfl⟩
  grant := rfl
  gens := rfl
  free _ h := ⟨h, by simp, fun _ => rfl⟩
  record _ r h := ⟨r, [], h, .refl s r, fun _ => ⟨by simp, fun _ => rfl⟩⟩
  offerEnd := by simp
  otherHolding _ _ _ := rfl
  allowance _ := rfl
  notices _ := rfl
  live := by
    apply List.filter_congr
    intro d hd
    have : ((s.setBacklog l).deadlineOf d.owner).isSome = true :=
      State.deadlineOf_isSome_of_live (s := s.setBacklog l) hd
    simp [this]
  stored c := by
    apply List.filter_congr
    intro d hd
    have := State.stored_stays (s := s.setBacklog l) (c := c) hd
    rw [this, Bool.and_true]
  place before x after _ h := absurd h (by simp)

theorem refl (s : State) : s.OffersMade s [] := setBacklog s s.backlog

theorem client {s t : State} {os : List Offer} (h : s.OffersMade t os) (c : ClientId) : t.client c = s.client c := by
  simp [State.client, h.clients]

/-- An owner to which no offer is made has a deadline afterwards only if it had one. -/
theorem stays {s t : State} {os : List Offer} (h : s.OffersMade t os) {o : Owner} (ho : offered os o = false)
    (ht : (t.deadlineOf o).isSome = true) : t.deadlineOf o = s.deadlineOf o := by
  cases o with
  | holding j c =>
    refine h.otherHolding j c fun x hx he => ?_
    have : offered os (.holding j c) = true :=
      List.any_eq_true.mpr ⟨x, hx, by simp [Offer.owner, he.1, he.2]⟩
    rw [this] at ho
    cases ho
  | waiter j c =>
    cases hr : s.record j with
    | none => exact (h.free j hr).2.2 c
    | some r =>
      obtain ⟨r', gone, -, -, hd⟩ := h.record j r hr
      by_cases hg : ∃ w ∈ gone, w.client = c
      · rw [(hd c).1 hg] at ht
        cases ht
      · exact (hd c).2 fun w hw he => hg ⟨w, hw, he⟩
  | client c => exact h.allowance c

theorem trans {s t u : State} {os os' : List Offer} (h : s.OffersMade t os) (k : t.OffersMade u os') :
    s.OffersMade u (os ++ os') where
  time := ⟨k.time.1.trans h.time.1, k.time.2.1.trans h.time.2.1, k.time.2.2.trans h.time.2.2⟩
  clients := k.clients.trans h.clients
  freezes c := ⟨(k.freezes c).1.trans (h.freezes c).1, (k.freezes c).2.trans (h.freezes c).2⟩
  grant := by rw [k.grant, h.grant, List.length_append, Nat.add_assoc]
  gens := by
    rw [List.map_append, h.gens, k.gens, h.grant, List.length_append, ← List.range'_append_1]
    simp [Nat.add_comm, Nat.add_left_comm]
  free j hj := by
    obtain ⟨h1, h2, h3⟩ := h.free j hj
    obtain ⟨k1, k2, k3⟩ := k.free j h1
    refine ⟨k1, fun x hx => ?_, fun c => (k3 c).trans (h3 c)⟩
    rcases List.mem_append.mp hx with hx | hx
    · exact h2 x hx
    · exact k2 x hx
  record j r hr := by
    obtain ⟨r', gone, hr', ho, hd⟩ := h.record j r hr
    obtain ⟨r'', gone', hr'', ho', hd'⟩ := k.record j r' hr'
    refine ⟨r'', gone ++ gone', hr'', ?_, fun c => ⟨?_, fun hn => ?_⟩⟩
    · rw [List.filter_append]
      exact ho.trans (ho'.congr h.clients)
    · rintro ⟨w, hw, hwc⟩
      by_cases hg : ∃ w ∈ gone', w.client = c
      · exact (hd' c).1 hg
      · rw [(hd' c).2 fun v hv hvc => hg ⟨v, hv, hvc⟩]
        rcases List.mem_append.mp hw with hw | hw
        · exact (hd c).1 ⟨w, hw, hwc⟩
        · exact absurd ⟨w, hw, hwc⟩ hg
    · rw [(hd' c).2 fun v hv => hn v (List.mem_append_right _ hv),
        (hd c).2 fun v hv => hn v (List.mem_append_left _ hv)]
  offerEnd j r c hr hx := by
    obtain ⟨r', gone, hr', ho, -⟩ := h.record j r hr
    by_cases hx' : ∃ x ∈ os', x.slot = j ∧ x.client = c
    · rw [k.offerEnd j r' c hr' hx', show r'.offerWindow = r.offerWindow from (congrArg Resource.offerWindow ho.1).trans rfl]
      simp [State.isFrozen, h.client]
    · rw [k.otherHolding j c fun x hm he => hx' ⟨x, hm, he⟩]
      obtain ⟨x, hm, he⟩ := hx
      rcases List.mem_append.mp hm with hm | hm
      · exact h.offerEnd j r c hr ⟨x, hm, he⟩
      · exact absurd ⟨x, hm, he⟩ hx'
  otherHolding j c hn := by
    rw [k.otherHolding j c fun x hx => hn x (List.mem_append_right _ hx),
      h.otherHolding j c fun x hx => hn x (List.mem_append_left _ hx)]
  allowance c := (k.allowance c).trans (h.allowance c)
  notices c := by
    rw [k.notices c, h.notices c, List.filter_append, List.foldl_append]
    congr 1
    funext ns x
    simp [State.raisedFor, h.client]
  live := by
    have e1 : (u.deadlines.filter fun d => !offered (os ++ os') d.owner)
        = (u.deadlines.filter fun d => !offered os' d.owner).filter fun d => !offered os d.owner := by
      rw [List.filter_filter]
      congr 1
      funext d
      simp [offered_append]
    have e2 : ((t.deadlines.filter fun d => !offered os' d.owner && (u.deadlineOf d.owner).isSome).filter fun d =>
          !offered os d.owner)
        = (t.deadlines.filter fun d => !offered os d.owner).filter fun d =>
          !offered os' d.owner && (u.deadlineOf d.owner).isSome := by
      rw [List.filter_filter, List.filter_filter]
      congr 1
      funext d
      rw [Bool.and_comm]
    rw [e1, k.live, e2, h.live, List.filter_filter]
    congr 1
    funext d
    by_cases hu : (u.deadlineOf d.owner).isSome = true
    · by_cases ho : offered os' d.owner = true
      · simp [offered_append, ho]
      · have ho' : offered os' d.owner = false := by simpa using ho
        have := k.stays ho' hu
        rw [this] at hu
        simp [offered_append, ho', hu, this]
    · simp [hu]
  stored c := by
    have e1 : ((u.holdUnit c).stored.filter fun d => !offered (os ++ os') d.owner)
        = ((u.holdUnit c).stored.filter fun d => !offered os' d.owner).filter fun d => !offered os d.owner := by
      rw [List.filter_filter]
      congr 1
      funext d
      simp [offered_append]
    have e2 : (((t.holdUnit c).stored.filter fun d =>
          !offered os' d.owner && (d.owner.clientId != c || (u.deadlineOf d.owner).isSome)).filter fun d =>
          !offered os d.owner)
        = ((t.holdUnit c).stored.filter fun d => !offered os d.owner).filter fun d =>
          !offered os' d.owner && (d.owner.clientId != c || (u.deadlineOf d.owner).isSome) := by
      rw [List.filter_filter, List.filter_filter]
      congr 1
      funext d
      rw [Bool.and_comm]
    rw [e1, k.stored c, e2, h.stored c, List.filter_filter]
    congr 1
    funext d
    by_cases hc : d.owner.clientId = c
    · by_cases hu : (u.deadlineOf d.owner).isSome = true
      · by_cases ho : offered os' d.owner = true
        · simp [offered_append, ho]
        · have ho' : offered os' d.owner = false := by simpa using ho
          have := k.stays ho' hu
          rw [this] at hu
          simp [offered_append, ho', hu, this]
      · simp [hu, hc]
    · have hne : (d.owner.clientId != c) = true := by simpa using hc
      simp [offered_append, hne, Bool.and_comm]
  place before x after r hsplit hlast hr := by
    have hfr : ∀ c, t.isFrozen c = s.isFrozen c := fun c => by simp [State.isFrozen, State.client, h.clients]
    have hclk : t.clock = s.clock := h.time.2.2
    -- an offer of the first part, unless a later one has its owner, stands where it stood
    have first : ∀ after', os = before ++ x :: after' → after = after' ++ os' →
        (s.isFrozen x.client = false → ∃ ahead behind,
          u.deadlines = ahead ++ { owner := x.owner, kind := .offerEnd,
                                   due := s.clock + BitVec.ofNat 32 r.offerWindow.toNat } :: behind
          ∧ ∀ d ∈ behind, r.offerWindow.toNat < s.distance d.due ∨ offered after d.owner = true)
        ∧ (s.isFrozen x.client = true → ∃ ahead behind,
          (u.holdUnit x.client).stored
            = ahead ++ { owner := x.owner, kind := .offerEnd, remaining := r.offerWindow.toNat } :: behind
          ∧ ∀ d ∈ behind, offered after d.owner = true) := by
      rintro after' h1 rfl
      rw [offered_append, Bool.or_eq_false_iff] at hlast
      obtain ⟨p1, p2⟩ := h.place before x after' r h1 hlast.1 hr
      have hsome : (u.deadlineOf x.owner).isSome = true := by
        have e1 : u.deadlineOf x.owner = t.deadlineOf x.owner := by
          refine k.otherHolding x.slot x.client fun y hy he => ?_
          have : offered os' x.owner = true := List.any_eq_true.mpr ⟨y, hy, by simp [Offer.owner, he.1, he.2]⟩
          rw [this] at hlast
          cases hlast.2
        have e2 := h.offerEnd x.slot r x.client hr ⟨x, by simp [h1], rfl, rfl⟩
        rw [e1, Offer.owner, e2]
        rfl
      have hstays : (!offered os' x.owner && (u.deadlineOf x.owner).isSome) = true := by simp [hlast.2, hsome]
      refine ⟨fun hf => ?_, fun hf => ?_⟩
      · obtain ⟨a, b, hab, hb⟩ := p1 hf
        have hk := k.live
        rw [hab, List.filter_append, List.filter_cons_of_pos (by exact hstays)] at hk
        obtain ⟨a', b', hu, hb'⟩ := filter_split hk
        refine ⟨a', b', hu, fun d hd => ?_⟩
        by_cases ho : offered os' d.owner = true
        · exact .inr (by simp [offered_append, ho])
        · have hm : d ∈ b'.filter fun d => !offered os' d.owner := List.mem_filter.mpr ⟨hd, by simpa using ho⟩
          rw [hb'] at hm
          exact (hb d (List.mem_filter.mp hm).1).imp id fun h => by simp [offered_append, h]
      · obtain ⟨a, b, hab, hb⟩ := p2 hf
        have hk := k.stored x.client
        rw [hab, List.filter_append, List.filter_cons_of_pos (by simp [hlast.2, hsome])] at hk
        obtain ⟨a', b', hu, hb'⟩ := filter_split hk
        refine ⟨a', b', hu, fun d hd => ?_⟩
        by_cases ho : offered os' d.owner = true
        · simp [offered_append, ho]
        · have hm : d ∈ b'.filter fun d => !offered os' d.owner := List.mem_filter.mpr ⟨hd, by simpa using ho⟩
          rw [hb'] at hm
          simp [offered_append, hb d (List.mem_filter.mp hm).1]
    have second : ∀ before', os' = before' ++ x :: after →
        (s.isFrozen x.client = false → ∃ ahead behind,
          u.deadlines = ahead ++ { owner := x.owner, kind := .offerEnd,
                                   due := s.clock + BitVec.ofNat 32 r.offerWindow.toNat } :: behind
          ∧ ∀ d ∈ behind, r.offerWindow.toNat < s.distance d.due ∨ offered after d.owner = true)
        ∧ (s.isFrozen x.client = true → ∃ ahead behind,
          (u.holdUnit x.client).stored
            = ahead ++ { owner := x.owner, kind := .offerEnd, remaining := r.offerWindow.toNat } :: behind
          ∧ ∀ d ∈ behind, offered after d.owner = true) := by
      intro before' h2
      obtain ⟨r', gone, hr', ho, -⟩ := h.record x.slot r hr
      have hw : r'.offerWindow = r.offerWindow := (congrArg Resource.offerWindow ho.1).trans rfl
      have := k.place before' x after r' h2 hlast hr'
      simpa only [hfr, hw, hclk, State.distance] using this
    rcases List.append_eq_append_iff.mp hsplit with ⟨l, -, hr2⟩ | ⟨l, hl, hr2⟩
    · exact second l hr2
    · cases l with
      | nil => exact second [] (by simpa using hr2.symm)
      | cons y l =>
        obtain ⟨rfl, ha⟩ := List.cons.inj hr2
        exact first l hl ha

/-- A spent grant counter stays spent (R28). -/
theorem spent {s t : State} {os : List Offer} (h : s.OffersMade t os) (hs : s.grant = 0xFFFFFFFF#32) :
    t.grant = 0xFFFFFFFF#32 := by
  have h1 := h.grant
  have h2 := t.grant.isLt
  apply BitVec.eq_of_toNat_eq
  rw [hs] at h1
  simp only [BitVec.toNat_ofNat] at h1 ⊢
  omega

end State.OffersMade

/-! ### One entry leaves, one offer is made -/

theorem State.modifyRecord_some (s : State) (i : SlotId) (f : Resource → Resource) (r : Resource)
    (h : s.record i = some r) : s.modifyRecord i f = s.setRecord i (some (f r)) := by
  simp [State.modifyRecord, h]

theorem State.modifyRecord_none (s : State) (i : SlotId) (f : Resource → Resource) (h : s.record i = none) :
    s.modifyRecord i f = s := by
  simp [State.modifyRecord, h]

theorem State.dropWaiter_eq (s : State) (i : SlotId) (r : Resource) (c : ClientId) (h : s.record i = some r) :
    s.dropWaiter i c
      = (s.setRecord i (some { r with queue := r.queue.eraseP fun w => w.client == c })).disarm (.waiter i c) := by
  rw [State.dropWaiter, s.modifyRecord_some _ _ r h]

/-- The head entry leaves: its record, its deadline, and nothing else (R47). -/
theorem State.dropWaiter_head_eq (s : State) (i : SlotId) (r : Resource) (w : Waiter) (rest : List Waiter)
    (h : s.record i = some r) (hq : r.queue = w :: rest) :
    s.dropWaiter i w.client = (s.setRecord i (some { r with queue := rest })).disarm (.waiter i w.client) := by
  rw [s.dropWaiter_eq i r _ h]
  simp [hq]

theorem State.makeOffer_eq (s : State) (i : SlotId) (r : Resource) (w : Waiter) (rest : List Waiter)
    (h : s.record i = some r) (hq : r.queue = w :: rest) :
    s.makeOffer i w =
      ((((((s.setRecord i (some { r with queue := rest })).disarm (.waiter i w.client)).setGrant (s.grant + 1)).setRecord i
        (some { r with
          queue := rest
          holders := r.holders ++ [{ client := w.client, tenure := w.mode, state := .offered, gen := s.grant + 1,
                                     suspect := r.integrity == .suspect, warned := false }] })).arm
        (.holding i w.client) .offerEnd r.offerWindow.toNat).raiseNotice w.client
          (notice r.key (.offer w.mode (r.integrity == .suspect)) (some (s.grant + 1)))) := by
  have hg : ((s.setRecord i (some { r with queue := rest })).disarm (.waiter i w.client)).grant = s.grant :=
    (State.disarm_same _ _).grant
  have hr : ((s.setRecord i (some { r with queue := rest })).disarm (.waiter i w.client)).record i
      = some { r with queue := rest } := by rw [(State.disarm_same _ _).record]; simp
  unfold State.makeOffer
  rw [h]
  simp only
  rw [s.dropWaiter_head_eq i r w rest h hq, State.createHolding, hg,
    State.modifyRecord_some _ _ _ { r with queue := rest } (by simpa using hr)]

/-- The offer made to an entry of slot `i`'s record. -/
def State.offerTo (s : State) (i : SlotId) (r : Resource) (w : Waiter) : Offer :=
  { slot := i, key := r.key, client := w.client, tenure := w.mode, suspect := r.integrity == .suspect, gen := s.grant + 1 }

/-- A record of the slot alone has changed. -/
theorem State.SameRecordsBut.refl (s : State) (i : SlotId) : s.SameRecordsBut s i := fun _ _ => rfl

theorem State.SameRecordsBut.trans {s t u : State} {i : SlotId} (h : s.SameRecordsBut t i) (k : t.SameRecordsBut u i) :
    s.SameRecordsBut u i := fun j hj => (k j hj).trans (h j hj)

/-- The head entry, of a client in TEARDOWN, leaves (R11 step 1). -/
theorem State.dropWaiter_head_spec (s : State) (i : SlotId) (r : Resource) (w : Waiter) (rest : List Waiter)
    (h : s.record i = some r) (hq : r.queue = w :: rest) (ht : (s.client w.client).session = .teardown) :
    s.OffersMade (s.dropWaiter i w.client) [] ∧ s.SameRecordsBut (s.dropWaiter i w.client) i
      ∧ (s.dropWaiter i w.client).backlog = s.backlog
      ∧ (s.dropWaiter i w.client).record i = some { r with queue := rest } := by
  rw [s.dropWaiter_head_eq i r w rest h hq]
  have same := (s.setRecord i (some { r with queue := rest })).disarm_same (.waiter i w.client)
  have hdl : ∀ o, o ≠ .waiter i w.client →
      ((s.setRecord i (some { r with queue := rest })).disarm (.waiter i w.client)).deadlineOf o = s.deadlineOf o :=
    fun o ho => State.deadlineOf_disarm_ne _ _ _ ho
  have hrec : ∀ j, j ≠ i →
      ((s.setRecord i (some { r with queue := rest })).disarm (.waiter i w.client)).record j = s.record j :=
    fun j hj => by rw [same.record]; simp [hj]
  have hself : ((s.setRecord i (some { r with queue := rest })).disarm (.waiter i w.client)).record i
      = some { r with queue := rest } := by rw [same.record]; simp
  refine ⟨?_, hrec, same.backlog, hself⟩
  exact {
    time := ⟨same.pending, same.startup, same.clock⟩
    clients := same.clients
    freezes := fun c => ⟨same.level c, same.freezeStart c⟩
    grant := by rw [same.grant]; rfl
    gens := rfl
    free := fun j hj => by
      have hji : j ≠ i := by rintro rfl; rw [h] at hj; cases hj
      exact ⟨by rw [hrec j hji, hj], by simp, fun c => hdl _ (by simp [hji])⟩
    record := fun j q hj => by
      by_cases hji : j = i
      · subst hji
        rw [h] at hj
        cases hj
        refine ⟨_, [w], hself, ⟨by simp, hq, by simp [ht], by simp, by simp⟩, fun c => ⟨?_, fun hn => ?_⟩⟩
        · rintro ⟨v, hv, rfl⟩
          rw [List.mem_singleton.mp hv]
          exact State.deadlineOf_disarm_self _ _
        · exact hdl _ (by simpa using Ne.symm (hn w (by simp)))
      · exact ⟨q, [], by rw [hrec j hji, hj], .refl s q, fun c => ⟨by simp, fun _ => hdl _ (by simp [hji])⟩⟩
    offerEnd := by simp
    otherHolding := fun j c _ => hdl _ (by simp)
    allowance := fun c => hdl _ (by simp)
    notices := fun c => by rw [same.noticeSet]; rfl
    live := by
      have hl : ((s.setRecord i (some { r with queue := rest })).disarm (.waiter i w.client)).deadlines
          = s.deadlines.filter fun d => d.owner != .waiter i w.client := rfl
      rw [hl, List.filter_filter]
      apply List.filter_congr
      intro d hd
      by_cases ho : d.owner = .waiter i w.client
      · have := (s.setRecord i (some { r with queue := rest })).deadlineOf_disarm_self (.waiter i w.client)
        simp [ho, this]
      · simp [ho, offered, hdl _ ho, State.deadlineOf_isSome_of_live hd]
    stored := fun c => by
      rw [State.stored_disarm]
      by_cases hc : c = w.client
      · subst hc
        rw [if_pos (show w.client = (Owner.waiter i w.client).clientId from rfl), List.filter_filter]
        change ((s.holdUnit w.client).stored.filter _) = _
        apply List.filter_congr
        intro d hd
        by_cases ho : d.owner = .waiter i w.client
        · have := (s.setRecord i (some { r with queue := rest })).deadlineOf_disarm_self (.waiter i w.client)
          simp [ho, this, Owner.clientId]
        · rw [hdl _ ho, State.stored_stays hd]
          simp [ho, offered]
      · rw [if_neg (show ¬ c = (Owner.waiter i w.client).clientId from hc)]
        change ((s.holdUnit c).stored.filter _) = _
        apply List.filter_congr
        intro d hd
        by_cases ho : d.owner = .waiter i w.client
        · simp [ho, Owner.clientId, Ne.symm hc]
        · rw [hdl _ ho, State.stored_stays hd]
          rfl
    place := fun before x after _ h => absurd h (by simp) }

/-- An offer to the head entry (R57). -/
theorem State.makeOffer_spec (s : State) (i : SlotId) (r : Resource) (w : Waiter) (rest : List Waiter)
    (h : s.record i = some r) (hq : r.queue = w :: rest) (ht : (s.client w.client).session ≠ .teardown)
    (hg : s.grant ≠ 0xFFFFFFFF#32) (ha : r.Admits w.mode) :
    s.OffersMade (s.makeOffer i w) [s.offerTo i r w] ∧ s.SameRecordsBut (s.makeOffer i w) i
      ∧ (s.makeOffer i w).backlog = s.backlog
      ∧ (s.makeOffer i w).record i = some { r with
          queue := rest, holders := r.holders ++ [(s.offerTo i r w).holding] } := by
  have hgt : (s.grant + 1).toNat = s.grant.toNat + 1 := by
    have h1 := s.grant.isLt
    have h2 : s.grant.toNat ≠ 2 ^ 32 - 1 := fun he => hg (BitVec.eq_of_toNat_eq (by simpa using he))
    have h3 : (1 : Gen).toNat = 1 := rfl
    rw [BitVec.toNat_add, h3]
    omega
  rw [s.makeOffer_eq i r w rest h hq]
  generalize hu : ((((s.setRecord i (some { r with queue := rest })).disarm (.waiter i w.client)).setGrant
      (s.grant + 1)).setRecord i (some { r with
          queue := rest
          holders := r.holders ++ [{ client := w.client, tenure := w.mode, state := .offered, gen := s.grant + 1,
                                     suspect := r.integrity == .suspect, warned := false }] })) = u
  have same1 := (s.setRecord i (some { r with queue := rest })).disarm_same (.waiter i w.client)
  have same := u.arm_same (.holding i w.client) .offerEnd r.offerWindow.toNat
  generalize hv : u.arm (.holding i w.client) .offerEnd r.offerWindow.toNat = v at same
  have same2 := v.raiseNotice_same w.client (notice r.key (.offer w.mode (r.integrity == .suspect)) (some (s.grant + 1)))
  generalize hn : v.raiseNotice w.client (notice r.key (.offer w.mode (r.integrity == .suspect)) (some (s.grant + 1))) = t
    at same2
  have hclients : u.clients = s.clients := by rw [← hu]; exact same1.clients
  have hrec : ∀ j, t.record j = if j = i then some { r with
      queue := rest, holders := r.holders ++ [(s.offerTo i r w).holding] } else s.record j := by
    intro j
    have : t.record j = u.record j := by rw [← same.record j]; simp [State.record, same2.slots]
    rw [this, ← hu, State.record_setRecord]
    split
    · rfl
    · rename_i hj
      rw [State.record_setGrant, same1.record]
      simp [hj]
  have hdl : ∀ o, o ≠ .holding i w.client → t.deadlineOf o = u.deadlineOf o := fun o ho => by
    rw [State.deadlineOf_same same2, ← hv, State.deadlineOf_arm_ne _ _ _ _ _ ho]
  have hdl' : ∀ o, o ≠ .waiter i w.client → u.deadlineOf o = s.deadlineOf o := fun o ho => by
    rw [← hu]; exact State.deadlineOf_disarm_ne (s.setRecord i (some { r with queue := rest })) _ _ ho
  have hgone : t.deadlineOf (.waiter i w.client) = none := by
    rw [hdl _ (by simp), ← hu]
    exact State.deadlineOf_disarm_self (s.setRecord i (some { r with queue := rest })) _
  have hend : t.deadlineOf (.holding i w.client) = some (.offerEnd, r.offerWindow.toNat, s.isFrozen w.client) := by
    rw [State.deadlineOf_same same2, ← hv,
      State.deadlineOf_arm_self _ _ _ _ (Nat.lt_of_lt_of_le r.offerWindow.isLt (by norm_num))]
    simp [State.isFrozen, State.client, hclients, Owner.clientId]
  have harm : u.Arms v (.holding i w.client) .offerEnd r.offerWindow.toNat := hv ▸ u.arm_arms _ _ _
  have harmF : u.isFrozen w.client = true → v.deadlines = (u.deadlines.filter fun d => d.owner != .holding i w.client)
      ∧ (v.holdUnit w.client).stored = ((u.holdUnit w.client).stored.filter fun d => d.owner != .holding i w.client)
        ++ [{ owner := .holding i w.client, kind := .offerEnd, remaining := r.offerWindow.toNat }] :=
    fun hf => ⟨(harm.1 hf).1, congrArg HoldUnit.stored (harm.1 hf).2⟩
  have harmU : u.isFrozen w.client = false → u.InsertedInto
        { owner := .holding i w.client, kind := .offerEnd, due := u.clock + BitVec.ofNat 32 r.offerWindow.toNat }
        (u.deadlines.filter fun d => d.owner != .holding i w.client) v.deadlines
      ∧ (v.holdUnit w.client).stored = (u.holdUnit w.client).stored.filter fun d => d.owner != .holding i w.client :=
    fun hf => ⟨(harm.2.1 hf).1, congrArg HoldUnit.stored (harm.2.1 hf).2⟩
  have harmO : ∀ c, c ≠ w.client → v.holdUnit c = u.holdUnit c := harm.2.2
  have htd : t.deadlines = v.deadlines := same2.deadlines
  have htu : ∀ c, t.holdUnit c = v.holdUnit c := fun c => by simp [State.holdUnit, same2.holdUnits]
  have hud : u.deadlines = s.deadlines.filter fun d => d.owner != .waiter i w.client := by rw [← hu]; rfl
  have hus : ∀ c, (u.holdUnit c).stored = if c = w.client
      then (s.holdUnit c).stored.filter (fun d => d.owner != .waiter i w.client) else (s.holdUnit c).stored :=
    fun c => by
      rw [← hu]
      exact (s.setRecord i (some { r with queue := rest })).stored_disarm (.waiter i w.client) c
  have hone : ∀ o, offered [s.offerTo i r w] o = (o == .holding i w.client) := fun o => by
    rw [offered, List.any_cons, List.any_nil, Bool.or_false, Bool.eq_iff_iff, beq_iff_eq, beq_iff_eq]
    exact eq_comm
  refine ⟨?_, fun j hj => by rw [hrec, if_neg hj], ?_, by rw [hrec, if_pos rfl]⟩
  case refine_2 =>
    rw [same2.backlog, same.backlog, ← hu]
    exact same1.backlog
  exact {
    time := ⟨by rw [same2.pending, same.pending, ← hu]; exact same1.pending,
      by rw [same2.startup, same.startup, ← hu]; exact same1.startup,
      by rw [same2.clock, same.clock, ← hu]; exact same1.clock⟩
    clients := by rw [same2.clients, same.clients, hclients]
    freezes := fun c => by
      have hc : t.holdUnit c = v.holdUnit c := by simp [State.holdUnit, same2.holdUnits]
      rw [hc, same.level, same.freezeStart, ← hu]
      exact ⟨same1.level c, same1.freezeStart c⟩
    grant := by
      rw [same2.grant, same.grant, ← hu]
      exact hgt
    gens := by
      change [(s.grant + 1).toNat] = [s.grant.toNat + 1]
      rw [hgt]
    free := fun j hj => by
      have hji : j ≠ i := by rintro rfl; rw [h] at hj; cases hj
      refine ⟨by rw [hrec, if_neg hji, hj], by simpa [State.offerTo] using Ne.symm hji, fun c => ?_⟩
      rw [hdl _ (by simp), hdl' _ (by simp [hji])]
    record := fun j q hj => by
      by_cases hji : j = i
      · subst hji
        rw [h] at hj
        cases hj
        refine ⟨{ r with queue := rest, holders := r.holders ++ [(s.offerTo j r w).holding] }, [w],
          by rw [hrec, if_pos rfl], ⟨by simp [State.offerTo], hq, by simp [ht, State.offerTo], by simp [State.offerTo],
            ?_⟩, fun c => ⟨?_, fun hn => ?_⟩⟩
        · intro before x after hsplit
          have hf : ([s.offerTo j r w].filter fun x => x.slot == j) = [s.offerTo j r w] := by simp [State.offerTo]
          rw [hf] at hsplit
          cases before with
          | nil =>
            obtain ⟨rfl, -⟩ := List.cons.inj hsplit
            change Resource.Admits { r with holders := r.holders ++ [] } w.mode
            rw [List.append_nil]
            exact ha
          | cons y ys => simp at hsplit
        · rintro ⟨v, hv, rfl⟩
          rw [List.mem_singleton.mp hv]
          exact hgone
        · rw [hdl _ (by simp), hdl' _ (by simpa using Ne.symm (hn w (by simp)))]
      · have hf : ([s.offerTo i r w].filter fun x => x.slot == j) = [] := by
          simpa [State.offerTo] using Ne.symm hji
        rw [hf]
        refine ⟨q, [], by rw [hrec, if_neg hji, hj], .refl s q, fun c => ⟨by simp, fun _ => ?_⟩⟩
        rw [hdl _ (by simp), hdl' _ (by simp [hji])]
    offerEnd := fun j q c hj hx => by
      obtain ⟨x, hx, hxj, hxc⟩ := hx
      rw [List.mem_singleton.mp hx] at hxj hxc
      change i = j at hxj
      change w.client = c at hxc
      subst hxj hxc
      rw [h] at hj
      cases hj
      exact hend
    otherHolding := fun j c hx => by
      have hne : Owner.holding j c ≠ .holding i w.client := by
        intro he
        obtain ⟨rfl, rfl⟩ := Owner.holding.inj he
        exact hx _ (List.mem_singleton.mpr rfl) ⟨rfl, rfl⟩
      rw [hdl _ hne, hdl' _ (by simp)]
    allowance := fun c => by rw [hdl _ (by simp), hdl' _ (by simp)]
    notices := fun c => by
      have hset : u.noticeSet c = s.noticeSet c := by rw [← hu]; exact same1.noticeSet c
      by_cases hc : c = w.client
      · subst hc
        rw [← hn, State.noticeSet_raiseNotice_self, same.noticeSet, hset]
        have hf : ([s.offerTo i r w].filter fun x => x.client == w.client) = [s.offerTo i r w] := by
          simp [State.offerTo]
        rw [hf]
        simp only [List.foldl_cons, List.foldl_nil, State.raisedFor, State.client, same.clients, hclients]
        rfl
      · have hf : ([s.offerTo i r w].filter fun x => x.client == c) = [] := by
          simpa [State.offerTo] using Ne.symm hc
        rw [hf, ← hn, State.noticeSet_raiseNotice_ne _ _ _ _ hc, same.noticeSet, hset]
        rfl
    live := by
      have hout : ∀ l : List Deadline, ((l.filter fun d => d.owner != .holding i w.client).filter fun d =>
          !offered [s.offerTo i r w] d.owner) = l.filter fun d => d.owner != .holding i w.client := fun l => by
        simp [List.filter_filter, hone, bne]
      have e1 : (t.deadlines.filter fun d => !offered [s.offerTo i r w] d.owner)
          = u.deadlines.filter fun d => d.owner != .holding i w.client := by
        rw [htd]
        cases hf : u.isFrozen w.client with
        | true => rw [(harmF hf).1, hout]
        | false =>
          obtain ⟨a, b, hab, hvd, -⟩ := (harmU hf).1
          rw [hvd, List.filter_append, List.filter_cons_of_neg (by simp [hone]), ← List.filter_append, ← hab, hout]
      rw [e1, hud, List.filter_filter]
      apply List.filter_congr
      intro d hd
      by_cases ho : d.owner = .holding i w.client
      · simp [hone, ho]
      · by_cases ho' : d.owner = .waiter i w.client
        · simp [hone, ho', hgone]
        · rw [hdl _ ho, hdl' _ ho', State.deadlineOf_isSome_of_live hd]
          simp [hone, bne, beq_eq_false_iff_ne.mpr ho, beq_eq_false_iff_ne.mpr ho']
    stored := fun c => by
      have hout : ∀ l : List StoredDeadline, ((l.filter fun d => d.owner != .holding i w.client).filter fun d =>
          !offered [s.offerTo i r w] d.owner) = l.filter fun d => d.owner != .holding i w.client := fun l => by
        simp [List.filter_filter, hone, bne]
      have e1 : ((t.holdUnit c).stored.filter fun d => !offered [s.offerTo i r w] d.owner)
          = (u.holdUnit c).stored.filter fun d => d.owner != .holding i w.client := by
        rw [htu]
        by_cases hc : c = w.client
        · subst hc
          cases hf : u.isFrozen w.client with
          | true =>
            rw [(harmF hf).2, List.filter_append, List.filter_cons_of_neg (by simp [hone]), List.filter_nil,
              List.append_nil, hout]
          | false => rw [(harmU hf).2, hout]
        · rw [harmO c hc]
          simp [hone, bne]
      have hpoint : ∀ d ∈ (s.holdUnit c).stored, d.owner ≠ .waiter i w.client →
          (d.owner != .holding i w.client) = (!offered [s.offerTo i r w] d.owner
            && (d.owner.clientId != c || (t.deadlineOf d.owner).isSome)) := fun d hd ho' => by
        by_cases ho : d.owner = .holding i w.client
        · simp [hone, ho]
        · rw [hdl _ ho, hdl' _ ho', State.stored_stays hd, hone, Bool.and_true]
          rfl
      rw [e1, hus]
      by_cases hc : c = w.client
      · subst hc
        rw [if_pos rfl, List.filter_filter]
        apply List.filter_congr
        intro d hd
        by_cases ho' : d.owner = .waiter i w.client
        · simp [ho', hgone, Owner.clientId]
        · rw [← hpoint d hd ho']
          simp [ho']
      · rw [if_neg hc]
        apply List.filter_congr
        intro d hd
        by_cases ho' : d.owner = .waiter i w.client
        · simp only [hone, ho', Owner.clientId, bne_iff_ne.mpr (Ne.symm hc), Bool.true_or, Bool.and_true]
          rfl
        · exact hpoint d hd ho'
    place := fun before x after q hsplit _ hq' => by
      obtain ⟨rfl, rfl, rfl⟩ : before = [] ∧ x = s.offerTo i r w ∧ after = [] := by
        cases before with
        | nil =>
          obtain ⟨h1, h2⟩ := List.cons.inj hsplit
          exact ⟨rfl, h1.symm, h2.symm⟩
        | cons y ys => simp at hsplit
      obtain rfl : r = q := by
        change s.record i = some q at hq'
        simpa [h] using hq'
      have hfr : u.isFrozen w.client = s.isFrozen w.client := by simp [State.isFrozen, State.client, hclients]
      have hclk : u.clock = s.clock := by rw [← hu]; exact same1.clock
      refine ⟨fun hf => ?_, fun hf => ?_⟩
      · obtain ⟨a, b, -, hvd, -, hb⟩ := (harmU (hfr.trans hf)).1
        rw [hclk] at hvd
        refine ⟨a, b, htd.trans hvd, fun d hd => .inl ?_⟩
        have := hb d hd
        rw [hclk] at this
        have hdist : u.distance (s.clock + BitVec.ofNat 32 r.offerWindow.toNat) = r.offerWindow.toNat := by
          rw [State.distance, hclk, BitVec.add_comm, BitVec.add_sub_cancel, BitVec.toNat_ofNat,
            Nat.mod_eq_of_lt (Nat.lt_of_lt_of_le r.offerWindow.isLt (by norm_num))]
        rw [hdist] at this
        simpa only [State.distance, hclk] using this
      · exact ⟨_, [], (congrArg HoldUnit.stored (htu w.client)).trans (harmF (hfr.trans hf)).2, by simp⟩ }

/-! ### The condition under which the offer check stops (R11, R12) -/

theorem Resource.compatible_iff (r : Resource) (t : Tenure) : r.compatible t = true ↔ r.Admits t := by
  cases t <;> cases h : r.cls <;> simp [Resource.compatible, Resource.Admits, h]

theorem State.offerDue_iff (s : State) (i : SlotId) (r : Resource) (w : Waiter) (h : s.record i = some r)
    (hw : r.queue.head? = some w) : s.offerDue i w = true ↔ s.OwesAnOffer i := by
  simp only [State.offerDue, State.grantSpent, h, Option.any_some, Bool.and_eq_true, Bool.not_eq_true',
    beq_eq_false_iff_ne, r.compatible_iff, State.OwesAnOffer]
  constructor
  · rintro ⟨hg, ha⟩
    exact ⟨r, w, rfl, hw, ha, hg⟩
  · rintro ⟨r', w', hr', hw', ha, hg⟩
    obtain rfl : r = r' := by simpa using hr'
    rw [hw] at hw'
    obtain rfl : w = w' := by simpa using hw'
    exact ⟨hg, ha⟩

/-- The check of a slot outside the backlog still stands when offers are made elsewhere (R12). -/
theorem State.Checked.after {s t : State} {j : SlotId} {os : List Offer} (h : s.Checked j) (hm : s.OffersMade t os)
    (hr : t.record j = s.record j) (hb : j ∉ s.backlog) (hb' : j ∉ t.backlog) : t.Checked j := by
  refine ⟨fun r w hr' hw => ?_, ⟨fun hin => absurd hin hb', ?_⟩⟩
  · rw [hm.client]
    exact h.1 r w (hr ▸ hr') hw
  · rintro ⟨r, w, hr', hw, ha, hg⟩
    exact absurd (h.2.mpr ⟨r, w, hr ▸ hr', hw, ha, fun hs => hg (hm.spent hs)⟩) hb

/-! ### The holding records in use -/

theorem State.total_eq_sum (s : State) (f : Resource → Nat) : s.total f = ∑ i : SlotId, (s.record i).elim 0 f := by
  rw [State.total, allSlots, Fin.sum_univ_def]

theorem sum_offers_at (os : List Offer) : ∑ i : SlotId, (os.filter fun x => x.slot == i).length = os.length := by
  induction os with
  | nil => simp
  | cons x os ih =>
    have : ∀ i : SlotId, ((x :: os).filter fun y => y.slot == i).length
        = (if x.slot = i then 1 else 0) + (os.filter fun y => y.slot == i).length := by
      intro i
      by_cases h : x.slot = i
      · simp [h, Nat.add_comm]
      · simp [h]
    simp only [this, Finset.sum_add_distrib, ih, Finset.sum_ite_eq, Finset.mem_univ, if_true, List.length_cons]
    omega

/-- Each offer takes one holding record (R22). -/
theorem State.OffersMade.holdingsInUse {s t : State} {os : List Offer} (h : s.OffersMade t os) :
    t.holdingsInUse = s.holdingsInUse + os.length := by
  rw [State.holdingsInUse, State.holdingsInUse, State.total_eq_sum, State.total_eq_sum, ← sum_offers_at os,
    ← Finset.sum_add_distrib]
  refine Finset.sum_congr rfl fun i _ => ?_
  cases hr : s.record i with
  | none =>
    obtain ⟨h1, h2, -⟩ := h.free i hr
    have : (os.filter fun x => x.slot == i) = [] := by
      rw [List.filter_eq_nil_iff]
      intro x hx
      simpa using h2 x hx
    simp [h1, this]
  | some r =>
    obtain ⟨r', gone, hr', ho, -⟩ := h.record i r hr
    have : r'.holders = r.holders ++ (os.filter fun x => x.slot == i).map Offer.holding :=
      (congrArg Resource.holders ho.1).trans rfl
    simp [hr', this]

theorem State.freeHoldings_eq_zero (s : State) : s.freeHoldings = 0 ↔ 96 ≤ s.holdingsInUse := by
  simp only [State.freeHoldings, State.holdingsInUse, Config.holdingRecords]
  omega

/-! ### The offer check (R11) -/

/-- What one offer check of slot `i` does, from its source to what is left of it: offers at the slot alone, until it
stops; where it cannot obtain a record the slot is in the backlog, else it has left it. -/
structure State.OfferPass (s t : State) (i : SlotId) (src src' : Source) (os : List Offer) : Prop where
  made : s.OffersMade t os
  here : ∀ x ∈ os, x.slot = i
  elsewhere : s.SameRecordsBut t i
  checked : t.Checked i
  backlog : t.backlog = s.backlog.filter (fun j => j != i) ∨ (i ∈ s.backlog ∧ t.backlog = s.backlog)
    ∨ (i ∉ s.backlog ∧ t.backlog = s.backlog ++ [i])
  pool : src = .pool → s.backlog = [] → t.backlog ≠ [] → t.freeHoldings = 0
  handed : src = .handed → (src' = .handed ∧ os = [] ∧ t.backlog = s.backlog.filter fun j => j != i)
    ∨ (src' = .used ∧ os.length = 1)
  used : src = .used → src' = .used ∧ os = []
  atFront : src = .pool → os ≠ [] → s.backlog = [] ∨ s.backlog.head? = some i
  within : src = .pool → s.holdingsInUse ≤ 96 → t.holdingsInUse ≤ 96

/-- An offer check with the records of the pool takes one only if the backlog is empty or the slot at its front (R11). -/
theorem State.canObtain_pool (s : State) (i : SlotId) (h : s.canObtain i .pool = true) :
    s.holdingsInUse < 96 ∧ (s.backlog = [] ∨ s.backlog.head? = some i) := by
  simp only [State.canObtain, Bool.and_eq_true, decide_eq_true_eq, Bool.or_eq_true, List.isEmpty_iff, beq_iff_eq] at h
  refine ⟨Nat.lt_of_not_le fun hle => ?_, h.2⟩
  rw [s.freeHoldings_eq_zero.mpr hle] at h
  exact absurd h.1 (Nat.lt_irrefl 0)

/-- The queue that a loop of the offer check walks is the record's (R11). -/
def State.QueueIs (s : State) (i : SlotId) (ws : List Waiter) : Prop :=
  (s.record i).elim [] Resource.queue = ws

theorem State.QueueIs.record_cons {s : State} {i : SlotId} {w : Waiter} {rest : List Waiter}
    (h : s.QueueIs i (w :: rest)) : ∃ r, s.record i = some r ∧ r.queue = w :: rest := by
  unfold State.QueueIs at h
  cases hr : s.record i with
  | none => simp [hr] at h
  | some r => exact ⟨r, rfl, by simpa [hr] using h⟩

theorem State.leaveBacklog_pass (s : State) (i : SlotId) (src : Source) (ho : ¬ s.OwesAnOffer i)
    (ht : ∀ r w, s.record i = some r → r.queue.head? = some w → (s.client w.client).session ≠ .teardown) :
    s.OfferPass (s.leaveBacklog i) i src src [] where
  made := .setBacklog s _
  here := by simp
  elsewhere := .refl s i
  checked := ⟨ht, ⟨fun hin => by simp [State.leaveBacklog] at hin, fun h => absurd h ho⟩⟩
  backlog := .inl rfl
  pool _ hb hne := absurd (by simp [State.leaveBacklog, hb]) hne
  handed h := .inl ⟨h, rfl, rfl⟩
  used h := ⟨h, rfl⟩
  atFront _ h := absurd rfl h
  within _ h := h

theorem State.joinBacklog_pass (s : State) (i : SlotId) (src : Source) (ho : s.OwesAnOffer i)
    (ht : ∀ r w, s.record i = some r → r.queue.head? = some w → (s.client w.client).session ≠ .teardown)
    (hc : s.canObtain i src = false) : s.OfferPass (s.joinBacklog i) i src src [] := by
  have hpool : src = .pool → s.backlog = [] → s.freeHoldings = 0 := by
    rintro rfl hb
    simpa [State.canObtain, hb] using hc
  have hnh : src ≠ .handed := by rintro rfl; simp [State.canObtain] at hc
  unfold State.joinBacklog
  split
  · rename_i hin
    have hin : i ∈ s.backlog := by simpa [State.inBacklog] using hin
    exact ⟨.refl s, by simp, .refl s i, ⟨ht, ⟨fun _ => ho, fun _ => hin⟩⟩, .inr (.inl ⟨hin, rfl⟩),
      fun h hb _ => hpool h hb, fun h => absurd h hnh, fun h => ⟨h, rfl⟩, fun _ h => absurd rfl h, fun _ h => h⟩
  · rename_i hin
    have hin : i ∉ s.backlog := by simpa [State.inBacklog] using hin
    exact ⟨.setBacklog s _, by simp, .refl s i, ⟨ht, ⟨fun _ => ho, fun _ => by simp⟩⟩, .inr (.inr ⟨hin, rfl⟩),
      fun h hb _ => hpool h hb, fun h => absurd h hnh, fun h => ⟨h, rfl⟩, fun _ h => absurd rfl h, fun _ h => h⟩

/-- The offer check, along the queue from its head (R11). -/
theorem State.offerLoop_pass (i : SlotId) (ws : List Waiter) (src : Source) (s : State) (h : s.QueueIs i ws) :
    ∃ os, s.OfferPass (State.offerLoop i ws src s).1 i src (State.offerLoop i ws src s).2 os := by
  induction ws generalizing src s with
  | nil =>
    have hn : ∀ r w, s.record i = some r → r.queue.head? ≠ some w := by
      intro r w hr hw
      simp only [State.QueueIs, hr, Option.elim_some] at h
      simp [h] at hw
    exact ⟨[], s.leaveBacklog_pass i src (fun ⟨r, w, hr, hw, _⟩ => hn r w hr hw) fun r w hr hw => absurd hw (hn r w hr)⟩
  | cons w rest ih =>
    obtain ⟨r, hr, hq⟩ := h.record_cons
    have hhead : ∀ r' w', s.record i = some r' → r'.queue.head? = some w' → w' = w := by
      intro r' w' hr' hw'
      obtain rfl : r = r' := by simpa [hr] using hr'
      simpa [hq, eq_comm] using hw'
    by_cases ht : (s.client w.client).session = .teardown
    · obtain ⟨hm, he, hb, hrec⟩ := s.dropWaiter_head_spec i r w rest hr hq ht
      obtain ⟨os, k⟩ := ih src _ (show (s.dropWaiter i w.client).QueueIs i rest by simp [State.QueueIs, hrec])
      have hl : State.offerLoop i (w :: rest) src s = State.offerLoop i rest src (s.dropWaiter i w.client) := by
        rw [State.offerLoop, if_pos ht]
      rw [hl]
      have kb := k.backlog
      have kp := k.pool
      have kh := k.handed
      have kf := k.atFront
      have kw := k.within
      rw [hb] at kb kp kh kf
      rw [hm.holdingsInUse, List.length_nil, Nat.add_zero] at kw
      exact ⟨os, ⟨by simpa using hm.trans k.made, k.here, he.trans k.elsewhere, k.checked, kb, kp, kh, k.used, kf, kw⟩⟩
    · have htd : ∀ r' w', s.record i = some r' → r'.queue.head? = some w' →
          (s.client w'.client).session ≠ .teardown := fun r' w' hr' hw' => hhead r' w' hr' hw' ▸ ht
      have hdue := s.offerDue_iff i r w hr (by simp [hq])
      by_cases ho : s.OwesAnOffer i
      · have hd : s.offerDue i w = true := hdue.mpr ho
        obtain ⟨hg, ha⟩ : s.grant ≠ 0xFFFFFFFF#32 ∧ r.Admits w.mode := by
          simpa only [State.offerDue, State.grantSpent, hr, Option.any_some, Bool.and_eq_true, Bool.not_eq_true',
            beq_eq_false_iff_ne, r.compatible_iff] using hd
        by_cases hc : s.canObtain i src = true
        · obtain ⟨hm, he, hb, hrec⟩ := s.makeOffer_spec i r w rest hr hq ht hg ha
          obtain ⟨os, k⟩ := ih src.spend _ (show (s.makeOffer i w).QueueIs i rest by simp [State.QueueIs, hrec])
          have hl : State.offerLoop i (w :: rest) src s = State.offerLoop i rest src.spend (s.makeOffer i w) := by
            rw [State.offerLoop, if_neg ht, if_neg (by simp [hd]), if_pos hc]
          rw [hl]
          have kb := k.backlog
          have kp := k.pool
          rw [hb] at kb kp
          refine ⟨s.offerTo i r w :: os, ⟨hm.trans k.made, ?_, he.trans k.elsewhere, k.checked, kb, ?_, ?_, ?_, ?_, ?_⟩⟩
          · intro x hx
            rcases List.mem_cons.mp hx with rfl | hx
            · rfl
            · exact k.here x hx
          · rintro rfl
            exact kp rfl
          · rintro rfl
            obtain ⟨k1, rfl⟩ := k.used rfl
            exact .inr ⟨k1, rfl⟩
          · rintro rfl
            simp [State.canObtain] at hc
          · rintro rfl -
            exact (s.canObtain_pool i hc).2
          · rintro rfl -
            have h1 : (s.makeOffer i w).holdingsInUse = s.holdingsInUse + 1 := hm.holdingsInUse
            have h2 : s.holdingsInUse < 96 := (s.canObtain_pool i hc).1
            exact k.within rfl (h1 ▸ h2)
        · have hl : State.offerLoop i (w :: rest) src s = (s.joinBacklog i, src) := by
            rw [State.offerLoop, if_neg ht, if_neg (by simp [hd]), if_neg hc]
          rw [hl]
          exact ⟨[], s.joinBacklog_pass i src ho htd (by simpa using hc)⟩
      · have hd : s.offerDue i w = false := by simpa [← hdue] using ho
        have hl : State.offerLoop i (w :: rest) src s = (s.leaveBacklog i, src) := by
          rw [State.offerLoop, if_neg ht, if_pos (by simp [hd])]
        rw [hl]
        exact ⟨[], s.leaveBacklog_pass i src ho htd⟩

theorem State.offerCheckFrom_pass (s : State) (i : SlotId) (src : Source) :
    ∃ os, s.OfferPass (s.offerCheckFrom i src).1 i src (s.offerCheckFrom i src).2 os :=
  State.offerLoop_pass i _ src s rfl

/-! ### The offer check as statements say it -/

theorem countP_elsewhere_eq_zero {os : List Offer} {i : SlotId} (h : ∀ x ∈ os, x.slot = i) :
    (os.countP fun x => x.slot != i) = 0 := by
  rw [List.countP_eq_zero]
  intro x hx
  simp [h x hx]

theorem State.OfferPass.mem_backlog {s t : State} {i : SlotId} {src src' : Source} {os : List Offer}
    (h : s.OfferPass t i src src' os) {j : SlotId} (hj : j ≠ i) : j ∈ t.backlog ↔ j ∈ s.backlog := by
  rcases h.backlog with hb | ⟨-, hb⟩ | ⟨-, hb⟩ <;> simp [hb, hj]

/-- The offers at one slot are in the order of any backlog. -/
theorem inOrder_of_here (l : List SlotId) {os : List Offer} {i : SlotId} (h : ∀ x ∈ os, x.slot = i) :
    os.Pairwise fun x y => l.idxOf x.slot ≤ l.idxOf y.slot :=
  List.pairwise_of_forall_mem_list fun x hx y hy => by rw [h x hx, h y hy]

/-- The offer check with the records of the pool (R11). -/
theorem State.offerCheck_pass (s : State) (i : SlotId) : ∃ os, s.OffersMade (s.offerCheck i) os
    ∧ (∀ x ∈ os, x.slot = i) ∧ s.SameRecordsBut (s.offerCheck i) i ∧ (s.offerCheck i).Checked i
    ∧ (∀ j, j ≠ i → (j ∈ (s.offerCheck i).backlog ↔ j ∈ s.backlog))
    ∧ ((s.offerCheck i).backlog = s.backlog ∨ (s.offerCheck i).backlog = s.backlog.filter (fun j => j != i)
        ∨ (i ∉ s.backlog ∧ (s.offerCheck i).backlog = s.backlog ++ [i]))
    ∧ ((s.backlog ≠ [] → 96 ≤ s.holdingsInUse) → (s.offerCheck i).backlog ≠ [] →
        96 ≤ (s.offerCheck i).holdingsInUse)
    ∧ (os ≠ [] → s.backlog = [] ∨ s.backlog.head? = some i)
    ∧ (s.holdingsInUse ≤ 96 → (s.offerCheck i).holdingsInUse ≤ 96) := by
  obtain ⟨os, h⟩ := s.offerCheckFrom_pass i .pool
  refine ⟨os, h.made, h.here, h.elsewhere, h.checked, fun j hj => h.mem_backlog hj, ?_, fun hs ht => ?_, h.atFront rfl,
    h.within rfl⟩
  · rcases h.backlog with hb | ⟨-, hb⟩ | hb
    · exact .inr (.inl hb)
    · exact .inl hb
    · exact .inr (.inr hb)
  · by_cases hb : s.backlog = []
    · exact (State.freeHoldings_eq_zero _).mp (h.pool rfl hb ht)
    · have h1 : (s.offerCheck i).holdingsInUse = s.holdingsInUse + os.length := h.made.holdingsInUse
      have h2 := hs hb
      omega

/-- The offer check of a slot, as statements say it (R11). -/
theorem State.offerCheck_offersFrom (s : State) (i : SlotId) : s.OffersFrom (s.offerCheck i) i 0 := by
  obtain ⟨os, hm, hh, he, hc, -, hb, hu, hf, hw⟩ := s.offerCheck_pass i
  exact ⟨os, hm, Nat.le_of_eq (countP_elsewhere_eq_zero hh), hc, fun _ => he,
    fun h => hw (by rwa [Nat.add_zero] at h), fun _ =>
    ⟨[], s.backlog, rfl, fun _ => rfl, by simp, fun j hj _ _ => he j hj,
      fun x hx _ => .inr (hf (List.ne_nil_of_mem hx)), inOrder_of_here _ hh, hb, fun hs => hu (by simpa using hs)⟩⟩

/-- Where the record has not changed, no offer is made. -/
theorem State.OffersMade.none_at {s t : State} {os : List Offer} (h : s.OffersMade t os) {i : SlotId}
    (hi : t.record i = s.record i) : ∀ x ∈ os, x.slot ≠ i := by
  intro x hx he
  cases hr : s.record i with
  | none => exact (h.free i hr).2.1 x hx he
  | some r =>
    obtain ⟨r', gone, hr', ho, -⟩ := h.record i r hr
    obtain rfl : r' = r := by simpa [hi, hr] using hr'.symm
    have hh := congrArg Resource.holders ho.1
    have : (os.filter fun y => y.slot == i).map Offer.holding = [] := by simpa using hh
    rw [List.map_eq_nil_iff, List.filter_eq_nil_iff] at this
    exact this x hx (by simpa using he)

/-- Records handed over, at most `n` offers made, leave no more holdings than the pool has room for. -/
theorem State.OffersMade.within {s t : State} {os : List Offer} {n : Nat} (h : s.OffersMade t os) (hl : os.length ≤ n)
    (hs : s.holdingsInUse + n ≤ 96) : t.holdingsInUse ≤ 96 := by
  rw [h.holdingsInUse]
  omega

/-! ### The hand-over (R67, R68) -/

/-- What one holding record given back does along the backlog, to the resources `checked` whose offer check it made: at most
one offer, and exactly one while resources are left in the backlog. -/
structure State.Handed (s t : State) (checked : List SlotId) : Prop where
  offers : ∃ os, s.OffersMade t os ∧ os.length ≤ 1 ∧ (s.backlog.Nodup → t.backlog ≠ [] → os.length = 1)
  among : ∀ j ∈ checked, j ∈ s.backlog
  outside : ∀ j, j ∉ checked → t.record j = s.record j ∧ (j ∈ t.backlog ↔ j ∈ s.backlog)
  inside : ∀ j ∈ checked, t.Checked j
  served : s.backlog.Nodup → ∃ served, s.backlog = served ++ t.backlog ∧ (∀ j ∈ served, j ∈ checked)
    ∧ ∀ j ∈ checked, j ∈ served ∨ t.backlog.head? = some j

/-- One holding record handed along a list of resources (R67). -/
theorem State.handOver_spec (l : List SlotId) (s : State) :
    (∃ os, s.OffersMade (State.handOver l s).1 os ∧ os.length ≤ 1
      ∧ (s.backlog = l → l.Nodup → (State.handOver l s).1.backlog ≠ [] → os.length = 1))
    ∧ (∀ j ∈ (State.handOver l s).2, (State.handOver l s).1.Checked j ∧ j ∈ l)
    ∧ (∀ j, j ∉ (State.handOver l s).2 → (State.handOver l s).1.record j = s.record j
        ∧ (j ∈ (State.handOver l s).1.backlog ↔ j ∈ s.backlog))
    ∧ (s.backlog = l → l.Nodup → ∃ served, l = served ++ (State.handOver l s).1.backlog
        ∧ (∀ j ∈ served, j ∈ (State.handOver l s).2)
        ∧ ∀ j ∈ (State.handOver l s).2, j ∈ served ∨ (State.handOver l s).1.backlog.head? = some j) := by
  induction l generalizing s with
  | nil =>
    refine ⟨⟨[], .refl s, by simp, fun hb _ hne => absurd hb hne⟩, by simp [State.handOver], fun j _ => ⟨rfl, Iff.rfl⟩,
      fun hb _ => ⟨[], by simp [State.handOver, hb], by simp, by simp [State.handOver]⟩⟩
  | cons front rest ih =>
    obtain ⟨os, k⟩ := s.offerCheckFrom_pass front .handed
    generalize hp : s.offerCheckFrom front .handed = p at k
    obtain ⟨u, src⟩ := p
    simp only at k
    have hfil : s.backlog = front :: rest → (front :: rest).Nodup →
        (s.backlog.filter fun j => j != front) = rest := by
      intro hb hn
      rw [hb, List.filter_cons_of_neg (by simp), List.filter_eq_self]
      intro j hj
      simpa using fun he : j = front => (List.nodup_cons.mp hn).1 (he ▸ hj)
    rcases k.handed rfl with ⟨rfl, rfl, hub⟩ | ⟨rfl, hos⟩
    · -- the front leaves the backlog, and the record goes to the next
      have hh : State.handOver (front :: rest) s
          = ((State.handOver rest u).1, front :: (State.handOver rest u).2) := by
        simp [State.handOver, hp]
      have hfront : front ∉ u.backlog := by rw [hub]; simp
      obtain ⟨⟨os', hm, hlen, hone⟩, hin, hout, hserved⟩ := ih u
      rw [hh]
      refine ⟨⟨os', by simpa using k.made.trans hm, hlen, fun hb hn => ?_⟩, fun j hj => ?_, fun j hj => ?_,
        fun hb hn => ?_⟩
      · exact hone (hub.trans (hfil hb hn)) (List.nodup_cons.mp hn).2
      · rcases List.mem_cons.mp hj with rfl | hj
        · refine ⟨?_, by simp⟩
          by_cases hjc : j ∈ (State.handOver rest u).2
          · exact (hin j hjc).1
          · obtain ⟨h1, h2⟩ := hout j hjc
            exact k.checked.after hm h1 hfront (mt h2.mp hfront)
        · exact ⟨(hin j hj).1, List.mem_cons_of_mem _ (hin j hj).2⟩
      · simp only [List.mem_cons, not_or] at hj
        obtain ⟨h1, h2⟩ := hout j hj.2
        exact ⟨h1.trans (k.elsewhere j hj.1), h2.trans (k.mem_backlog hj.1)⟩
      · obtain ⟨served, h1, h2, h3⟩ := hserved (hub.trans (hfil hb hn)) (List.nodup_cons.mp hn).2
        refine ⟨front :: served, by rw [List.cons_append, ← h1], fun j hj => ?_, fun j hj => ?_⟩
        · rcases List.mem_cons.mp hj with rfl | hj
          · simp
          · exact List.mem_cons_of_mem _ (h2 j hj)
        · rcases List.mem_cons.mp hj with rfl | hj
          · exact .inl (by simp)
          · exact (h3 j hj).imp (List.mem_cons_of_mem _) id
    · -- the front has used the record
      have hh : State.handOver (front :: rest) s = (u, [front]) := by
        simp [State.handOver, hp]
      rw [hh]
      refine ⟨⟨os, k.made, Nat.le_of_eq hos, fun _ _ _ => hos⟩, fun j hj => ?_, fun j hj => ?_, fun hb hn => ?_⟩
      · obtain rfl : j = front := by simpa using hj
        exact ⟨k.checked, by simp⟩
      · have hj : j ≠ front := by simpa using hj
        exact ⟨k.elsewhere j hj, k.mem_backlog hj⟩
      · rcases k.backlog with hbl | ⟨-, hbl⟩ | ⟨hnot, -⟩
        · exact ⟨[front], by simp [hbl, hfil hb hn], by simp, by simp⟩
        · exact ⟨[], by simp [hbl, hb], by simp, by simp [hbl, hb]⟩
        · exact absurd (by simp [hb]) hnot

theorem State.giveBack_handed (s : State) : s.Handed s.giveBack.1 s.giveBack.2 := by
  obtain ⟨⟨os, hm, hlen, hone⟩, hin, hout, hserved⟩ := State.handOver_spec s.backlog s
  exact ⟨⟨os, hm, hlen, hone rfl⟩, fun j hj => (hin j hj).2, hout, fun j hj => (hin j hj).1, hserved rfl⟩

/-- An offer that the hand-over of one record makes is to a resource whose offer check it made. -/
theorem State.Handed.slot_mem {s t : State} {checked : List SlotId} {os : List Offer} (h : s.Handed t checked)
    (hm : s.OffersMade t os) : ∀ x ∈ os, x.slot ∈ checked := fun x hx => by
  by_contra hc
  exact hm.none_at (h.outside _ hc).1 x hx rfl

/-- One offer at most is in order. -/
theorem inOrder_of_le_one (l : List SlotId) {os : List Offer} (h : os.length ≤ 1) :
    os.Pairwise fun x y => l.idxOf x.slot ≤ l.idxOf y.slot := by
  match os, h with
  | [], _ => exact .nil
  | [x], _ => exact List.pairwise_singleton _ x

/-- Several holding records given back (R68). -/
theorem State.giveBackMany_spec (n : Nat) (s : State) :
    (∃ os, s.OffersMade (State.giveBackMany n s) os ∧ os.length ≤ n
      ∧ (s.backlog.Nodup → (State.giveBackMany n s).backlog ≠ [] → os.length = n)
      ∧ (s.backlog.Nodup → os.Pairwise fun x y => s.backlog.idxOf x.slot ≤ s.backlog.idxOf y.slot))
    ∧ (∀ j, j ∉ s.backlog → (State.giveBackMany n s).record j = s.record j ∧ j ∉ (State.giveBackMany n s).backlog)
    ∧ (s.backlog.Nodup → ∃ served, s.backlog = served ++ (State.giveBackMany n s).backlog
        ∧ (∀ j ∈ served, (State.giveBackMany n s).Checked j)
        ∧ ∀ j, j ∉ served → (State.giveBackMany n s).backlog.head? ≠ some j →
            (State.giveBackMany n s).record j = s.record j) := by
  induction n generalizing s with
  | zero => exact ⟨⟨[], .refl s, by simp, fun _ _ => rfl, fun _ => .nil⟩, fun j hj => ⟨rfl, hj⟩, fun _ => ⟨[], rfl, by simp, fun _ _ _ => rfl⟩⟩
  | succ n ih =>
    have h := s.giveBack_handed
    obtain ⟨⟨os', km, klen, kone, kord⟩, kout, kserved⟩ := ih s.giveBack.1
    generalize hu : s.giveBack.1 = u at h km klen kone kord kout kserved
    generalize ht : State.giveBackMany n u = t at km klen kone kord kout kserved
    have ht' : State.giveBackMany (n + 1) s = t := by rw [← ht, ← hu]; rfl
    rw [ht']
    obtain ⟨os, hm, hlen, hone⟩ := h.offers
    have hnu : s.backlog.Nodup → u.backlog.Nodup := by
      intro hn
      obtain ⟨served, hs, -⟩ := h.served hn
      rw [hs] at hn
      exact (List.nodup_append.mp hn).2.1
    refine ⟨⟨os ++ os', hm.trans km, by simp; omega, fun hn hne => ?_, fun hn => ?_⟩, fun j hj => ?_, fun hn => ?_⟩
    · obtain ⟨served, hs, -⟩ := kserved (hnu hn)
      have h1 := kone (hnu hn) hne
      have h2 := hone hn (by rw [hs]; simp [hne])
      rw [List.length_append]
      omega
    · obtain ⟨served, hs, -, hcs⟩ := h.served hn
      have hthere : ∀ y ∈ os', y.slot ∈ u.backlog := fun y hy => by
        by_contra hc
        exact km.none_at (kout _ hc).1 y hy rfl
      have hlater : ∀ y ∈ os', y.slot ∉ served := fun y hy hc => by
        rw [hs] at hn
        exact (List.nodup_append.mp hn).2.2 _ hc _ (hthere y hy) rfl
      refine List.pairwise_append.mpr ⟨inOrder_of_le_one _ hlen, ?_, fun x hx y hy => ?_⟩
      · refine (kord (hnu hn)).imp_of_mem fun hx hy hle => ?_
        rw [hs, List.idxOf_append, List.idxOf_append, if_neg (hlater _ hx), if_neg (hlater _ hy)]
        omega
      · exact idxOf_le_idxOf hs (hcs _ (h.slot_mem hm x hx)) (hlater y hy)
    · obtain ⟨h1, h2⟩ := h.outside j fun hc => hj (h.among j hc)
      obtain ⟨k1, k2⟩ := kout j (mt h2.mp hj)
      exact ⟨k1.trans h1, k2⟩
    · obtain ⟨served, hs, hsc, hcs⟩ := h.served hn
      obtain ⟨served', ks, kc, kr⟩ := kserved (hnu hn)
      refine ⟨served ++ served', by rw [List.append_assoc, ← ks, hs], fun j hj => ?_, fun j hj hh => ?_⟩
      · rcases List.mem_append.mp hj with hj | hj
        · have hju : j ∉ u.backlog := by
            rw [hs] at hn
            exact fun hju => (List.nodup_append.mp hn).2.2 j hj j hju rfl
          obtain ⟨k1, k2⟩ := kout j hju
          exact (h.inside j (hsc j hj)).after km k1 hju k2
        · exact kc j hj
      · simp only [List.mem_append, not_or] at hj
        rw [kr j hj.2 hh]
        refine (h.outside j fun hc => ?_).1
        rcases hcs j hc with h1 | h1
        · exact hj.1 h1
        · rw [ks] at h1
          cases served' with
          | nil => exact hh h1
          | cons x xs => exact hj.2 (by simpa using Or.inl (by simpa using h1.symm))

/-- Holding records given back where the offer check of slot `i` has nothing to do (R17, R40). -/
theorem State.giveBackMany_offersFrom (n : Nat) (s : State) (i : SlotId) (hc : s.Checked i) (hi : i ∉ s.backlog) :
    s.OffersFrom (State.giveBackMany n s) i n := by
  obtain ⟨⟨os, hm, hlen, hone, hord⟩, hout, hserved⟩ := State.giveBackMany_spec n s
  obtain ⟨h1, h2⟩ := hout i hi
  refine ⟨os, hm, Nat.le_trans List.countP_le_length hlen, hc.after hm h1 hi h2, ?_, hm.within hlen,
    fun hn => ?_⟩
  · rintro rfl
    exact .refl s i
  · obtain ⟨served, hs, hsc, hr⟩ := hserved hn
    refine ⟨served, _, hs, ?_, hsc, fun j _ hj hh => hr j hj hh,
      fun x hx he => absurd he (hm.none_at h1 x hx), hord hn, .inl rfl, fun h96 hne => ?_⟩
    · rintro rfl
      have := congrArg List.length hs
      simpa [State.giveBackMany] using this
    · have k1 := hone hn hne
      have k2 := h96 (by rw [hs]; simp [hne])
      have k3 := hm.holdingsInUse
      omega

/-- Steps 6 and 7 of R40 (R11, R40, R67). -/
theorem State.giveBackAndCheck_offersFrom (s : State) (i : SlotId) : s.OffersFrom (s.giveBackAndCheck i) i 1 := by
  have h := s.giveBack_handed
  have heq : s.giveBackAndCheck i = if s.giveBack.2.contains i then s.giveBack.1 else s.giveBack.1.offerCheck i := rfl
  rw [heq]
  generalize s.giveBack.1 = u at h
  generalize s.giveBack.2 = checked at h
  obtain ⟨os, hm, hlen, hone⟩ := h.offers
  have hone' : s.backlog.Nodup → (s.backlog ≠ [] → 96 ≤ s.holdingsInUse + 1) → u.backlog ≠ [] →
      96 ≤ u.holdingsInUse := by
    intro hn h96 hne
    obtain ⟨served, hs, -⟩ := h.served hn
    have k1 := hone hn hne
    have k2 := h96 (by rw [hs]; simp [hne])
    have k3 := hm.holdingsInUse
    omega
  by_cases hic : i ∈ checked
  · rw [if_pos (by simpa using hic)]
    refine ⟨os, hm, Nat.le_trans List.countP_le_length hlen, h.inside i hic, by simp, hm.within hlen,
      fun hn => ?_⟩
    obtain ⟨served, hs, hsc, hcs⟩ := h.served hn
    refine ⟨served, _, hs, by simp, fun j hj => h.inside j (hsc j hj), fun j _ hj hh => ?_,
      fun _ _ _ => (hcs i hic).imp id .inr, inOrder_of_le_one _ hlen, .inl rfl, hone' hn⟩
    exact (h.outside j fun hc => (hcs j hc).elim hj hh).1
  · rw [if_neg (by simpa using hic)]
    obtain ⟨os', km, khere, kelse, kchk, kmem, kb, kfree, kfront, kwithin⟩ := u.offerCheck_pass i
    generalize u.offerCheck i = t at km khere kelse kchk kmem kb kfree kwithin
    refine ⟨os ++ os', hm.trans km, ?_, kchk, by simp, fun hs => kwithin (hm.within hlen hs), fun hn => ?_⟩
    · rw [List.countP_append, countP_elsewhere_eq_zero khere]
      exact Nat.le_trans List.countP_le_length hlen
    · obtain ⟨served, hs, hsc, hcs⟩ := h.served hn
      refine ⟨served, u.backlog, hs, by simp, fun j hj => ?_, fun j hji hj hh => ?_, fun x hx he => ?_, ?_, kb,
        fun h96 => kfree (hone' hn h96)⟩
      · have hji : j ≠ i := by rintro rfl; exact hic (hsc j hj)
        have hju : j ∉ u.backlog := by
          rw [hs] at hn
          exact fun hju => (List.nodup_append.mp hn).2.2 j hj j hju rfl
        exact (h.inside j (hsc j hj)).after km (kelse j hji) hju (mt (kmem j hji).mp hju)
      · rw [kelse j hji]
        exact (h.outside j fun hc => (hcs j hc).elim hj hh).1
      · rcases List.mem_append.mp hx with hx | hx
        · exact absurd he (hm.none_at (h.outside i hic).1 x hx)
        · exact .inr (kfront (List.ne_nil_of_mem hx))
      · refine List.pairwise_append.mpr ⟨inOrder_of_le_one _ hlen, inOrder_of_here _ khere, fun x hx y hy => ?_⟩
        rw [khere y hy]
        exact idxOf_le_idxOf hs (hcs _ (h.slot_mem hm x hx)) fun hi => hic (hsc i hi)

end Sys2Proof.Machine
end

