-- ==== Sys2Proof/Laws/Ends.lean ====
section
/-! SUPPORT. The end of a holding and of a wait as statements say them: what is dropped (R40 steps 1 to 5, R47), and then
the offers (R40 steps 6 and 7). -/

namespace Sys2Proof.Machine

/-! ### Claims on one resource -/

theorem Resource.holdingOf_isSome (r : Resource) (c : ClientId) :
    (r.holdingOf c).isSome = true ↔ ∃ h ∈ r.holders, h.client = c := by
  simp [Resource.holdingOf, List.find?_isSome]

theorem Resource.waiterOf_isSome (r : Resource) (c : ClientId) :
    (r.waiterOf c).isSome = true ↔ ∃ w ∈ r.queue, w.client = c := by
  simp [Resource.waiterOf, List.find?_isSome]

theorem Resource.holdingOf_mem {r : Resource} {c : ClientId} {h : Holding} (hh : r.holdingOf c = some h) :
    h ∈ r.holders ∧ h.client = c := by
  refine ⟨List.mem_of_find?_eq_some hh, ?_⟩
  simpa using List.find?_some hh

/-- A client with a holding and a waiter entry has two claims. -/
theorem Resource.claimsOf_two (r : Resource) (c : ClientId) (hh : ∃ h ∈ r.holders, h.client = c)
    (hw : ∃ w ∈ r.queue, w.client = c) : 2 ≤ r.claimsOf c := by
  have h1 : 0 < r.holders.countP fun h => h.client == c := by
    obtain ⟨h, hm, he⟩ := hh
    exact List.countP_pos_iff.mpr ⟨h, hm, by simp [he]⟩
  have h2 : 0 < r.queue.countP fun w => w.client == c := by
    obtain ⟨w, hm, he⟩ := hw
    exact List.countP_pos_iff.mpr ⟨w, hm, by simp [he]⟩
  unfold Resource.claimsOf
  omega

/-- With one claim at most, a client has no second holding on the resource. -/
theorem Resource.holdingOf_unique {r : Resource} {c : ClientId} (hc : r.claimsOf c ≤ 1) {h : Holding}
    (hh : r.holdingOf c = some h) : ∀ g ∈ r.holders, g.client = c → g = h := by
  obtain ⟨hm, he⟩ := Resource.holdingOf_mem hh
  intro g hg hgc
  by_contra hne
  have h2 : 2 ≤ r.holders.countP fun h => h.client == c := by
    obtain ⟨a, b, hab⟩ := List.append_of_mem hm
    rw [hab] at hg ⊢
    rw [List.countP_append, List.countP_cons]
    have hcount : (if (h.client == c) = true then 1 else 0) = 1 := by simp [he]
    rw [hcount]
    rcases List.mem_append.mp hg with hg | hg
    · have : 0 < a.countP fun h => h.client == c := List.countP_pos_iff.mpr ⟨g, hg, by simp [hgc]⟩
      omega
    · rcases List.mem_cons.mp hg with hg | hg
      · exact absurd hg hne
      · have : 0 < b.countP fun h => h.client == c := List.countP_pos_iff.mpr ⟨g, hg, by simp [hgc]⟩
        omega
  unfold Resource.claimsOf at hc
  omega

/-! ### One claim at most -/

/-- With one claim each, offers leave one claim each (R49). -/
theorem State.OffersMade.oneClaimEach {s t : State} {os : List Offer} (h : s.OffersMade t os) (hs : s.OneClaimEach) :
    t.OneClaimEach := by
  intro j r' c hr'
  cases hr : s.record j with
  | none => rw [(h.free j hr).1] at hr'; cases hr'
  | some r =>
    obtain ⟨r'', gone, hr'', ⟨ho, hq, hw, -, -⟩, -⟩ := h.record j r hr
    obtain rfl : r' = r'' := by simpa [hr'] using hr''
    have hh : r'.holders = r.holders ++ (os.filter fun x => x.slot == j).map Offer.holding :=
      (congrArg Resource.holders ho).trans rfl
    have h1 : ((os.filter fun x => x.slot == j).map Offer.holding).countP (fun g => g.client == c)
        = ((os.filter fun x => x.slot == j).map fun x => (x.client, x.tenure)).countP fun y => y.1 == c := by
      simp only [List.countP_map]
      rfl
    have h2 : (((gone.filter fun w => (s.client w.client).session != .teardown).map fun w =>
        (w.client, w.mode)).countP fun y => y.1 == c) ≤ gone.countP fun w => w.client == c := by
      rw [List.countP_map, List.countP_filter]
      exact List.countP_mono_left fun w _ hw => by simp at hw ⊢; exact hw.1
    have h3 := hs j r c hr
    simp only [Resource.claimsOf, hq, hh, List.countP_append, h1, hw] at h3 ⊢
    omega

/-- Where one element at most satisfies a test, erasing the first leaves those that fail it. -/
theorem eraseP_eq_filter {α : Type} (p : α → Bool) (l : List α) (h : l.countP p ≤ 1) :
    l.eraseP p = l.filter fun x => !p x := by
  induction l with
  | nil => rfl
  | cons x l ih =>
    by_cases hx : p x = true
    · have : l.countP p = 0 := by
        rw [List.countP_cons_of_pos hx] at h
        omega
      have hl : (l.filter fun x => !p x) = l := by
        rw [List.filter_eq_self]
        intro y hy
        simpa using List.countP_eq_zero.mp this y hy
      simp [hx, hl]
    · rw [List.countP_cons_of_neg (by simpa using hx)] at h
      simp [hx, ih h]

theorem Resource.eraseP_holders (r : Resource) (c : ClientId) (h : r.claimsOf c ≤ 1) :
    (r.holders.eraseP fun g => g.client == c) = r.holders.filter fun g => g.client != c :=
  eraseP_eq_filter _ _ (Nat.le_trans (Nat.le_add_right _ _) h)

theorem Resource.eraseP_queue (r : Resource) (c : ClientId) (h : r.claimsOf c ≤ 1) :
    (r.queue.eraseP fun w => w.client == c) = r.queue.filter fun w => w.client != c :=
  eraseP_eq_filter _ _ (Nat.le_trans (Nat.le_add_left _ _) h)

/-! ### Ports apart -/

/-- What offers are made of does not depend on the ports. -/
theorem State.OffersMade.withPorts {s t : State} {os : List Offer} (h : s.OffersMade t os) (ports : Vector Port 6) :
    s.OffersMade { t with ports := ports } os :=
  ⟨h.time, h.clients, h.freezes, h.grant, h.gens, h.free, h.record, h.offerEnd, h.otherHolding, h.allowance, h.notices,
    h.live, h.stored, h.place⟩

theorem State.OffersFrom.withPorts {s t : State} {i : SlotId} {n : Nat} (h : s.OffersFrom t i n)
    (ports : Vector Port 6) : s.OffersFrom { t with ports := ports } i n := by
  obtain ⟨os, hm, h⟩ := h
  exact ⟨os, hm.withPorts ports, h⟩

/-- The reply that follows an event changes its port alone. -/
theorem State.OffersFrom.answer {s t : State} {i : SlotId} {n : Nat} (h : s.OffersFrom t i n) (p : ClientId)
    (a : Answer) (data : List Byte) : s.OffersFrom (t.answer p a data) i n :=
  h.withPorts (t.answer p a data).ports

/-- Two states with the same parts are the same. -/
theorem State.eq_of_sameButNotices {s t u : State} (h : s.SameButNotices t) (k : s.SameButNotices u)
    (hn : ∀ c, t.noticeSet c = u.noticeSet c) : t = u := by
  have h0 := State.notices_ext hn
  obtain ⟨h1, h2, h3, h4, h5, h6, h7, h8, h9, h10⟩ := h
  obtain ⟨k1, k2, k3, k4, k5, k6, k7, k8, k9, k10⟩ := k
  cases t
  cases u
  simp_all

/-! ### The end of a holding (R40) -/

theorem State.endHolding_eq (s : State) (i : SlotId) (c : ClientId) (cause : HoldingEnd) (r : Resource) (h : Holding)
    (hr : s.record i = some r) (hh : r.holdingOf c = some h) :
    s.endHolding i c cause =
      if (s.dropHolding i r h cause).removalDue i = true then ((s.dropHolding i r h cause).removeRecord i).giveBack.1
      else (s.dropHolding i r h cause).giveBackAndCheck i := by
  simp [State.endHolding, hr, hh]

theorem State.endNotices_same (s : State) (key : Key) (h : Holding) (cause : HoldingEnd) :
    s.SameButNotices (s.endNotices key h cause) := by
  unfold State.endNotices
  have h1 : s.SameButNotices (if h.state = .held then s.clearExpiring h.client key h.gen else s) := by
    split
    · exact s.setNoticeSet_same _ _
    · exact .refl s
  cases cause <;> simp only
  case released | left | tornDown => exact h1
  case expired | revoked => exact h1.trans (State.raiseNotice_same _ _ _)
  case declined => exact h1.trans (State.setNoticeSet_same _ _ _)
  case lapsed | withdrawn => exact (h1.trans (State.setNoticeSet_same _ _ _)).trans (State.raiseNotice_same _ _ _)

/-- The notices of a holding's end, at its client's set (R38). -/
theorem State.noticeSet_endNotices (s : State) (key : Key) (h : Holding) (cause : HoldingEnd) :
    (s.endNotices key h cause).noticeSet h.client = s.noticesAfter key h cause := by
  by_cases hs : h.state = .held <;> cases cause <;>
    simp only [State.endNotices, State.noticesAfter, hs, if_true, if_false, State.noticeSet_raiseNotice_self,
      State.clearExpiring, State.clearOffer, State.noticeSet_clearNotices_self, State.raisedFor] <;> rfl

theorem State.noticeSet_endNotices_ne (s : State) (key : Key) (h : Holding) (cause : HoldingEnd) (d : ClientId)
    (hd : d ≠ h.client) : (s.endNotices key h cause).noticeSet d = s.noticeSet d := by
  by_cases hs : h.state = .held <;> cases cause <;>
    simp only [State.endNotices, hs, if_true, if_false, State.noticeSet_raiseNotice_ne _ _ _ _ hd,
      State.clearExpiring, State.clearOffer, State.noticeSet_clearNotices_ne _ _ _ _ hd]

/-- The notices of a holding's end are at its client's set alone (R38). -/
theorem State.endNotices_eq (s : State) (key : Key) (h : Holding) (cause : HoldingEnd) :
    s.endNotices key h cause = s.setNoticeSet h.client (s.noticesAfter key h cause) := by
  refine State.eq_of_sameButNotices (s.endNotices_same key h cause) (s.setNoticeSet_same _ _) fun c => ?_
  by_cases hc : c = h.client
  · subst hc
    rw [s.noticeSet_endNotices key h cause, State.noticeSet_setNoticeSet_self]
  · rw [s.noticeSet_endNotices_ne key h cause c hc, State.noticeSet_setNoticeSet_ne _ _ _ _ hc]

theorem Holding.endsSuspect_iff (h : Holding) (cause : HoldingEnd) (before : Integrity) :
    (if h.endsSuspect cause then .suspect else before) = h.integrityAfter cause before := by
  simp only [Holding.endsSuspect, Holding.integrityAfter, Bool.and_eq_true, Bool.or_eq_true, beq_iff_eq, and_assoc,
    or_assoc]

/-- A record set twice is as set last. -/
theorem State.setRecord_setRecord (s : State) (i : SlotId) (x y : Option Resource) :
    (s.setRecord i x).setRecord i y = s.setRecord i y := by
  simp [State.setRecord]

/-- Steps 1 to 5 of R40 (R18, R38, R39). -/
theorem State.holdingDropped_eq (s : State) (i : SlotId) (r : Resource) (h : Holding) (cause : HoldingEnd)
    (hc : r.claimsOf h.client ≤ 1) :
    (if (s.dropHolding i r h cause).removalDue i = true then (s.dropHolding i r h cause).removeRecord i
      else s.dropHolding i r h cause) = s.holdingDropped i r h cause := by
  have hd : s.dropHolding i r h cause
      = (((s.setDeadlines (s.deadlines.filter fun d => d.owner != .holding i h.client)).setHoldUnit h.client
          { s.holdUnit h.client with
            stored := (s.holdUnit h.client).stored.filter fun d => d.owner != .holding i h.client }).setNoticeSet h.client
          (s.noticesAfter r.key h cause)).setRecord i (some { r with
            holders := r.holders.filter fun g => g.client != h.client
            integrity := h.integrityAfter cause r.integrity }) := by
    rw [State.dropHolding, State.endNotices_eq, r.eraseP_holders h.client hc, Holding.endsSuspect_iff]
    rfl
  have hdue : (s.dropHolding i r h cause).removalDue i = true
      ↔ r.lifecycle = .retiring ∧ (r.holders.filter fun g => g.client != h.client) = [] := by
    rw [hd]
    simp [State.removalDue]
  unfold State.holdingDropped
  simp only
  by_cases hr : r.lifecycle = .retiring ∧ (r.holders.filter fun g => g.client != h.client) = []
  · rw [if_pos (hdue.mpr hr), if_pos hr, hd, State.removeRecord, State.setRecord_setRecord]
    rfl
  · rw [if_neg (mt hdue.mp hr), if_neg hr, hd]

/-- The end of a holding, as statements say it (R40). -/
theorem State.endHolding_ends (s : State) (i : SlotId) (r : Resource) (h : Holding) (cause : HoldingEnd)
    (hs : s.OneClaimEach) (hr : s.record i = some r) (hh : r.holdingOf h.client = some h) :
    s.HoldingEnds (s.endHolding i h.client cause) i r h cause := by
  have heq := s.holdingDropped_eq i r h cause (hs i r h.client hr)
  rw [State.HoldingEnds, s.endHolding_eq i h.client cause r h hr hh, ← heq]
  by_cases hdue : (s.dropHolding i r h cause).removalDue i = true
  · simp only [hdue, if_true]
    refine State.giveBackMany_offersFrom 1 _ i ?_ (by simp [State.removeRecord, State.leaveBacklog])
    have hrec : ((s.dropHolding i r h cause).removeRecord i).record i = none := by
      simp [State.removeRecord, State.leaveBacklog]
    refine ⟨fun r' w hr' => ?_, ⟨fun hin => ?_, ?_⟩⟩
    · rw [hrec] at hr'; cases hr'
    · simp [State.removeRecord, State.leaveBacklog] at hin
    · rintro ⟨r', w, hr', -⟩
      rw [hrec] at hr'; cases hr'
  · rw [if_neg hdue, if_neg hdue]
    exact State.giveBackAndCheck_offersFrom _ i

/-- An expiry takes its deadline out of the list first, which changes nothing of the end that follows (R80). -/
theorem State.holdingDropped_removeLive (s : State) (i : SlotId) (r : Resource) (h : Holding) (cause : HoldingEnd) :
    (s.removeLive (.holding i h.client)).holdingDropped i r h cause = s.holdingDropped i r h cause := by
  have : ((s.deadlines.filter fun d => d.owner != .holding i h.client).filter fun d => d.owner != .holding i h.client)
      = s.deadlines.filter fun d => d.owner != .holding i h.client := by
    rw [List.filter_filter]
    congr 1
    funext d
    simp
  unfold State.holdingDropped
  simp only [State.removeLive, State.deadlines_setDeadlines, this]
  rfl

/-- The record after the end of a holding keeps the integrity R39 gives it. -/
theorem State.HoldingEnds.integrity {s t : State} {i : SlotId} {r : Resource} {h : Holding} {cause : HoldingEnd}
    (k : s.HoldingEnds t i r h cause) {r' : Resource} (hr' : t.record i = some r') :
    r'.integrity = h.integrityAfter cause r.integrity := by
  obtain ⟨os, hm, -⟩ := k
  by_cases hr : r.lifecycle = .retiring ∧ (r.holders.filter fun g => g.client != h.client) = []
  · have : (s.holdingDropped i r h cause).record i = none := by
      unfold State.holdingDropped
      simp only
      rw [if_pos hr]
      simp
    rw [(hm.free i this).1] at hr'
    cases hr'
  · have : (s.holdingDropped i r h cause).record i = some { r with
        holders := r.holders.filter fun g => g.client != h.client
        integrity := h.integrityAfter cause r.integrity } := by
      unfold State.holdingDropped
      simp only
      rw [if_neg hr]
      simp
    obtain ⟨r'', gone, hr'', ho, -⟩ := hm.record i _ this
    obtain rfl : r' = r'' := by simpa [hr'] using hr''
    exact (congrArg Resource.integrity ho.1).trans rfl

/-! ### The end of a wait (R47) -/

theorem State.setNoticeSet_noticeSet (s : State) (c : ClientId) : s.setNoticeSet c (s.noticeSet c) = s := by
  refine State.eq_of_sameButNotices (s.setNoticeSet_same _ _) (.refl s) fun d => ?_
  by_cases hd : d = c
  · subst hd; simp
  · simp [hd]

theorem State.raiseNotice_eq (s : State) (c : ClientId) (n : Notice) :
    s.raiseNotice c n = s.setNoticeSet c (s.raisedFor c (s.noticeSet c) n) := by
  refine State.eq_of_sameButNotices (s.raiseNotice_same _ _) (s.setNoticeSet_same _ _) fun d => ?_
  by_cases hd : d = c
  · subst hd; rw [State.noticeSet_raiseNotice_self]; simp
  · rw [State.noticeSet_raiseNotice_ne _ _ _ _ hd]; simp [hd]

/-- A waiter entry that leaves, with what its client is told (R47). -/
theorem State.waiterDropped_eq (s : State) (i : SlotId) (r : Resource) (c : ClientId) (told : NoticeSet)
    (hc : r.claimsOf c ≤ 1) (hr : s.record i = some r) :
    (s.dropWaiter i c).setNoticeSet c told = s.waiterDropped i r c told := by
  rw [s.dropWaiter_eq i r c hr, r.eraseP_queue c hc]
  rfl

/-- As `holdingDropped_removeLive`, for a waiter entry (R80). -/
theorem State.waiterDropped_removeLive (s : State) (i : SlotId) (r : Resource) (c : ClientId) (told : NoticeSet) :
    (s.removeLive (.waiter i c)).waiterDropped i r c told = s.waiterDropped i r c told := by
  have : ((s.deadlines.filter fun d => d.owner != .waiter i c).filter fun d => d.owner != .waiter i c)
      = s.deadlines.filter fun d => d.owner != .waiter i c := by
    rw [List.filter_filter]
    congr 1
    funext d
    simp
  unfold State.waiterDropped
  simp only [State.removeLive, State.deadlines_setDeadlines, this]
  rfl

theorem State.waitEnds_of_check (s : State) (i : SlotId) (r : Resource) (c : ClientId) (told : NoticeSet) :
    s.WaitEnds (if r.queue.head?.map Waiter.client = some c then (s.waiterDropped i r c told).offerCheck i
      else s.waiterDropped i r c told) i r c told := by
  by_cases hh : r.queue.head?.map Waiter.client = some c
  · rw [if_pos hh]
    exact ⟨fun _ => State.offerCheck_offersFrom _ i, fun hn => absurd hh hn⟩
  · rw [if_neg hh]
    exact ⟨fun hy => absurd hy hh, fun _ => rfl⟩

/-- The end of a wait without a notice, as statements say it (R47, R54, R115). -/
theorem State.endWait_ends (s : State) (i : SlotId) (r : Resource) (c : ClientId) (hs : s.OneClaimEach)
    (hr : s.record i = some r) : s.WaitEnds (s.endWait i c) i r c (s.noticeSet c) := by
  have h := s.waitEnds_of_check i r c (s.noticeSet c)
  have hn : (s.dropWaiter i c).noticeSet c = s.noticeSet c := by
    rw [s.dropWaiter_eq i r c hr, (State.disarm_same _ _).noticeSet]
    rfl
  rw [← s.waiterDropped_eq i r c _ (hs i r c hr) hr, ← hn, State.setNoticeSet_noticeSet, hn] at h
  simpa only [State.endWait, hr] using h

/-- The lapse of a wait, as statements say it (R47, R55). -/
theorem State.lapseWait_ends (s : State) (i : SlotId) (r : Resource) (c : ClientId) (hs : s.OneClaimEach)
    (hr : s.record i = some r) :
    s.WaitEnds (s.lapseWait i c) i r c (s.raisedFor c (s.noticeSet c) (notice r.key .waitLapsed none)) := by
  have h := s.waitEnds_of_check i r c (s.raisedFor c (s.noticeSet c) (notice r.key .waitLapsed none))
  have hn : (s.dropWaiter i c).raisedFor c ((s.dropWaiter i c).noticeSet c) (notice r.key .waitLapsed none)
      = s.raisedFor c (s.noticeSet c) (notice r.key .waitLapsed none) := by
    rw [s.dropWaiter_eq i r c hr]
    rfl
  rw [← s.waiterDropped_eq i r c _ (hs i r c hr) hr, ← hn, ← State.raiseNotice_eq, hn] at h
  simpa only [State.lapseWait, hr] using h

/-- A wait's end, and the reply that follows it. -/
theorem State.WaitEnds.answer {s t : State} {i : SlotId} {r : Resource} {c : ClientId} {told : NoticeSet}
    (h : s.WaitEnds t i r c told) (p : ClientId) (a : Answer) (data : List Byte) :
    s.WaitEnds (t.answer p a data) i r c told := by
  refine ⟨fun hh => (h.1 hh).answer p a data, fun hh => ?_⟩
  have := h.2 hh
  rw [this]
  rfl

end Sys2Proof.Machine
end

