-- ==== Sys2Proof/Laws/Frames.lean ====
section
/-! SUPPORT. The bits sampled in a frame as the bytes they make (R140, R142). -/

namespace Sys2Proof.Machine

/-- The eight bits of a byte, in the order of R140, make that byte. -/
theorem byteOf_bitsOf (b : Byte) : byteOf (bitsOf [b]) = b := by
  revert b; decide

theorem bitsOf_byteOf (a b c d e f g k : Bool) :
    bitsOf [byteOf [a, b, c, d, e, f, g, k]] = [a, b, c, d, e, f, g, k] := by
  revert a b c d e f g k; decide

theorem bitsOf_cons (b : Byte) (bytes : List Byte) : bitsOf (b :: bytes) = bitsOf [b] ++ bitsOf bytes := by
  simp [bitsOf]

theorem length_bitsOf (bytes : List Byte) : (bitsOf bytes).length = 8 * bytes.length := by
  induction bytes with
  | nil => rfl
  | cons b bytes ih => rw [bitsOf_cons, List.length_append, ih, List.length_cons]; simp [bitsOf]; omega

/-- Bits that do not complete a byte join those sampled before. -/
theorem Frame.foldl_sample_part (bits : List Bool) (f : Frame) (h : f.partByte.length + bits.length < 8) :
    bits.foldl Frame.sample f = { f with edges := f.edges + bits.length, partByte := f.partByte ++ bits } := by
  induction bits generalizing f with
  | nil => simp
  | cons b bits ih =>
    simp only [List.length_cons] at h
    have hs : f.sample b = { f with edges := f.edges + 1, partByte := f.partByte ++ [b] } := by
      simp only [Frame.sample, List.length_append, List.length_singleton]
      rw [if_pos (by omega)]
    rw [List.foldl_cons, hs, ih _ (by simp; omega)]
    simp [Nat.add_comm, Nat.add_left_comm]

/-- Eight bits on from the last byte make the next one. -/
theorem Frame.foldl_sample_byte (b : Byte) (f : Frame) (h : f.partByte = []) :
    (bitsOf [b]).foldl Frame.sample f = { f with edges := f.edges + 8, received := f.received ++ [b] } := by
  have hb : bitsOf [b] = [b[7], b[6], b[5], b[4], b[3], b[2], b[1]] ++ [b[0]] := rfl
  have hpart := Frame.foldl_sample_part [b[7], b[6], b[5], b[4], b[3], b[2], b[1]] f (by rw [h]; simp)
  have hbyte : byteOf ([b[7], b[6], b[5], b[4], b[3], b[2], b[1]] ++ [b[0]]) = b := byteOf_bitsOf b
  generalize hl : [b[7], b[6], b[5], b[4], b[3], b[2], b[1]] = seven at hb hpart hbyte
  have hlen : seven.length = 7 := by rw [← hl]; rfl
  rw [hb, List.foldl_append, hpart, List.foldl_cons, List.foldl_nil, h, List.nil_append, hlen]
  simp only [Frame.sample, hbyte, List.length_append, hlen, List.length_singleton]
  rfl

theorem length_sampledBits (edges : Nat) (dataIn : BitVec edges) : (sampledBits edges dataIn).length = edges := by
  simp [sampledBits]

/-- Every string of bits is what some levels of data in are sampled as. -/
theorem sampledBits_ofBoolListBE (bits : List Bool) : sampledBits bits.length (BitVec.ofBoolListBE bits) = bits := by
  apply List.ext_getElem
  · simp [sampledBits]
  · intro k h1 h2
    simp [sampledBits, h2]

/-- What a frame has counted and received at its end: every byte in full, and the bits left over (R140, R142). -/
theorem Frame.foldl_sample (bytes : List Byte) (extra : List Bool) (f : Frame) (h : f.partByte = [])
    (he : extra.length < 8) :
    (bitsOf bytes ++ extra).foldl Frame.sample f
      = { f with edges := f.edges + (bitsOf bytes ++ extra).length, received := f.received ++ bytes, partByte := extra } := by
  induction bytes generalizing f with
  | nil => simpa [bitsOf, h] using f.foldl_sample_part extra (by simp [h, he])
  | cons b bytes ih =>
    rw [bitsOf_cons, List.append_assoc, List.foldl_append, Frame.foldl_sample_byte b f h]
    refine (ih { f with edges := f.edges + 8, received := f.received ++ [b] } h).trans ?_
    have : f.edges + (bitsOf [b] ++ (bitsOf bytes ++ extra)).length
        = f.edges + 8 + (bitsOf bytes ++ extra).length := by
      simp only [List.length_append, length_bitsOf, List.length_singleton]; omega
    simp only [this, List.append_assoc, List.singleton_append]

/-- Every string of bits is that of some bytes and fewer than eight bits more. -/
theorem bits_split (bits : List Bool) : ∃ bytes extra, bits = bitsOf bytes ++ extra ∧ extra.length < 8 := by
  induction h : bits.length using Nat.strong_induction_on generalizing bits with
  | _ n ih =>
    match bits, h with
    | a :: b :: c :: d :: e :: f :: g :: k :: rest, h =>
      obtain ⟨bytes, extra, hr, he⟩ := ih rest.length (by simp at h; omega) rest rfl
      refine ⟨byteOf [a, b, c, d, e, f, g, k] :: bytes, extra, ?_, he⟩
      rw [bitsOf_cons, bitsOf_byteOf, hr]
      rfl
    | [], _ => exact ⟨[], [], rfl, by simp⟩
    | [_], _ => exact ⟨[], _, rfl, by simp⟩
    | [_, _], _ => exact ⟨[], _, rfl, by simp⟩
    | [_, _, _], _ => exact ⟨[], _, rfl, by simp⟩
    | [_, _, _, _], _ => exact ⟨[], _, rfl, by simp⟩
    | [_, _, _, _, _], _ => exact ⟨[], _, rfl, by simp⟩
    | [_, _, _, _, _, _], _ => exact ⟨[], _, rfl, by simp⟩
    | [_, _, _, _, _, _, _], _ => exact ⟨[], _, rfl, by simp⟩

end Sys2Proof.Machine
end

