-- ==== Sys2Proof/Laws/Freeze.lean ====
section
/-! SUPPORT. What freeze entry and the end of a freeze do to a client's deadlines (R79, R92, R95), once for every command
that freezes or thaws. -/

namespace Sys2Proof.Machine

theorem Owner.isClaimOf_clientId {o : Owner} {c : ClientId} (h : o.isClaimOf c = true) : o.clientId = c := by
  simp only [Owner.isClaimOf, Bool.and_eq_true, beq_iff_eq] at h
  exact h.2

theorem Owner.isClaimOf_ne_client {o : Owner} {c d : ClientId} (h : o.isClaimOf c = true) : o ≠ .client d := by
  rintro rfl
  simp [Owner.isClaimOf, Owner.slot?] at h

/-- The distance of a due time formed as a reading plus a duration (R73). -/
theorem State.distance_add (s : State) (n : Nat) (h : n < 2 ^ 32) : s.distance (s.clock + BitVec.ofNat 32 n) = n := by
  have : s.clock + BitVec.ofNat 32 n - s.clock = BitVec.ofNat 32 n := by
    rw [BitVec.add_comm, BitVec.add_sub_cancel]
  rw [State.distance, this, BitVec.toNat_ofNat, Nat.mod_eq_of_lt h]

/-! ### Putting back -/

theorem State.putBack_same (s : State) (d : StoredDeadline) : s.SameButDeadlines (s.putBack d) :=
  s.insertDeadline_same _

theorem State.foldl_putBack_same (l : List StoredDeadline) (s : State) : s.SameButDeadlines (l.foldl State.putBack s) := by
  induction l generalizing s with
  | nil => exact .refl s
  | cons d l ih => exact (s.putBack_same d).trans (ih _)

theorem State.holdUnits_foldl_putBack (l : List StoredDeadline) (s : State) :
    (l.foldl State.putBack s).holdUnits = s.holdUnits := by
  induction l generalizing s with
  | nil => rfl
  | cons d l ih => exact ih (s.putBack d)

theorem State.deadlineOf_foldl_putBack_ne (l : List StoredDeadline) (s : State) (o : Owner)
    (h : ∀ d ∈ l, d.owner ≠ o) : (l.foldl State.putBack s).deadlineOf o = s.deadlineOf o := by
  induction l generalizing s with
  | nil => rfl
  | cons d l ih =>
    rw [List.foldl_cons, ih _ fun e he => h e (List.mem_cons_of_mem _ he)]
    exact s.deadlineOf_insertDeadline_ne _ _ (h d (by simp))

theorem State.mem_deadlines_foldl_putBack {l : List StoredDeadline} {s : State} {e : Deadline}
    (h : e ∈ (l.foldl State.putBack s).deadlines) : e ∈ s.deadlines ∨ ∃ d ∈ l, d.owner = e.owner := by
  induction l generalizing s with
  | nil => exact .inl h
  | cons d l ih =>
    rcases ih h with h | ⟨d', hd', ho⟩
    · rcases mem_insertAfterLast.mp (show e ∈ insertAfterLast _ _ s.deadlines from h) with rfl | h
      · exact .inr ⟨d, by simp, rfl⟩
      · exact .inl h
    · exact .inr ⟨d', by simp [hd'], ho⟩

/-- Where a deadline stands depends on the clock alone. -/
theorem State.InsertedInto.congr {s t : State} {d : Deadline} {old new : List Deadline} (hc : t.clock = s.clock)
    (h : t.InsertedInto d old new) : s.InsertedInto d old new := by
  simpa only [State.InsertedInto, State.distance, hc] using h

/-- What is put back stands where one insertion after another puts it (R76, R79). -/
theorem State.foldl_putBack_insertedInTurn (l : List StoredDeadline) (s u : State) (hc : u.clock = s.clock) :
    s.InsertedInTurn (l.map fun d => { owner := d.owner, kind := d.kind, due := s.clock + BitVec.ofNat 32 d.remaining })
      u.deadlines (l.foldl State.putBack u).deadlines := by
  induction l generalizing u with
  | nil => rfl
  | cons d l ih =>
    refine ⟨(u.putBack d).deadlines, ?_, ih (u.putBack d) hc⟩
    have := (u.insertDeadline_insertedInto
      { owner := d.owner, kind := d.kind, due := u.clock + BitVec.ofNat 32 d.remaining }).congr hc
    rw [hc] at this
    simpa only [State.putBack, hc] using this

/-- With nothing stored and no ALLOWANCE-END, the list with everything put back is the list. -/
theorem State.putsBack_nothing (s : State) (c : ClientId) (h : (s.holdUnit c).stored = [])
    (h' : ∀ d ∈ s.deadlines, d.owner ≠ .client c) (live : List Deadline) :
    s.PutsBack c live ↔ live = s.deadlines := by
  have : (s.deadlines.filter fun d => d.owner != .client c) = s.deadlines :=
    List.filter_eq_self.mpr fun d hd => by simpa using h' d hd
  simp [State.PutsBack, h, this, State.InsertedInTurn]

/-- What is put back runs with the time it had (R79). -/
theorem State.deadlineOf_foldl_putBack_self (l : List StoredDeadline) (s : State) (d : StoredDeadline) (hd : d ∈ l)
    (hn : (l.map StoredDeadline.owner).Nodup) (hl : ∀ e ∈ s.deadlines, e.owner ≠ d.owner)
    (hr : d.remaining < 2 ^ 32) :
    (l.foldl State.putBack s).deadlineOf d.owner = some (d.kind, d.remaining, false) := by
  induction l generalizing s with
  | nil => simp at hd
  | cons e l ih =>
    simp only [List.map_cons, List.nodup_cons, List.mem_map, not_exists, not_and] at hn
    rw [List.foldl_cons]
    by_cases he : e.owner = d.owner
    · have : d = e := by
        rcases List.mem_cons.mp hd with h | h
        · exact h
        · exact absurd he.symm (hn.1 d h)
      subst this
      rw [State.deadlineOf_foldl_putBack_ne _ _ _ fun f hf => hn.1 f hf]
      have := s.deadlineOf_insertDeadline_self
        { owner := d.owner, kind := d.kind, due := s.clock + BitVec.ofNat 32 d.remaining } hl
      rw [State.putBack, this, s.distance_add _ hr]
    · have hd' : d ∈ l := by
        rcases List.mem_cons.mp hd with rfl | h
        · exact absurd rfl he
        · exact h
      refine ih _ hd' hn.2 fun f hf => ?_
      rcases mem_insertAfterLast.mp (show f ∈ insertAfterLast _ _ s.deadlines from hf) with rfl | h
      · exact he
      · exact hl f h

theorem find?_owner_of_nodup {l : List StoredDeadline} (hn : (l.map StoredDeadline.owner).Nodup) {d : StoredDeadline}
    (hd : d ∈ l) : (l.find? fun e => e.owner == d.owner) = some d := by
  induction l with
  | nil => simp at hd
  | cons e l ih =>
    simp only [List.map_cons, List.nodup_cons, List.mem_map, not_exists, not_and] at hn
    rcases List.mem_cons.mp hd with rfl | h
    · simp
    · have : (e.owner == d.owner) = false := by
        simpa using fun he => hn.1 d h (Eq.symm he)
      rw [List.find?_cons, this]
      exact ih hn.2 h

/-- The end of a freeze, from FROZEN (R95): the client's deadlines run with the time they had. -/
theorem State.thaw_spec (s : State) (c : ClientId) (next : Freeze) (hl : s.DeadlinesLawful)
    (hf : (s.client c).freeze = .frozen) :
    s.DeadlinesThaw (s.thaw c next) c ∧ (s.thaw c next).client c = { s.client c with freeze := next } := by
  obtain ⟨hfl, ⟨hn, hns⟩, ⟨-, -, hrem⟩⟩ := hl
  obtain ⟨hop, hlev, hfs, hlive, hstored⟩ := (hfl c).1 hf
  -- the state in which the stored deadlines are put back
  generalize hu : ((s.removeLive (.client c)).setClient c { s.client c with freeze := next }).setHoldUnit c
      { s.holdUnit c with freezeStart := none, stored := [] } = u
  have ht : s.thaw c next = (s.holdUnit c).stored.foldl State.putBack u := by rw [State.thaw, ← hu]
  have hsame := State.foldl_putBack_same (s.holdUnit c).stored u
  have hunits : (s.thaw c next).holdUnits = u.holdUnits := by rw [ht, State.holdUnits_foldl_putBack]
  have hunit : ∀ d, (s.thaw c next).holdUnit d = u.holdUnit d := fun d => by simp [State.holdUnit, hunits]
  have huc : u.holdUnit c = { s.holdUnit c with freezeStart := none, stored := [] } := by rw [← hu]; simp
  have hud : ∀ d, d ≠ c → u.holdUnit d = s.holdUnit d := fun d hd => by rw [← hu]; simp [hd]; rfl
  have hudl : u.deadlines = s.deadlines.filter fun d => d.owner != .client c := by rw [← hu]; rfl
  have huclk : u.clock = s.clock := by rw [← hu]; rfl
  have howner : ∀ d ∈ (s.holdUnit c).stored, d.owner.clientId = c := fun d hd => Owner.isClaimOf_clientId (hstored d hd)
  refine ⟨⟨?_, ?_, ?_, ?_, ?_, ?_⟩, ?_⟩
  · rw [hunit, huc]
  · rw [hunit, huc]
  · intro o ho
    have hoc := Owner.isClaimOf_clientId ho
    have hnl : (s.deadlines.find? fun d => d.owner == o) = none := by
      rw [List.find?_eq_none]
      intro d hd hdo
      have := hlive d hd
      simp only [beq_iff_eq] at hdo
      rw [hdo, ho] at this
      cases this
    by_cases hex : ∃ d ∈ (s.holdUnit c).stored, d.owner = o
    · obtain ⟨d, hd, rfl⟩ := hex
      have hlt : d.remaining < 2 ^ 32 := Nat.lt_of_lt_of_le (hrem c d hd).2 (by norm_num)
      rw [ht, State.deadlineOf_foldl_putBack_self _ _ d hd (hns c) ?_ hlt]
      · have : s.deadlineOf d.owner = some (d.kind, d.remaining, true) := by
          simp only [State.deadlineOf, hnl, hoc, find?_owner_of_nodup (hns c) hd]
        rw [this]; rfl
      · intro e he heo
        rw [hudl] at he
        have hm := (List.mem_filter.mp he).1
        have := hlive e hm
        rw [heo, ho] at this
        cases this
    · have hne : ∀ d ∈ (s.holdUnit c).stored, d.owner ≠ o := fun d hd h => hex ⟨d, hd, h⟩
      have hns' : ((s.holdUnit c).stored.find? fun d => d.owner == o) = none := by
        rw [List.find?_eq_none]; intro d hd; simpa using hne d hd
      have h0 : s.deadlineOf o = none := by simp only [State.deadlineOf, hnl, hoc, hns']
      rw [ht, State.deadlineOf_foldl_putBack_ne _ _ _ hne, h0]
      have h1 : (u.deadlines.find? fun d => d.owner == o) = none := by
        rw [hudl, find?_filter_owner_ne Deadline.owner _ _ _ (Owner.isClaimOf_ne_client ho)]
        exact hnl
      simp [State.deadlineOf, h1, hoc, huc]
  · have hne : ∀ d ∈ (s.holdUnit c).stored, d.owner ≠ .client c := fun d hd => Owner.isClaimOf_ne_client (hstored d hd)
    rw [ht, State.deadlineOf_foldl_putBack_ne _ _ _ hne]
    have h1 : (u.deadlines.find? fun d => d.owner == .client c) = none := by
      rw [hudl]; exact find?_filter_owner_self Deadline.owner _ _
    simp [State.deadlineOf, h1, Owner.clientId, huc]
  · intro o ho
    have hne : ∀ d ∈ (s.holdUnit c).stored, d.owner ≠ o := by
      rintro d hd rfl
      exact ho (howner d hd)
    rw [ht, State.deadlineOf_foldl_putBack_ne _ _ _ hne]
    apply State.deadlineOf_congr
    · exact huclk
    · rw [hudl]
      apply find?_filter_owner_ne Deadline.owner
      rintro rfl
      exact ho rfl
    · rw [hud _ ho]
  · have := State.foldl_putBack_insertedInTurn (s.holdUnit c).stored s u huclk
    rwa [hudl, ← ht] at this
  · rw [ht, hsame.client, ← hu]
    simp

/-- The end of a freeze, whatever the freeze state (R95, R97 to R99). -/
theorem State.endFreeze_spec (s : State) (c : ClientId) (hl : s.DeadlinesLawful) :
    s.DeadlinesThaw (s.endFreeze c) c ∧ (s.endFreeze c).client c = { s.client c with freeze := .thawed } := by
  by_cases hf : (s.client c).freeze = .frozen
  · have : s.endFreeze c = s.thaw c .thawed := by simp [State.endFreeze, hf]
    rw [this]
    exact s.thaw_spec c .thawed hl hf
  · have : s.endFreeze c = s.setClient c { s.client c with freeze := .thawed } := by
      cases h : (s.client c).freeze <;> simp [State.endFreeze, h] at hf ⊢
    rw [this]
    obtain ⟨h1, h2, h3⟩ := (hl.1 c).2.1 hf
    have hdl : ∀ o, (s.setClient c { s.client c with freeze := .thawed }).deadlineOf o = s.deadlineOf o := fun _ => rfl
    refine ⟨⟨h1, h2, fun o ho => ?_, ?_, fun o _ => rfl, (s.putsBack_nothing c h2 h3 _).mpr rfl⟩, by simp⟩
    · rw [hdl]
      have hoc := Owner.isClaimOf_clientId ho
      cases hd : s.deadlines.find? fun d => d.owner == o with
      | none => simp [State.deadlineOf, hd, hoc, h2]
      | some d => simp [State.deadlineOf, hd]
    · rw [hdl]
      have : (s.deadlines.find? fun d => d.owner == .client c) = none := by
        rw [List.find?_eq_none]; intro d hd; simpa using h3 d hd
      simp [State.deadlineOf, this, Owner.clientId, h2]

/-! ### Freeze entry -/

theorem find?_map_takenOut (s : State) (l : List Deadline) (o : Owner) :
    ((l.map s.takenOut).find? fun d => d.owner == o) = (l.find? fun d => d.owner == o).map s.takenOut := by
  rw [List.find?_map]
  rfl

/-- Freeze entry of a THAWED client (R92). -/
theorem State.enterFreeze_spec (s : State) (c : ClientId) (hl : s.FreezeLaw)
    (hf : (s.client c).freeze ≠ .frozen) (ha : (s.client c).allowanceMs - (s.client c).holdUsed < 2 ^ 32) :
    s.DeadlinesFreeze (s.enterFreeze c) c ((s.client c).allowanceMs - (s.client c).holdUsed)
    ∧ (s.enterFreeze c).client c = { s.client c with freeze := .frozen } := by
  obtain ⟨h1, h2, h3⟩ := (hl c).2.1 hf
  generalize hu : ((s.setClient c { s.client c with freeze := .frozen }).setHoldUnit c
      { s.holdUnit c with
        freezeStart := some s.clock
        stored := (s.holdUnit c).stored ++ (s.deadlines.filter fun d => d.owner.isClaimOf c).map s.takenOut }).setDeadlines
      (s.deadlines.filter fun d => !d.owner.isClaimOf c) = u
  have ht : s.enterFreeze c = u.insertDeadline
      { owner := .client c, kind := .allowanceEnd,
        due := s.clock + BitVec.ofNat 32 ((s.client c).allowanceMs - (s.client c).holdUsed) } := by
    rw [State.enterFreeze, ← hu]
  have huclk : u.clock = s.clock := by rw [← hu]; rfl
  have huc : u.holdUnit c = { s.holdUnit c with
        freezeStart := some s.clock
        stored := (s.holdUnit c).stored ++ (s.deadlines.filter fun d => d.owner.isClaimOf c).map s.takenOut } := by
    rw [← hu]; simp
  have hud : ∀ d, d ≠ c → u.holdUnit d = s.holdUnit d := fun d hd => by rw [← hu]; simp [hd]
  have hudl : u.deadlines = s.deadlines.filter fun d => !d.owner.isClaimOf c := by rw [← hu]; rfl
  have hunit : ∀ d, (s.enterFreeze c).holdUnit d = u.holdUnit d := fun d => by rw [ht]; rfl
  refine ⟨⟨?_, ?_, ?_, ?_, s.deadlines, (s.putsBack_nothing c h2 h3 _).mpr rfl, ?_, ?_⟩, ?_⟩
  · rw [hunit, huc]
  · intro o ho
    have hoc := Owner.isClaimOf_clientId ho
    rw [ht, State.deadlineOf_insertDeadline_ne _ _ _ (Ne.symm (Owner.isClaimOf_ne_client ho))]
    have hlive : (u.deadlines.find? fun d => d.owner == o) = none := by
      rw [hudl, List.find?_eq_none]
      intro d hd hdo
      simp only [beq_iff_eq] at hdo
      have := (List.mem_filter.mp hd).2
      rw [hdo, ho] at this
      cases this
    have hst : ((u.holdUnit c).stored.find? fun d => d.owner == o)
        = (s.deadlines.find? fun d => d.owner == o).map s.takenOut := by
      rw [huc]
      simp only [h2, List.nil_append]
      rw [find?_map_takenOut, List.find?_filter]
      congr 2
      funext d
      by_cases hd : d.owner = o
      · simp [hd, ho]
      · simp [hd]
    simp only [State.deadlineOf, hlive, hoc, hst, h2, List.find?_nil]
    cases s.deadlines.find? fun d => d.owner == o <;> simp [State.takenOut]
  · have hn : ∀ e ∈ u.deadlines, e.owner ≠ .client c := by
      intro e he
      rw [hudl] at he
      exact h3 e (List.mem_filter.mp he).1
    have := u.deadlineOf_insertDeadline_self
      { owner := .client c, kind := .allowanceEnd,
        due := s.clock + BitVec.ofNat 32 ((s.client c).allowanceMs - (s.client c).holdUsed) } hn
    rw [ht, this]
    have hdist := u.distance_add ((s.client c).allowanceMs - (s.client c).holdUsed) ha
    rw [huclk] at hdist
    simp only [hdist]
  · intro o ho
    have hne : (Owner.client c) ≠ o := by rintro rfl; exact ho rfl
    rw [ht, State.deadlineOf_insertDeadline_ne _ _ _ hne]
    apply State.deadlineOf_congr
    · exact huclk
    · rw [hudl, List.find?_filter]
      congr 1
      funext d
      by_cases hd : d.owner = o
      · have : d.owner.isClaimOf c = false := by
          rw [hd]
          simp [Owner.isClaimOf, ho]
        simp [hd, show o.isClaimOf c = false by rw [← hd]; exact this]
      · simp [hd]
    · rw [hud _ ho]
  · rw [hunit, huc, h2]
    rfl
  · have := (u.insertDeadline_insertedInto
      { owner := .client c, kind := .allowanceEnd,
        due := s.clock + BitVec.ofNat 32 ((s.client c).allowanceMs - (s.client c).holdUsed) }).congr huclk
    rwa [hudl, ← ht] at this
  · rw [ht, ← hu]
    simp [State.insertDeadline]

/-- A freeze entered anew after the end of one, as at a SET CLIENT (R99). -/
theorem State.DeadlinesThaw.freeze {s u t : State} {c : ClientId} {n : Nat} (h : s.DeadlinesThaw u c)
    (k : u.DeadlinesFreeze t c n) (hc : u.clock = s.clock) : s.DeadlinesFreeze t c n := by
  obtain ⟨-, h2, h3, h4, h5, h6⟩ := h
  obtain ⟨k1, k2, k3, k4, live, kl, ks, ki⟩ := k
  have hn : ∀ d ∈ u.deadlines, d.owner ≠ .client c := by
    intro d hd ho
    cases hf : u.deadlines.find? fun d => d.owner == .client c with
    | none => exact absurd ho (by simpa using List.find?_eq_none.mp hf d hd)
    | some e => simp [State.deadlineOf, hf] at h4
  obtain rfl := (u.putsBack_nothing c h2 hn live).mp kl
  refine ⟨by rw [k1, hc], fun o ho => ?_, k3, fun o ho => (k4 o ho).trans (h5 o ho), u.deadlines, h6, ?_, ?_⟩
  · rw [k2 o ho, h3 o ho]
    cases s.deadlineOf o <;> rfl
  · simpa only [State.distance, hc] using ks
  · rw [hc] at ki
    exact ki.congr hc

end Sys2Proof.Machine
end

