-- ==== Sys2Proof/Laws/Requests.lean ====
section
/-! SUPPORT. What the common checks of a request do (R164), for the proofs to cite: a request that passes runs its effect,
one that is refused is answered and changes nothing else. -/

namespace Sys2Proof.Machine

/-! ### Answers -/

/-- Answering a request changes its port and nothing else (R144). -/
theorem State.answer_onlyAnswered (s : State) (p : ClientId) (a : Answer) (data : List Byte) :
    s.OnlyAnswered (s.answer p a data) p a data :=
  ⟨⟨by simp [State.answer], fun q hq => by simp [State.answer, hq]⟩, ⟨rfl, rfl, rfl⟩, ⟨rfl, rfl, rfl, rfl⟩, rfl, rfl, rfl⟩

/-- An answer after an effect that left the ports alone (R144). -/
theorem State.answer_answered (s t : State) (p : ClientId) (a : Answer) (data : List Byte) (h : t.ports = s.ports) :
    s.Answered (t.answer p a data) p a data := by
  have hp : ∀ q, t.port q = s.port q := fun q => by simp [State.port, h]
  refine ⟨by simp [State.answer, hp], fun q hq => ?_⟩
  simp [State.answer, hq, hp]

/-! ### Lookups -/

theorem mem_allSlots (i : SlotId) : i ∈ allSlots := List.mem_finRange i

theorem mem_allClients (c : ClientId) : c ∈ allClients := List.mem_finRange c

/-- Key lookup finds no slot exactly when no record has the key (R2). -/
theorem State.slotOfKey_eq_none (s : State) (key : Key) :
    s.slotOfKey key = none ↔ ∀ i r, s.record i = some r → r.key ≠ key := by
  simp only [State.slotOfKey, List.find?_eq_none, mem_allSlots, true_implies]
  constructor
  · intro h i r hr hk
    exact h i (by simp [hr, hk])
  · intro h i hi
    cases hr : s.record i with
    | none => simp [hr] at hi
    | some r => exact h i r hr (by simpa [hr] using hi)

/-- Key lookup finds the one record that has the key (R2). -/
theorem State.slotOfKey_eq_some (s : State) (hd : s.DirectoryLegal) {i : SlotId} {r : Resource}
    (hr : s.record i = some r) : s.slotOfKey r.key = some i := by
  cases h : s.slotOfKey r.key with
  | none => exact absurd rfl ((s.slotOfKey_eq_none _).mp h i r hr)
  | some j =>
    have hj := List.find?_some h
    cases hr' : s.record j with
    | none => simp [hr'] at hj
    | some r' =>
      have hk : r'.key = r.key := by simpa [hr'] using hj
      rw [hd.2 j i r' r hr' hr hk]

/-- The lowest free slot (R3). -/
theorem State.freeSlot_eq_some (s : State) (i : SlotId) (h : s.record i = none)
    (hl : ∀ j : SlotId, j.val < i.val → (s.record j).isSome = true) : s.freeSlot = some i := by
  unfold State.freeSlot
  rw [List.find?_eq_some_iff_getElem]
  refine ⟨by simp [h], i.val, by simp [allSlots], by simp [allSlots], fun j hj => ?_⟩
  have := hl ⟨j, by omega⟩ hj
  simp only [allSlots, List.getElem_finRange]
  simpa [Option.isNone_iff_eq_none, Option.isSome_iff_ne_none] using this

theorem State.freeSlot_eq_none (s : State) (h : ∀ i, (s.record i).isSome = true) : s.freeSlot = none := by
  unfold State.freeSlot
  rw [List.find?_eq_none]
  intro i _
  have := h i
  simp [Option.isSome_iff_ne_none] at this ⊢
  exact this

/-! ### The model's checks are the tables' (R104, R161, R166, R7) -/

theorem Request.supervisorOnly_iff (q : Request) : q.supervisorOnly = true ↔ q.ForSupervisor := by
  cases q <;> simp [Request.supervisorOnly, Request.ForSupervisor]

theorem Request.lifecycleChecked_iff (q : Request) : q.lifecycleChecked = true ↔ q.NeedsActive := by
  cases q <;> simp [Request.lifecycleChecked, Request.NeedsActive]

theorem Request.fits_iff (q : Request) (n : Nat) : q.fits n = true ↔ q.LengthFits n := by
  cases q <;> simp [Request.fits, Request.LengthFits]

theorem ne_zero_iff_one_le {w : Nat} (x : BitVec w) : x ≠ 0 ↔ 1 ≤ x.toNat := by
  rw [← BitVec.toNat_ne_iff_ne]
  simp only [BitVec.ofNat_eq_ofNat, BitVec.toNat_ofNat, Nat.zero_mod]
  omega

theorem eq_ofNat_iff {w n : Nat} (x : BitVec w) (h : n < 2 ^ w) : x = BitVec.ofNat w n ↔ x.toNat = n := by
  rw [← BitVec.toNat_inj, BitVec.toNat_ofNat, Nat.mod_eq_of_lt h]

theorem termsInRange_iff (ps : List Byte) :
    termsInRange (byteAt ps 2) (byteAt ps 3) (wordAt ps 4) (wordAt ps 6) (wordAt ps 8) = true ↔ TermsHold ps := by
  simp only [termsInRange, TermsHold, Bool.and_eq_true, Bool.or_eq_true, beq_iff_eq, decide_eq_true_eq,
    eq_ofNat_iff _ (show 1 < 2 ^ 8 by decide), eq_ofNat_iff _ (show 2 < 2 ^ 8 by decide),
    eq_ofNat_iff _ (show 0 < 2 ^ 8 by decide), and_assoc]

theorem Request.inRange_iff (q : Request) (ps : List Byte) : q.inRange ps = true ↔ q.RangesHold ps := by
  have hmode : ((byteAt ps 2).toNat = 1 ∨ (byteAt ps 2).toNat = 2)
      ↔ 1 ≤ (byteAt ps 2).toNat ∧ (byteAt ps 2).toNat ≤ 2 := by omega
  cases q <;>
    simp only [Request.inRange, Request.RangesHold, Bool.and_eq_true, Bool.or_eq_true, bne_iff_ne, beq_iff_eq,
      decide_eq_true_eq, ne_eq, claimNumberOf, termsInRange_iff, and_assoc]
  case acquire =>
    rw [← ne_eq, ne_zero_iff_one_le, eq_ofNat_iff _ (show 1 < 2 ^ 8 by decide),
      eq_ofNat_iff _ (show 2 < 2 ^ 8 by decide), hmode, and_assoc]
  case inspectClient => exact and_congr Iff.rfl decide_eq_true_iff
  all_goals simp only [← ne_eq, ne_zero_iff_one_le]

/-! ### The stages -/

theorem Request.code_injective (q q' : Request) (h : q.code = q'.code) : q = q' := by
  cases q <;> cases q' <;> first | rfl | (exact absurd h (by decide))

/-- What a request in flight leads to: the refusal of stages 1 to 5, or its effect (R164). -/
theorem State.request_inFlight (s : State) (p : ClientId) (q : Request) (ps : List Byte) (h : s.InFlight p q ps)
    (effect : List Byte → State) :
    s.request p q effect = match s.refusal p q ps with
      | some a => s.answer p a []
      | none => effect ps := by
  unfold State.request
  rw [show (s.port p).inFlight = .taken q.code ps from h]
  exact (if_pos (rfl : q.code = q.code)).trans rfl

theorem State.refusal_eq_none (s : State) (p : ClientId) (q : Request) (ps : List Byte) (h : s.Passes p q ps) :
    s.refusal p q ps = none := by
  obtain ⟨-, hs, hr, hf, hg⟩ := h
  have h1 : sessionRefusal (s.client p).session (q == .join) = none := by
    rw [show (s.client p).session = _ from hs]
    by_cases hj : q = .join
    · simp [hj, sessionRefusal]
    · have hb : (q == .join) = false := by simpa using hj
      simp [hj, hb, sessionRefusal]
  unfold State.refusal
  rw [h1]
  have h2 : (q.supervisorOnly && p != Config.supervisor) = false := by
    by_cases hq : q.supervisorOnly = true
    · simp [hr (q.supervisorOnly_iff.mp hq), Config.supervisor]
    · simp [hq]
  simp [h2, (q.fits_iff _).mpr hf, (q.inRange_iff _).mpr hg]

/-- A request that passes stages 1 to 5 has its effect (R164). -/
theorem State.request_passes (s : State) (p : ClientId) (q : Request) (ps : List Byte) (h : s.Passes p q ps)
    (effect : List Byte → State) : s.request p q effect = effect ps := by
  rw [s.request_inFlight p q ps h.1, s.refusal_eq_none p q ps h]

/-- A request whose port has no such request in flight is not taken (log 2). -/
theorem State.request_idle (s : State) (p : ClientId) (q : Request) (effect : List Byte → State)
    (h : ∀ ps, ¬ s.InFlight p q ps) : s.request p q effect = s := by
  unfold State.request
  split
  · rename_i code params hf
    split
    · rename_i hc
      exact absurd (show s.InFlight p q params by rw [State.InFlight, hf, hc]) (h params)
    · rfl
  all_goals rfl

/-- A request that reaches the record of its key, past the lifecycle check, has its effect there (R2, R7). -/
theorem State.atRecord_reaches (s : State) (p : ClientId) (q : Request) (ps : List Byte) (i : SlotId) (r : Resource)
    (h : s.Reaches p q ps i r) (effect : SlotId → Resource → State) :
    s.atRecord p q (wordAt ps 0) effect = effect i r := by
  obtain ⟨-, hd, hr, hk, hl⟩ := h
  unfold State.atRecord
  rw [← hk, s.slotOfKey_eq_some hd hr]
  simp only [hr]
  by_cases hq : q.lifecycleChecked = true
  · simp [hl (q.lifecycleChecked_iff.mp hq)]
  · simp [hq]

/-- A key that no record has is answered NO-SUCH-KEY (R2). -/
theorem State.atRecord_none (s : State) (p : ClientId) (q : Request) (key : Key)
    (h : ∀ i r, s.record i = some r → r.key ≠ key) (effect : SlotId → Resource → State) :
    s.atRecord p q key effect = s.answer p .noSuchKey [] := by
  unfold State.atRecord
  rw [(s.slotOfKey_eq_none key).mpr h]

/-- A RETIRING record is answered RETIRING to the requests the lifecycle check applies to (R7). -/
theorem State.atRecord_retiring (s : State) (p : ClientId) (q : Request) (i : SlotId) (r : Resource)
    (hd : s.DirectoryLegal) (hr : s.record i = some r) (hl : r.lifecycle = .retiring)
    (hq : q.NeedsActive) (effect : SlotId → Resource → State) :
    s.atRecord p q r.key effect = s.answer p .retiring [] := by
  unfold State.atRecord
  rw [s.slotOfKey_eq_some hd hr]
  simp [hr, hl, q.lifecycleChecked_iff.mpr hq]

/-! ### The queue of commands -/

/-- A step of a state whose queue is not empty. -/
theorem step_cons (s : State) (c : Instr) (rest : List Instr) (h : s.pending = c :: rest) :
    step s = exec c { s with pending := rest } := by
  simp [step, h]

theorem step_nil (s : State) (h : s.pending = []) : step s = .next s := by
  simp [step, h]

/-! ### Expiries (R80) -/

theorem Owner.samePlace_self (o : Owner) : o.samePlace o = true := by
  cases o <;> simp [Owner.samePlace, Owner.slot?]

/-- A deadline that is due, and the first of its place, is the one its owner takes. -/
theorem State.dueDeadline_isDue (s : State) (o : Owner) (k : DeadlineKind) (h : s.IsDue o k) :
    s.dueDeadline o = some { owner := o, kind := k, due := s.clock } := by
  obtain ⟨b, a, hl, hb⟩ := h
  have : (s.deadlines.find? fun d => d.due == s.clock && d.owner.samePlace o)
      = some { owner := o, kind := k, due := s.clock } := by
    have hn : (b.find? fun d => d.due == s.clock && d.owner.samePlace o) = none := by
      rw [List.find?_eq_none]
      intro d hd
      by_cases hc : d.due = s.clock
      · simp [hc, hb d hd hc]
      · simp [hc]
    simp [hl, List.find?_append, hn, Owner.samePlace_self]
  unfold State.dueDeadline
  rw [this]
  simp

end Sys2Proof.Machine
end

