-- ==== Sys2Proof/Laws/Retire.lean ====
section
/-! SUPPORT. What the withdrawals of RETIRE leave before the freed holding records are handed over (R16, R17). -/

namespace Sys2Proof.Machine

/-- What a withdrawal at slot `i` leaves alone. -/
structure State.Withdraws (s t : State) (i : SlotId) : Prop where
  time : s.SameTime t
  clients : t.clients = s.clients
  ports : t.ports = s.ports
  freezes : s.SameFreezes t
  grant : t.grant = s.grant
  backlog : t.backlog = s.backlog
  elsewhere : s.SameRecordsBut t i

theorem State.Withdraws.refl (s : State) (i : SlotId) : s.Withdraws s i :=
  ⟨⟨rfl, rfl, rfl⟩, rfl, rfl, fun _ => ⟨rfl, rfl⟩, rfl, rfl, .refl s i⟩

theorem State.Withdraws.trans {s t u : State} {i : SlotId} (h : s.Withdraws t i) (k : t.Withdraws u i) :
    s.Withdraws u i :=
  ⟨⟨k.time.1.trans h.time.1, k.time.2.1.trans h.time.2.1, k.time.2.2.trans h.time.2.2⟩, k.clients.trans h.clients,
   k.ports.trans h.ports, fun c => ⟨(k.freezes c).1.trans (h.freezes c).1, (k.freezes c).2.trans (h.freezes c).2⟩,
   k.grant.trans h.grant, k.backlog.trans h.backlog, h.elsewhere.trans k.elsewhere⟩

theorem State.SameButDeadlines.withdraws {s t : State} (h : s.SameButDeadlines t) (i : SlotId) : s.Withdraws t i :=
  ⟨⟨h.pending, h.startup, h.clock⟩, h.clients, h.ports, fun c => ⟨h.level c, h.freezeStart c⟩, h.grant, h.backlog,
   fun j _ => h.record j⟩

theorem State.SameButNotices.withdraws {s t : State} (h : s.SameButNotices t) (i : SlotId) : s.Withdraws t i :=
  ⟨⟨h.pending, h.startup, h.clock⟩, h.clients, h.ports, fun c => by simp [State.holdUnit, h.holdUnits], h.grant,
   h.backlog, fun j _ => by simp [State.record, h.slots]⟩

theorem State.setRecord_withdraws (s : State) (i : SlotId) (x : Option Resource) : s.Withdraws (s.setRecord i x) i :=
  ⟨⟨rfl, rfl, rfl⟩, rfl, rfl, fun _ => ⟨rfl, rfl⟩, rfl, rfl, fun j hj => by simp [hj]⟩

theorem countP_client_le_one {α : Type} (f : α → ClientId) (l : List α) (h : (l.map f).Nodup) (c : ClientId) :
    (l.countP fun x => f x == c) ≤ 1 := by
  have := List.nodup_iff_count_le_one.mp h c
  rwa [List.count, List.countP_map] at this

theorem State.raisedFor_congr {s t : State} (h : t.clients = s.clients) (c : ClientId) (ns : NoticeSet) (n : Notice) :
    t.raisedFor c ns n = s.raisedFor c ns n := by
  have : t.client c = s.client c := by simp [State.client, h]
  simp only [State.raisedFor, this]

/-- The deadlines of the owners `gone`, and no others, are discarded, live and stored for the owner's client. -/
structure State.Discards (s t : State) (gone : Owner → Bool) : Prop where
  live : t.deadlines = s.deadlines.filter fun d => !gone d.owner
  stored : ∀ c, (t.holdUnit c).stored = (s.holdUnit c).stored.filter fun d => !(d.owner.clientId == c && gone d.owner)

theorem State.Discards.none (s : State) : s.Discards s fun _ => false := ⟨by simp, by simp⟩

theorem State.Discards.trans {s t u : State} {f g : Owner → Bool} (h : s.Discards t f) (k : t.Discards u g) :
    s.Discards u fun o => f o || g o where
  live := by
    rw [k.live, h.live, List.filter_filter]
    congr 1
    funext d
    rw [Bool.not_or, Bool.and_comm]
  stored c := by
    rw [k.stored, h.stored, List.filter_filter]
    congr 1
    funext d
    rw [Bool.and_or_distrib_left, Bool.not_or, Bool.and_comm]

theorem State.Discards.congr {s t : State} {f g : Owner → Bool} (h : s.Discards t f) (he : ∀ o, f o = g o) :
    s.Discards t g := funext he ▸ h

theorem State.Discards.notices {s t u : State} {f : Owner → Bool} (h : s.Discards t f) (k : t.SameButNotices u) :
    s.Discards u f := by
  refine ⟨k.deadlines.trans h.live, fun c => ?_⟩
  have : u.holdUnit c = t.holdUnit c := by simp [State.holdUnit, k.holdUnits]
  rw [this, h.stored]

theorem State.disarm_discards (s : State) (o : Owner) : s.Discards (s.disarm o) fun o' => o' == o := by
  refine ⟨rfl, fun c => ?_⟩
  rw [State.stored_disarm]
  split
  · rename_i hc
    apply List.filter_congr
    intro d _
    by_cases ho : d.owner = o
    · simp [ho, hc]
    · simp [bne, beq_eq_false_iff_ne.mpr ho]
  · rename_i hc
    rw [List.filter_eq_self.mpr]
    intro d _
    by_cases ho : d.owner = o
    · simp [ho, Ne.symm hc]
    · simp [ho]

/-! ### The waiter entries -/

theorem State.withdrawWaiter_spec (i : SlotId) (key : Key) (w : Waiter) (s : State) (r : Resource)
    (hr : s.record i = some r) :
    s.Withdraws (State.withdrawWaiter i key s w) i
    ∧ (State.withdrawWaiter i key s w).record i = some { r with queue := r.queue.eraseP fun v => v.client == w.client }
    ∧ s.Discards (State.withdrawWaiter i key s w) (fun o => o == .waiter i w.client)
    ∧ (State.withdrawWaiter i key s w).noticeSet w.client
        = s.raisedFor w.client (s.noticeSet w.client) (notice key .withdrawn none)
    ∧ ∀ c, c ≠ w.client → (State.withdrawWaiter i key s w).noticeSet c = s.noticeSet c := by
  have he := s.dropWaiter_eq i r w.client hr
  have same := (s.setRecord i (some { r with queue := r.queue.eraseP fun v => v.client == w.client })).disarm_same
    (.waiter i w.client)
  rw [← he] at same
  have same2 := (s.dropWaiter i w.client).raiseNotice_same w.client (notice key .withdrawn none)
  refine ⟨((s.setRecord_withdraws i _).trans (same.withdraws i)).trans (same2.withdraws i), ?_, ?_, ?_,
    fun c hc => ?_⟩
  · have : (State.withdrawWaiter i key s w).record i = (s.dropWaiter i w.client).record i := by
      simp [State.withdrawWaiter, State.record, same2.slots]
    rw [this, same.record]
    simp
  · have := (s.setRecord i (some { r with queue := r.queue.eraseP fun v => v.client == w.client })).disarm_discards
      (.waiter i w.client)
    rw [← he] at this
    exact State.Discards.notices ⟨this.live, this.stored⟩ same2
  · rw [State.withdrawWaiter, State.noticeSet_raiseNotice_self, same.noticeSet,
      State.raisedFor_congr same.clients]
    rfl
  · rw [State.withdrawWaiter, State.noticeSet_raiseNotice_ne _ _ _ _ hc, same.noticeSet]
    simp

theorem State.withdrawWaiters_spec (i : SlotId) (key : Key) (ws : List Waiter) (s : State) (r : Resource)
    (hr : s.record i = some r) (hq : r.queue = ws) (hn : (ws.map Waiter.client).Nodup) :
    s.Withdraws (ws.foldl (State.withdrawWaiter i key) s) i
    ∧ (ws.foldl (State.withdrawWaiter i key) s).record i = some { r with queue := [] }
    ∧ s.Discards (ws.foldl (State.withdrawWaiter i key) s) (fun o => ws.any fun w => o == .waiter i w.client)
    ∧ ∀ c, (ws.foldl (State.withdrawWaiter i key) s).noticeSet c
        = if ∃ w ∈ ws, w.client = c then s.raisedFor c (s.noticeSet c) (notice key .withdrawn none)
          else s.noticeSet c := by
  induction ws generalizing s r with
  | nil => exact ⟨.refl s i, by rw [List.foldl_nil, hr, ← hq], .none s, by simp⟩
  | cons w ws ih =>
    obtain ⟨h1, h2, h3, h4, h5⟩ := State.withdrawWaiter_spec i key w s r hr
    obtain ⟨hw, hn⟩ := List.nodup_cons.mp hn
    rw [hq] at h2
    simp only [List.eraseP_cons, beq_self_eq_true] at h2
    obtain ⟨k1, k2, k3, k4⟩ := ih (State.withdrawWaiter i key s w) { r with queue := ws } h2 rfl hn
    rw [List.foldl_cons]
    refine ⟨h1.trans k1, k2, (h3.trans k3).congr fun _ => rfl, fun c => ?_⟩
    · rw [k4]
      have hcl := State.raisedFor_congr h1.clients c
      by_cases hc : c = w.client
      · subst hc
        have : ¬ ∃ v ∈ ws, v.client = w.client := by
          rintro ⟨v, hv, he⟩
          exact hw (List.mem_map.mpr ⟨v, hv, he⟩)
        simp [this, h4]
      · simp [Ne.symm hc, h5 c hc, hcl]

/-! ### The offers -/

theorem State.noticesAfter_congr {s t : State} (key : Key) (h : Holding) (cause : HoldingEnd)
    (hc : t.clients = s.clients) (hn : t.noticeSet h.client = s.noticeSet h.client) :
    t.noticesAfter key h cause = s.noticesAfter key h cause := by
  simp only [State.noticesAfter, hn, State.raisedFor_congr hc]

theorem State.withdrawOffer_spec (i : SlotId) (h : Holding) (s : State) (r : Resource) (hr : s.record i = some r)
    (ho : h.state = .offered) (hn : (r.holders.map Holding.client).Nodup) :
    s.Withdraws (State.withdrawOffer i s h) i
    ∧ (State.withdrawOffer i s h).record i = some { r with holders := r.holders.filter fun g => g.client != h.client }
    ∧ s.Discards (State.withdrawOffer i s h) (fun o => o == .holding i h.client)
    ∧ (State.withdrawOffer i s h).noticeSet h.client = s.noticesAfter r.key h .withdrawn
    ∧ ∀ c, c ≠ h.client → (State.withdrawOffer i s h).noticeSet c = s.noticeSet c := by
  have hd : State.withdrawOffer i s h
      = ((s.setRecord i (some { r with holders := r.holders.filter fun g => g.client != h.client })).disarm
          (.holding i h.client)).setNoticeSet h.client (s.noticesAfter r.key h .withdrawn) := by
    simp only [State.withdrawOffer, hr, State.dropHolding, State.endNotices_eq,
      eraseP_eq_filter _ _ (countP_client_le_one Holding.client r.holders hn h.client), Holding.endsSuspect, ho]
    rfl
  have same := (s.setRecord i (some { r with holders := r.holders.filter fun g => g.client != h.client })).disarm_same
    (.holding i h.client)
  rw [hd]
  refine ⟨((s.setRecord_withdraws i _).trans (same.withdraws i)).trans ((State.setNoticeSet_same _ _ _).withdraws i),
    ?_, ?_, by simp, fun c hc => ?_⟩
  · rw [State.record_setNoticeSet, same.record]
    simp
  · have := (s.setRecord i (some { r with holders := r.holders.filter fun g => g.client != h.client })).disarm_discards
      (.holding i h.client)
    exact State.Discards.notices ⟨this.live, this.stored⟩ (State.setNoticeSet_same _ _ _)
  · rw [State.noticeSet_setNoticeSet_ne _ _ _ _ hc, same.noticeSet]
    simp

theorem State.withdrawOffers_spec (i : SlotId) (hs : List Holding) (s : State) (r : Resource)
    (hr : s.record i = some r) (ho : ∀ h ∈ hs, h.state = .offered) (hh : (hs.map Holding.client).Nodup)
    (hn : (r.holders.map Holding.client).Nodup) :
    s.Withdraws (hs.foldl (State.withdrawOffer i) s) i
    ∧ (hs.foldl (State.withdrawOffer i) s).record i
        = some { r with holders := r.holders.filter fun g => !hs.any fun h => h.client == g.client }
    ∧ s.Discards (hs.foldl (State.withdrawOffer i) s) (fun o => hs.any fun h => o == .holding i h.client)
    ∧ ∀ c, (hs.foldl (State.withdrawOffer i) s).noticeSet c
        = match hs.find? fun h => h.client == c with
          | some h => s.noticesAfter r.key h .withdrawn
          | none => s.noticeSet c := by
  induction hs generalizing s r with
  | nil => exact ⟨.refl s i, by simp [hr], .none s, by simp⟩
  | cons h hs ih =>
    obtain ⟨h1, h2, h3, h4, h5⟩ := State.withdrawOffer_spec i h s r hr (ho h (by simp)) hn
    obtain ⟨hw, hh⟩ := List.nodup_cons.mp hh
    obtain ⟨k1, k2, k3, k4⟩ := ih (State.withdrawOffer i s h) _ h2 (fun g hg => ho g (List.mem_cons_of_mem _ hg)) hh
      (((List.filter_sublist).map _).nodup hn)
    rw [List.foldl_cons]
    refine ⟨h1.trans k1, ?_, (h3.trans k3).congr fun _ => rfl, fun c => ?_⟩
    · rw [k2, List.filter_filter]
      congr 2
      apply List.filter_congr
      intro g _
      by_cases he : g.client = h.client
      · simp [he]
      · rw [List.any_cons, show (h.client == g.client) = false by simpa using Ne.symm he,
          show (g.client != h.client) = true by simpa using he]
        simp
    · rw [k4]
      by_cases hc : c = h.client
      · subst hc
        have : (hs.find? fun g => g.client == h.client) = none := by
          rw [List.find?_eq_none]
          intro g hg
          simpa using fun he : g.client = h.client => hw (List.mem_map.mpr ⟨g, hg, he⟩)
        simp [this, h4]
      · have hne : (h.client == c) = false := by simpa using Ne.symm hc
        rw [List.find?_cons, hne]
        simp only
        cases hf : hs.find? fun g => g.client == c with
        | none => exact h5 c hc
        | some g =>
          have hgc : g.client = c := by simpa using List.find?_some hf
          exact State.noticesAfter_congr _ _ _ h1.clients (h5 _ (hgc ▸ hc))

/-! ### Offers from a state that reads the same -/

/-- Two states that every reading of what offers depend on finds the same. -/
structure State.ReadsSame (s t : State) : Prop where
  time : s.SameTime t
  clients : t.clients = s.clients
  freezes : s.SameFreezes t
  grant : t.grant = s.grant
  backlog : t.backlog = s.backlog
  record : ∀ j, t.record j = s.record j
  live : t.deadlines = s.deadlines
  stored : ∀ c, (t.holdUnit c).stored = (s.holdUnit c).stored
  notices : ∀ c, t.noticeSet c = s.noticeSet c

theorem State.ReadsSame.deadline {s t : State} (h : s.ReadsSame t) (o : Owner) : t.deadlineOf o = s.deadlineOf o :=
  State.deadlineOf_congr o h.time.2.2 (by rw [h.live]) (by rw [h.stored])

theorem State.OffersMade.of_readsSame {s s' t : State} {os : List Offer} (h : s.OffersMade t os)
    (k : s'.ReadsSame s) : s'.OffersMade t os where
  time := ⟨h.time.1.trans k.time.1, h.time.2.1.trans k.time.2.1, h.time.2.2.trans k.time.2.2⟩
  clients := h.clients.trans k.clients
  freezes c := ⟨(h.freezes c).1.trans (k.freezes c).1, (h.freezes c).2.trans (k.freezes c).2⟩
  grant := by rw [h.grant, k.grant]
  gens := by rw [h.gens, k.grant]
  free j hj := by
    obtain ⟨h1, h2, h3⟩ := h.free j ((k.record j).trans hj)
    exact ⟨h1, h2, fun c => (h3 c).trans (k.deadline _)⟩
  record j r hr := by
    obtain ⟨r', gone, hr', ho, hd⟩ := h.record j r ((k.record j).trans hr)
    exact ⟨r', gone, hr', ho.congr k.clients, fun c => ⟨(hd c).1, fun hn => ((hd c).2 hn).trans (k.deadline _)⟩⟩
  offerEnd j r c hr hx := by
    have hc : s.client c = s'.client c := by simp [State.client, k.clients]
    rw [h.offerEnd j r c ((k.record j).trans hr) hx, State.isFrozen, State.isFrozen, hc]
  otherHolding j c hx := (h.otherHolding j c hx).trans (k.deadline _)
  allowance c := (h.allowance c).trans (k.deadline _)
  notices c := by
    rw [h.notices c, k.notices c]
    congr 1
    funext ns x
    exact State.raisedFor_congr k.clients c ns x.notice
  live := by rw [h.live, k.live]
  stored c := by rw [h.stored, k.stored]
  place before x after r hsplit hlast hr := by
    have hf : s.isFrozen x.client = s'.isFrozen x.client := by simp [State.isFrozen, State.client, k.clients]
    have := h.place before x after r hsplit hlast ((k.record x.slot).trans hr)
    simpa only [hf, k.time.2.2, State.distance] using this

theorem State.OffersFrom.of_readsSame {s s' t : State} {i : SlotId} {n : Nat} (h : s.OffersFrom t i n)
    (k : s'.ReadsSame s) : s'.OffersFrom t i n := by
  have hu : s.holdingsInUse = s'.holdingsInUse := by
    simp only [State.holdingsInUse, State.total, k.record]
  obtain ⟨os, hm, hf, hc, h0, hw, hb⟩ := h
  refine ⟨os, hm.of_readsSame k, hf, hc, fun hn j hj => (h0 hn j hj).trans (k.record j),
    fun h => hw (by rw [hu]; exact h), fun hn => ?_⟩
  rw [k.backlog, hu] at hb
  obtain ⟨served, rest, h1, h2, h3, h4, h5⟩ := hb hn
  exact ⟨served, rest, h1, h2, h3, fun j a b c => (h4 j a b c).trans (k.record j), h5⟩

/-! ### RETIRE -/

theorem Resource.clients_nodup {r : Resource} (h : ∀ c, r.claimsOf c ≤ 1) :
    (r.holders.map Holding.client).Nodup ∧ (r.queue.map Waiter.client).Nodup := by
  constructor
  · refine List.nodup_iff_count_le_one.mpr fun c => ?_
    rw [List.count, List.countP_map]
    exact Nat.le_trans (Nat.le_add_right _ _) (h c)
  · refine List.nodup_iff_count_le_one.mpr fun c => ?_
    rw [List.count, List.countP_map]
    exact Nat.le_trans (Nat.le_add_left _ _) (h c)

theorem Resource.not_heldOnes {r : Resource} (hn : (r.holders.map Holding.client).Nodup) :
    (r.holders.filter fun g => !r.offers.any fun h => h.client == g.client) = r.heldOnes := by
  apply List.filter_congr
  intro g hg
  have hmem : (r.offers.any fun h => h.client == g.client) = true ↔ g.state = .offered := by
    rw [List.any_eq_true]
    constructor
    · rintro ⟨h, hh, he⟩
      obtain ⟨h1, h2⟩ := List.mem_filter.mp hh
      have : h = g := List.inj_on_of_nodup_map hn h1 hg (by simpa using he)
      simpa [← this] using h2
    · intro ho
      exact ⟨g, List.mem_filter.mpr ⟨hg, by simp [ho]⟩, by simp⟩
  cases hs : g.state with
  | offered => simp [hmem.mpr hs]
  | held =>
    have : (r.offers.any fun h => h.client == g.client) = false := by
      rw [← Bool.not_eq_true, hmem, hs]; simp
    simp [this]

/-- What RETIRE has done before the freed holding records are handed over, as statements say it (R16, R17). -/
theorem State.withdrawn_readsSame (s : State) (i : SlotId) (r : Resource) (hr : s.record i = some r)
    (h1 : ∀ c, r.claimsOf c ≤ 1) :
    (s.resourceWithdrawn i r).ReadsSame
      (if (r.holders.any fun h => h.state == .held) = true
        then (s.withdrawAll i r).modifyRecord i fun r' => { r' with lifecycle := .retiring }
        else (s.withdrawAll i r).setRecord i none) := by
  obtain ⟨hnh, hnq⟩ := Resource.clients_nodup h1
  obtain ⟨a1, a2, a3, a4⟩ := State.withdrawWaiters_spec i r.key r.queue s r hr rfl hnq
  generalize hu : r.queue.foldl (State.withdrawWaiter i r.key) s = u at a1 a2 a3 a4
  obtain ⟨b1, b2, b3, b4⟩ := State.withdrawOffers_spec i r.offers u _ a2
    (fun h hh => by simpa using (List.mem_filter.mp hh).2) (((List.filter_sublist).map _).nodup hnh) hnh
  have hall : s.withdrawAll i r = (r.offers.foldl (State.withdrawOffer i) u).leaveBacklog i := by
    rw [State.withdrawAll, hu]
  generalize r.offers.foldl (State.withdrawOffer i) u = v at b1 b2 b3 b4 hall
  rw [r.not_heldOnes hnh] at b2
  have c1 := a1.trans b1
  -- the state that is handed on, apart from its record
  generalize hw : (if (r.holders.any fun h => h.state == .held) = true
      then (s.withdrawAll i r).modifyRecord i fun r' => { r' with lifecycle := .retiring }
      else (s.withdrawAll i r).setRecord i none) = w
  have hset : ∃ x, w = (v.leaveBacklog i).setRecord i x
      ∧ x = if r.heldOnes = [] then none else some { r with lifecycle := .retiring, holders := r.heldOnes, queue := [] } := by
    have hany : (r.holders.any fun h => h.state == .held) = true ↔ r.heldOnes ≠ [] := by
      rw [List.any_eq_true, Resource.heldOnes, ne_eq, List.filter_eq_nil_iff]
      simp
    by_cases hh : r.heldOnes = []
    · refine ⟨none, ?_, by rw [if_pos hh]⟩
      rw [← hw, if_neg (by rw [hany]; simpa using hh), hall]
    · refine ⟨_, ?_, by rw [if_neg hh]⟩
      rw [← hw, if_pos (hany.mpr hh), hall, State.modifyRecord_some _ _ _ _ (show (v.leaveBacklog i).record i = _ from b2)]
  obtain ⟨x, rfl, hx⟩ := hset
  have hgone : s.Discards v (r.promises i) := by
    refine (a3.trans b3).congr fun o => ?_
    rw [Bool.eq_iff_iff]
    cases o with
    | holding j c =>
      simp only [Resource.promises, Resource.offers, List.any_filter, List.any_eq_true, Bool.or_eq_true, Bool.and_eq_true,
        beq_iff_eq, Owner.holding.injEq, reduceCtorEq, and_false, exists_false, false_or]
      constructor
      · rintro ⟨h, hm, ho, rfl, rfl⟩
        exact ⟨rfl, h, hm, rfl, ho⟩
      · rintro ⟨rfl, h, hm, rfl, ho⟩
        exact ⟨h, hm, ho, rfl, rfl⟩
    | waiter j c =>
      simp only [Resource.promises, List.any_eq_true, Bool.or_eq_true, Bool.and_eq_true, beq_iff_eq, Owner.waiter.injEq,
        reduceCtorEq, and_false, exists_false, or_false]
      constructor
      · rintro ⟨w, hm, rfl, rfl⟩
        exact ⟨rfl, w, hm, rfl⟩
      · rintro ⟨rfl, w, hm, rfl⟩
        exact ⟨w, hm, rfl, rfl⟩
    | client c => simp [Resource.promises]
  have hunit : ∀ c, (s.resourceWithdrawn i r).holdUnit c = { s.holdUnit c with
      stored := (s.holdUnit c).stored.filter fun d => !(d.owner.clientId == c && r.promises i d.owner) } := fun c => by
    simp [State.resourceWithdrawn, State.holdUnit]
  refine ⟨c1.time, c1.clients, fun c => ?_, c1.grant, ?_, fun j => ?_, hgone.live, fun c => ?_, fun c => ?_⟩
  · rw [hunit]
    exact c1.freezes c
  · change (v.backlog.filter fun j => j != i) = s.backlog.filter fun j => j != i
    rw [c1.backlog]
  · have hrec : (s.resourceWithdrawn i r).record j = (s.setRecord i x).record j := by rw [hx]; rfl
    rw [hrec, State.record_setRecord, State.record_setRecord]
    split
    · rfl
    · rename_i hj
      exact c1.elsewhere j hj
  · rw [hunit]
    exact hgone.stored c
  · have hset : (s.resourceWithdrawn i r).noticeSet c = s.noticesWithdrawn r c := by
      simp [State.resourceWithdrawn, State.noticeSet]
    rw [hset]
    change v.noticeSet c = _
    have hfind : (r.offers.find? fun h => h.client == c) = r.holders.find? fun h => h.client == c && h.state == .offered := by
      rw [Resource.offers, List.find?_filter]
      congr 1
      funext h
      by_cases hs : h.state = .offered <;> by_cases hc : h.client = c <;> simp [hs, hc]
    rw [b4, hfind]
    unfold State.noticesWithdrawn
    by_cases hq : (r.queue.any fun w => w.client == c) = true
    · have hex : ∃ w ∈ r.queue, w.client = c := by simpa using hq
      have hnone : (r.holders.find? fun h => h.client == c && h.state == .offered) = none := by
        rw [List.find?_eq_none]
        intro h hm hp
        have hp : h.client = c := by simp at hp; exact hp.1
        have := Resource.claimsOf_two r c ⟨h, hm, hp⟩ hex
        have := h1 c
        omega
      rw [if_pos hq, hnone]
      simp only
      rw [a4, if_pos hex]
    · have hex : ¬ ∃ w ∈ r.queue, w.client = c := by simpa using hq
      rw [if_neg hq]
      cases hf : r.holders.find? fun h => h.client == c && h.state == .offered with
      | none => rw [a4, if_neg hex]
      | some h =>
        have hc : h.client = c := by
          have := List.find?_some hf
          simp at this
          exact this.1
        subst hc
        refine State.noticesAfter_congr _ _ _ a1.clients ?_
        rw [a4, if_neg hex]

/-- RETIRE as statements say it, before its reply (R16, R17, R68). -/
theorem State.retire_offersFrom (s : State) (i : SlotId) (r : Resource) (hr : s.record i = some r)
    (h1 : ∀ c, r.claimsOf c ≤ 1) :
    (s.resourceWithdrawn i r).OffersFrom (State.giveBackMany r.offers.length
      (if (r.holders.any fun h => h.state == .held) = true
        then (s.withdrawAll i r).modifyRecord i fun r' => { r' with lifecycle := .retiring }
        else (s.withdrawAll i r).setRecord i none)) i (r.holders.countP fun h => h.state == .offered) := by
  have k := s.withdrawn_readsSame i r hr h1
  generalize (if (r.holders.any fun h => h.state == .held) = true
    then (s.withdrawAll i r).modifyRecord i fun r' => { r' with lifecycle := .retiring }
    else (s.withdrawAll i r).setRecord i none) = u at k
  have hlen : r.offers.length = r.holders.countP fun h => h.state == .offered := by
    rw [Resource.offers, List.countP_eq_length_filter]
  have hq : ∀ r' w, u.record i = some r' → r'.queue.head? ≠ some w := by
    intro r' w hr' hw
    rw [k.record] at hr'
    have : (s.resourceWithdrawn i r).record i
        = if r.heldOnes = [] then none else some { r with lifecycle := .retiring, holders := r.heldOnes, queue := [] } := by
      simp [State.resourceWithdrawn, State.record]
    rw [this] at hr'
    split at hr'
    · cases hr'
    · cases hr'
      simp at hw
  have hb : i ∉ u.backlog := by
    rw [k.backlog]
    simp [State.resourceWithdrawn]
  rw [hlen]
  refine (State.giveBackMany_offersFrom _ u i ⟨fun r' w hr' hw => absurd hw (hq r' w hr'), ?_⟩ hb).of_readsSame k
  exact ⟨fun hin => absurd hin hb, fun ⟨r', w, hr', hw, _⟩ => absurd hw (hq r' w hr')⟩

end Sys2Proof.Machine
end

