-- ==== Sys2Proof/WellFormed.lean ====
section
/-! DEFINITION. Which commands are well-formed. Ports, clients, slots, levels and bits are bounded by their types, and the
spec bounds nothing else of a command: the parameters of a request are judged by the part itself (R146, R164). -/

namespace Sys2Proof

/-- A command is well-formed when its operands can occur on the part's lines: every command is. -/
def Instr.wellFormed (_ : Instr) : Bool := true

end Sys2Proof
end

