-- ==== Sys2Proof/Tests/Slice0.lean ====
section
/-! SUPPORT. Our own tests: the CRC's check value, one or two small steps for each command, and for every statement with
premises a state and operands that meet them together. -/

namespace Sys2Proof.Machine.Tests

set_option maxRecDepth 100000

/-! ### Small states -/

/-- A SHAREABLE resource of key 0x0101 and limit 3, with the lists given. -/
def shareable (holders : List Holding) (queue : List Waiter) : Resource :=
  { key := 0x0101#16, cls := .shareable 3, leaseTerm := 1000#16, warnMargin := 100#16, offerWindow := 50#16,
    lifecycle := .active, integrity := .sound, holders := holders, queue := queue }

/-- An EXCLUSIVE-ONLY resource of key 0x0101 without a warn margin. -/
def exclusiveOnly (holders : List Holding) (queue : List Waiter) : Resource :=
  { shareable holders queue with cls := .exclusiveOnly, warnMargin := 0 }

def held (c : ClientId) (t : Tenure) (g : Gen) : Holding :=
  { client := c, tenure := t, state := .held, gen := g, suspect := false, warned := false }

def offered (c : ClientId) (t : Tenure) (g : Gen) : Holding :=
  { client := c, tenure := t, state := .offered, gen := g, suspect := false, warned := false }

def waits (c : ClientId) (m : Tenure) (pr : Fin 4) : Waiter := { client := c, mode := m, priority := pr }

/-- The part at work: every session OPEN, one resource in slot 3, the grant counter 9, and a request in flight on port
`p` with tag 5. -/
def scene (p : ClientId) (f : InFlight) (r : Resource) (ds : List Deadline) : State :=
  { State.reset with
    startup := .ended
    grant := 9
    deadlines := ds
    slots := (Vector.replicate 64 none).set 3 (some r)
    clients := Vector.ofFn fun c => { Client.initial c with session := .opened, epoch := 1 }
    ports := Vector.ofFn fun q =>
      if q = p then { Port.initial false false with state := .busy, slot := .pending 5, inFlight := f }
      else { Port.initial false false with state := .ready } }

/-- The scene with a request taken from port `p`. -/
def asks (p : ClientId) (q : Request) (ps : List Byte) (r : Resource) (ds : List Deadline) : State :=
  scene p (.taken q.code ps) r ds

/-- The same state with a client's session changed. -/
def withSession (c : ClientId) (x : Session) (s : State) : State :=
  s.setClient c { s.client c with session := x }

/-- The same state with a client FROZEN since the present reading, its hold sense asserted, its allowance 2 s. -/
def frozen (c : ClientId) (stored : List StoredDeadline) (s : State) : State :=
  ((s.setClient c { s.client c with holdAllowance := 2, freeze := .frozen }).setHoldUnit c
    { level := true, freezeStart := some s.clock, stored := stored }).setDeadlines
      (s.deadlines ++ [{ owner := .client c, kind := .allowanceEnd, due := s.clock }])

/-- A resource of limit 6 on which the clients of the list hold SHARED. -/
def shared (key : Key) (clients : List ClientId) : Resource :=
  { shareable (clients.map fun c => held c .shared (BitVec.ofNat 32 (c.val + 1))) [] with key := key, cls := .shareable 6 }

/-- The state with every quota 24, resource `r` in slot 3, SHARED holdings in slots 4 to 19, six at each but for those of
the list `four` in slot 4, and in slot 20, which stands in the Offer Backlog, a waiter entry of client 4 that is owed an
offer. -/
def crowded (r : Resource) (four : List ClientId) (s : State) : State :=
  { s with
    slots := Vector.ofFn fun j =>
      if j.val < 3 ∨ 20 < j.val then none
      else if j.val = 3 then some r
      else if j.val = 20 then some { shareable [] [waits 4 .exclusive 3] with key := BitVec.ofNat 16 j.val }
      else some (shared (BitVec.ofNat 16 j.val) (if j.val = 4 then four else [0, 1, 2, 3, 4, 5]))
    clients := Vector.ofFn fun c => { s.client c with quota := 24 }
    backlog := [20] }

/-- The state after a command. -/
def after (c : Instr) (s : State) : State :=
  match exec c s with
  | .next t => t
  | .fault _ => s
  | .refused _ => s

/-- The key 0x0101, and the key with generation 9. -/
def key : List Byte := [1, 1]
def keyGen : List Byte := [1, 1, 0, 0, 0, 9]

/-- The parameters of an ACQUIRE of the key. -/
def wants (mode priority waitHigh waitLow : Byte) : List Byte := [1, 1, mode, priority, waitHigh, waitLow]

/-- The parameters of a DEFINE or AMEND: lease term 1000, warn margin 100, offer window 50. -/
def terms (keyHigh cls limit : Byte) : List Byte := [keyHigh, 1, cls, limit, 3, 0xE8, 0, 100, 0, 50]

/-- FRAME_END after edges that sampled these bits. -/
def frameOfBits (p : ClientId) (bits : List Bool) : Instr := .frameEnd p bits.length (BitVec.ofBoolListBE bits)

/-- Deadlines on slot 3. -/
def onHolding (c : ClientId) (kind : DeadlineKind) (due : Time) : Deadline := { owner := .holding 3 c, kind, due }
def onWaiter (c : ClientId) (due : Time) : Deadline := { owner := .waiter 3 c, kind := .waitEnd, due }

/-! ### WellFormed and Decode: every operand is a command's, and no word spells one -/

theorem test_any_bits_are_well_formed : (Instr.frameEnd 0 3 0b101#3).wellFormed = true := by decide
theorem test_no_word_spells_a_command : decodeTableWord 8 1 = none := by decide

/-! ### Bytes -/

theorem test_crc_of_idle : requestBytes 0 0 [] = [0x00#8, 0x00#8, 0x00#8, 0x69#8] := by decide
theorem test_first_edge_samples_the_most_significant_bit :
    sampledBits 5 0b10010#5 = [true, false, false, true, false] := by decide
theorem test_first_bit_is_the_most_significant :
    byteOf [true, false, false, false, false, true, true, false] = 0x86#8 := by decide
theorem test_good_crc_judged : judgeBytes (requestBytes 0x20#8 5 key) = .wellFormed 0x20#8 5 key := by decide
theorem test_bad_crc_judged : judgeBytes [0x20#8, 5, 0, 0] = .crcErr := by decide
theorem test_long_request_judged : judgeBytes [0x20#8, 5, 13, 0] = .frameErr := by decide
theorem test_truncated_request_judged : judgeBytes [0x20#8, 5, 1, 0] = .frameErr := by decide

/-! ### One step of each command -/

theorem test_power_on_starts : (after (.powerOn 1 2 4) State.reset).startup = .counting := by decide
theorem test_reset_pin_keeps_the_epoch :
    ((after .resetPin (scene 0 .none (shareable [] []) [])).client 2).endCause = .partReset
      ∧ ((after .resetPin (scene 0 .none (shareable [] []) [])).client 2).epoch = 1 := by decide
theorem test_reset_pin_release_counts :
    (after (.resetPinRelease 4) (after .resetPin State.reset)).startup = .counting
      ∧ ((after (.resetPinRelease 4) (after .resetPin State.reset)).holdUnit 2).level = true := by decide
theorem test_startup_end_releases_the_ports :
    ((after .startupEnd (State.powerOn [] 0 2 0)).port 0).state = .ready
      ∧ ((after .startupEnd (State.powerOn [] 0 2 0)).port 1).state = .detached := by decide
theorem test_clock_counts : (after .millisecondBoundary (scene 0 .none (shareable [] []) [])).clock = 1 := by decide
theorem test_hold_used_counts :
    ((after .millisecondBoundary (frozen 1 [] (scene 0 .none (shareable [] []) []))).client 1).holdUsed = 0
      ∧ ((after .millisecondBoundary ((frozen 1 [] (scene 0 .none (shareable [] []) [])).setDeadlines [])).client 1).holdUsed
        = 1 := by decide
theorem test_clock_waits_for_expiry :
    (after .millisecondBoundary (scene 0 .none (shareable [] []) [onWaiter 1 0])).clock = 0 := by decide
theorem test_frame_start_samples :
    ((after (.frameStart 1) (asks 1 .query key (shareable [] []) [])).port 1).frame.map
      (fun f => f.snapshot.bytes.take 4) = some [0xC0#8, 0x05#8, 0x01#8, 0x00#8] := by decide
theorem test_frame_end_takes_a_request :
    ((after (frameOfBits 2 (bitsOf (requestBytes 0x20#8 7 key) ++ List.replicate 7 true))
      (after (.frameStart 2) (asks 1 .query key (shareable [] []) []))).port 2).inFlight = .taken 0x20#8 key := by decide
theorem test_frame_end_overruns :
    ((after (frameOfBits 1 (bitsOf (requestBytes 0x20#8 7 key)))
      (after (.frameStart 1) (asks 1 .query key (shareable [] []) []))).port 1).overrun = true := by decide
/-- R40 and R67: the record given back serves the backlog's front, and the slot that gave it back joins the tail. -/
theorem test_given_back_record_serves_the_backlog_first :
    let s := crowded (shareable [held 1 .exclusive 9] [waits 2 .exclusive 3]) [0, 2, 3, 4, 5]
      (asks 1 .release keyGen (shareable [] []) [])
    let t := after (.release 1) s
    s.freeHoldings = 0 ∧ (t.record 20).map (fun r => r.holders.map Holding.client) = some [4]
      ∧ (t.record 3).map Resource.holders = some [] ∧ t.backlog = [3] := by decide
theorem test_idle_changes_nothing : after (.idle 0) State.reset = State.reset := by decide
theorem test_reply_ready_fills :
    ((after (.replyReady 1) (scene 1 (.answered .done []) (shareable [] []) [])).port 1).slot
      = .filled { tag := 5, answer := .done, data := [] } := by decide
theorem test_join_of_the_65535th_session :
    let s := withSession 2 .none (asks 2 .join [] (shareable [] []) [])
    ((after (.join 2) (s.setClient 2 { s.client 2 with epoch := 0xFFFF#16 })).port 2).inFlight
      = .answered .done [2, 0, 1, 0] := by decide
theorem test_leave_without_a_claim :
    ((after (.leave 1) (asks 1 .leave [] (shareable [] []) [])).port 1).slot
      = .filled { tag := 5, answer := .done, data := [] } := by decide
theorem test_leave_with_a_claim_waits :
    ((after (.leave 1) (asks 1 .leave [] (shareable [held 1 .shared 9] []) [])).port 1).inFlight = .waiting 1 := by
  decide
theorem test_acquire_granted :
    ((after (.acquire 1) (asks 1 .acquire (wants 1 0 0 0) (shareable [] []) [])).port 1).inFlight
      = .answered .granted [0, 0, 0, 10, 3, 0xE8, 0] := by decide
theorem test_acquire_queued_by_priority :
    ((after (.acquire 1) (asks 1 .acquire (wants 1 3 0 9)
      (shareable [held 2 .exclusive 9] [waits 3 .shared 2, waits 4 .shared 1]) [])).port 1).inFlight
      = .answered .queued [2, 2] := by decide
theorem test_accept_arms_the_lease :
    (after (.accept 1) (asks 1 .accept keyGen (shareable [offered 1 .shared 9] [])
      [onHolding 1 .offerEnd 50])).deadlines = [onHolding 1 (.leaseWarn 100) 900] := by decide
theorem test_decline_offers_to_the_next :
    ((after (.decline 1) (asks 1 .decline keyGen (shareable [offered 1 .exclusive 9] [waits 2 .exclusive 0])
      [])).record 3).map Resource.holders = some [offered 2 .exclusive 10] := by decide
theorem test_cancel_at_the_head_offers :
    ((after (.cancel 1) (asks 1 .cancel key (shareable [held 3 .shared 9]
      [waits 1 .exclusive 0, waits 2 .shared 0]) [])).record 3).map Resource.holders
      = some [held 3 .shared 9, offered 2 .shared 10] := by decide
theorem test_renew_moves_the_warning :
    (after (.renew 1) (asks 1 .renew keyGen (shareable [held 1 .shared 9] []) [onHolding 1 .leaseEnd 40])).deadlines
      = [onHolding 1 (.leaseWarn 100) 900] := by decide
theorem test_release_vacates :
    ((after (.release 1) (asks 1 .release keyGen (exclusiveOnly [held 1 .exclusive 9] [])
      [onHolding 1 .leaseEnd 40])).record 3) = some (exclusiveOnly [] []) := by decide
theorem test_downgrade_lets_sharers_in :
    ((after (.downgrade 1) (asks 1 .downgrade keyGen (shareable [held 1 .exclusive 9]
      [waits 2 .shared 0, waits 3 .shared 0, waits 4 .shared 0]) [])).record 3).map (fun r => r.holders.length)
      = some 3 := by decide
theorem test_mark_sound :
    ((after (.markSound 1) (asks 1 .markSound keyGen
      { exclusiveOnly [held 1 .exclusive 9] [] with integrity := .suspect } [])).record 3).map Resource.integrity
      = some .sound := by decide
theorem test_query_of_a_holder :
    ((after (.query 1) (asks 1 .query key (shareable [held 1 .shared 9] [waits 2 .exclusive 0])
      [onHolding 1 (.leaseWarn 100) 300])).port 1).inFlight
      = .answered .done [0xC3, 3, 3, 0xE8, 0x81, 1, 0xE0, 0, 0, 0, 9, 1, 0x90] := by decide
theorem test_take_notice_by_rank :
    ((after (.takeNotice 1) ((asks 1 .takeNotice [] (shareable [] []) []).setNoticeSet 1
      { records := [notice 2 .waitLapsed none, notice 1 (.offer .shared true) (some 7)], lost := false,
        lostShown := false })).port 1).inFlight
      = .answered .done [0, 1, 3, 0, 0, 0, 7, 0, 3] := by decide
theorem test_define_in_slot_0 :
    ((after (.define 0) (asks 0 .define (terms 2 2 3) (shareable [] []) [])).record 0)
      = some { shareable [] [] with key := 0x0201#16 } := by decide
theorem test_amend_in_use :
    ((after (.amend 0) (asks 0 .amend (terms 1 1 0) (shareable [held 1 .shared 9] []) [])).port 0).inFlight
      = .answered .inUse [] := by decide
theorem test_retire_with_a_holder :
    ((after (.retire 0) (asks 0 .retire key (shareable [held 1 .shared 8, offered 2 .shared 9]
      [waits 3 .exclusive 0]) [])).record 3)
      = some { shareable [held 1 .shared 8] [] with lifecycle := .retiring } := by decide
theorem test_retire_tells_the_waiter :
    ((after (.retire 0) (asks 0 .retire key (shareable [held 1 .exclusive 9] [waits 3 .exclusive 0]) [])).noticeSet
      3).records = [notice 0x0101#16 .withdrawn none] := by decide
theorem test_revoke_makes_suspect :
    ((after (.revoke 0) (asks 0 .revoke [1, 1, 2] (shareable [held 2 .exclusive 9] []) [])).record 3).map
      Resource.integrity = some .suspect := by decide
theorem test_evict_begins_teardown :
    ((after (.evict 0) (asks 0 .evict [2] (shareable [held 2 .exclusive 9] []) [])).client 2).session
      = .teardown := by decide
theorem test_set_client :
    ((after (.setClient 0) (asks 0 .setClient [2, 24, 1, 0x3F, 2, 0x58, 1] (shareable [] []) [])).client 2).holdAllowance
      = 600 := by decide
theorem test_inspect_client_claim :
    ((after (.inspectClient 0) (asks 0 .inspectClient [2, 1] (shareable [] [waits 2 .shared 1]) [])).port 0).inFlight
      = .answered .done [0x62, 1, 1, 3, 1, 0, 0, 0, 0, 0, 0] := by decide
theorem test_unknown_code :
    ((after (.unknownCode 1) (scene 1 (.taken 0x37#8 []) (shareable [] []) [])).port 1).inFlight
      = .answered .badRequest [] := by decide

/-- A client whose teardown after a reset-line assertion is under way. -/
def tearing (c : ClientId) (s : State) : State :=
  s.setClient c { s.client c with session := .teardown, endCause := .resetLine }

theorem test_sweep_visit_tears_down :
    ((after (.sweepVisit 2) (tearing 2 (scene 0 .none (shareable [held 2 .exclusive 9] []) []))).record 3)
      = some { shareable [] [] with integrity := .suspect } := by decide
theorem test_teardown_completes :
    ((after (.teardownCompletion 2) (tearing 2 (scene 0 .none (shareable [] []) []))).client 2).session
      = .none := by decide
theorem test_reset_sense_detaches :
    ((after (.resetSenseAssert 1) (asks 1 .query key (shareable [] []) [])).port 1).state = .detached := by decide
theorem test_client_reset_sense_waits_for_the_request :
    let s := after (.resetSenseAssert 1) (asks 1 .query key (shareable [] []) [])
    after (.clientResetSense 1) s = s
      ∧ ((after (.clientResetSense 1) (after (.query 1) s)).client 1).endCause = .resetLine := by decide
theorem test_reset_sense_release_readies :
    ((after (.resetSenseRelease 2) (after (.clientResetSense 2) (after (.resetSenseAssert 2)
      (scene 0 .none (shareable [] []) [])))).port 2).state = .ready := by decide

/-- A client with a hold allowance of 2 s. -/
def allowed (c : ClientId) (s : State) : State := s.setClient c { s.client c with holdAllowance := 2 }

theorem test_hold_assertion_sets_aside :
    ((after (.holdAssertion 1) (allowed 1 (scene 0 .none (shareable [held 1 .shared 9] [])
      [onHolding 1 .leaseEnd 40]))).holdUnit 1).stored
      = [{ owner := .holding 3 1, kind := .leaseEnd, remaining := 40 }] := by decide
theorem test_hold_release_puts_back :
    (after (.holdRelease 1) (after (.holdAssertion 1) (allowed 1 (scene 0 .none (shareable [held 1 .shared 9] [])
      [onHolding 1 .leaseEnd 40])))).deadlines = [onHolding 1 .leaseEnd 40] := by decide
theorem test_lease_warn_arms_the_end :
    (after (.leaseWarn 3 1) (scene 0 .none (shareable [held 1 .shared 9] []) [onHolding 1 (.leaseWarn 100) 0])).deadlines
      = [onHolding 1 .leaseEnd 100] := by decide
theorem test_lease_end_makes_suspect :
    ((after (.leaseEnd 3 1) (scene 0 .none (shareable [held 1 .exclusive 9] []) [onHolding 1 .leaseEnd 0])).record 3)
      = some { shareable [] [] with integrity := .suspect } := by decide
theorem test_offer_end_tells :
    ((after (.offerEnd 3 1) (scene 0 .none (shareable [offered 1 .shared 9] []) [onHolding 1 .offerEnd 0])).noticeSet
      1).records = [notice 0x0101#16 .offerLapsed (some 9)] := by decide
theorem test_wait_end_tells :
    ((after (.waitEnd 3 1) (scene 0 .none (shareable [held 2 .exclusive 9] [waits 1 .shared 0])
      [onWaiter 1 0])).noticeSet 1).records = [notice 0x0101#16 .waitLapsed none] := by decide
theorem test_allowance_end_overstays :
    ((after (.allowanceEnd 1) (frozen 1 [] (scene 0 .none (shareable [] []) []))).client 1).freeze
      = .overstayed := by decide

/-! ### The laws in these states -/

/-- The state's one record is `r`, in slot 3. -/
def OnlyRecord (s : State) (r : Resource) : Prop := ∀ i r', s.record i = some r' → i = 3 ∧ r' = r

theorem scene_record (p : ClientId) (f : InFlight) (r : Resource) (ds : List Deadline) :
    OnlyRecord (scene p f r ds) r := by
  intro i r' h
  by_cases hi : i = 3
  · subst hi
    have h3 : (scene p f r ds).record 3 = some r := by simp [State.record, scene]
    exact ⟨rfl, (Option.some.inj (h3.symm.trans h)).symm⟩
  · have hv : (3 : Nat) ≠ i.val := fun e => hi (Fin.ext e.symm)
    simp [State.record, scene, hv] at h

theorem OnlyRecord.directoryLegal {s : State} {r : Resource} (h : OnlyRecord s r) (ht : r.TermsLegal) :
    s.DirectoryLegal :=
  ⟨fun i r' hr => (h i r' hr).2 ▸ ht, fun i j r' r'' hi hj _ => (h i r' hi).1.trans (h j r'' hj).1.symm⟩

theorem OnlyRecord.oneClaimEach {s : State} {r : Resource} (h : OnlyRecord s r) (hc : ∀ c, r.claimsOf c ≤ 1) :
    s.OneClaimEach :=
  fun i r' c hr => (h i r' hr).2 ▸ hc c

theorem OnlyRecord.tenureLaw {s : State} {r : Resource} (h : OnlyRecord s r) (ht : r.TenureLaw) : s.TenureLaw :=
  fun i r' hr => (h i r' hr).2 ▸ ht

theorem shareable_terms (hs : List Holding) (q : List Waiter) : (shareable hs q).TermsLegal := by
  refine ⟨?_, ?_, ?_, ?_, ?_, fun limit h => ?_⟩ <;> first | (cases h; decide) | (simp only [shareable]; decide)

theorem exclusiveOnly_terms (hs : List Holding) (q : List Waiter) : (exclusiveOnly hs q).TermsLegal := by
  refine ⟨?_, ?_, ?_, ?_, ?_, fun limit h => ?_⟩ <;>
    first | (exact nomatch h) | (simp only [exclusiveOnly, shareable]; decide)

/-- The directory of a crowded state, where the key in slot 3 is none of the others. -/
theorem crowded_directoryLegal (r : Resource) (four : List ClientId) (s : State) (ht : r.TermsLegal)
    (hk : 20 < r.key.toNat) : (crowded r four s).DirectoryLegal := by
  have hrec : ∀ i r', (crowded r four s).record i = some r' →
      (i.val = 3 ∧ r' = r) ∨ (3 < i.val ∧ i.val ≤ 20 ∧ r'.TermsLegal ∧ r'.key.toNat = i.val) := by
    intro i r' h
    have hi := i.isLt
    simp only [State.record, crowded, Fin.getElem_fin, Vector.getElem_ofFn] at h
    have hmod : i.val % 65536 = i.val := by omega
    have hne : 3 < i.val → BitVec.ofNat 16 i.val ≠ 0 := fun h0 h1 => by
      have := congrArg BitVec.toNat h1
      simp at this
      omega
    split at h
    · cases h
    · split at h
      · cases h
        exact .inl ⟨by assumption, rfl⟩
      · split at h <;> cases h <;>
        · refine .inr ⟨by omega, by omega, ⟨hne (by omega), by simp [shareable, shared], by simp [shareable, shared],
            by simp [shareable, shared], by simp [shareable, shared], fun limit hl => ?_⟩, by simp [shared, hmod]⟩
          cases hl
          decide
  refine ⟨fun i r' h => ?_, fun i j r1 r2 hi hj he => ?_⟩
  · rcases hrec i r' h with ⟨-, rfl⟩ | h
    · exact ht
    · exact h.2.2.1
  · have hv := congrArg BitVec.toNat he
    apply Fin.ext
    rcases hrec i r1 hi with ⟨hi3, rfl⟩ | ⟨h1, h2, -, h4⟩ <;> rcases hrec j r2 hj with ⟨hj3, hr⟩ | ⟨k1, k2, -, k4⟩
    · omega
    · omega
    · rw [hr] at hv; omega
    · omega

/-- A request of the scene passes stages 1 to 5. -/
theorem passes_of {s : State} {p : ClientId} {q : Request} {ps : List Byte}
    (hd : (s.port p).inFlight = .taken q.code ps ∧ ((s.client p).session = if q = .join then .none else .opened)
      ∧ (q.supervisorOnly = true → p = 0) ∧ q.fits ps.length = true ∧ q.inRange ps = true) : s.Passes p q ps :=
  ⟨hd.1, hd.2.1, fun h => hd.2.2.1 (q.supervisorOnly_iff.mpr h), (q.fits_iff _).mp hd.2.2.2.1,
    (q.inRange_iff _).mp hd.2.2.2.2⟩

/-- A request in flight of an OPEN session passes all seven stages at the one record. -/
theorem OnlyRecord.reaches {s : State} {r : Resource} {p : ClientId} {q : Request} {ps : List Byte}
    (h : OnlyRecord s r) (ht : r.TermsLegal)
    (hd : (s.port p).inFlight = .taken q.code ps ∧ ((s.client p).session = if q = .join then .none else .opened)
      ∧ (q.supervisorOnly = true → p = 0) ∧ q.fits ps.length = true ∧ q.inRange ps = true
      ∧ s.record 3 = some r ∧ r.key = wordAt ps 0 ∧ (q.lifecycleChecked = true → r.lifecycle = .active)) :
    s.Reaches p q ps 3 r :=
  ⟨passes_of ⟨hd.1, hd.2.1, hd.2.2.1, hd.2.2.2.1, hd.2.2.2.2.1⟩, h.directoryLegal ht, hd.2.2.2.2.2.1, hd.2.2.2.2.2.2.1,
    fun hq => hd.2.2.2.2.2.2.2 (q.lifecycleChecked_iff.mpr hq)⟩

theorem lawful_of {s : State}
    (h : (∀ c,
        ((s.client c).freeze = .frozen →
          (s.client c).session = .opened ∧ (s.holdUnit c).level = true ∧ (s.holdUnit c).freezeStart.isSome = true
          ∧ (∀ d ∈ s.deadlines, d.owner.isClaimOf c = false) ∧ ∀ d ∈ (s.holdUnit c).stored, d.owner.isClaimOf c = true)
        ∧ ((s.client c).freeze ≠ .frozen →
          (s.holdUnit c).freezeStart = none ∧ (s.holdUnit c).stored = [] ∧ ∀ d ∈ s.deadlines, d.owner ≠ .client c)
        ∧ ((s.client c).freeze = .overstayed → (s.client c).session = .opened ∧ (s.holdUnit c).level = true))
      ∧ ((s.deadlines.map Deadline.owner).Nodup ∧ ∀ c, ((s.holdUnit c).stored.map StoredDeadline.owner).Nodup)
      ∧ (s.deadlines.Pairwise fun d e => s.distance d.due ≤ s.distance e.due)
      ∧ (∀ d ∈ s.deadlines, s.distance d.due < 2 ^ 31)
      ∧ ∀ c, ∀ d ∈ (s.holdUnit c).stored, 1 ≤ d.remaining ∧ d.remaining < 2 ^ 31) : s.DeadlinesLawful := h

theorem waitsLegal_of {s : State} (h : ∀ p c, (s.port p).inFlight = .waiting c →
    (s.client c).session = .teardown ∧ (p = c ∨ p = Config.supervisor)) : s.WaitsLegal := h

/-! ### For every statement with premises: a state and operands that meet them together -/

/-- The scene with nothing in flight. -/
def quiet (hs : List Holding) (q : List Waiter) (ds : List Deadline) : State := scene 0 .none (shareable hs q) ds

theorem quiet_record (hs : List Holding) (q : List Waiter) (ds : List Deadline) :
    OnlyRecord (quiet hs q ds) (shareable hs q) := scene_record _ _ _ _

/-- The state with a frame begun on a port, and that frame. -/
def framed (p : ClientId) (s : State) : State := after (.frameStart p) s
def frameOf (p : ClientId) (s : State) : Frame := { snapshot := s.snapshot p, edges := 0, received := [], partByte := [] }

/-- The state with a port changed. -/
def withSlot (p : ClientId) (slot : ReplySlot) (st : PortState) (s : State) : State :=
  s.setPort p { s.port p with slot := slot, state := st }

/-- The state with a DETACHED port, its reset-sense input asserted. -/
def detached (p : ClientId) (s : State) : State := after (.resetSenseAssert p) s

/-- A reply in a slot. -/
def reply : Reply := { tag := 5, answer := .done, data := [1] }

/-- The state with a FILLED slot on port 1. -/
def filled : State := withSlot 1 (.filled reply) .ready (quiet [] [] [])

theorem met_StepRunsFrontCommand :
    ∃ s t : State, s.pending = [.resetPin, .startupEnd] ∧ t.pending = [] :=
  ⟨{ State.reset with pending := [.resetPin, .startupEnd] }, State.reset, rfl, rfl⟩

theorem met_StartUpReleasesThePorts :
    (after .resetPin State.reset).startup = .held ∧ State.reset.startup = .counting
      ∧ (quiet [] [] []).startup = .ended := by decide

theorem met_MillisecondBoundaryCounts :
    ((quiet [] [] [onWaiter 1 1]).startup = .ended
      ∧ ∀ d ∈ (quiet [] [] [onWaiter 1 1]).deadlines, d.due ≠ (quiet [] [] [onWaiter 1 1]).clock)
    ∧ State.reset.startup ≠ .ended
    ∧ ∃ d ∈ (quiet [] [] [onWaiter 1 0]).deadlines, d.due = (quiet [] [] [onWaiter 1 0]).clock := by decide

theorem met_FrameStartTakesTheSnapshot :
    ((filled.port 1).selectLow = false ∧ (filled.port 1).state = .ready ∧ (filled.port 1).slot = .filled reply)
    ∧ ((filled.port 2).selectLow = false ∧ (filled.port 2).state = .ready ∧ (filled.port 2).slot = .empty)
    ∧ (((asks 1 .query key (shareable [] []) []).port 1).selectLow = false
      ∧ ((asks 1 .query key (shareable [] []) []).port 1).state = .busy
      ∧ ((asks 1 .query key (shareable [] []) []).port 1).slot = .pending 5)
    ∧ ((State.reset.port 1).selectLow = false ∧ (State.reset.port 1).state = .starting)
    ∧ ((detached 1 filled).port 1).selectLow = false ∧ ((detached 1 filled).port 1).state = .detached := by decide

theorem test_data_out_shifts_the_snapshot :
    (framed 1 filled).dataOut 1 0 = some true ∧ (framed 1 filled).dataOut 1 7 = some false
      ∧ (framed 1 filled).dataOut 1 (8 * 1 + 7) = some true ∧ (framed 1 filled).dataOut 1 (8 * 6) = some true
      ∧ filled.dataOut 1 0 = none ∧ (framed 1 (detached 1 filled)).dataOut 1 0 = none := by decide

/-- Every string of bits is sampled from some levels of data in, at as many edges. -/
theorem met_sampledBits (bits : List Bool) :
    ∃ edges dataIn, sampledBits edges dataIn = bits ∧ edges = bits.length :=
  ⟨_, _, sampledBits_ofBoolListBE bits, rfl⟩

/-- Seven bits left over, the most there can be. -/
def leftOver : List Bool := List.replicate 7 true

theorem met_FrameEndJudgesTheRequest :
    (((framed 1 State.reset).port 1).selectLow = true ∧ ((framed 1 State.reset).port 1).frame = none)
    ∧ (((framed 1 filled).port 1).selectLow = true ∧ ((framed 1 filled).port 1).frame = some (frameOf 1 filled)
      ∧ (frameOf 1 filled).edges = 0 ∧ (frameOf 1 filled).received = [] ∧ (frameOf 1 filled).partByte = []
      ∧ leftOver.length < 8
      ∧ (bitsOf (requestBytes 0x10#8 9 []) ++ leftOver).length < 8 * (frameOf 1 filled).snapshot.bytes.length
      ∧ ((framed 1 filled).port 1).slot ≠ .empty)
    ∧ (((framed 2 filled).port 2).selectLow = true ∧ ((framed 2 filled).port 2).frame = some (frameOf 2 filled)
      ∧ (frameOf 2 filled).snapshot.filled = false ∧ ((framed 2 filled).port 2).slot = .empty
      ∧ (List.replicate 12 (0 : Byte)).length ≤ 12
      ∧ crc8 ([0x20#8, 9, 0] : List Byte) ≠ 0) := by decide

/-- The lengths of R147 and R149 at their limits: 2 bytes, 13 parameters, one byte short. -/
theorem met_FrameEndJudgesTheRequest_truncated :
    ([0x20#8, 9] : List Byte).length < 3 ∧ 12 < (byteAt [0x20#8, 9, 13] 2).toNat
      ∧ ([0x20#8, 9, 2, 1, 1] : List Byte).length < 4 + (byteAt [0x20#8, 9, 2, 1, 1] 2).toNat := by decide

theorem met_FrameEndDeliversTheReply :
    ((framed 1 filled).port 1).selectLow = true ∧ ((framed 1 filled).port 1).frame = some (frameOf 1 filled)
    ∧ (frameOf 1 filled).edges = 0 ∧ (frameOf 1 filled).received = [] ∧ (frameOf 1 filled).partByte = []
    ∧ (frameOf 1 filled).snapshot.filled = true
    ∧ 8 * (frameOf 1 filled).snapshot.bytes.length ≤ (bitsOf (requestBytes 0x20#8 9 key ++ []) ++ []).length
    ∧ ((framed 1 filled).holdUnit 1).level = false
    ∧ ((frozen 1 [] (framed 1 filled)).port 1).frame = some (frameOf 1 filled)
    ∧ ((frozen 1 [] (framed 1 filled)).holdUnit 1).level = true
    ∧ ((frozen 1 [] (framed 1 filled)).client 1).holdConsumes = false := by decide

/-- The four kinds of request that a frame which delivers can bring: well-formed, IDLE, with a wrong CRC, truncated. -/
theorem met_FrameEndDeliversTheReply_requests :
    8 * (frameOf 1 filled).snapshot.bytes.length ≤ (bitsOf (requestBytes 0x00#8 9 [] ++ [0, 0])).length
    ∧ 8 * (frameOf 1 filled).snapshot.bytes.length
        ≤ (bitsOf (([0x20#8, 9, BitVec.ofNat 8 2] ++ key) ++ (0 : Byte) :: []) ++ leftOver).length
    ∧ crc8 ([0x20#8, 9, BitVec.ofNat 8 2] ++ key) ≠ 0
    ∧ 8 * (frameOf 1 filled).snapshot.bytes.length ≤ (bitsOf [0x20#8, 9, 13, 0, 0, 0]).length
    ∧ 12 < (byteAt [0x20#8, 9, 13, 0, 0, 0] 2).toNat := by decide

theorem met_IdleDoesNothing :
    ((framed 1 filled).port 1).selectLow = true ∧ ((framed 1 filled).port 1).frame = some (frameOf 1 filled)
    ∧ (frameOf 1 filled).edges = 0 ∧ (frameOf 1 filled).received = [] ∧ (frameOf 1 filled).partByte = []
    ∧ (List.replicate 12 (0 : Byte)).length ≤ 12 ∧ (frameOf 1 filled).snapshot.filled = true
    ∧ 8 * (frameOf 1 filled).snapshot.bytes.length
        ≤ (bitsOf (requestBytes 0x00#8 9 (List.replicate 12 0) ++ []) ++ []).length
    ∧ (bitsOf (requestBytes 0x00#8 9 [] ++ []) ++ leftOver).length < 8 * (frameOf 1 filled).snapshot.bytes.length := by
  decide

theorem met_ReplyReadyFillsTheSlot :
    (((scene 1 (.answered .done []) (shareable [] []) []).port 1).inFlight = .answered .done []
      ∧ ((scene 1 (.answered .done []) (shareable [] []) []).port 1).slot = .pending 5
      ∧ ((scene 1 (.answered .done []) (shareable [] []) []).port 1).state = .busy)
    ∧ ∃ s t : State,
      ((s.port 1).inFlight = .answered .done [] ∧ (s.port 1).slot = .empty ∧ (s.port 1).state = .detached
        ∧ (s.port 1).resetSense = true)
      ∧ (t.port 1).inFlight = .answered .done [] ∧ (t.port 1).slot = .empty ∧ (t.port 1).state = .detached
        ∧ (t.port 1).resetSense = false ∧ (t.client 1).session ≠ .teardown
        ∧ ¬ ((t.port 1).senseOwed = true ∧ (t.client 1).session = .opened) := by
  refine ⟨by decide, detached 1 (scene 1 (.answered .done []) (shareable [] []) []),
    after (.resetSenseRelease 1) (after (.clientResetSense 1)
      (detached 1 (scene 1 (.answered .done []) (shareable [] []) []))), ?_⟩
  decide

theorem met_ResetSenseActsAtThePort :
    ((filled.port 1).resetSense = false ∧ (filled.port 1).state = .ready)
    ∧ ((State.reset.port 1).resetSense = false ∧ (State.reset.port 1).state = .starting)
    ∧ ((after (.resetSenseRelease 1) (detached 1 filled)).port 1).state = .detached
    ∧ ((after (.resetSenseRelease 1) (detached 1 filled)).port 1).resetSense = false
    ∧ ((detached 1 filled).port 1).resetSense = true
    ∧ (((after (.clientResetSense 1) (detached 1 filled)).port 1).resetSense = true
      ∧ ((after (.clientResetSense 1) (detached 1 filled)).port 1).state = .detached
      ∧ ((after (.clientResetSense 1) (detached 1 filled)).port 1).inFlight = .none
      ∧ ((after (.clientResetSense 1) (detached 1 filled)).client 1).session = .none
      ∧ ((after (.clientResetSense 1) (detached 1 filled)).port 1).senseOwed = false) := by decide

theorem met_SessionCheckComesFirst :
    ((withSession 1 .none (asks 1 .query key (shareable [] []) [])).InFlight 1 .query key
      ∧ ((withSession 1 .none (asks 1 .query key (shareable [] []) [])).client 1).session = .none)
    ∧ ((asks 1 .join [] (shareable [] []) []).InFlight 1 .join []
      ∧ ((asks 1 .join [] (shareable [] []) []).client 1).session = .opened)
    ∧ ((withSession 1 .teardown (asks 1 .join [] (shareable [] []) [])).InFlight 1 .join []
      ∧ ((withSession 1 .teardown (asks 1 .join [] (shareable [] []) [])).client 1).session = .teardown)
    ∧ (asks 1 .query key (shareable [] []) []).SessionPasses 1 .query := by
  unfold State.InFlight State.SessionPasses
  decide

theorem met_RoleLengthAndRangesInOrder :
    ∃ s t u v : State,
      (s.InFlight 1 .define [] ∧ s.SessionPasses 1 .define ∧ Request.define.ForSupervisor ∧ (1 : ClientId) ≠ 0)
      ∧ (t.InFlight 0 .define [] ∧ t.SessionPasses 0 .define ∧ ¬ Request.define.LengthFits ([] : List Byte).length)
      ∧ (u.InFlight 0 .define (terms 0 2 7) ∧ u.SessionPasses 0 .define
        ∧ Request.define.LengthFits (terms 0 2 7).length ∧ ¬ Request.define.RangesHold (terms 0 2 7))
      ∧ v.Passes 0 .define (terms 2 2 6) := by
  refine ⟨asks 1 .define [] (shareable [] []) [], asks 0 .define [] (shareable [] []) [],
    asks 0 .define (terms 0 2 7) (shareable [] []) [], asks 0 .define (terms 2 2 6) (shareable [] []) [],
    ⟨?_, ?_, .inl rfl, by decide⟩, ⟨?_, ?_, by simp [Request.LengthFits]⟩,
    ⟨?_, ?_, by simp [Request.LengthFits, terms], ?_⟩, passes_of (by decide)⟩
  case refine_7 => rw [← Request.inRange_iff]; decide
  all_goals first | (unfold State.InFlight; decide) | (unfold State.SessionPasses; decide)

/-- The ranges of R166 at their bounds: just within, and just outside. -/
theorem met_RoleLengthAndRangesInOrder_bounds :
    Request.setClient.RangesHold [5, 24, 3, 63, 2, 0x58, 1] ∧ ¬ Request.setClient.RangesHold [5, 24, 3, 64, 2, 0x58, 1]
    ∧ ¬ Request.setClient.RangesHold [5, 24, 3, 63, 2, 0x59, 1] ∧ ¬ Request.setClient.RangesHold [6, 24, 3, 63, 2, 0x58, 1]
    ∧ Request.acquire.RangesHold (wants 2 3 0 0) ∧ ¬ Request.acquire.RangesHold (wants 3 3 0 0)
    ∧ ¬ Request.acquire.RangesHold (wants 1 4 0 0) ∧ Request.inspectClient.RangesHold [5, 24]
    ∧ ¬ Request.inspectClient.RangesHold [5, 25] := by
  simp only [← Request.inRange_iff]
  decide

theorem met_KeyLookupThenLifecycle :
    (∃ s : State, s.Passes 1 .query [1, 2] ∧ Request.query.namesRecord = true
      ∧ ∀ i r, s.record i = some r → r.key ≠ wordAt [1, 2] 0)
    ∧ ∃ (s : State) (r : Resource), s.Passes 1 .acquire (wants 1 0 0 0) ∧ s.DirectoryLegal ∧ s.record 3 = some r
      ∧ r.key = wordAt (wants 1 0 0 0) 0 ∧ r.lifecycle = .retiring := by
  refine ⟨⟨asks 1 .query [1, 2] (shareable [] []) [], passes_of (by decide), rfl, fun i r h => ?_⟩,
    ⟨asks 1 .acquire (wants 1 0 0 0) { shareable [held 2 .shared 9] [] with lifecycle := .retiring } [], _,
      passes_of (by decide),
      (scene_record _ _ _ _).directoryLegal (shareable_terms [held 2 .shared 9] []), rfl, by decide, rfl⟩⟩
  obtain ⟨rfl, rfl⟩ := scene_record _ _ _ _ i r h
  decide

theorem met_UnknownCodesAndWrongLengths :
    (((scene 1 (.taken 0x37#8 []) (shareable [] []) []).port 1).inFlight = .taken 0x37#8 [] ∧ (0x37#8 : Byte) ≠ 0x00#8
      ∧ (∀ q ∈ Request.all, (0x37#8 : Byte) ≠ q.code)
      ∧ ((withSession 1 .none (asks 1 .join [0] (shareable [] []) [])).client 1).session = .none)
    ∧ ¬ Request.join.LengthFits ([0] : List Byte).length
    ∧ (∃ s : State, s.InFlight 0 .inspectClient [9] ∧ s.SessionPasses 0 .inspectClient)
    ∧ ∃ s : State, s.InFlight 0 .inspectClient [9, 99] ∧ s.SessionPasses 0 .inspectClient := by
  refine ⟨by decide, by simp [Request.LengthFits], ⟨asks 0 .inspectClient [9] (shareable [] []) [], ?_⟩,
    ⟨asks 0 .inspectClient [9, 99] (shareable [] []) [], ?_⟩⟩ <;>
  · unfold State.InFlight State.SessionPasses
    decide

theorem met_JoinOpensTheSession :
    ∃ s t : State, (s.Passes 1 .join [] ∧ s.DeadlinesLawful ∧ s.HoldWithinAllowance
        ∧ (s.holdUnit 1).level = true ∧ 0 < (s.client 1).holdAllowance)
      ∧ t.Passes 1 .join [] ∧ t.DeadlinesLawful ∧ t.HoldWithinAllowance ∧ (t.client 1).holdAllowance = 0 := by
  refine ⟨after (.holdAssertion 1) (allowed 1 (withSession 1 .none (asks 1 .join [] (shareable [] []) []))),
    withSession 1 .none (asks 1 .join [] (shareable [] []) []),
    ⟨passes_of (by decide), lawful_of (by decide), by unfold State.HoldWithinAllowance; decide, by decide, by decide⟩,
    passes_of (by decide), lawful_of (by decide), by unfold State.HoldWithinAllowance; decide, by decide⟩

theorem met_LeaveBeginsTheTeardown :
    ∃ s t : State, (s.Passes 1 .leave [] ∧ s.DeadlinesLawful ∧ s.WaitsLegal ∧ s.claimCount 1 = 0
        ∧ (s.port 1).slot = .pending 5 ∧ (s.port 1).state = .busy)
      ∧ t.Passes 1 .leave [] ∧ t.DeadlinesLawful ∧ t.WaitsLegal ∧ t.claimCount 1 ≠ 0 :=
  ⟨asks 1 .leave [] (shareable [] []) [], asks 1 .leave [] (shareable [held 1 .shared 9] []) [],
    ⟨passes_of (by decide), lawful_of (by decide), waitsLegal_of (by decide), by decide, by decide, by decide⟩,
    passes_of (by decide), lawful_of (by decide), waitsLegal_of (by decide), by decide⟩

/-- A LEAVE whose slot a reset-sense assertion has emptied: its DONE is discarded, and the port is READY once the input is
released and the assertion taken. -/
theorem met_LeaveBeginsTheTeardown_detached :
    ∃ s : State, s.Passes 1 .leave [] ∧ s.DeadlinesLawful ∧ s.WaitsLegal ∧ s.claimCount 1 = 0
      ∧ (s.port 1).slot = .empty ∧ (s.port 1).state = .detached ∧ (s.port 1).resetSense = false :=
  ⟨after (.resetSenseRelease 1) (detached 1 (asks 1 .leave [] (shareable [] []) [])),
    passes_of (by decide), lawful_of (by decide), waitsLegal_of (by decide), by decide, by decide, by decide, by decide⟩

theorem met_EvictBeginsTheTeardown_detached :
    ∃ s : State, s.Passes 0 .evict [5] ∧ (s.client 5).session = .opened ∧ s.DeadlinesLawful ∧ s.WaitsLegal
      ∧ s.claimCount 5 = 0 ∧ (s.port 0).slot = .empty ∧ (s.port 5).state = .detached :=
  ⟨detached 5 (detached 0 (asks 0 .evict [5] (shareable [] []) [])), passes_of (by decide), by decide,
    lawful_of (by decide), waitsLegal_of (by decide), by decide, by decide, by decide⟩

theorem met_EvictBeginsTheTeardown :
    ∃ s t u : State, (s.Passes 0 .evict [0] ∧ (byteAt [0] 0).toNat = (0 : ClientId).val)
      ∧ (t.Passes 0 .evict [5] ∧ (byteAt [5] 0).toNat = (5 : ClientId).val ∧ (t.client 5).session ≠ .opened)
      ∧ u.Passes 0 .evict [5] ∧ (u.client 5).session = .opened ∧ u.DeadlinesLawful ∧ u.WaitsLegal
      ∧ u.claimCount 5 ≠ 0 :=
  ⟨asks 0 .evict [0] (shareable [] []) [], withSession 5 .teardown (asks 0 .evict [5] (shareable [] []) []),
    asks 0 .evict [5] (shareable [held 5 .shared 9] []) [], ⟨passes_of (by decide), by decide⟩,
    ⟨passes_of (by decide), by decide, by decide⟩, passes_of (by decide), by decide, lawful_of (by decide),
    waitsLegal_of (by decide), by decide⟩

theorem met_ResetSenseEndsTheSession :
    ∃ s t : State, ((s.port 1).senseOwed = true ∧ (s.port 1).inFlight = .none ∧ (s.client 1).session = .opened
        ∧ s.DeadlinesLawful ∧ s.WaitsLegal)
      ∧ (t.port 1).senseOwed = true ∧ (t.port 1).inFlight = .waiting 1 ∧ (t.client 1).session = .teardown :=
  ⟨detached 1 filled, detached 1 (after (.leave 1) (asks 1 .leave [] (shareable [held 1 .shared 9] []) [])),
    ⟨by decide, by decide, by decide, lawful_of (by decide), waitsLegal_of (by decide)⟩,
    by decide, by decide, by decide⟩

theorem met_SweepVisitEndsTheNextClaim :
    ∃ s t u : State, ((s.client 2).session = .teardown ∧ s.OneClaimEach
        ∧ s.record 3 = some (shareable [held 2 .shared 9] []) ∧ (s.client 2).sweepFrom ≤ (3 : SlotId).val
        ∧ (∀ j r', s.record j = some r' → (s.client 2).sweepFrom ≤ j.val → j.val < (3 : SlotId).val → r'.claimsOf 2 = 0)
        ∧ (shareable [held 2 .shared 9] []).holdingOf 2 = some (held 2 .shared 9))
      ∧ (t.OneClaimEach ∧ t.record 3 = some (shareable [] [waits 2 .shared 1])
        ∧ ((shareable [] [waits 2 .shared 1]).waiterOf 2).isSome = true)
      ∧ ∀ i r, u.record i = some r → (u.client 2).sweepFrom ≤ i.val → r.claimsOf 2 = 0 :=
  ⟨tearing 2 (quiet [held 2 .shared 9] [] []), tearing 2 (quiet [] [waits 2 .shared 1] []), tearing 2 (quiet [] [] []),
    ⟨by decide, (scene_record 0 .none _ []).oneClaimEach (by decide), rfl, by decide,
      fun j r' h _ hj => absurd hj (by obtain ⟨rfl, rfl⟩ := scene_record 0 .none _ [] j r' h; decide), by decide⟩,
    ⟨(scene_record 0 .none _ []).oneClaimEach (by decide), rfl, by decide⟩,
    fun i r h _ => by obtain ⟨rfl, rfl⟩ := scene_record 0 .none _ [] i r h; decide⟩

theorem met_TeardownCompletes :
    (((tearing 2 (quiet [] [] [])).client 2).session = .teardown ∧ (tearing 2 (quiet [] [] [])).claimCount 2 = 0)
    ∧ (tearing 2 (quiet [held 2 .shared 9] [] [])).claimCount 2 ≠ 0
    ∧ ((tearing 2 (scene 2 (.waiting 2) (shareable [] []) [])).port 2).inFlight = .waiting 2
    ∧ ((detached 2 (tearing 2 (scene 2 (.waiting 2) (shareable [] []) []))).port 2).slot = .empty
    ∧ ((detached 2 (tearing 2 (scene 2 (.waiting 2) (shareable [] []) []))).port 2).inFlight = .waiting 2
    ∧ ((detached 0 (tearing 2 (scene 0 (.waiting 2) (shareable [] []) []))).port 0).inFlight = .waiting 2
    ∧ ((tearing 2 (detached 2 (quiet [] [] []))).port 2).state = .detached
    ∧ ((tearing 2 (detached 2 (quiet [] [] []))).port 2).inFlight = .none := by decide

theorem met_SetClientReplacesTheSettings :
    ∃ s t : State, (s.Passes 0 .setClient [2, 1, 3, 0, 0, 0, 0] ∧ (byteAt [2, 1, 3, 0, 0, 0, 0] 0).toNat = (2 : ClientId).val
        ∧ (byteAt [2, 1, 3, 0, 0, 0, 0] 1).toNat < s.claimCount 2)
      ∧ t.Passes 0 .setClient [2, 24, 3, 63, 2, 0x58, 1] ∧ t.claimCount 2 ≤ 24 ∧ t.DeadlinesLawful
      ∧ (t.client 2).session = .opened ∧ (t.holdUnit 2).level = true :=
  ⟨asks 0 .setClient [2, 1, 3, 0, 0, 0, 0] (shareable [held 2 .shared 9] [waits 2 .shared 0]) [],
    frozen 2 [] (asks 0 .setClient [2, 24, 3, 63, 2, 0x58, 1] (shareable [] []) []),
    ⟨passes_of (by decide), by decide, by decide⟩, passes_of (by decide), by decide, lawful_of (by decide),
    by decide, by decide⟩

theorem met_InspectClientReads :
    (∃ s : State, s.Passes 0 .inspectClient [2, 0] ∧ s.HoldWithinAllowance ∧ s.SettingsLegal ∧ s.WithinQuota ∧ s.NoticesLegal)
    ∧ (∃ (s : State) (r : Resource), s.Passes 0 .inspectClient [2, 1] ∧ s.record 3 = some r
        ∧ (allSlots.countP fun j => decide (j ≤ (3 : SlotId)) && (s.record j).any fun r' => decide (r'.claimsOf 2 ≠ 0)) = 1
        ∧ r.claimsOf 2 ≠ 0 ∧ r.holdingOf 2 = some (held 2 .shared 9))
    ∧ ∃ s : State, s.Passes 0 .inspectClient [2, 24]
        ∧ (allSlots.countP fun j => (s.record j).any fun r' => decide (r'.claimsOf 2 ≠ 0)) < 24 :=
  ⟨⟨asks 0 .inspectClient [2, 0] (shareable [] []) [], passes_of (by decide), by unfold State.HoldWithinAllowance; decide,
      by unfold State.SettingsLegal; decide, by unfold State.WithinQuota; decide,
      by unfold State.NoticesLegal NoticeSet.Legal; decide⟩,
    ⟨asks 0 .inspectClient [2, 1] (shareable [held 2 .shared 9] []) [], _, passes_of (by decide), rfl, by decide,
      by decide, by decide⟩,
    ⟨asks 0 .inspectClient [2, 24] (shareable [] []) [], passes_of (by decide), by decide⟩⟩

theorem met_AcquireRefusals_own_checks :
    ∃ s t u v : State,
      (∃ r, s.Reaches 1 .acquire (wants 2 0 0 0) 3 r ∧ modeAsked (wants 2 0 0 0) = .shared ∧ r.cls = .exclusiveOnly)
      ∧ (∃ r, t.Reaches 1 .acquire (wants 2 0 0 0) 3 r ∧ r.cls ≠ .exclusiveOnly ∧ r.claimsOf 1 ≠ 0)
      ∧ (∃ r, u.Reaches 1 .acquire (wants 2 0 0 0) 3 r ∧ r.cls ≠ .exclusiveOnly ∧ r.claimsOf 1 = 0
          ∧ u.grant = 0xFFFFFFFF#32)
      ∧ ∃ r, v.Reaches 1 .acquire (wants 2 0 0 0) 3 r ∧ r.cls ≠ .exclusiveOnly ∧ r.claimsOf 1 = 0
          ∧ v.grant ≠ 0xFFFFFFFF#32 ∧ (v.client 1).quota ≤ v.claimCount 1 :=
  ⟨asks 1 .acquire (wants 2 0 0 0) (exclusiveOnly [] []) [],
    asks 1 .acquire (wants 2 0 0 0) (shareable [] [waits 1 .shared 0]) [],
    (asks 1 .acquire (wants 2 0 0 0) (shareable [] []) []).setGrant 0xFFFFFFFF#32,
    (asks 1 .acquire (wants 2 0 0 0) (shareable [] []) []).setClient 1
      { (asks 1 .acquire (wants 2 0 0 0) (shareable [] []) []).client 1 with quota := 0 },
    ⟨_, (scene_record _ _ _ _).reaches (exclusiveOnly_terms [] []) (by decide), by decide, rfl⟩,
    ⟨_, (scene_record _ _ _ _).reaches (shareable_terms [] [waits 1 .shared 0]) (by decide), by decide, by decide⟩,
    ⟨shareable [] [], OnlyRecord.reaches (scene_record 0 .none _ []) (shareable_terms [] []) (by decide), by decide,
      by decide, by decide⟩,
    ⟨shareable [] [], OnlyRecord.reaches (scene_record 0 .none _ []) (shareable_terms [] []) (by decide), by decide,
      by decide, by decide, by decide⟩⟩

/-- The checks of ACQUIRE and the tests of R50, over data that can be decided. -/
theorem met_AcquireRefusals_unavailable :
    ∃ s t u : State,
      (∃ r, s.Reaches 1 .acquire (wants 1 3 0 0) 3 r ∧ s.AcquirePasses 1 r .exclusive ∧ wordAt (wants 1 3 0 0) 4 = 0
        ∧ ¬ s.NoneAhead r (s.priorityUsed 1 (wants 1 3 0 0)))
      ∧ (∃ r, t.Reaches 1 .acquire (wants 1 3 0 0) 3 r ∧ t.AcquirePasses 1 r .exclusive
        ∧ t.NoneAhead r (t.priorityUsed 1 (wants 1 3 0 0))
        ∧ ¬ r.Admits .exclusive)
      ∧ ∃ r, u.Reaches 1 .acquire (wants 1 3 0 0) 3 r ∧ u.AcquirePasses 1 r .exclusive
        ∧ u.NoneAhead r (u.priorityUsed 1 (wants 1 3 0 0))
        ∧ r.Admits .exclusive ∧ ¬ u.HasSpace :=
  ⟨asks 1 .acquire (wants 1 3 0 0) (shareable [] [waits 2 .shared 2]) [],
    asks 1 .acquire (wants 1 3 0 0) (shareable [held 2 .shared 9] [waits 3 .shared 1]) [],
    (asks 1 .acquire (wants 1 3 0 0) (shareable [] []) []).setBacklog [7],
    ⟨shareable [] [waits 2 .shared 2], (scene_record _ _ _ _).reaches (shareable_terms [] [waits 2 .shared 2]) (by decide),
      by unfold State.AcquirePasses; decide, by decide, by unfold State.NoneAhead; decide⟩,
    ⟨shareable [held 2 .shared 9] [waits 3 .shared 1],
      (scene_record _ _ _ _).reaches (shareable_terms [held 2 .shared 9] [waits 3 .shared 1]) (by decide),
      by unfold State.AcquirePasses; decide, by unfold State.NoneAhead; decide,
      by show ¬ ([held 2 .shared 9] = []); decide⟩,
    ⟨shareable [] [], OnlyRecord.reaches (scene_record 0 .none _ []) (shareable_terms [] []) (by decide),
      by unfold State.AcquirePasses; decide, by unfold State.NoneAhead; decide, rfl, fun h => nomatch h.2⟩⟩

/-- A state without a free waiter entry: one queue of 48. -/
theorem met_AcquireRefusals_no_wait_space :
    ∃ (s : State) (r : Resource), s.Reaches 1 .acquire (wants 1 3 0 1) 3 r ∧ s.AcquirePasses 1 r .exclusive
      ∧ wordAt (wants 1 3 0 1) 4 ≠ 0 ∧ ¬ (r.Admits .exclusive)
      ∧ 48 ≤ s.total (fun r' => r'.queue.length) :=
  ⟨asks 1 .acquire (wants 1 3 0 1) (shareable [held 2 .shared 9] (List.replicate 48 (waits 3 .shared 1))) [],
    shareable [held 2 .shared 9] (List.replicate 48 (waits 3 .shared 1)),
    (scene_record _ _ _ _).reaches (shareable_terms _ _) (by decide), by unfold State.AcquirePasses; decide,
    by decide, fun h : [held 2 .shared 9] = [] => absurd h (by decide), by decide⟩

theorem met_AcquireGrantsAtOnce :
    ∃ (s : State) (r : Resource), s.Reaches 1 .acquire (wants 2 3 0 0) 3 r ∧ s.AcquirePasses 1 r .shared
      ∧ s.NoneAhead r (s.priorityUsed 1 (wants 2 3 0 0))
      ∧ r.Admits .shared ∧ s.HasSpace :=
  ⟨asks 1 .acquire (wants 2 3 0 0) (shareable [held 2 .shared 8, held 3 .shared 9] [waits 4 .exclusive 1]) [],
    shareable [held 2 .shared 8, held 3 .shared 9] [waits 4 .exclusive 1],
    (scene_record _ _ _ _).reaches (shareable_terms _ _) (by decide), by unfold State.AcquirePasses; decide,
    by unfold State.NoneAhead; decide,
    show (∀ h ∈ [held 2 .shared 8, held 3 .shared 9], h.tenure = .shared) ∧ 2 < 3 by decide,
    by unfold State.HasSpace; decide⟩

/-- As above for a FROZEN caller, whose lease is stored. -/
theorem met_AcquireGrantsAtOnce_frozen :
    ∃ (s : State) (r : Resource), s.Reaches 1 .acquire (wants 2 3 0 0) 3 r ∧ s.AcquirePasses 1 r .shared
      ∧ s.NoneAhead r (s.priorityUsed 1 (wants 2 3 0 0)) ∧ r.Admits .shared ∧ s.HasSpace ∧ s.isFrozen 1 = true :=
  ⟨frozen 1 [] (asks 1 .acquire (wants 2 3 0 0) (shareable [] []) []), shareable [] [],
    OnlyRecord.reaches (scene_record 0 .none _ []) (shareable_terms _ _) (by decide),
    by unfold State.AcquirePasses; decide, by unfold State.NoneAhead; decide,
    show (∀ h ∈ ([] : List Holding), h.tenure = .shared) ∧ 0 < 3 by decide, by unfold State.HasSpace; decide, by decide⟩

theorem met_AcquireQueues :
    ∃ (s : State) (r : Resource) (u : State),
      (s.Reaches 1 .acquire (wants 2 3 0 1) 3 r ∧ s.AcquirePasses 1 r .shared ∧ ¬ r.Admits .shared
        ∧ wordAt (wants 2 3 0 1) 4 ≠ 0 ∧ s.total (fun r' => r'.queue.length) < 48 ∧ s.BacklogLaw)
      ∧ u.Reaches 1 .acquire (wants 2 3 0xFF 0xFF) 3 (shareable [] []) ∧ (shareable [] []).Admits .shared
      ∧ u.AcquirePasses 1 (shareable [] []) .shared
      ∧ wordAt (wants 2 3 0xFF 0xFF) 4 = 65535#16 ∧ ¬ u.HasSpace ∧ u.total (fun r' => r'.queue.length) < 48
      ∧ u.BacklogLaw ∧ u.backlog = [20] ∧ u.freeHoldings = 0 :=
  ⟨asks 1 .acquire (wants 2 3 0 1) (shareable [held 2 .exclusive 9] [waits 4 .exclusive 3]) [],
    shareable [held 2 .exclusive 9] [waits 4 .exclusive 3],
    crowded (shareable [] []) [0, 1, 2, 3, 4, 5] (asks 1 .acquire (wants 2 3 0xFF 0xFF) (shareable [] []) []),
    ⟨(scene_record _ _ _ _).reaches (shareable_terms _ _) (by decide), by unfold State.AcquirePasses; decide,
      fun h : (∀ g ∈ [held 2 .exclusive 9], g.tenure = .shared) ∧ 1 < 3 => absurd h (by decide), by decide, by decide,
      by unfold State.BacklogLaw; decide⟩,
    ⟨passes_of (by decide), crowded_directoryLegal _ _ _ (shareable_terms _ _) (by decide), by decide,
      by decide, fun _ => rfl⟩,
    show (∀ h ∈ ([] : List Holding), h.tenure = .shared) ∧ 0 < 3 by decide, by unfold State.AcquirePasses; decide,
    by decide, fun h => List.cons_ne_nil _ _ h.2, by decide, by unfold State.BacklogLaw; decide, by decide, by decide⟩

theorem met_StandingChecks :
    ∃ s t u : State,
      (s.Reaches 1 .accept keyGen 3 (shareable [] []) ∧ (shareable [] []).holdingOf 1 = none)
      ∧ (t.Reaches 1 .decline keyGen 3 (shareable [held 1 .shared 8] [])
        ∧ (shareable [held 1 .shared 8] []).holdingOf 1 = some (held 1 .shared 8)
        ∧ (held 1 .shared 8).gen ≠ longAt keyGen 2)
      ∧ u.Reaches 1 .renew keyGen 3 (shareable [offered 1 .shared 8] [])
        ∧ (shareable [offered 1 .shared 8] []).holdingOf 1 = some (offered 1 .shared 8)
        ∧ (offered 1 .shared 8).gen ≠ longAt keyGen 2 :=
  ⟨asks 1 .accept keyGen (shareable [] []) [], asks 1 .decline keyGen (shareable [held 1 .shared 8] []) [],
    asks 1 .renew keyGen (shareable [offered 1 .shared 8] []) [],
    ⟨(scene_record _ _ _ _).reaches (shareable_terms _ _) (by decide), by decide⟩,
    ⟨(scene_record _ _ _ _).reaches (shareable_terms _ _) (by decide), by decide, by decide⟩,
    (scene_record _ _ _ _).reaches (shareable_terms _ _) (by decide), by decide, by decide⟩

theorem met_AcceptTakesTheOffer :
    ∃ s r, State.Reaches s 1 .accept keyGen 3 r ∧ s.OneClaimEach ∧ r.holdingOf 1 = some (offered 1 .shared 9)
      ∧ (offered 1 .shared 9).gen = longAt keyGen 2 :=
  ⟨asks 1 .accept keyGen (shareable [offered 1 .shared 9] []) [], _,
    (scene_record _ _ _ _).reaches (shareable_terms _ _) (by decide), (scene_record _ _ _ _).oneClaimEach (by decide),
    by decide, by decide⟩

theorem met_DeclineAndReleaseEndTheHolding :
    ∃ s t r r', (State.OneClaimEach s ∧ r.holdingOf 1 = some (offered 1 .shared 9) ∧ s.Reaches 1 .decline keyGen 3 r)
      ∧ State.OneClaimEach t ∧ r'.holdingOf 1 = some (held 1 .shared 9) ∧ t.Reaches 1 .release keyGen 3 r' :=
  ⟨asks 1 .decline keyGen (shareable [offered 1 .shared 9] []) [],
    asks 1 .release keyGen (shareable [held 1 .shared 9] []) [], _, _,
    ⟨(scene_record _ _ _ _).oneClaimEach (by decide), by decide,
      (scene_record _ _ _ _).reaches (shareable_terms [offered 1 .shared 9] []) (by decide)⟩,
    (scene_record _ _ _ _).oneClaimEach (by decide), by decide,
    (scene_record _ _ _ _).reaches (shareable_terms [held 1 .shared 9] []) (by decide)⟩

theorem met_CancelLeavesTheQueue :
    ∃ s t r r', (State.Reaches s 1 .cancel key 3 r ∧ r.waiterOf 1 = none)
      ∧ State.Reaches t 1 .cancel key 3 r' ∧ t.OneClaimEach ∧ r'.waiterOf 1 = some (waits 1 .shared 0) :=
  ⟨asks 1 .cancel key (shareable [] []) [], asks 1 .cancel key (shareable [] [waits 1 .shared 0]) [], _, _,
    ⟨(scene_record _ _ _ _).reaches (shareable_terms [] []) (by decide), by decide⟩,
    (scene_record _ _ _ _).reaches (shareable_terms [] [waits 1 .shared 0]) (by decide),
    (scene_record _ _ _ _).oneClaimEach (by decide), by decide⟩

theorem met_RenewArmsANewLease :
    ∃ s r, State.Reaches s 1 .renew keyGen 3 r ∧ s.OneClaimEach ∧ r.holdingOf 1 = some (held 1 .shared 9)
      ∧ (held 1 .shared 9).gen = longAt keyGen 2 :=
  ⟨asks 1 .renew keyGen (shareable [held 1 .shared 9] []) [], _,
    (scene_record _ _ _ _).reaches (shareable_terms _ _) (by decide), (scene_record _ _ _ _).oneClaimEach (by decide),
    by decide, by decide⟩

theorem met_DowngradeSharesTheHolding :
    ∃ s t u r r' r'', (State.Reaches s 1 .downgrade keyGen 3 r ∧ r.holdingOf 1 = some (held 1 .exclusive 9)
        ∧ r.cls = .exclusiveOnly)
      ∧ (State.Reaches t 1 .downgrade keyGen 3 r' ∧ r'.holdingOf 1 = some (held 1 .shared 9) ∧ r'.cls ≠ .exclusiveOnly)
      ∧ State.Reaches u 1 .downgrade keyGen 3 r'' ∧ r''.holdingOf 1 = some (held 1 .exclusive 9)
        ∧ r''.cls ≠ .exclusiveOnly ∧ u.OneClaimEach :=
  ⟨asks 1 .downgrade keyGen (exclusiveOnly [held 1 .exclusive 9] []) [],
    asks 1 .downgrade keyGen (shareable [held 1 .shared 9] []) [],
    asks 1 .downgrade keyGen (shareable [held 1 .exclusive 9] []) [], _, _, _,
    ⟨(scene_record _ _ _ _).reaches (exclusiveOnly_terms [held 1 .exclusive 9] []) (by decide), by decide, rfl⟩,
    ⟨(scene_record _ _ _ _).reaches (shareable_terms [held 1 .shared 9] []) (by decide), by decide, by decide⟩,
    (scene_record _ _ _ _).reaches (shareable_terms [held 1 .exclusive 9] []) (by decide), by decide, by decide,
    (scene_record _ _ _ _).oneClaimEach (by decide)⟩

theorem met_MarkSoundClearsTheDoubt :
    ∃ s t r r', (State.Reaches s 1 .markSound keyGen 3 r ∧ r.holdingOf 1 = some (held 1 .shared 9))
      ∧ State.Reaches t 1 .markSound keyGen 3 r' ∧ r'.holdingOf 1 = some (held 1 .exclusive 9)
      ∧ (held 1 .exclusive 9).gen = longAt keyGen 2 :=
  ⟨asks 1 .markSound keyGen (shareable [held 1 .shared 9] []) [],
    asks 1 .markSound keyGen (shareable [held 1 .exclusive 9] []) [], _, _,
    ⟨(scene_record _ _ _ _).reaches (shareable_terms [held 1 .shared 9] []) (by decide), by decide⟩,
    (scene_record _ _ _ _).reaches (shareable_terms [held 1 .exclusive 9] []) (by decide), by decide, by decide⟩

theorem met_RevokeEndsTheNamedHolding :
    ∃ s t r r', (State.Reaches s 0 .revoke [1, 1, 5] 3 r ∧ ∀ h, r.holdingOf 5 = some h → h.state = .offered)
      ∧ State.Reaches t 0 .revoke [1, 1, 5] 3 r' ∧ r'.holdingOf 5 = some (held 5 .shared 9) ∧ t.OneClaimEach :=
  ⟨asks 0 .revoke [1, 1, 5] (shareable [] []) [], asks 0 .revoke [1, 1, 5] (shareable [held 5 .shared 9] []) [], _, _,
    ⟨(scene_record _ _ _ _).reaches (shareable_terms [] []) (by decide), fun _ h => nomatch h⟩,
    (scene_record _ _ _ _).reaches (shareable_terms [held 5 .shared 9] []) (by decide), by decide,
    (scene_record _ _ _ _).oneClaimEach (by decide)⟩

theorem met_IntegrityAtTheEndOfAHolding :
    (quiet [held 2 .exclusive 9] [] []).record 3 = some (shareable [held 2 .exclusive 9] [])
      ∧ (shareable [held 2 .exclusive 9] []).holdingOf 2 = some (held 2 .exclusive 9)
      ∧ ((quiet [held 2 .exclusive 9] [] []).endHolding 3 2 .expired).record 3
          = some { shareable [] [] with integrity := .suspect }
      ∧ ((quiet [held 2 .exclusive 9] [] []).endHolding 3 2 .left).record 3 = some (shareable [] []) := by decide

/-- A directory without a free slot. -/
def full : State :=
  { asks 0 .define (terms 2 1 0) (shareable [] []) [] with slots := Vector.replicate 64 (some (shareable [] [])) }

theorem met_DefineFillsTheLowestFreeSlot :
    (∃ s : State, s.Passes 0 .define (terms 1 2 6) ∧ ∃ i r, s.record i = some r ∧ r.key = wordAt (terms 1 2 6) 0)
    ∧ (∃ s : State, s.Passes 0 .define (terms 2 1 0) ∧ (∀ i r, s.record i = some r → r.key ≠ wordAt (terms 2 1 0) 0)
        ∧ ∀ i, (s.record i).isSome = true)
    ∧ ∃ s : State, s.Passes 0 .define (terms 2 2 6) ∧ (∀ i r, s.record i = some r → r.key ≠ wordAt (terms 2 2 6) 0)
        ∧ s.record 0 = none := by
  refine ⟨⟨asks 0 .define (terms 1 2 6) (shareable [] []) [], passes_of (by decide), 3, shareable [] [], by decide,
      by decide⟩, ⟨full, passes_of (by decide), fun i r h => ?_, by decide⟩,
    ⟨asks 0 .define (terms 2 2 6) (shareable [] []) [], passes_of (by decide), fun i r h => ?_, by decide⟩⟩
  · have hr : full.record i = some (shareable [] []) := by simp [State.record, full]
    rw [← Option.some.inj (hr.symm.trans h)]
    decide
  · obtain ⟨rfl, rfl⟩ := scene_record _ _ _ _ i r h
    decide

theorem met_AmendReplacesTheTerms :
    ∃ s t : State, s.Reaches 0 .amend (terms 1 2 2) 3 (shareable [held 1 .shared 7, held 2 .shared 8, held 3 .shared 9] [])
      ∧ t.Reaches 0 .amend (terms 1 2 3) 3 (shareable [held 1 .shared 7, held 2 .shared 8, held 3 .shared 9] [])
      ∧ ∃ u : State, u.Reaches 0 .amend (terms 1 2 4) 3 (shareable [held 1 .exclusive 9] [waits 2 .shared 0]) :=
  ⟨asks 0 .amend (terms 1 2 2) _ [], asks 0 .amend (terms 1 2 3) _ [],
    (scene_record _ _ _ _).reaches (shareable_terms _ _) (by decide),
    (scene_record _ _ _ _).reaches (shareable_terms _ _) (by decide),
    asks 0 .amend (terms 1 2 4) _ [], (scene_record _ _ _ _).reaches (shareable_terms _ _) (by decide)⟩

theorem met_RetireWithdrawsThenRemoves :
    ∃ s t r r', (State.Reaches s 0 .retire key 3 r ∧ s.OneClaimEach ∧ r.heldOnes = [])
      ∧ State.Reaches t 0 .retire key 3 r' ∧ t.OneClaimEach ∧ r'.heldOnes ≠ [] :=
  ⟨asks 0 .retire key (shareable [offered 1 .shared 9] [waits 2 .exclusive 0]) [],
    asks 0 .retire key (shareable [held 1 .shared 9] []) [], _, _,
    ⟨(scene_record _ _ _ _).reaches (shareable_terms [offered 1 .shared 9] [waits 2 .exclusive 0]) (by decide),
      (scene_record _ _ _ _).oneClaimEach (by decide), by decide⟩,
    (scene_record _ _ _ _).reaches (shareable_terms [held 1 .shared 9] []) (by decide),
    (scene_record _ _ _ _).oneClaimEach (by decide), by decide⟩

theorem shareable_tenure : (shareable [held 1 .shared 8, offered 2 .shared 9] [waits 3 .exclusive 2]).TenureLaw :=
  ⟨by decide, show 2 ≤ 3 ∧ 2 ≤ 3 by decide⟩

theorem met_QueryReadsTheRecord :
    ∃ s r, State.Reaches s 3 .query key 3 r ∧ s.TenureLaw ∧ s.WithinPools ∧ r.queue = [] ++ waits 3 .exclusive 2 :: []
      ∧ (∃ h ∈ r.holders, h.state = .held ∧ h.tenure = .shared) ∧ r.holdingOf 1 = some (held 1 .shared 8) :=
  ⟨asks 3 .query key (shareable [held 1 .shared 8, offered 2 .shared 9] [waits 3 .exclusive 2]) [], _,
    (scene_record _ _ _ _).reaches (shareable_terms _ _) (by decide), (scene_record _ _ _ _).tenureLaw shareable_tenure,
    by unfold State.WithinPools; decide, rfl, by decide, by decide⟩

theorem met_TakeNoticePresentsTheBest :
    ∃ s t : State, (s.Passes 1 .takeNotice [] ∧ (s.noticeSet 1).records = [])
      ∧ t.Passes 1 .takeNotice [] ∧ t.NoticesLegal
      ∧ (t.noticeSet 1).records = [notice 2 .waitLapsed none] ++ notice 1 .withdrawn none :: [notice 3 .withdrawn none] :=
  ⟨asks 1 .takeNotice [] (shareable [] []) [],
    (asks 1 .takeNotice [] (shareable [] []) []).setNoticeSet 1
      { records := [notice 2 .waitLapsed none, notice 1 .withdrawn none, notice 3 .withdrawn none], lost := true,
        lostShown := true },
    ⟨passes_of (by decide), by decide⟩, passes_of (by decide), by unfold State.NoticesLegal NoticeSet.Legal; decide,
    by decide⟩

theorem met_LeaseWarnRaisesExpiring :
    ∃ s r, State.IsDue s (.holding 3 1) (.leaseWarn 100) ∧ s.record 3 = some r
      ∧ r.holdingOf 1 = some (held 1 .shared 9) ∧ s.OneClaimEach :=
  ⟨quiet [held 1 .shared 9] [] [onHolding 1 (.leaseWarn 100) 0], _, ⟨[], [], rfl, nofun⟩, rfl, by decide,
    (quiet_record _ _ _).oneClaimEach (by decide)⟩

theorem met_LeaseEndAndOfferEndEndTheHolding :
    ∃ s t r r', (State.IsDue s (.holding 3 1) .leaseEnd ∧ s.record 3 = some r ∧ r.holdingOf 1 = some (held 1 .shared 9)
        ∧ s.OneClaimEach)
      ∧ State.IsDue t (.holding 3 1) .offerEnd ∧ t.record 3 = some r' ∧ r'.holdingOf 1 = some (offered 1 .shared 9)
        ∧ t.OneClaimEach :=
  ⟨quiet [held 1 .shared 9] [] [onHolding 1 .leaseEnd 0], quiet [offered 1 .shared 9] [] [onHolding 1 .offerEnd 0], _, _,
    ⟨⟨[], [], rfl, nofun⟩, rfl, by decide, (quiet_record _ _ _).oneClaimEach (by decide)⟩,
    ⟨[], [], rfl, nofun⟩, rfl, by decide, (quiet_record _ _ _).oneClaimEach (by decide)⟩

theorem met_WaitEndLapsesTheWait :
    ∃ s r, State.IsDue s (.waiter 3 1) .waitEnd ∧ s.record 3 = some r ∧ r.waiterOf 1 = some (waits 1 .shared 0)
      ∧ s.OneClaimEach :=
  ⟨quiet [] [waits 1 .shared 0] [onWaiter 1 0], _, ⟨[], [], rfl, nofun⟩, rfl, by decide,
    (quiet_record _ _ _).oneClaimEach (by decide)⟩

theorem met_AllowanceEndOverstays :
    ∃ s t : State, (s.IsDue (.client 1) .allowanceEnd ∧ s.DeadlinesLawful)
      ∧ ∀ d ∈ t.deadlines, d.owner = .client 1 → d.due ≠ t.clock :=
  ⟨frozen 1 [] (quiet [] [] []), quiet [] [] [], ⟨⟨[], [], rfl, nofun⟩, lawful_of (by decide)⟩, by decide⟩

theorem met_ExpiriesNeedALiveDueDeadline :
    ∀ d ∈ (quiet [held 1 .shared 9] [] [onHolding 1 .leaseEnd 1, onWaiter 2 0]).deadlines, d.owner = .holding 3 1 →
      d.due ≠ (quiet [held 1 .shared 9] [] [onHolding 1 .leaseEnd 1]).clock := by decide

theorem met_HoldAssertionFreezes :
    ∃ s t u : State, ((s.holdUnit 1).level = false ∧ s.DeadlinesLawful ∧ s.HoldWithinAllowance
        ∧ (s.client 1).session = .opened ∧ (s.client 1).holdUsed < 1000 * (s.client 1).holdAllowance)
      ∧ ((t.holdUnit 1).level = false ∧ t.DeadlinesLawful ∧ t.HoldWithinAllowance ∧ (t.client 1).session = .opened
        ∧ 0 < (t.client 1).holdAllowance ∧ (t.client 1).holdUsed = 1000 * (t.client 1).holdAllowance)
      ∧ (u.holdUnit 1).level = false ∧ u.DeadlinesLawful ∧ u.HoldWithinAllowance ∧ (u.client 1).holdAllowance = 0 :=
  ⟨allowed 1 (quiet [] [] []),
    (quiet [] [] []).setClient 1 { (quiet [] [] []).client 1 with holdAllowance := 1, holdUsed := 1000 },
    quiet [] [] [],
    ⟨by decide, lawful_of (by decide), by unfold State.HoldWithinAllowance; decide, by decide, by decide⟩,
    ⟨by decide, lawful_of (by decide), by unfold State.HoldWithinAllowance; decide, by decide, by decide, by decide⟩,
    by decide, lawful_of (by decide), by unfold State.HoldWithinAllowance; decide, by decide⟩

theorem met_HoldReleaseThaws :
    ∃ s t : State, ((s.holdUnit 1).level = true ∧ s.DeadlinesLawful ∧ (s.client 1).freeze = .frozen)
      ∧ (t.holdUnit 1).level = true ∧ t.DeadlinesLawful ∧ (t.client 1).freeze = .overstayed :=
  ⟨frozen 1 [{ owner := .holding 3 1, kind := .leaseEnd, remaining := 1 }] (quiet [held 1 .shared 9] [] []),
    after (.allowanceEnd 1) (frozen 1 [] (quiet [] [] [])),
    ⟨by decide, lawful_of (by decide), by decide⟩, by decide, lawful_of (by decide), by decide⟩

/-- The premises of every law that a step keeps, in one state with holdings, a waiter entry and deadlines, its front
command a millisecond boundary. -/
def working : State :=
  { quiet [held 1 .shared 8, offered 2 .shared 9] [waits 3 .exclusive 2]
      [onWaiter 3 5, onHolding 2 .offerEnd 50, onHolding 1 (.leaseWarn 100) 900]
    with pending := [.millisecondBoundary], ports := Vector.ofFn fun _ => { Port.initial false false with state := .ready } }

theorem working_record :
    OnlyRecord working (shareable [held 1 .shared 8, offered 2 .shared 9] [waits 3 .exclusive 2]) :=
  scene_record 0 .none _ []

theorem met_step_keeps_ports_sessions_and_settings :
    working.PortsConsistent ∧ working.StartupQuiet ∧ working.DeadlinesLawful ∧ working.DirectoryLegal
      ∧ working.HoldWithinAllowance ∧ working.SettingsLegal ∧ working.SessionsClean ∧ working.WaitsLegal
      ∧ ∃ t, step working = .next t := by
  refine ⟨fun p => ?_, fun h => absurd rfl h, lawful_of (by decide),
    working_record.directoryLegal (shareable_terms _ _), by unfold State.HoldWithinAllowance; decide,
    by unfold State.SettingsLegal; decide, by unfold State.SessionsClean; decide, waitsLegal_of (by decide), _, rfl⟩
  have hp : working.port p = { Port.initial false false with state := .ready } := by simp [working, State.port]
  have hs : working.startup = .ended := rfl
  simp [State.PortConsistent, hp, hs, Port.initial]

theorem met_step_keeps_the_laws_of_claims :
    working.TenureLaw ∧ working.OneClaimEach ∧ working.WithinQuota ∧ working.GenerationsLegal ∧ working.WithinPools
      ∧ working.BacklogLaw ∧ working.RetiringLaw ∧ working.QueuesOrdered ∧ working.NoneUnserved
      ∧ working.NoticesLegal := by
  have h := working_record
  refine ⟨h.tenureLaw shareable_tenure, h.oneClaimEach (by decide), by unfold State.WithinQuota; decide,
    ⟨fun i r g hr => ?_, fun i r hr => ?_, fun i j r r' g g' hi hj _ _ _ => (h i r hi).1.trans (h j r' hj).1.symm⟩,
    by unfold State.WithinPools; decide, by unfold State.BacklogLaw; decide, fun i r hr hl => ?_, fun i r hr => ?_,
    fun i r w hr hw _ ha _ => ?_, by unfold State.NoticesLegal NoticeSet.Legal; decide⟩
  all_goals obtain ⟨rfl, rfl⟩ := h i r hr
  · revert g
    decide
  · decide
  · exact nomatch hl
  · decide
  · cases hw
    exact absurd (show ([held 1 .shared 8, offered 2 .shared 9] : List Holding) = [] from ha) (by decide)

theorem met_step_keeps_deadlines_owned :
    working.PortsConsistent ∧ working.DeadlinesOwned ∧ working.RetiringLaw ∧ working.DirectoryLegal := by
  have h := working_record
  refine ⟨met_step_keeps_ports_sessions_and_settings.1, ⟨fun i r g hr hg => ?_, by decide, ?_, fun c d hd => ?_⟩,
    met_step_keeps_the_laws_of_claims.2.2.2.2.2.2.1, h.directoryLegal (shareable_terms _ _)⟩
  · obtain ⟨rfl, rfl⟩ := h i r hr
    rcases List.mem_cons.mp hg with rfl | hg
    · exact ⟨.leaseWarn 100, 900, false, by decide, nofun, fun _ => .inr ⟨100, rfl⟩⟩
    · obtain rfl := List.mem_singleton.mp hg
      exact ⟨.offerEnd, 50, false, by decide, fun _ => rfl, nofun⟩
  · intro d hd
    have hr : working.record 3 = some (shareable [held 1 .shared 8, offered 2 .shared 9] [waits 3 .exclusive 2]) := by
      simp [working, quiet, scene, State.record]
    have hd : d ∈ [onWaiter 3 5, onHolding 2 .offerEnd 50, onHolding 1 (.leaseWarn 100) 900] := hd
    simp only [List.mem_cons, List.not_mem_nil, or_false] at hd
    rcases hd with rfl | rfl | rfl
    · exact ⟨_, waits 3 .exclusive 2, hr, by decide, rfl, rfl⟩
    · exact ⟨_, offered 2 .shared 9, hr, by decide, rfl, nofun, nofun⟩
    · exact ⟨_, held 1 .shared 8, hr, by decide, rfl, nofun, nofun⟩
  · have hn : ∀ c, (working.holdUnit c).stored = [] := by decide
    rw [hn c] at hd
    cases hd

/-- The part at work, the record that a TAKE NOTICE of client 1 presented still in its set and the reply in the slot. -/
def presenting : State :=
  (working.setNoticeSet 1 { records := [{ notice 0x0101#16 .waitLapsed none with presented := true }], lost := false,
                            lostShown := false }).setPort 1 { working.port 1 with slot := .filled reply }

theorem met_step_keeps_the_presented_mark :
    presenting.PortsConsistent ∧ presenting.StartupQuiet ∧ presenting.SessionsClean ∧ presenting.NoticesLegal
      ∧ presenting.PresentedLaw ∧ (∃ n ∈ (presenting.noticeSet 1).records, n.presented = true)
      ∧ ∃ t, step presenting = .next t := by
  have hother : ∀ c, (presenting.noticeSet c).records.any (fun n => n.presented) = true → c = 1 := by decide
  have hflight : ∀ c, (presenting.port c).inFlight = .none := by decide
  refine ⟨fun p => ?_, fun h => absurd rfl h, by unfold State.SessionsClean; decide,
    by unfold State.NoticesLegal NoticeSet.Legal; decide, fun c => ⟨?_, fun ⟨n, hn, hp⟩ => .inl ?_, fun _ h => ?_⟩,
    ⟨_, .head _, rfl⟩, _, rfl⟩
  · have hs : presenting.startup = .ended := rfl
    have hp : presenting.port p = { Port.initial false false with
        state := .ready, slot := if p = 1 then .filled reply else .empty } := by
      revert p
      decide
    simp only [State.PortConsistent, hp, hs, Port.initial]
    by_cases h : p = 1 <;> simp [h]
  · revert c
    decide
  · obtain rfl := hother c (List.any_eq_true.mpr ⟨n, hn, hp⟩)
    rfl
  · obtain ⟨code, ps, h⟩ := h
    rw [hflight] at h
    cases h

end Sys2Proof.Machine.Tests
end

section
/-! SUPPORT. What the course of a request can lead to (R164), as a rule for proofs about every outcome of its command. -/

namespace Sys2Proof.Machine

/-- The session check passes only a JOIN without a session and any other request with an OPEN one (R105). -/
theorem sessionRefusal_eq_none {session : Session} {isJoin : Bool} (h : sessionRefusal session isJoin = none) :
    session = if isJoin = true then .none else .opened := by
  cases session <;> cases isJoin <;> simp [sessionRefusal] at h ⊢

/-- A request in flight that stages 1 to 5 do not refuse passes them (R164). -/
theorem State.passes_of_refusal {s : State} {p : ClientId} {q : Request} {ps : List Byte} (hf : s.InFlight p q ps)
    (h : s.refusal p q ps = none) : s.Passes p q ps := by
  unfold State.refusal at h
  cases hs : sessionRefusal (s.client p).session (q == .join) with
  | some a => simp [hs] at h
  | none =>
    have hsession := sessionRefusal_eq_none hs
    rw [hs] at h
    by_cases hrole : (q.supervisorOnly && p != Config.supervisor) = true
    · simp [hrole] at h
    by_cases hfits : q.fits ps.length = true
    · by_cases hrange : q.inRange ps = true
      · refine ⟨hf, by simpa [State.SessionPasses] using hsession, fun hq => ?_, (q.fits_iff _).mp hfits,
          (q.inRange_iff ps).mp hrange⟩
        simpa [(q.supervisorOnly_iff).mpr hq, Config.supervisor] using hrole
      · simp [hrole, hfits, hrange] at h
    · simp [hrole, hfits] at h

/-- What holds where nothing is taken, after a refusal, and after the effect of a request that passes stages 1 to 5,
holds after the request's command (R164). -/
theorem State.request_induction {P : State → Prop} {s : State} {p : ClientId} {q : Request}
    {effect : List Byte → State} (idle : P s) (refused : ∀ a, P (s.answer p a []))
    (taken : ∀ ps, s.Passes p q ps → P (effect ps)) : P (s.request p q effect) := by
  by_cases h : ∃ ps, s.InFlight p q ps
  · obtain ⟨ps, hf⟩ := h
    rw [s.request_inFlight p q ps hf]
    cases hr : s.refusal p q ps with
    | some a => exact refused a
    | none => exact taken ps (State.passes_of_refusal hf hr)
  · rw [s.request_idle p q effect fun ps hf => h ⟨ps, hf⟩]
    exact idle

/-- What holds after a refusal, and after the effect at the record that stages 6 and 7 find, holds after them (R2, R7). -/
theorem State.atRecord_induction {P : State → Prop} {s : State} {p : ClientId} {q : Request} {key : Key}
    {effect : SlotId → Resource → State} (refused : ∀ a, P (s.answer p a []))
    (found : ∀ i r, s.record i = some r → (q.NeedsActive → r.lifecycle = .active) → P (effect i r)) :
    P (s.atRecord p q key effect) := by
  unfold State.atRecord
  cases s.slotOfKey key with
  | none => exact refused _
  | some i =>
    cases hr : s.record i with
    | none => simpa [hr] using refused .noSuchKey
    | some r =>
      simp only [hr]
      by_cases hl : (q.lifecycleChecked && r.lifecycle == .retiring) = true
      · rw [if_pos hl]
        exact refused _
      · rw [if_neg hl]
        refine found i r hr fun hq => ?_
        cases hc : r.lifecycle with
        | active => rfl
        | retiring => simp [q.lifecycleChecked_iff.mpr hq, hc] at hl

/-- Both rules together, for the requests that name a resource. -/
theorem State.requestAtRecord_induction {P : State → Prop} {s : State} {p : ClientId} {q : Request}
    {key : List Byte → Key} {effect : List Byte → SlotId → Resource → State} (idle : P s)
    (refused : ∀ a, P (s.answer p a []))
    (found : ∀ ps i r, s.Passes p q ps → s.record i = some r → (q.NeedsActive → r.lifecycle = .active) →
      P (effect ps i r)) :
    P (s.request p q fun ps => s.atRecord p q (key ps) (effect ps)) :=
  State.request_induction idle refused fun ps hp =>
    State.atRecord_induction refused fun i r hr hl => found ps i r hp hr hl

/-- What ACQUIRE's own checks lead to (R49 to R52): a refusal, a grant where nobody stands ahead and there is space, or an
entry in the queue. -/
theorem State.acquireAt_induction {P : State → Prop} {s : State} {p : ClientId} {i : SlotId} {r : Resource}
    {mode : Tenure} {priority : Fin 4} {wait : Ms} (refused : ∀ a data, P (s.answer p a data))
    (granted : s.grant ≠ 0xFFFFFFFF#32 → P (s.grantNow p i r mode))
    (queued : r.holdingOf p = none → r.waiterOf p = none →
      P (s.enqueue p i r { client := p, mode := mode, priority := priority } wait)) :
    P (s.acquireAt p i r mode priority wait) := by
  unfold State.acquireAt
  split
  · exact refused _ _
  split
  · exact refused _ _
  rename_i hclaim
  split
  · exact refused _ _
  rename_i hspent
  split
  · exact refused _ _
  split
  · exact granted (by simpa [State.grantSpent] using hspent)
  split
  · exact refused _ _
  split
  · exact refused _ _
  · simp only [Bool.or_eq_true, not_or, Bool.not_eq_true, Option.isSome_eq_false_iff, Option.isNone_iff_eq_none] at hclaim
    exact queued hclaim.1 hclaim.2

end Sys2Proof.Machine
end

section
/-! SUPPORT. The commands that leave the directory, the Offer Backlog and the grant counter alone: those of the ports, of
the sessions, of hold sense and of the clock. -/

namespace Sys2Proof.Machine

/-- The records, the Offer Backlog and the grant counter are as before, and a client has left TEARDOWN only without a
claim (R116). -/
structure State.SameDirectory (s t : State) : Prop where
  slots : t.slots = s.slots
  backlog : t.backlog = s.backlog
  grant : t.grant = s.grant
  teardown : ∀ c, (s.client c).session = .teardown → (t.client c).session = .teardown ∨ s.claimCount c = 0

/-- Quota, hold allowance and hold used of every client are as before. -/
def State.SameSettings (s t : State) : Prop :=
  ∀ c, (t.client c).quota = (s.client c).quota ∧ (t.client c).holdAllowance = (s.client c).holdAllowance
    ∧ (t.client c).holdUsed = (s.client c).holdUsed

/-- Neither the directory nor a client's settings change. -/
structure State.Quiet (s t : State) : Prop extends s.SameDirectory t where
  settings : s.SameSettings t

theorem State.claimCount_of_slots {s t : State} (h : t.slots = s.slots) (c : ClientId) :
    t.claimCount c = s.claimCount c := by
  simp only [State.claimCount, State.total, State.record, h]

theorem State.SameDirectory.trans {s t u : State} (h : s.SameDirectory t) (k : t.SameDirectory u) :
    s.SameDirectory u where
  slots := k.slots.trans h.slots
  backlog := k.backlog.trans h.backlog
  grant := k.grant.trans h.grant
  teardown c hc := by
    rcases h.teardown c hc with ht | h0
    · rw [← State.claimCount_of_slots h.slots c]
      exact k.teardown c ht
    · exact .inr h0

namespace State.Quiet

theorem trans {s t u : State} (h : s.Quiet t) (k : t.Quiet u) : s.Quiet u :=
  ⟨h.toSameDirectory.trans k.toSameDirectory, fun c =>
    ⟨(k.settings c).1.trans (h.settings c).1, (k.settings c).2.1.trans (h.settings c).2.1,
     (k.settings c).2.2.trans (h.settings c).2.2⟩⟩

/-- Where no client record changes either, nothing but ports, deadlines, notices and the hold sense is left to. -/
theorem of_clients {s t : State} (slots : t.slots = s.slots) (backlog : t.backlog = s.backlog)
    (grant : t.grant = s.grant) (clients : t.clients = s.clients) : s.Quiet t := by
  have hc : ∀ c, t.client c = s.client c := fun c => by simp [State.client, clients]
  exact ⟨⟨slots, backlog, grant, fun c h => .inl ((hc c).symm ▸ h)⟩, fun c => by simp [hc]⟩

theorem refl (s : State) : s.Quiet s := of_clients rfl rfl rfl rfl

theorem setPort {s t : State} (h : s.Quiet t) (p : ClientId) (x : Port) : s.Quiet (t.setPort p x) :=
  h.trans (of_clients rfl rfl rfl rfl)

theorem setHoldUnit {s t : State} (h : s.Quiet t) (c : ClientId) (x : HoldUnit) : s.Quiet (t.setHoldUnit c x) :=
  h.trans (of_clients rfl rfl rfl rfl)

theorem setNoticeSet {s t : State} (h : s.Quiet t) (c : ClientId) (x : NoticeSet) : s.Quiet (t.setNoticeSet c x) :=
  h.trans (of_clients rfl rfl rfl rfl)

theorem setDeadlines {s t : State} (h : s.Quiet t) (l : List Deadline) : s.Quiet (t.setDeadlines l) :=
  h.trans (of_clients rfl rfl rfl rfl)

theorem answer {s t : State} (h : s.Quiet t) (p : ClientId) (a : Answer) (data : List Byte) :
    s.Quiet (t.answer p a data) := h.setPort p _

theorem of_sameButDeadlines {s t : State} (h : s.SameButDeadlines t) : s.Quiet t :=
  of_clients h.slots h.backlog h.grant h.clients

theorem of_sameButNotices {s t : State} (h : s.SameButNotices t) : s.Quiet t :=
  of_clients h.slots h.backlog h.grant h.clients

/-- One client record changes, its settings not, and it leaves TEARDOWN only without a claim. -/
theorem setClient {s t : State} (h : s.Quiet t) (c : ClientId) (x : Client)
    (session : (t.client c).session = .teardown → x.session = .teardown ∨ t.claimCount c = 0)
    (quota : x.quota = (t.client c).quota) (allowance : x.holdAllowance = (t.client c).holdAllowance)
    (used : x.holdUsed = (t.client c).holdUsed) : s.Quiet (t.setClient c x) := by
  refine h.trans ⟨⟨rfl, rfl, rfl, fun d hd => ?_⟩, fun d => ?_⟩
  · by_cases h : d = c
    · subst h
      simpa using session hd
    · exact .inl (by simpa [h] using hd)
  · by_cases h : d = c
    · subst h
      simp [quota, allowance, used]
    · simp [h]

theorem setFreeze {s t : State} (h : s.Quiet t) (c : ClientId) (next : Freeze) :
    s.Quiet (t.setClient c { t.client c with freeze := next }) := h.setClient c _ .inl rfl rfl rfl

end State.Quiet

/-! ### Replies -/

theorem State.portReady_quiet (s : State) (p : ClientId) : s.Quiet (s.portReady p) := by
  unfold State.portReady
  simp only
  split
  · exact (State.Quiet.refl s).setPort p _
  · exact .refl s

theorem State.placeReply_quiet (s : State) (p : ClientId) (a : Answer) (data : List Byte) :
    s.Quiet (s.placeReply p a data) := by
  unfold State.placeReply
  simp only
  split <;> exact ((State.Quiet.refl s).setPort p _).trans (State.portReady_quiet _ p)

theorem State.answerWaiting_quiet (s : State) (p c : ClientId) : s.Quiet (s.answerWaiting p c) := by
  unfold State.answerWaiting
  split
  · exact s.placeReply_quiet p _ _
  · exact .refl s

/-! ### The freeze (R92, R95) -/

theorem State.enterFreeze_quiet (s : State) (c : ClientId) : s.Quiet (s.enterFreeze c) := by
  unfold State.enterFreeze
  refine State.Quiet.trans ?_ (.of_sameButDeadlines (State.insertDeadline_same _ _))
  exact (((State.Quiet.refl s).setFreeze c .frozen).setHoldUnit c _).setDeadlines _

theorem State.evaluateFreeze_quiet (s : State) (c : ClientId) : s.Quiet (s.evaluateFreeze c) := by
  unfold State.evaluateFreeze
  split
  · exact s.enterFreeze_quiet c
  · exact .refl s

theorem State.thaw_quiet (s : State) (c : ClientId) (next : Freeze) : s.Quiet (s.thaw c next) := by
  unfold State.thaw
  refine State.Quiet.trans ?_ (.of_sameButDeadlines (State.foldl_putBack_same _ _))
  exact ((State.Quiet.of_sameButDeadlines (s.removeLive_same (.client c))).setFreeze c next).setHoldUnit c _

theorem State.endFreeze_quiet (s : State) (c : ClientId) : s.Quiet (s.endFreeze c) := by
  unfold State.endFreeze
  split
  · exact s.thaw_quiet c _
  all_goals exact (State.Quiet.refl s).setFreeze c _

/-! ### Teardown (R113, R116) -/

theorem State.completeTeardown_quiet (s : State) (c : ClientId) (h : s.claimCount c = 0) :
    s.Quiet (s.completeTeardown c) := by
  unfold State.completeTeardown
  have hnone : s.Quiet (s.setClient c { s.client c with session := .none }) :=
    (State.Quiet.refl s).setClient c _ (fun _ => .inr h) rfl rfl rfl
  exact ((hnone.trans (State.answerWaiting_quiet _ c c)).trans (State.answerWaiting_quiet _ _ c)).trans
    (State.portReady_quiet _ c)

theorem State.beginTeardown_quiet (s : State) (c : ClientId) (cause : EndCause) :
    s.Quiet (s.beginTeardown c cause) := by
  unfold State.beginTeardown
  simp only
  generalize hu : State.setNoticeSet _ c NoticeSet.empty = u
  have hq : s.Quiet u := by
    rw [← hu]
    refine State.Quiet.setNoticeSet (State.Quiet.trans ?_ (State.endFreeze_quiet _ c)) c _
    exact (State.Quiet.refl s).setClient c _ (fun _ => .inl rfl) rfl rfl rfl
  split
  · exact hq.trans (u.completeTeardown_quiet c ‹_›)
  · exact hq

/-! ### The commands -/

/-- The command changes neither the directory nor a client's settings. -/
def leavesDirectory : Instr → Bool
  | .resetPinRelease _ | .startupEnd | .frameStart _ | .frameEnd .. | .idle _ | .replyReady _ | .leave _ | .query _
  | .takeNotice _ | .evict _ | .inspectClient _ | .unknownCode _ | .teardownCompletion _ | .resetSenseAssert _
  | .clientResetSense _ | .resetSenseRelease _ | .holdAssertion _ | .holdRelease _ => true
  | _ => false

theorem execFrameStart_quiet (p : ClientId) (s : State) : ∃ t, execFrameStart p s = .next t ∧ s.Quiet t := by
  refine ⟨_, rfl, ?_⟩
  simp only
  split
  · exact .refl s
  split
  · exact ((State.Quiet.refl s).setPort p _).setNoticeSet p _
  · exact (State.Quiet.refl s).setPort p _

theorem execFrameEnd_quiet (p : ClientId) (n : Nat) (d : BitVec n) (s : State) :
    ∃ t, execFrameEnd p n d s = .next t ∧ s.Quiet t := by
  refine ⟨_, rfl, ?_⟩
  simp only
  generalize hu : s.setPort p { s.port p with selectLow := false, frame := none } = u
  have hclosed : s.Quiet u := hu ▸ (State.Quiet.refl s).setPort p _
  split
  · exact .refl s
  split
  · exact hclosed
  split
  · exact hclosed
  · refine State.Quiet.setPort ?_ p _
    split
    · exact (hclosed.setPort p _).setNoticeSet p _
    · exact hclosed

theorem execReplyReady_quiet (p : ClientId) (s : State) : ∃ t, execReplyReady p s = .next t ∧ s.Quiet t := by
  refine ⟨_, rfl, ?_⟩
  split
  · exact s.placeReply_quiet p _ _
  all_goals exact .refl s

theorem execLeave_quiet (p : ClientId) (s : State) : ∃ t, execLeave p s = .next t ∧ s.Quiet t :=
  have hrefl := State.Quiet.refl s
  ⟨_, rfl, State.request_induction hrefl (hrefl.answer p · []) fun _ _ =>
    (hrefl.setPort p _).trans (State.beginTeardown_quiet _ p _)⟩

theorem execEvict_quiet (p : ClientId) (s : State) : ∃ t, execEvict p s = .next t ∧ s.Quiet t := by
  have hrefl := State.Quiet.refl s
  refine ⟨_, rfl, State.request_induction hrefl (hrefl.answer p · []) fun ps _ => ?_⟩
  simp only
  split
  · exact hrefl.answer p _ _
  · exact (hrefl.setPort p _).trans (State.beginTeardown_quiet _ _ _)

theorem execQuery_quiet (p : ClientId) (s : State) : ∃ t, execQuery p s = .next t ∧ s.Quiet t :=
  have hrefl := State.Quiet.refl s
  ⟨_, rfl, State.requestAtRecord_induction hrefl (hrefl.answer p · []) fun _ _ _ _ _ _ => hrefl.answer p _ _⟩

theorem execTakeNotice_quiet (p : ClientId) (s : State) : ∃ t, execTakeNotice p s = .next t ∧ s.Quiet t := by
  have hrefl := State.Quiet.refl s
  refine ⟨_, rfl, State.request_induction hrefl (hrefl.answer p · []) fun _ _ => ?_⟩
  split
  · exact hrefl.answer p _ _
  · exact (hrefl.setNoticeSet p _).answer p _ _

theorem execInspectClient_quiet (p : ClientId) (s : State) : ∃ t, execInspectClient p s = .next t ∧ s.Quiet t := by
  have hrefl := State.Quiet.refl s
  refine ⟨_, rfl, State.request_induction hrefl (hrefl.answer p · []) fun _ _ => ?_⟩
  simp only
  split
  · exact hrefl.answer p _ _
  split <;> exact hrefl.answer p _ _

theorem execUnknownCode_quiet (p : ClientId) (s : State) : ∃ t, execUnknownCode p s = .next t ∧ s.Quiet t := by
  refine ⟨_, rfl, ?_⟩
  split
  · split
    · exact .refl s
    · exact (State.Quiet.refl s).answer p _ _
  all_goals exact .refl s

theorem execTeardownCompletion_quiet (c : ClientId) (s : State) :
    ∃ t, execTeardownCompletion c s = .next t ∧ s.Quiet t := by
  refine ⟨_, rfl, ?_⟩
  split
  case isTrue h => exact s.completeTeardown_quiet c h.2
  case isFalse => exact .refl s

theorem execResetSenseAssert_quiet (p : ClientId) (s : State) :
    ∃ t, execResetSenseAssert p s = .next t ∧ s.Quiet t := by
  refine ⟨_, rfl, ?_⟩
  simp only
  split
  · exact .refl s
  split <;> exact (State.Quiet.refl s).setPort p _

theorem execClientResetSense_quiet (c : ClientId) (s : State) :
    ∃ t, execClientResetSense c s = .next t ∧ s.Quiet t := by
  refine ⟨_, rfl, ?_⟩
  have hport := (State.Quiet.refl s).setPort c { s.port c with senseOwed := false }
  simp only
  split
  · split
    · exact hport.trans (State.beginTeardown_quiet _ c _)
    · exact hport
  · exact .refl s

theorem execResetSenseRelease_quiet (p : ClientId) (s : State) :
    ∃ t, execResetSenseRelease p s = .next t ∧ s.Quiet t := by
  refine ⟨_, rfl, ?_⟩
  split
  · exact ((State.Quiet.refl s).setPort p _).trans (State.portReady_quiet _ p)
  · exact .refl s

theorem execHoldAssertion_quiet (c : ClientId) (s : State) : ∃ t, execHoldAssertion c s = .next t ∧ s.Quiet t := by
  refine ⟨_, rfl, ?_⟩
  have hlevel : s.Quiet (s.setLevel c true) := (State.Quiet.refl s).setHoldUnit c _
  simp only
  split
  · exact .refl s
  split
  · split
    · exact hlevel.trans (State.enterFreeze_quiet _ c)
    split
    · exact hlevel.setFreeze c _
    · exact hlevel
  · exact hlevel

theorem execHoldRelease_quiet (c : ClientId) (s : State) : ∃ t, execHoldRelease c s = .next t ∧ s.Quiet t := by
  refine ⟨_, rfl, ?_⟩
  split
  · exact ((State.Quiet.refl s).setHoldUnit c _).trans (State.endFreeze_quiet _ c)
  · exact .refl s

theorem execResetPinRelease_quiet (h : BitVec 6) (s : State) : ∃ t, execResetPinRelease h s = .next t ∧ s.Quiet t := by
  refine ⟨_, rfl, ?_⟩
  split
  · exact .of_clients rfl rfl rfl rfl
  · exact .refl s

theorem execStartupEnd_quiet (s : State) : ∃ t, execStartupEnd s = .next t ∧ s.Quiet t := by
  refine ⟨_, rfl, ?_⟩
  split
  · exact .of_clients rfl rfl rfl rfl
  · exact .refl s

/-- What the commands of the ports, the sessions and the hold sense leave alone. -/
theorem exec_quiet (c : Instr) (s : State) (h : leavesDirectory c = true) : ∃ t, exec c s = .next t ∧ s.Quiet t := by
  cases c with
  | resetPinRelease levels => exact execResetPinRelease_quiet levels s
  | startupEnd => exact execStartupEnd_quiet s
  | frameStart p => exact execFrameStart_quiet p s
  | frameEnd p n d => exact execFrameEnd_quiet p n d s
  | idle p => exact ⟨s, rfl, .refl s⟩
  | replyReady p => exact execReplyReady_quiet p s
  | leave p => exact execLeave_quiet p s
  | query p => exact execQuery_quiet p s
  | takeNotice p => exact execTakeNotice_quiet p s
  | evict p => exact execEvict_quiet p s
  | inspectClient p => exact execInspectClient_quiet p s
  | unknownCode p => exact execUnknownCode_quiet p s
  | teardownCompletion c => exact execTeardownCompletion_quiet c s
  | resetSenseAssert p => exact execResetSenseAssert_quiet p s
  | clientResetSense c => exact execClientResetSense_quiet c s
  | resetSenseRelease p => exact execResetSenseRelease_quiet p s
  | holdAssertion c => exact execHoldAssertion_quiet c s
  | holdRelease c => exact execHoldRelease_quiet c s
  | _ => cases h

end Sys2Proof.Machine
end

section
/-! SUPPORT. Keys and terms of the records (R1, R4) and the settings of the clients (R91, R103) under every command: all
but DEFINE, AMEND, JOIN, SET CLIENT, the clock and ALLOWANCE-END leave them alone. -/

namespace Sys2Proof.Machine

/-- Key, class, shared limit, lease term, warn margin and offer window are the same. -/
def Resource.SameTerms (r r' : Resource) : Prop :=
  r'.key = r.key ∧ r'.cls = r.cls ∧ r'.leaseTerm = r.leaseTerm ∧ r'.warnMargin = r.warnMargin
  ∧ r'.offerWindow = r.offerWindow

theorem Resource.SameTerms.refl (r : Resource) : r.SameTerms r := ⟨rfl, rfl, rfl, rfl, rfl⟩

theorem Resource.SameTerms.trans {a b c : Resource} (h : a.SameTerms b) (k : b.SameTerms c) : a.SameTerms c := by
  obtain ⟨h1, h2, h3, h4, h5⟩ := h
  obtain ⟨k1, k2, k3, k4, k5⟩ := k
  exact ⟨k1.trans h1, k2.trans h2, k3.trans h3, k4.trans h4, k5.trans h5⟩

theorem Resource.SameTerms.termsLegal {r r' : Resource} (h : r.SameTerms r') (hr : r.TermsLegal) : r'.TermsLegal := by
  obtain ⟨h1, h2, h3, h4, h5⟩ := h
  simpa only [Resource.TermsLegal, h1, h2, h3, h4, h5] using hr

/-- Every record that stands stood before, with the same key and terms, and the settings of the clients are as before. -/
structure State.KeepsTerms (s t : State) : Prop where
  terms : ∀ i r', t.record i = some r' → ∃ r, s.record i = some r ∧ r.SameTerms r'
  settings : s.SameSettings t

/-- The laws of O51: the directory's terms and keys, and the settings and the hold used of the clients. -/
def State.TermsAndSettings (s : State) : Prop := s.DirectoryLegal ∧ s.HoldWithinAllowance ∧ s.SettingsLegal

theorem State.DirectoryLegal.of_terms {s t : State} (hs : s.DirectoryLegal)
    (h : ∀ i r', t.record i = some r' → ∃ r, s.record i = some r ∧ r.SameTerms r') : t.DirectoryLegal := by
  refine ⟨fun i r' hr' => ?_, fun i j r' q' hr' hq' hk => ?_⟩
  · obtain ⟨r, hr, same⟩ := h i r' hr'
    exact same.termsLegal (hs.1 i r hr)
  · obtain ⟨r, hr, same⟩ := h i r' hr'
    obtain ⟨q, hq, sameq⟩ := h j q' hq'
    exact hs.2 i j r q hr hq (by rw [← same.1, ← sameq.1, hk])

/-- Hold used and settings within their ranges, of one client record (R91, R103). -/
def Client.SettingsHold (x : Client) : Prop :=
  x.holdUsed ≤ x.allowanceMs ∧ 1 ≤ x.quota ∧ x.quota ≤ 24 ∧ x.holdAllowance ≤ 600

theorem State.settings_iff (s : State) :
    s.HoldWithinAllowance ∧ s.SettingsLegal ↔ ∀ c, (s.client c).SettingsHold := by
  constructor
  · rintro ⟨hold, settings⟩ c
    exact ⟨(hold c).1, settings c⟩
  · intro h
    exact ⟨fun c => ⟨(h c).1, (h c).2.2.2⟩, fun c => (h c).2⟩

theorem State.termsAndSettings_iff (s : State) :
    s.TermsAndSettings ↔ s.DirectoryLegal ∧ ∀ c, (s.client c).SettingsHold :=
  and_congr_right fun _ => s.settings_iff

theorem State.SameSettings.settingsHold {s t : State} (h : s.SameSettings t) {c : ClientId}
    (hs : (s.client c).SettingsHold) : (t.client c).SettingsHold := by
  obtain ⟨hq, ha, hu⟩ := h c
  simpa only [Client.SettingsHold, Client.allowanceMs, hq, ha, hu] using hs

namespace State.KeepsTerms

theorem termsAndSettings {s t : State} (h : s.KeepsTerms t) (hs : s.TermsAndSettings) : t.TermsAndSettings := by
  rw [State.termsAndSettings_iff] at hs ⊢
  exact ⟨hs.1.of_terms h.terms, fun c => h.settings.settingsHold (hs.2 c)⟩

theorem of_quiet {s t : State} (h : s.Quiet t) : s.KeepsTerms t :=
  ⟨fun i r' hr' => ⟨r', by simpa [State.record, h.slots] using hr', .refl r'⟩, h.settings⟩

theorem refl (s : State) : s.KeepsTerms s := of_quiet (.refl s)

theorem trans {s t u : State} (h : s.KeepsTerms t) (k : t.KeepsTerms u) : s.KeepsTerms u := by
  refine ⟨fun i r'' hr'' => ?_, fun c => ?_⟩
  · obtain ⟨r', hr', same'⟩ := k.terms i r'' hr''
    obtain ⟨r, hr, same⟩ := h.terms i r' hr'
    exact ⟨r, hr, same.trans same'⟩
  · obtain ⟨h1, h2, h3⟩ := h.settings c
    obtain ⟨k1, k2, k3⟩ := k.settings c
    exact ⟨k1.trans h1, k2.trans h2, k3.trans h3⟩

theorem quiet {s t u : State} (h : s.KeepsTerms t) (k : t.Quiet u) : s.KeepsTerms u := h.trans (of_quiet k)

theorem answer {s t : State} (h : s.KeepsTerms t) (p : ClientId) (a : Answer) (data : List Byte) :
    s.KeepsTerms (t.answer p a data) := h.quiet ((State.Quiet.refl t).answer p a data)

theorem arm {s t : State} (h : s.KeepsTerms t) (o : Owner) (k : DeadlineKind) (n : Nat) : s.KeepsTerms (t.arm o k n) :=
  h.quiet (.of_sameButDeadlines (t.arm_same o k n))

theorem armLease {s t : State} (h : s.KeepsTerms t) (i : SlotId) (c : ClientId) (r : Resource) :
    s.KeepsTerms (t.armLease i c r) := h.quiet (.of_sameButDeadlines (t.armLease_same i c r))

theorem disarm {s t : State} (h : s.KeepsTerms t) (o : Owner) : s.KeepsTerms (t.disarm o) :=
  h.quiet (.of_sameButDeadlines (t.disarm_same o))

theorem raiseNotice {s t : State} (h : s.KeepsTerms t) (c : ClientId) (n : Notice) : s.KeepsTerms (t.raiseNotice c n) :=
  h.quiet (.of_sameButNotices (t.raiseNotice_same c n))

/-- A record changes, its key and terms not. -/
theorem setRecord {s t : State} (h : s.KeepsTerms t) (i : SlotId) (r r' : Resource) (hr : t.record i = some r)
    (same : r.SameTerms r') : s.KeepsTerms (t.setRecord i (some r')) := by
  refine h.trans ⟨fun j q hq => ?_, fun _ => ⟨rfl, rfl, rfl⟩⟩
  by_cases hj : j = i
  · subst hj
    obtain rfl : r' = q := by simpa using hq
    exact ⟨r, hr, same⟩
  · exact ⟨q, by simpa [hj] using hq, .refl q⟩

theorem modifyRecord {s t : State} (h : s.KeepsTerms t) (i : SlotId) (f : Resource → Resource)
    (same : ∀ r : Resource, r.SameTerms (f r)) : s.KeepsTerms (t.modifyRecord i f) := by
  cases hr : t.record i with
  | none => rwa [t.modifyRecord_none i f hr]
  | some r =>
    rw [t.modifyRecord_some i f r hr]
    exact h.setRecord i r (f r) hr (same r)

/-- A record is removed (R3). -/
theorem setRecord_none {s t : State} (h : s.KeepsTerms t) (i : SlotId) : s.KeepsTerms (t.setRecord i none) := by
  refine h.trans ⟨fun j q hq => ?_, fun _ => ⟨rfl, rfl, rfl⟩⟩
  by_cases hj : j = i
  · subst hj
    simp at hq
  · exact ⟨q, by simpa [hj] using hq, .refl q⟩

theorem setBacklog {s t : State} (h : s.KeepsTerms t) (l : List SlotId) : s.KeepsTerms (t.setBacklog l) :=
  h.trans ⟨fun _ r hr => ⟨r, hr, .refl r⟩, fun _ => ⟨rfl, rfl, rfl⟩⟩

theorem setGrant {s t : State} (h : s.KeepsTerms t) (g : Gen) : s.KeepsTerms (t.setGrant g) :=
  h.trans ⟨fun _ r hr => ⟨r, hr, .refl r⟩, fun _ => ⟨rfl, rfl, rfl⟩⟩

/-- Offers change lists alone (R57). -/
theorem offers {s t u : State} {os : List Offer} (h : s.KeepsTerms t) (k : t.OffersMade u os) : s.KeepsTerms u := by
  refine h.trans ⟨fun i r' hr' => ?_, fun c => by simp [k.client]⟩
  cases hr : t.record i with
  | none => rw [(k.free i hr).1] at hr'; cases hr'
  | some r =>
    obtain ⟨q, gone, hq, ho, -⟩ := k.record i r hr
    obtain rfl : q = r' := by simpa [hr'] using hq.symm
    refine ⟨r, rfl, ?_⟩
    rw [ho.1]
    exact .refl r

theorem offersFrom {s t u : State} {i : SlotId} {n : Nat} (h : s.KeepsTerms t) (k : t.OffersFrom u i n) :
    s.KeepsTerms u := by
  obtain ⟨os, hm, -⟩ := k
  exact h.offers hm

theorem offerCheck {s t : State} (h : s.KeepsTerms t) (i : SlotId) : s.KeepsTerms (t.offerCheck i) :=
  h.offersFrom (t.offerCheck_offersFrom i)

theorem giveBackMany {s t : State} (h : s.KeepsTerms t) (n : Nat) : s.KeepsTerms (State.giveBackMany n t) := by
  obtain ⟨⟨os, hm, -⟩, -⟩ := State.giveBackMany_spec n t
  exact h.offers hm

/-- Lists, lifecycle and integrity of a record are neither its key nor its terms. -/
theorem setLists {s t : State} (h : s.KeepsTerms t) (i : SlotId) (r : Resource) (hr : t.record i = some r)
    (l : Lifecycle) (g : Integrity) (hs : List Holding) (q : List Waiter) :
    s.KeepsTerms (t.setRecord i (some { r with lifecycle := l, integrity := g, holders := hs, queue := q })) :=
  h.setRecord i r _ hr ⟨rfl, rfl, rfl, rfl, rfl⟩

theorem modifyHolding {s t : State} (h : s.KeepsTerms t) (i : SlotId) (c : ClientId) (f : Holding → Holding) :
    s.KeepsTerms (t.modifyHolding i c f) := h.modifyRecord i _ fun _ => ⟨rfl, rfl, rfl, rfl, rfl⟩

theorem createHolding {s t : State} (h : s.KeepsTerms t) (i : SlotId) (c : ClientId) (m : Tenure) (st : HoldState) :
    s.KeepsTerms (t.createHolding i c m st) := (h.setGrant _).modifyRecord i _ fun _ => ⟨rfl, rfl, rfl, rfl, rfl⟩

theorem dropWaiter {s t : State} (h : s.KeepsTerms t) (i : SlotId) (c : ClientId) : s.KeepsTerms (t.dropWaiter i c) :=
  (h.modifyRecord i (fun r => { r with queue := r.queue.eraseP fun w => w.client == c })
    fun _ => ⟨rfl, rfl, rfl, rfl, rfl⟩).disarm _

theorem dropHolding {s t : State} (h : s.KeepsTerms t) (i : SlotId) (r : Resource) (g : Holding) (cause : HoldingEnd)
    (hr : t.record i = some r) : s.KeepsTerms (t.dropHolding i r g cause) := by
  unfold State.dropHolding
  refine State.KeepsTerms.quiet ?_ (.of_sameButNotices (State.endNotices_same _ _ _ _))
  exact (h.setLists i r hr _ _ _ _).disarm _

theorem endHolding {s t : State} (h : s.KeepsTerms t) (i : SlotId) (c : ClientId) (cause : HoldingEnd) :
    s.KeepsTerms (t.endHolding i c cause) := by
  unfold State.endHolding
  split
  · exact h
  split
  · exact h
  · have hdrop := h.dropHolding i _ ‹Holding› cause ‹t.record i = some _›
    simp only
    split
    · exact ((hdrop.setRecord_none i).setBacklog _).giveBackMany 1
    · exact hdrop.offersFrom (State.giveBackAndCheck_offersFrom _ i)

theorem endWait {s t : State} (h : s.KeepsTerms t) (i : SlotId) (c : ClientId) : s.KeepsTerms (t.endWait i c) := by
  unfold State.endWait
  split
  · exact h
  simp only
  split
  · exact (h.dropWaiter i c).offerCheck i
  · exact h.dropWaiter i c

theorem lapseWait {s t : State} (h : s.KeepsTerms t) (i : SlotId) (c : ClientId) : s.KeepsTerms (t.lapseWait i c) := by
  unfold State.lapseWait
  split
  · exact h
  simp only
  split
  · exact ((h.dropWaiter i c).raiseNotice c _).offerCheck i
  · exact (h.dropWaiter i c).raiseNotice c _

theorem warnLease {s t : State} (h : s.KeepsTerms t) (i : SlotId) (c : ClientId) (due : Time) (interval : Ms) :
    s.KeepsTerms (t.warnLease i c due interval) := by
  have hwarned := (h.quiet (.of_sameButDeadlines ((t.removeLive_same (.holding i c)).trans
    (State.insertDeadline_same _ { owner := .holding i c, kind := .leaseEnd, due := due + interval.setWidth 32 })))).modifyHolding
      i c fun g => { g with warned := true }
  unfold State.warnLease
  simp only
  split
  · exact hwarned
  split
  · exact hwarned
  · exact hwarned.raiseNotice c _

theorem withdrawOffer {s t : State} (h : s.KeepsTerms t) (i : SlotId) (g : Holding) :
    s.KeepsTerms (State.withdrawOffer i t g) := by
  unfold State.withdrawOffer
  split
  · exact h
  · exact h.dropHolding i _ g _ ‹_›

theorem withdrawAll {s t : State} (h : s.KeepsTerms t) (i : SlotId) (r : Resource) : s.KeepsTerms (t.withdrawAll i r) := by
  refine State.KeepsTerms.setBacklog ?_ _
  refine List.foldlRecOn _ _ ?_ fun u hu g _ => hu.withdrawOffer i g
  exact List.foldlRecOn _ _ h fun u hu w _ => (hu.dropWaiter i w.client).raiseNotice w.client _

end State.KeepsTerms

/-! ### The commands that leave keys, terms and settings alone -/

/-- The command defines or amends a resource, or changes a client's settings or hold used. -/
def changesTermsOrSettings : Instr → Bool
  | .powerOn .. | .resetPin | .millisecondBoundary | .join _ | .define _ | .amend _ | .setClient _ | .allowanceEnd _ =>
    true
  | _ => false

theorem execAcquire_keepsTerms (p : ClientId) (s : State) : ∃ t, execAcquire p s = .next t ∧ s.KeepsTerms t := by
  have hrefl := State.KeepsTerms.refl s
  refine ⟨_, rfl, State.requestAtRecord_induction hrefl (hrefl.answer p · []) fun ps i r _ hr _ =>
    State.acquireAt_induction (hrefl.answer p) (fun _ => ?_) fun _ _ => ?_⟩
  · exact ((hrefl.createHolding i p _ _).armLease i p r).answer p _ _
  · unfold State.enqueue
    simp only
    have hset := fun q => hrefl.setLists i r hr r.lifecycle r.integrity r.holders q
    refine State.KeepsTerms.answer ?_ p _ _
    split <;> split
    · exact (hset _).offerCheck i
    · exact ((hset _).arm _ _ _).offerCheck i
    · exact hset _
    · exact (hset _).arm _ _ _

theorem execAccept_keepsTerms (p : ClientId) (s : State) : ∃ t, execAccept p s = .next t ∧ s.KeepsTerms t := by
  have hrefl := State.KeepsTerms.refl s
  refine ⟨_, rfl, State.requestAtRecord_induction hrefl (hrefl.answer p · []) fun ps i r _ _ _ => ?_⟩
  split
  · exact hrefl.answer p _ _
  · exact ((((hrefl.modifyHolding i p _).armLease i p r).quiet (.setNoticeSet (.refl _) p _))).answer p _ _
  · exact hrefl.answer p _ _

theorem execDecline_keepsTerms (p : ClientId) (s : State) : ∃ t, execDecline p s = .next t ∧ s.KeepsTerms t := by
  have hrefl := State.KeepsTerms.refl s
  refine ⟨_, rfl, State.requestAtRecord_induction hrefl (hrefl.answer p · []) fun ps i r _ _ _ => ?_⟩
  split
  · exact hrefl.answer p _ _
  · exact (hrefl.endHolding i p _).answer p _ _

theorem execCancel_keepsTerms (p : ClientId) (s : State) : ∃ t, execCancel p s = .next t ∧ s.KeepsTerms t := by
  have hrefl := State.KeepsTerms.refl s
  refine ⟨_, rfl, State.requestAtRecord_induction hrefl (hrefl.answer p · []) fun ps i r _ _ _ => ?_⟩
  split
  · exact (hrefl.endWait i p).answer p _ _
  · exact hrefl.answer p _ _

theorem execRenew_keepsTerms (p : ClientId) (s : State) : ∃ t, execRenew p s = .next t ∧ s.KeepsTerms t := by
  have hrefl := State.KeepsTerms.refl s
  refine ⟨_, rfl, State.requestAtRecord_induction hrefl (hrefl.answer p · []) fun ps i r _ _ _ => ?_⟩
  split
  · exact hrefl.answer p _ _
  · exact ((((hrefl.modifyHolding i p _).armLease i p r).quiet (.setNoticeSet (.refl _) p _))).answer p _ _

theorem execRelease_keepsTerms (p : ClientId) (s : State) : ∃ t, execRelease p s = .next t ∧ s.KeepsTerms t := by
  have hrefl := State.KeepsTerms.refl s
  refine ⟨_, rfl, State.requestAtRecord_induction hrefl (hrefl.answer p · []) fun ps i r _ _ _ => ?_⟩
  split
  · exact hrefl.answer p _ _
  · exact (hrefl.endHolding i p _).answer p _ _

theorem execDowngrade_keepsTerms (p : ClientId) (s : State) : ∃ t, execDowngrade p s = .next t ∧ s.KeepsTerms t := by
  have hrefl := State.KeepsTerms.refl s
  refine ⟨_, rfl, State.requestAtRecord_induction hrefl (hrefl.answer p · []) fun ps i r _ _ _ => ?_⟩
  split
  · exact hrefl.answer p _ _
  split
  · exact hrefl.answer p _ _
  split
  · exact hrefl.answer p _ _
  · exact ((hrefl.modifyHolding i p _).offerCheck i).answer p _ _

theorem execMarkSound_keepsTerms (p : ClientId) (s : State) : ∃ t, execMarkSound p s = .next t ∧ s.KeepsTerms t := by
  have hrefl := State.KeepsTerms.refl s
  refine ⟨_, rfl, State.requestAtRecord_induction hrefl (hrefl.answer p · []) fun ps i r _ hr _ => ?_⟩
  split
  · exact hrefl.answer p _ _
  split
  · exact hrefl.answer p _ _
  · exact (hrefl.setLists i r hr _ _ _ _).answer p _ _

theorem execRetire_keepsTerms (p : ClientId) (s : State) : ∃ t, execRetire p s = .next t ∧ s.KeepsTerms t := by
  have hrefl := State.KeepsTerms.refl s
  refine ⟨_, rfl, State.requestAtRecord_induction hrefl (hrefl.answer p · []) fun ps i r _ _ _ => ?_⟩
  have hall := hrefl.withdrawAll i r
  simp only
  split
  · exact ((hall.modifyRecord i (fun r' => { r' with lifecycle := .retiring })
      fun _ => ⟨rfl, rfl, rfl, rfl, rfl⟩).giveBackMany _).answer p _ _
  · exact ((hall.setRecord_none i).giveBackMany _).answer p _ _

theorem execRevoke_keepsTerms (p : ClientId) (s : State) : ∃ t, execRevoke p s = .next t ∧ s.KeepsTerms t := by
  have hrefl := State.KeepsTerms.refl s
  refine ⟨_, rfl, State.requestAtRecord_induction hrefl (hrefl.answer p · []) fun ps i r _ _ _ => ?_⟩
  simp only
  split
  · exact (hrefl.endHolding i _ _).answer p _ _
  · exact hrefl.answer p _ _

theorem execSweepVisit_keepsTerms (c : ClientId) (s : State) : ∃ t, execSweepVisit c s = .next t ∧ s.KeepsTerms t := by
  refine ⟨_, rfl, ?_⟩
  split
  · split
    · exact .refl s
    · rename_i i _
      have hset : s.KeepsTerms (s.setClient c { s.client c with sweepFrom := i.val + 1 }) :=
        .of_quiet ((State.Quiet.refl s).setClient c _ .inl rfl rfl rfl)
      simp only
      split
      · exact hset.endHolding i c _
      · exact hset.endWait i c
  · exact .refl s

theorem execLeaseWarn_keepsTerms (i : SlotId) (c : ClientId) (s : State) :
    ∃ t, execLeaseWarn i c s = .next t ∧ s.KeepsTerms t := by
  refine ⟨_, rfl, ?_⟩
  split
  · rename_i due _
    exact (State.KeepsTerms.refl s).warnLease i c due _
  · exact .refl s

/-- An expiry taken is out of the list first (R80). -/
theorem State.removeLive_keepsTerms (s : State) (o : Owner) : s.KeepsTerms (s.removeLive o) :=
  .of_quiet (.of_sameButDeadlines (s.removeLive_same o))

theorem execLeaseEnd_keepsTerms (i : SlotId) (c : ClientId) (s : State) :
    ∃ t, execLeaseEnd i c s = .next t ∧ s.KeepsTerms t := by
  refine ⟨_, rfl, ?_⟩
  split
  · exact (s.removeLive_keepsTerms _).endHolding i c _
  · exact .refl s

theorem execOfferEnd_keepsTerms (i : SlotId) (c : ClientId) (s : State) :
    ∃ t, execOfferEnd i c s = .next t ∧ s.KeepsTerms t := by
  refine ⟨_, rfl, ?_⟩
  split
  · exact (s.removeLive_keepsTerms _).endHolding i c _
  · exact .refl s

theorem execWaitEnd_keepsTerms (i : SlotId) (c : ClientId) (s : State) :
    ∃ t, execWaitEnd i c s = .next t ∧ s.KeepsTerms t := by
  refine ⟨_, rfl, ?_⟩
  split
  · exact (s.removeLive_keepsTerms _).lapseWait i c
  · exact .refl s

/-- No other command changes a key, a term or a setting. -/
theorem exec_keepsTerms (c : Instr) (s : State) (h : changesTermsOrSettings c = false) :
    ∃ t, exec c s = .next t ∧ s.KeepsTerms t := by
  by_cases hq : leavesDirectory c = true
  · obtain ⟨t, ht, quiet⟩ := exec_quiet c s hq
    exact ⟨t, ht, .of_quiet quiet⟩
  cases c with
  | acquire p => exact execAcquire_keepsTerms p s
  | accept p => exact execAccept_keepsTerms p s
  | decline p => exact execDecline_keepsTerms p s
  | cancel p => exact execCancel_keepsTerms p s
  | renew p => exact execRenew_keepsTerms p s
  | release p => exact execRelease_keepsTerms p s
  | downgrade p => exact execDowngrade_keepsTerms p s
  | markSound p => exact execMarkSound_keepsTerms p s
  | retire p => exact execRetire_keepsTerms p s
  | revoke p => exact execRevoke_keepsTerms p s
  | sweepVisit c => exact execSweepVisit_keepsTerms c s
  | leaseWarn i c => exact execLeaseWarn_keepsTerms i c s
  | leaseEnd i c => exact execLeaseEnd_keepsTerms i c s
  | offerEnd i c => exact execOfferEnd_keepsTerms i c s
  | waitEnd i c => exact execWaitEnd_keepsTerms i c s
  | powerOn | resetPin | millisecondBoundary | join | define | amend | setClient | allowanceEnd => cases h
  | _ => exact absurd rfl hq

end Sys2Proof.Machine
end

section
/-! PROOF. The commands that define and amend resources, and those that change settings and hold used, keep them in range:
O51. -/

namespace Sys2Proof.Machine

/-! ### The directory -/

/-- One record changes: the directory stays legal if the new record's terms are in range and no other record has its
key (R1, R4). -/
theorem State.DirectoryLegal.setRecord {s : State} (h : s.DirectoryLegal) (i : SlotId) (r : Resource)
    (terms : r.TermsLegal) (key : ∀ j q, j ≠ i → s.record j = some q → q.key ≠ r.key) :
    (s.setRecord i (some r)).DirectoryLegal := by
  have hrec : ∀ j q, (s.setRecord i (some r)).record j = some q → (j = i ∧ q = r) ∨ (j ≠ i ∧ s.record j = some q) := by
    intro j q hq
    by_cases hj : j = i
    · subst hj
      exact .inl ⟨rfl, by simpa [eq_comm] using hq⟩
    · exact .inr ⟨hj, by simpa [hj] using hq⟩
  refine ⟨fun j q hq => ?_, fun j k q q' hq hq' hk => ?_⟩
  · rcases hrec j q hq with ⟨-, rfl⟩ | ⟨-, hold⟩
    · exact terms
    · exact h.1 j q hold
  · rcases hrec j q hq with ⟨rfl, rfl⟩ | ⟨hj, hold⟩ <;> rcases hrec k q' hq' with ⟨rfl, rfl⟩ | ⟨hk', hold'⟩
    · rfl
    · exact absurd hk.symm (key k q' hk' hold')
    · exact absurd hk (key j q hj hold)
    · exact h.2 j k q q' hold hold' hk

/-- Terms in range as DEFINE and AMEND carry them are the terms of a legal record (R13, R166). -/
theorem TermsHold.termsLegal {ps : List Byte} (h : TermsHold ps) {r : Resource} (key : r.key ≠ 0)
    (cls : r.cls = classOf (byteAt ps 2) (byteAt ps 3)) (term : r.leaseTerm = wordAt ps 4)
    (margin : r.warnMargin = wordAt ps 6) (window : r.offerWindow = wordAt ps 8) : r.TermsLegal := by
  obtain ⟨hcls, hterm, hmargin, hwindow, hwindow'⟩ := h
  simp only [Resource.TermsLegal, term, margin, window, cls]
  refine ⟨key, hterm, hmargin, hwindow, hwindow', fun limit hl => ?_⟩
  unfold classOf at hl
  split at hl
  · rename_i h2
    obtain rfl := ResClass.shareable.inj hl
    rcases hcls with ⟨h1, -⟩ | ⟨-, h2, h6⟩
    · simp [h2] at h1
    · exact ⟨h2, h6⟩
  · cases hl

/-- What is said of the records and of the client records alone does not change with the rest. -/
theorem State.TermsAndSettings.congr {s t : State} (h : s.TermsAndSettings) (slots : t.slots = s.slots)
    (clients : t.clients = s.clients) : t.TermsAndSettings := by
  have hr : ∀ i, t.record i = s.record i := fun i => by simp [State.record, slots]
  have hc : ∀ c, t.client c = s.client c := fun c => by simp [State.client, clients]
  simpa only [State.TermsAndSettings, State.DirectoryLegal, State.HoldWithinAllowance, State.SettingsLegal, hr, hc] using h

theorem State.TermsAndSettings.answer {s : State} (h : s.TermsAndSettings) (p : ClientId) (a : Answer)
    (data : List Byte) : (s.answer p a data).TermsAndSettings := h.congr rfl rfl

theorem execDefine_termsAndSettings (p : ClientId) (s : State) (h : s.TermsAndSettings) :
    ∃ t, execDefine p s = .next t ∧ t.TermsAndSettings := by
  refine ⟨_, rfl, State.request_induction h (h.answer p · []) fun ps hp => ?_⟩
  obtain ⟨-, -, -, -, hkey, hterms⟩ := hp
  split
  · exact h.answer p _ _
  rename_i hnone
  have hfree : s.slotOfKey (wordAt ps 0) = none := by simpa using hnone
  split
  · exact h.answer p _ _
  rename_i i _
  have hdefined : (s.setRecord i (some (definedRecord ps))).DirectoryLegal :=
    h.1.setRecord i _ (hterms.termsLegal ((ne_zero_iff_one_le _).mpr hkey) rfl rfl rfl rfl)
      fun j q _ hq => (s.slotOfKey_eq_none _).mp hfree j q hq
  exact State.TermsAndSettings.answer (s := s.setRecord i (some (definedRecord ps))) ⟨hdefined, h.2⟩ p _ _

theorem execAmend_termsAndSettings (p : ClientId) (s : State) (h : s.TermsAndSettings) :
    ∃ t, execAmend p s = .next t ∧ t.TermsAndSettings := by
  refine ⟨_, rfl, State.requestAtRecord_induction h (h.answer p · []) fun ps i r hp hr _ => ?_⟩
  obtain ⟨-, -, -, -, -, hterms⟩ := hp
  simp only
  split
  · exact h.answer p _ _
  have hamended : (s.setRecord i (some (r.amended ps))).TermsAndSettings := by
    refine ⟨h.1.setRecord i _ (hterms.termsLegal (h.1.1 i r hr).1 rfl rfl rfl rfl) fun j q hj hq hk => ?_, h.2⟩
    exact hj (h.1.2 j i q r hq hr hk)
  refine State.TermsAndSettings.answer ?_ p _ _
  split
  · exact ((State.KeepsTerms.refl _).offerCheck i).termsAndSettings hamended
  · exact hamended

/-! ### The client records -/

theorem Client.initial_settingsHold (c : ClientId) : (Client.initial c).SettingsHold := by
  simp [Client.SettingsHold, Client.initial, Client.allowanceMs, Config.defaultQuota]

theorem Client.afterResetPin_settingsHold (x : Client) (c : ClientId) : (x.afterResetPin c).SettingsHold :=
  Client.initial_settingsHold c

/-- Without a record the directory is legal. -/
theorem State.directoryLegal_of_empty {s : State} (h : ∀ i, s.record i = none) : s.DirectoryLegal := by
  refine ⟨fun i r hr => ?_, fun i j r r' hr => ?_⟩ <;>
  · rw [h] at hr
    cases hr

/-- One client record changes, its settings in range. -/
theorem State.TermsAndSettings.setClient {s : State} (h : s.TermsAndSettings) (c : ClientId) (x : Client)
    (hx : x.SettingsHold) : (s.setClient c x).TermsAndSettings := by
  rw [State.termsAndSettings_iff] at h ⊢
  refine ⟨h.1, fun d => ?_⟩
  by_cases hd : d = c
  · subst hd
    simpa using hx
  · simpa [hd] using h.2 d

theorem execPowerOn_termsAndSettings (sel rsn hld : BitVec 6) (s : State) :
    ∃ t, execPowerOn sel rsn hld s = .next t ∧ t.TermsAndSettings := by
  refine ⟨_, rfl, (State.termsAndSettings_iff _).mpr ⟨State.directoryLegal_of_empty fun i => ?_, fun c => ?_⟩⟩
  · simp [State.record, State.powerOn]
  · simpa [State.client, State.powerOn] using Client.initial_settingsHold c

theorem execResetPin_termsAndSettings (s : State) : ∃ t, execResetPin s = .next t ∧ t.TermsAndSettings := by
  refine ⟨_, rfl, (State.termsAndSettings_iff _).mpr ⟨State.directoryLegal_of_empty fun i => ?_, fun c => ?_⟩⟩
  · simp [State.record]
  · simpa [State.client] using (s.client c).afterResetPin_settingsHold c

theorem Client.countHold_settingsHold {x : Client} (h : x.SettingsHold) : x.countHold.SettingsHold := by
  unfold Client.countHold
  split
  · exact ⟨Nat.min_le_right _ _, h.2⟩
  · exact h

theorem execMillisecondBoundary_termsAndSettings (s : State) (h : s.TermsAndSettings) :
    ∃ t, execMillisecondBoundary s = .next t ∧ t.TermsAndSettings := by
  refine ⟨_, rfl, ?_⟩
  split
  · rw [State.termsAndSettings_iff] at h ⊢
    refine ⟨h.1, fun c => ?_⟩
    simpa [State.client] using Client.countHold_settingsHold (h.2 c)
  · exact h

theorem execJoin_termsAndSettings (p : ClientId) (s : State) (h : s.TermsAndSettings) :
    ∃ t, execJoin p s = .next t ∧ t.TermsAndSettings := by
  refine ⟨_, rfl, State.request_induction h (h.answer p · []) fun _ _ => ?_⟩
  have hx := (s.termsAndSettings_iff.mp h).2 p
  refine State.TermsAndSettings.answer ?_ p _ _
  exact (State.KeepsTerms.of_quiet (State.evaluateFreeze_quiet _ p)).termsAndSettings
    (h.setClient p _ ⟨Nat.zero_le _, hx.2⟩)

theorem execSetClient_termsAndSettings (p : ClientId) (s : State) (h : s.TermsAndSettings) :
    ∃ t, execSetClient p s = .next t ∧ t.TermsAndSettings := by
  refine ⟨_, rfl, State.request_induction h (h.answer p · []) fun ps hp => ?_⟩
  obtain ⟨-, -, -, -, -, hquota, hquota', -, -, hallowance, -⟩ := hp
  simp only
  split
  · exact h.answer p _ _
  refine State.TermsAndSettings.answer ?_ p _ _
  refine (State.KeepsTerms.of_quiet (State.evaluateFreeze_quiet _ _)).termsAndSettings ?_
  have hended := (State.KeepsTerms.of_quiet (s.endFreeze_quiet (clientOf (byteAt ps 0)))).termsAndSettings h
  exact hended.setClient _ _ ⟨Nat.zero_le _, hquota, hquota', hallowance⟩

theorem execAllowanceEnd_termsAndSettings (c : ClientId) (s : State) (h : s.TermsAndSettings) :
    ∃ t, execAllowanceEnd c s = .next t ∧ t.TermsAndSettings := by
  refine ⟨_, rfl, ?_⟩
  split
  · have hx := (s.termsAndSettings_iff.mp h).2 c
    exact (State.KeepsTerms.of_quiet (State.thaw_quiet _ c _)).termsAndSettings
      (h.setClient c _ ⟨Nat.le_refl _, hx.2⟩)
  · exact h

/-! ### Every command -/

/-- Every command keeps terms, keys, settings and hold used in range. -/
theorem exec_termsAndSettings (c : Instr) (s : State) (h : s.TermsAndSettings) :
    ∃ t, exec c s = .next t ∧ t.TermsAndSettings := by
  by_cases hc : changesTermsOrSettings c = true
  · cases c with
    | powerOn sel rsn hld => exact execPowerOn_termsAndSettings sel rsn hld s
    | resetPin => exact execResetPin_termsAndSettings s
    | millisecondBoundary => exact execMillisecondBoundary_termsAndSettings s h
    | join p => exact execJoin_termsAndSettings p s h
    | define p => exact execDefine_termsAndSettings p s h
    | amend p => exact execAmend_termsAndSettings p s h
    | setClient p => exact execSetClient_termsAndSettings p s h
    | allowanceEnd c => exact execAllowanceEnd_termsAndSettings c s h
    | _ => cases hc
  · obtain ⟨t, ht, keeps⟩ := exec_keepsTerms c s (by simpa using hc)
    exact ⟨t, ht, keeps.termsAndSettings h⟩

/-- What every command makes of a state that the queue does not matter to, every step makes of it, if an idle step does
(log 1). -/
theorem step_leads {P Q : State → Prop} (queue : ∀ (s : State) (q : List Instr), P s → P { s with pending := q })
    (command : ∀ (c : Instr) (s : State), P s → ∃ t, exec c s = .next t ∧ Q t) (idle : ∀ s, P s → Q s) {s t : State}
    (h : P s) (hstep : step s = .next t) : Q t := by
  cases hq : s.pending with
  | nil =>
    rw [step_nil s hq] at hstep
    cases hstep
    exact idle s h
  | cons c rest =>
    obtain ⟨u, hu, hQ⟩ := command c _ (queue s rest h)
    rw [step_cons s c rest hq, hu] at hstep
    cases hstep
    exact hQ

/-- Settles O51: every command but DEFINE, AMEND, JOIN, SET CLIENT, the clock, ALLOWANCE-END and the part resets leaves
what the laws read as it is; these put values in range there. -/
theorem stepKeepsTermsAndSettings : Obligations.StepKeepsTermsAndSettings := by
  intro s t hdirectory hhold hsettings hstep
  exact step_leads (P := State.TermsAndSettings) (fun _ _ h => h.congr rfl rfl) exec_termsAndSettings (fun _ => id)
    ⟨hdirectory, hhold, hsettings⟩ hstep

end Sys2Proof.Machine
end

section
/-! SUPPORT. The offer check's condition slot by slot (R6, R12, R46): what an edit of one record leaves of it at every other
slot, and what the offer check and the hand-over restore at that one. -/

namespace Sys2Proof.Machine

/-! ### The condition at one slot -/

/-- A queue in priority order (R46), and a RETIRING record without a promise and with a holding left (R6, R18). -/
def Resource.Shaped (r : Resource) : Prop :=
  (r.queue.Pairwise fun v w => w.priority ≤ v.priority)
  ∧ (r.lifecycle = .retiring → r.queue = [] ∧ r.holders ≠ [] ∧ ∀ h ∈ r.holders, h.state = .held)

/-- Every record is shaped so. -/
def State.RecordsShaped (s : State) : Prop := ∀ i r, s.record i = some r → r.Shaped

theorem State.RecordsShaped.at_self {s : State} (h : s.RecordsShaped) {i : SlotId} :
    ∀ r, s.record i = some r → r.Shaped := h i

/-- The slot stands in the Offer Backlog if its head entry is due an offer (R12), and not if its record is RETIRING (R6). -/
def State.Settled (s : State) (i : SlotId) : Prop :=
  ∀ r, s.record i = some r →
    (∀ w, r.queue.head? = some w → (s.client w.client).session ≠ .teardown → r.Admits w.mode →
      s.grant ≠ 0xFFFFFFFF#32 → i ∈ s.backlog)
    ∧ (r.lifecycle = .retiring → i ∉ s.backlog)

/-- Every record is shaped and every slot but `i` settled: an offer check of slot `i` is still to come. -/
def State.ServedBut (s : State) (i : SlotId) : Prop := s.RecordsShaped ∧ ∀ j, j ≠ i → s.Settled j

/-- Every record is shaped and every slot settled. -/
def State.Served (s : State) : Prop := s.RecordsShaped ∧ ∀ j, s.Settled j

theorem State.served_iff (s : State) : s.Served ↔ s.NoneUnserved ∧ s.QueuesOrdered ∧ s.RetiringLaw := by
  constructor
  · rintro ⟨shaped, settled⟩
    refine ⟨fun i r w hr => (settled i r hr).1 w, fun i r hr => (shaped i r hr).1, fun i r hr hl => ?_⟩
    obtain ⟨hq, hne, hheld⟩ := (shaped i r hr).2 hl
    exact ⟨hq, hne, hheld, (settled i r hr).2 hl⟩
  · rintro ⟨unserved, ordered, retiring⟩
    refine ⟨fun i r hr => ⟨ordered i r hr, fun hl => ?_⟩, fun i r hr => ⟨fun w => unserved i r w hr, fun hl => ?_⟩⟩
    · obtain ⟨hq, hne, hheld, -⟩ := retiring i r hr hl
      exact ⟨hq, hne, hheld⟩
    · exact (retiring i r hr hl).2.2.2

theorem State.Served.but {s : State} (h : s.Served) (i : SlotId) : s.ServedBut i := ⟨h.1, fun j _ => h.2 j⟩

theorem State.ServedBut.served {s : State} {i : SlotId} (h : s.ServedBut i) (hi : s.Settled i) : s.Served :=
  ⟨h.1, fun j => if hj : j = i then hj ▸ hi else h.2 j hj⟩

theorem State.served_of_empty {s : State} (h : ∀ i, s.record i = none) : s.Served := by
  refine ⟨fun i r hr => ?_, fun i r hr => ?_⟩ <;>
  · rw [h] at hr
    cases hr

/-! ### Where the condition at a slot is kept -/

/-- A slot stays settled where its head entry, its lifecycle and its place in the backlog stay, and nothing comes to admit
the entry. -/
theorem State.Settled.keep {s t : State} {i : SlotId} (h : s.Settled i)
    (record : ∀ r', t.record i = some r' → ∃ r, s.record i = some r ∧ r'.queue.head? = r.queue.head?
      ∧ r'.lifecycle = r.lifecycle ∧ ∀ m, r'.Admits m → r.Admits m)
    (backlog : i ∈ t.backlog ↔ i ∈ s.backlog)
    (sessions : ∀ r' w, t.record i = some r' → r'.queue.head? = some w → (t.client w.client).session ≠ .teardown →
      (s.client w.client).session ≠ .teardown)
    (grant : t.grant ≠ 0xFFFFFFFF#32 → s.grant ≠ 0xFFFFFFFF#32) : t.Settled i := by
  intro r' hr'
  obtain ⟨r, hr, hhead, hlife, hadmits⟩ := record r' hr'
  obtain ⟨hserve, hretiring⟩ := h r hr
  refine ⟨fun w hw hs ha hg => ?_, fun hl hin => hretiring (hlife ▸ hl) (backlog.mp hin)⟩
  exact backlog.mpr (hserve w (hhead ▸ hw) (sessions r' w hr' hw hs) (hadmits _ ha) (grant hg))

/-- A slot stays settled where its record stays too. -/
theorem State.Settled.untouched {s t : State} {i : SlotId} (h : s.Settled i) (record : t.record i = s.record i)
    (backlog : i ∈ t.backlog ↔ i ∈ s.backlog)
    (sessions : ∀ c, (t.client c).session ≠ .teardown → (s.client c).session ≠ .teardown)
    (grant : t.grant ≠ 0xFFFFFFFF#32 → s.grant ≠ 0xFFFFFFFF#32) : t.Settled i :=
  h.keep (fun r' hr' => ⟨r', record ▸ hr', rfl, rfl, fun _ => id⟩) backlog (fun _ _ _ _ => sessions _) grant

/-- A slot whose offer check has stopped is settled (R11, R12). -/
theorem State.Checked.settled {s : State} {i : SlotId} (h : s.Checked i) (hs : s.RecordsShaped) : s.Settled i := by
  intro r hr
  refine ⟨fun w hw _ ha hg => h.2.mpr ⟨r, w, hr, hw, ha, hg⟩, fun hl hin => ?_⟩
  obtain ⟨r', w, hr', hw, -⟩ := h.2.mp hin
  obtain rfl : r = r' := by simpa [hr] using hr'
  simp [((hs i r hr).2 hl).1] at hw

/-- Offers keep every record shaped: entries leave the head of a queue, and a RETIRING record gets none. -/
theorem State.OffersMade.recordsShaped {s t : State} {os : List Offer} (h : s.OffersMade t os) (hs : s.RecordsShaped) :
    t.RecordsShaped := by
  intro i r' hr'
  cases hr : s.record i with
  | none => rw [(h.free i hr).1] at hr'; cases hr'
  | some r =>
    obtain ⟨q, gone, hq, ⟨heq, hqueue, hclients, -, -⟩, -⟩ := h.record i r hr
    obtain rfl : q = r' := by simpa [hr'] using hq.symm
    obtain ⟨ordered, retiring⟩ := hs i r hr
    rw [hqueue, List.pairwise_append] at ordered
    refine ⟨ordered.2.1, fun hl => ?_⟩
    obtain ⟨hnil, hne, hheld⟩ := retiring (((congrArg Resource.lifecycle heq).symm).trans hl)
    obtain ⟨rfl, hnil'⟩ := List.append_eq_nil_iff.mp (hqueue.symm.trans hnil)
    have hnone : (os.filter fun x => x.slot == i) = [] := by simpa using hclients
    have hholders : q.holders = r.holders := by simpa [hnone] using congrArg Resource.holders heq
    exact ⟨hnil', hholders ▸ hne, hholders ▸ hheld⟩

/-- A slot that offers do not touch stays settled (R12, R28). -/
theorem State.Settled.offers {s t : State} {i : SlotId} {os : List Offer} (h : s.Settled i) (hm : s.OffersMade t os)
    (record : t.record i = s.record i) (backlog : i ∈ t.backlog ↔ i ∈ s.backlog) : t.Settled i :=
  h.untouched record backlog (fun c hc => by rwa [hm.client] at hc) fun hg hs => hg (hm.spent hs)

/-! ### The offer check and the hand-over restore it -/

/-- The offer check settles its slot (R11). -/
theorem State.ServedBut.offerCheck {s : State} {i : SlotId} (h : s.ServedBut i) : (s.offerCheck i).Served := by
  obtain ⟨os, hm, -, elsewhere, hc, hb, -⟩ := s.offerCheck_pass i
  have hshaped := hm.recordsShaped h.1
  exact State.ServedBut.served ⟨hshaped, fun j hj => (h.2 j hj).offers hm (elsewhere j hj) (hb j hj)⟩
    (hc.settled hshaped)

theorem State.giveBack_recordsShaped {s : State} (h : s.RecordsShaped) : s.giveBack.1.RecordsShaped := by
  obtain ⟨os, hm, -⟩ := s.giveBack_handed.offers
  exact hm.recordsShaped h

/-- One holding record handed along the backlog settles every resource whose offer check it makes, and leaves the others
settled (R67). -/
theorem State.giveBack_settled {s : State} (hs : s.RecordsShaped) {j : SlotId} (h : j ∈ s.giveBack.2 ∨ s.Settled j) :
    s.giveBack.1.Settled j := by
  have handed := s.giveBack_handed
  obtain ⟨os, hm, -⟩ := handed.offers
  by_cases hc : j ∈ s.giveBack.2
  · exact (handed.inside j hc).settled (State.giveBack_recordsShaped hs)
  · obtain ⟨hrec, hb⟩ := handed.outside j hc
    exact (h.resolve_left hc).offers hm hrec hb

theorem State.Served.giveBack {s : State} (h : s.Served) : s.giveBack.1.Served :=
  ⟨State.giveBack_recordsShaped h.1, fun j => State.giveBack_settled h.1 (.inr (h.2 j))⟩

theorem State.Served.giveBackMany (n : Nat) {s : State} (h : s.Served) : (State.giveBackMany n s).Served := by
  induction n generalizing s with
  | zero => exact h
  | succ n ih => exact ih h.giveBack

/-- Steps 6 and 7 of R40 settle the slot (R11, R67). -/
theorem State.ServedBut.giveBackAndCheck {s : State} {i : SlotId} (h : s.ServedBut i) :
    (s.giveBackAndCheck i).Served := by
  have heq : s.giveBackAndCheck i = if s.giveBack.2.contains i then s.giveBack.1 else s.giveBack.1.offerCheck i := rfl
  have hbut : s.giveBack.1.ServedBut i :=
    ⟨State.giveBack_recordsShaped h.1, fun j hj => State.giveBack_settled h.1 (.inr (h.2 j hj))⟩
  rw [heq]
  split
  · rename_i hi
    exact hbut.served (State.giveBack_settled h.1 (.inl (by simpa using hi)))
  · exact hbut.offerCheck

/-! ### Edits -/

/-- An edit of slot `i`'s record leaves every other slot settled. -/
theorem State.Served.edit {s t : State} {i : SlotId} (h : s.Served) (elsewhere : s.SameRecordsBut t i)
    (backlog : ∀ j, j ≠ i → (j ∈ t.backlog ↔ j ∈ s.backlog)) (clients : t.clients = s.clients)
    (grant : t.grant ≠ 0xFFFFFFFF#32 → s.grant ≠ 0xFFFFFFFF#32) (shaped : ∀ r, t.record i = some r → r.Shaped) :
    t.ServedBut i := by
  refine ⟨fun j r hr => ?_, fun j hj => ?_⟩
  · by_cases hj : j = i
    · exact shaped r (hj ▸ hr)
    · exact h.1 j r (elsewhere j hj ▸ hr)
  · exact (h.2 j).untouched (elsewhere j hj) (backlog j hj) (fun c => by simp [State.client, clients]) grant

/-- As `edit`, where the backlog and the grant counter stay. -/
theorem State.Served.withdraws {s t : State} {i : SlotId} (h : s.Served) (k : s.Withdraws t i)
    (shaped : ∀ r, t.record i = some r → r.Shaped) : t.ServedBut i :=
  h.edit k.elsewhere (fun _ _ => by rw [k.backlog]) k.clients (by rw [k.grant]; exact id) shaped

/-- An edit that leaves the head entry and the lifecycle, and lets nothing come to admit the entry, leaves every slot
settled. -/
theorem State.Served.withdraws_settled {s t : State} {i : SlotId} (h : s.Served) (k : s.Withdraws t i)
    (shaped : ∀ r, t.record i = some r → r.Shaped)
    (record : ∀ r', t.record i = some r' → ∃ r, s.record i = some r ∧ r'.queue.head? = r.queue.head?
      ∧ r'.lifecycle = r.lifecycle ∧ ∀ m, r'.Admits m → r.Admits m) : t.Served :=
  (h.withdraws k shaped).served ((h.2 i).keep record (by rw [k.backlog])
    (fun _ _ _ _ => by simp [State.client, k.clients]) (by rw [k.grant]; exact id))

theorem State.claimCount_eq_zero {s : State} {c : ClientId} (h : s.claimCount c = 0) {i : SlotId} {r : Resource}
    (hr : s.record i = some r) : r.claimsOf c = 0 := by
  rw [State.claimCount, State.total_eq_sum, Finset.sum_eq_zero_iff] at h
  simpa [hr] using h i (Finset.mem_univ i)

/-- Where the directory is as before the condition holds as before: a client that has left TEARDOWN has no entry. -/
theorem State.Served.sameDirectory {s t : State} (h : s.Served) (k : s.SameDirectory t) : t.Served := by
  have hrec : ∀ j, t.record j = s.record j := fun j => by simp [State.record, k.slots]
  refine ⟨fun j r hr => h.1 j r (hrec j ▸ hr), fun j => (h.2 j).keep
    (fun r' hr' => ⟨r', hrec j ▸ hr', rfl, rfl, fun _ => id⟩) (by rw [k.backlog]) (fun r w hr hw hs htd => ?_)
    (by rw [k.grant]; exact id)⟩
  rcases k.teardown w.client htd with htd' | hzero
  · exact hs htd'
  · have hno := State.claimCount_eq_zero hzero (hrec j ▸ hr)
    have hpos : 0 < r.queue.countP fun v => v.client == w.client :=
      List.countP_pos_iff.mpr ⟨w, List.mem_of_head? hw, by simp⟩
    unfold Resource.claimsOf at hno
    omega

theorem State.Served.quiet {s t : State} (h : s.Served) (k : s.Quiet t) : t.Served := h.sameDirectory k.toSameDirectory

theorem State.Served.answer {s : State} (h : s.Served) (p : ClientId) (a : Answer) (data : List Byte) :
    (s.answer p a data).Served := h.quiet ((State.Quiet.refl s).answer p a data)

/-- An edit that leaves the deadlines and the notices aside is what an edit that changes them too is for the condition. -/
theorem State.ServedBut.quiet {s t : State} {i : SlotId} (h : s.ServedBut i) (k : s.Quiet t)
    (clients : t.clients = s.clients) : t.ServedBut i := by
  have hrec : ∀ j, t.record j = s.record j := fun j => by simp [State.record, k.slots]
  exact ⟨fun j r hr => h.1 j r (hrec j ▸ hr), fun j hj => (h.2 j hj).untouched (hrec j) (by rw [k.backlog])
    (fun c => by simp [State.client, clients]) (by rw [k.grant]; exact id)⟩

end Sys2Proof.Machine
end

section
/-! PROOF. Every command keeps the offer check's condition, priority order and the law of RETIRING records: O56. -/

namespace Sys2Proof.Machine

/-! ### Edits of a holder list or a queue -/

theorem State.record_modifyRecord_self (s : State) (i : SlotId) (f : Resource → Resource) :
    (s.modifyRecord i f).record i = (s.record i).map f := by
  cases hr : s.record i with
  | none => simp [s.modifyRecord_none i f hr, hr]
  | some r => simp [s.modifyRecord_some i f r hr]

theorem State.modifyRecord_withdraws (s : State) (i : SlotId) (f : Resource → Resource) :
    s.Withdraws (s.modifyRecord i f) i := by
  cases hr : s.record i with
  | none => rw [s.modifyRecord_none i f hr]; exact .refl s i
  | some r => rw [s.modifyRecord_some i f r hr]; exact s.setRecord_withdraws i _

/-- An edit of each holding that keeps HELD ones HELD keeps a record shaped. -/
theorem Resource.Shaped.mapHolders {r : Resource} (h : r.Shaped) (f : Holding → Holding)
    (held : ∀ g, g.state = .held → (f g).state = .held) : Resource.Shaped { r with holders := r.holders.map f } := by
  refine ⟨h.1, fun hl => ?_⟩
  obtain ⟨hq, hne, hheld⟩ := h.2 hl
  refine ⟨hq, by simpa using hne, fun g hg => ?_⟩
  obtain ⟨g', hg', rfl⟩ := List.mem_map.mp hg
  exact held g' (hheld g' hg')

/-- Which tenures a record admits depends on the tenures of its holdings alone (R26). -/
theorem Resource.admits_of_mapHolders {r : Resource} {f : Holding → Holding} (tenure : ∀ g, (f g).tenure = g.tenure)
    {m : Tenure} (h : Resource.Admits { r with holders := r.holders.map f } m) : r.Admits m := by
  cases m <;> cases hc : r.cls <;> simp [Resource.Admits, hc, tenure] at h ⊢
  case exclusive.exclusiveOnly | exclusive.shareable => exact h
  case shared.shareable => exact h

/-- The first entry stays first when another leaves the queue. -/
theorem head?_eraseP_of_ne {α : Type} {p : α → Bool} {l : List α} (h : ∀ x, l.head? = some x → p x = false) :
    (l.eraseP p).head? = l.head? := by
  cases l with
  | nil => rfl
  | cons x l => simp [h x rfl]

/-- An entry that leaves a queue keeps the record shaped. -/
theorem Resource.Shaped.eraseWaiter {r : Resource} (h : r.Shaped) (p : Waiter → Bool) :
    Resource.Shaped { r with queue := r.queue.eraseP p } := by
  refine ⟨h.1.sublist List.eraseP_sublist, fun hl => ?_⟩
  obtain ⟨hq, hne, hheld⟩ := h.2 hl
  exact ⟨by simp [hq], hne, hheld⟩

/-! ### Holdings changed and created -/

theorem State.Served.modifyHolding_but {s : State} (h : s.Served) (i : SlotId) (c : ClientId) (f : Holding → Holding)
    (held : ∀ g, g.state = .held → (f g).state = .held) : (s.modifyHolding i c f).ServedBut i := by
  refine h.withdraws (s.modifyRecord_withdraws i _) fun r' hr' => ?_
  obtain ⟨r, hr, rfl⟩ := Option.map_eq_some_iff.mp ((s.record_modifyRecord_self i _).symm.trans hr')
  refine (h.1 i r hr).mapHolders _ fun g hg => ?_
  split
  · exact held g hg
  · exact hg

theorem State.Served.modifyHolding {s : State} (h : s.Served) (i : SlotId) (c : ClientId) (f : Holding → Holding)
    (held : ∀ g, g.state = .held → (f g).state = .held) (tenure : ∀ g, (f g).tenure = g.tenure) :
    (s.modifyHolding i c f).Served := by
  refine h.withdraws_settled (s.modifyRecord_withdraws i _) (h.modifyHolding_but i c f held).1.at_self fun r' hr' => ?_
  obtain ⟨r, hr, rfl⟩ := Option.map_eq_some_iff.mp ((s.record_modifyRecord_self i _).symm.trans hr')
  refine ⟨r, hr, rfl, rfl, fun m => Resource.admits_of_mapHolders fun g => ?_⟩
  split
  · exact tenure g
  · rfl

/-- A HELD holding more admits no tenure more (R26, R50). -/
theorem Resource.admits_of_append {r : Resource} {hs : List Holding} {m : Tenure}
    (h : Resource.Admits { r with holders := r.holders ++ hs } m) : r.Admits m := by
  cases m <;> cases hc : r.cls <;> simp [Resource.Admits, hc] at h ⊢
  case exclusive.exclusiveOnly | exclusive.shareable => exact h.1
  case shared.shareable => exact ⟨fun g hg => h.1 g (.inl hg), by omega⟩

theorem State.Served.createHeld {s : State} (h : s.Served) (i : SlotId) (c : ClientId) (m : Tenure)
    (spent : s.grant ≠ 0xFFFFFFFF#32) : (s.createHolding i c m .held).Served := by
  have k : (s.setGrant (s.grant + 1)).Withdraws (s.createHolding i c m .held) i := State.modifyRecord_withdraws _ i _
  have hb : (s.createHolding i c m .held).backlog = s.backlog := k.backlog
  have hc : (s.createHolding i c m .held).clients = s.clients := k.clients
  have hrec : ∀ r', (s.createHolding i c m .held).record i = some r' → ∃ r g, s.record i = some r
      ∧ g.state = .held ∧ r' = { r with holders := r.holders ++ [g] } := fun r' hr' => by
    obtain ⟨r, hr, rfl⟩ := Option.map_eq_some_iff.mp
      (((s.setGrant (s.grant + 1)).record_modifyRecord_self i _).symm.trans hr')
    exact ⟨r, _, hr, rfl, rfl⟩
  refine (h.edit (i := i) k.elsewhere (fun j _ => by rw [hb]) hc (fun _ => spent) fun r' hr' => ?_).served
    ((h.2 i).keep (fun r' hr' => ?_) (by rw [hb]) (fun _ _ _ _ => by simp [State.client, hc]) fun _ => spent)
  · obtain ⟨r, g, hr, hg, rfl⟩ := hrec r' hr'
    obtain ⟨ordered, retiring⟩ := h.1 i r hr
    refine ⟨ordered, fun hl => ?_⟩
    obtain ⟨hq, -, hheld⟩ := retiring hl
    refine ⟨hq, by simp, fun g' hg' => ?_⟩
    rcases List.mem_append.mp hg' with hg' | hg'
    · exact hheld g' hg'
    · rwa [List.mem_singleton.mp hg']
  · obtain ⟨r, g, hr, -, rfl⟩ := hrec r' hr'
    exact ⟨r, hr, rfl, rfl, fun m => Resource.admits_of_append⟩

/-- A lease warning marks the holding and changes nothing else of the directory (R84). -/
theorem State.Served.warnLease {s : State} (h : s.Served) (i : SlotId) (c : ClientId) (due : Time) (interval : Ms) :
    (s.warnLease i c due interval).Served := by
  have hwarned := (h.quiet (.of_sameButDeadlines ((s.removeLive_same (.holding i c)).trans
    (State.insertDeadline_same _ { owner := .holding i c, kind := .leaseEnd, due := due + interval.setWidth 32 })))).modifyHolding
      i c (fun g => { g with warned := true }) (fun _ => id) fun _ => rfl
  unfold State.warnLease
  simp only
  split
  · exact hwarned
  split
  · exact hwarned
  · exact hwarned.quiet (.of_sameButNotices (State.raiseNotice_same _ c _))

/-! ### The end of a wait (R47) -/

theorem State.dropWaiter_withdraws (s : State) (i : SlotId) (c : ClientId) : s.Withdraws (s.dropWaiter i c) i :=
  (s.modifyRecord_withdraws i _).trans ((State.disarm_same _ _).withdraws i)

theorem State.record_dropWaiter_self (s : State) (i : SlotId) (c : ClientId) :
    (s.dropWaiter i c).record i
      = (s.record i).map fun r => { r with queue := r.queue.eraseP fun w => w.client == c } := by
  rw [State.dropWaiter, (State.disarm_same _ _).record, State.record_modifyRecord_self]

theorem State.Served.dropWaiter_but {s : State} (h : s.Served) (i : SlotId) (c : ClientId) :
    (s.dropWaiter i c).ServedBut i := by
  refine h.withdraws (s.dropWaiter_withdraws i c) fun r' hr' => ?_
  rw [s.record_dropWaiter_self] at hr'
  obtain ⟨r, hr, rfl⟩ := Option.map_eq_some_iff.mp hr'
  exact (h.1 i r hr).eraseWaiter _

/-- An entry that is not the head leaves nothing to check (R47). -/
theorem State.Served.dropWaiter {s : State} (h : s.Served) (i : SlotId) (c : ClientId)
    (head : ∀ r, s.record i = some r → r.queue.head?.map Waiter.client ≠ some c) : (s.dropWaiter i c).Served := by
  refine h.withdraws_settled (s.dropWaiter_withdraws i c) (h.dropWaiter_but i c).1.at_self fun r' hr' => ?_
  rw [s.record_dropWaiter_self] at hr'
  obtain ⟨r, hr, rfl⟩ := Option.map_eq_some_iff.mp hr'
  refine ⟨r, hr, head?_eraseP_of_ne fun w hw => ?_, rfl, fun _ => id⟩
  simpa [hw] using head r hr

theorem State.Served.endWait {s : State} (h : s.Served) (i : SlotId) (c : ClientId) : (s.endWait i c).Served := by
  unfold State.endWait
  split
  · exact h
  rename_i r hr
  simp only
  split
  · exact (h.dropWaiter_but i c).offerCheck
  · rename_i hhead
    exact h.dropWaiter i c fun q hq => by rwa [show q = r by simpa [hr] using hq.symm]

theorem State.Served.lapseWait {s : State} (h : s.Served) (i : SlotId) (c : ClientId) : (s.lapseWait i c).Served := by
  unfold State.lapseWait
  split
  · exact h
  rename_i r hr
  have told := (s.dropWaiter i c).raiseNotice_same c (notice r.key .waitLapsed none)
  simp only
  split
  · exact ((h.dropWaiter_but i c).quiet (.of_sameButNotices told) told.clients).offerCheck
  · rename_i hhead
    exact (h.dropWaiter i c fun q hq => by rwa [show q = r by simpa [hr] using hq.symm]).quiet (.of_sameButNotices told)

/-! ### The end of a holding (R40) -/

theorem State.dropHolding_withdraws (s : State) (i : SlotId) (r : Resource) (h : Holding) (cause : HoldingEnd) :
    s.Withdraws (s.dropHolding i r h cause) i :=
  ((s.setRecord_withdraws i _).trans ((State.disarm_same _ _).withdraws i)).trans
    ((State.endNotices_same _ _ _ _).withdraws i)

theorem State.record_dropHolding_self (s : State) (i : SlotId) (r : Resource) (h : Holding) (cause : HoldingEnd) :
    (s.dropHolding i r h cause).record i = some { r with
      holders := r.holders.eraseP fun g => g.client == h.client
      integrity := if h.endsSuspect cause then .suspect else r.integrity } := by
  have hslots := (State.endNotices_same ((s.setRecord i (some { r with
      holders := r.holders.eraseP fun g => g.client == h.client
      integrity := if h.endsSuspect cause then .suspect else r.integrity })).disarm (.holding i h.client)) r.key h
    cause).slots
  rw [State.dropHolding, State.record, hslots]
  exact ((State.disarm_same _ _).record i).trans (by simp)

/-- The record removed where it was RETIRING and its last holding has ended (R18). -/
theorem State.Served.removeRecord {s : State} (h : s.Served) (i : SlotId) (r : Resource) (g : Holding)
    (cause : HoldingEnd) : ((s.dropHolding i r g cause).removeRecord i).Served := by
  have k := s.dropHolding_withdraws i r g cause
  have hnone : ((s.dropHolding i r g cause).removeRecord i).record i = none := by
    simp [State.removeRecord, State.leaveBacklog]
  generalize s.dropHolding i r g cause = u at k hnone
  refine State.ServedBut.served (i := i) (h.edit (fun j hj => ?_) (fun j hj => ?_) k.clients ?_ fun q hq => ?_)
    fun q hq => ?_
  · simpa [State.removeRecord, State.leaveBacklog, hj] using k.elsewhere j hj
  · simp [State.removeRecord, State.leaveBacklog, hj, k.backlog]
  · simp [State.removeRecord, State.leaveBacklog, k.grant]
  all_goals
    rw [hnone] at hq
    cases hq

theorem State.Served.dropHolding_but {s : State} (h : s.Served) (i : SlotId) (r : Resource) (g : Holding)
    (cause : HoldingEnd) (hr : s.record i = some r) (stands : (s.dropHolding i r g cause).removalDue i ≠ true) :
    (s.dropHolding i r g cause).ServedBut i := by
  have hrec := s.record_dropHolding_self i r g cause
  refine h.withdraws (s.dropHolding_withdraws i r g cause) fun q hq => ?_
  obtain rfl := Option.some.inj (hrec.symm.trans hq)
  obtain ⟨ordered, retiring⟩ := h.1 i r hr
  refine ⟨ordered, fun hl => ?_⟩
  obtain ⟨hnil, -, hheld⟩ := retiring hl
  refine ⟨hnil, fun hempty => stands ?_, fun g' hg' => hheld g' (List.mem_of_mem_eraseP hg')⟩
  simp only at hl hempty
  simp [State.removalDue, hrec, hl, hempty]

theorem State.Served.endHolding {s : State} (h : s.Served) (i : SlotId) (c : ClientId) (cause : HoldingEnd) :
    (s.endHolding i c cause).Served := by
  unfold State.endHolding
  split
  · exact h
  rename_i r hr
  split
  · exact h
  rename_i g _
  simp only
  split
  · exact (h.removeRecord i r g cause).giveBack
  · rename_i hstands
    exact (h.dropHolding_but i r g cause hr hstands).giveBackAndCheck

/-! ### ACQUIRE (R50, R52) -/

/-- A new entry stands by its priority (R46). -/
theorem Resource.queueWith_ordered {r : Resource} (w : Waiter)
    (h : r.queue.Pairwise fun v w => w.priority ≤ v.priority) :
    (r.queueWith w).Pairwise fun v w => w.priority ≤ v.priority := by
  have horder : ∀ v u : Waiter, 3 - v.priority.val ≤ 3 - u.priority.val ↔ u.priority ≤ v.priority := fun v u => by
    rw [Fin.le_def]
    omega
  have := pairwise_insertAfterLast (fun v : Waiter => 3 - v.priority.val) w r.queue (by simpa only [horder] using h)
  simp only [horder] at this
  exact this

/-- A new entry that is not first stands behind the entry that was. -/
theorem Resource.head?_queueWith {r : Resource} {w : Waiter} (h : positionIn (r.queueWith w) w.client ≠ 1) :
    (r.queueWith w).head? = r.queue.head? := by
  obtain ⟨before, after, hq, hnew, -, -⟩ :=
    insertAfterLast_split (fun v => decide (w.priority ≤ v.priority)) w r.queue
  rw [Resource.queueWith, hnew] at h ⊢
  cases before with
  | nil => simp [positionIn, List.findIdx_cons] at h
  | cons v before => simp [hq]

theorem State.Served.enqueue {s : State} (h : s.Served) (i : SlotId) (r : Resource) (w : Waiter)
    (wait : Ms) (hr : s.record i = some r) (active : r.lifecycle = .active) :
    (s.enqueue w.client i r w wait).Served := by
  have hset : (s.setRecord i (some { r with queue := r.queueWith w })).ServedBut i := by
    refine h.withdraws (s.setRecord_withdraws i _) fun q hq => ?_
    obtain rfl : _ = q := by simpa using hq
    exact ⟨Resource.queueWith_ordered w (h.1 i r hr).1, fun hl => by simp [active] at hl⟩
  have hstays : positionIn (r.queueWith w) w.client ≠ 1 →
      (s.setRecord i (some { r with queue := r.queueWith w })).Served := fun hpos => by
    refine h.withdraws_settled (s.setRecord_withdraws i _) hset.1.at_self fun q hq => ?_
    obtain rfl : _ = q := by simpa using hq
    exact ⟨r, hr, Resource.head?_queueWith hpos, rfl, fun _ => id⟩
  have armed : (s.setRecord i (some { r with queue := r.queueWith w })).SameButDeadlines
      (if wait = 0xFFFF#16 then s.setRecord i (some { r with queue := r.queueWith w })
        else (s.setRecord i (some { r with queue := r.queueWith w })).arm (.waiter i w.client) .waitEnd wait.toNat) := by
    split
    · exact .refl _
    · exact State.arm_same _ _ _ _
  unfold State.enqueue
  simp only
  refine State.Served.answer ?_ _ _ _
  split
  · exact (hset.quiet (.of_sameButDeadlines armed) armed.clients).offerCheck
  · exact (hstays ‹_›).quiet (.of_sameButDeadlines armed)

/-! ### The commands -/

theorem execAcquire_served (p : ClientId) (s : State) (h : s.Served) : ∃ t, execAcquire p s = .next t ∧ t.Served := by
  refine ⟨_, rfl, State.requestAtRecord_induction h (h.answer p · []) fun ps i r _ hr active =>
    State.acquireAt_induction (h.answer p) (fun spent => ?_) fun _ _ => ?_⟩
  · exact ((h.createHeld i p _ spent).quiet (.of_sameButDeadlines (State.armLease_same _ _ _ _))).answer p _ _
  · exact h.enqueue i r _ _ hr (active (.inl rfl))

theorem execAccept_served (p : ClientId) (s : State) (h : s.Served) : ∃ t, execAccept p s = .next t ∧ t.Served := by
  refine ⟨_, rfl, State.requestAtRecord_induction h (h.answer p · []) fun ps i r _ _ _ => ?_⟩
  split
  · exact h.answer p _ _
  · have hheld := h.modifyHolding i p (fun g => { g with state := .held, warned := false }) (fun _ _ => rfl) fun _ => rfl
    exact ((hheld.quiet (.of_sameButDeadlines (State.armLease_same _ i p r))).quiet
      ((State.Quiet.refl _).setNoticeSet p _)).answer p _ _
  · exact h.answer p _ _

theorem execDecline_served (p : ClientId) (s : State) (h : s.Served) : ∃ t, execDecline p s = .next t ∧ t.Served := by
  refine ⟨_, rfl, State.requestAtRecord_induction h (h.answer p · []) fun ps i r _ _ _ => ?_⟩
  split
  · exact h.answer p _ _
  · exact (h.endHolding i p _).answer p _ _

theorem execCancel_served (p : ClientId) (s : State) (h : s.Served) : ∃ t, execCancel p s = .next t ∧ t.Served := by
  refine ⟨_, rfl, State.requestAtRecord_induction h (h.answer p · []) fun ps i r _ _ _ => ?_⟩
  split
  · exact (h.endWait i p).answer p _ _
  · exact h.answer p _ _

theorem execRenew_served (p : ClientId) (s : State) (h : s.Served) : ∃ t, execRenew p s = .next t ∧ t.Served := by
  refine ⟨_, rfl, State.requestAtRecord_induction h (h.answer p · []) fun ps i r _ _ _ => ?_⟩
  split
  · exact h.answer p _ _
  · have hrenewed := h.modifyHolding i p (fun g => { g with warned := false }) (fun _ => id) fun _ => rfl
    exact ((hrenewed.quiet (.of_sameButDeadlines (State.armLease_same _ i p r))).quiet
      ((State.Quiet.refl _).setNoticeSet p _)).answer p _ _

theorem execRelease_served (p : ClientId) (s : State) (h : s.Served) : ∃ t, execRelease p s = .next t ∧ t.Served := by
  refine ⟨_, rfl, State.requestAtRecord_induction h (h.answer p · []) fun ps i r _ _ _ => ?_⟩
  split
  · exact h.answer p _ _
  · exact (h.endHolding i p _).answer p _ _

theorem execDowngrade_served (p : ClientId) (s : State) (h : s.Served) :
    ∃ t, execDowngrade p s = .next t ∧ t.Served := by
  refine ⟨_, rfl, State.requestAtRecord_induction h (h.answer p · []) fun ps i r _ _ _ => ?_⟩
  split
  · exact h.answer p _ _
  split
  · exact h.answer p _ _
  split
  · exact h.answer p _ _
  · exact (h.modifyHolding_but i p (fun g => { g with tenure := .shared }) fun _ => id).offerCheck.answer p _ _

theorem execMarkSound_served (p : ClientId) (s : State) (h : s.Served) :
    ∃ t, execMarkSound p s = .next t ∧ t.Served := by
  refine ⟨_, rfl, State.requestAtRecord_induction h (h.answer p · []) fun ps i r _ hr _ => ?_⟩
  split
  · exact h.answer p _ _
  split
  · exact h.answer p _ _
  · refine State.Served.answer (h.withdraws_settled (s.setRecord_withdraws i _) (fun q hq => ?_) fun q hq => ?_) p _ _
    · obtain rfl : _ = q := by simpa using hq
      exact h.1 i r hr
    · obtain rfl : _ = q := by simpa using hq
      exact ⟨r, hr, rfl, rfl, fun _ => id⟩

theorem execRevoke_served (p : ClientId) (s : State) (h : s.Served) : ∃ t, execRevoke p s = .next t ∧ t.Served := by
  refine ⟨_, rfl, State.requestAtRecord_induction h (h.answer p · []) fun ps i r _ _ _ => ?_⟩
  simp only
  split
  · exact (h.endHolding i _ _).answer p _ _
  · exact h.answer p _ _

/-- A record defined in a free slot has no entry to serve (R13). -/
theorem execDefine_served (p : ClientId) (s : State) (h : s.Served) : ∃ t, execDefine p s = .next t ∧ t.Served := by
  refine ⟨_, rfl, State.request_induction h (h.answer p · []) fun ps _ => ?_⟩
  split
  · exact h.answer p _ _
  split
  · exact h.answer p _ _
  · rename_i i _
    refine State.Served.answer ((h.withdraws (s.setRecord_withdraws i _) fun q hq => ?_).served fun q hq => ?_) p _ _
    · obtain rfl : _ = q := by simpa using hq
      exact ⟨.nil, fun hl => by cases hl⟩
    · obtain rfl : _ = q := by simpa using hq
      exact ⟨fun w hw => (by cases hw), fun hl => by cases hl⟩

/-- Terms no wider admit no tenure more (R15, R26). -/
theorem Resource.admits_of_amended {r : Resource} {ps : List Byte}
    (h : r.cls.widens (classOf (byteAt ps 2) (byteAt ps 3)) ≠ true) {m : Tenure} (ha : (r.amended ps).Admits m) :
    r.Admits m := by
  unfold Resource.amended at ha
  generalize classOf (byteAt ps 2) (byteAt ps 3) = new at h ha
  cases m <;> cases hc : r.cls <;> cases new <;> simp [Resource.Admits, ResClass.widens, hc] at h ha ⊢
  case shared.shareable.shareable => exact ⟨ha.1, by omega⟩
  all_goals exact ha

theorem execAmend_served (p : ClientId) (s : State) (h : s.Served) : ∃ t, execAmend p s = .next t ∧ t.Served := by
  refine ⟨_, rfl, State.requestAtRecord_induction h (h.answer p · []) fun ps i r _ hr _ => ?_⟩
  simp only
  split
  · exact h.answer p _ _
  have hshaped : ∀ q, (s.setRecord i (some (r.amended ps))).record i = some q → q.Shaped := fun q hq => by
    obtain rfl : _ = q := by simpa using hq
    exact h.1 i r hr
  refine State.Served.answer ?_ p _ _
  split
  · exact (h.withdraws (s.setRecord_withdraws i _) hshaped).offerCheck
  · rename_i hwidens
    refine h.withdraws_settled (s.setRecord_withdraws i _) hshaped fun q hq => ?_
    obtain rfl : _ = q := by simpa using hq
    exact ⟨r, hr, rfl, rfl, fun _ => Resource.admits_of_amended hwidens⟩

/-- After the withdrawals of RETIRE the record is gone, or RETIRING with its HELD holdings alone and outside the backlog
(R16, R17). -/
theorem State.Served.resourceWithdrawn {s : State} (h : s.Served) (i : SlotId) (r : Resource) :
    (s.resourceWithdrawn i r).Served := by
  have hrec : ∀ j, (s.resourceWithdrawn i r).record j = if j = i then
      (if r.heldOnes = [] then none else some { r with lifecycle := .retiring, holders := r.heldOnes, queue := [] })
      else s.record j := fun j => s.record_setRecord i _ j
  have hshape : ∀ q, (s.resourceWithdrawn i r).record i = some q → q.queue = [] ∧ q.holders ≠ []
      ∧ ∀ g ∈ q.holders, g.state = .held := fun q hq => by
    rw [hrec, if_pos rfl] at hq
    split at hq
    · cases hq
    · rename_i hne
      cases hq
      exact ⟨rfl, hne, fun g hg => by simpa using (List.mem_filter.mp hg).2⟩
  refine State.ServedBut.served (i := i) (h.edit (fun j hj => by rw [hrec, if_neg hj]) (fun j hj => ?_) rfl id fun q hq => ?_)
    fun q hq => ?_
  · simp [State.resourceWithdrawn, hj]
  · obtain ⟨hnil, hrest⟩ := hshape q hq
    exact ⟨by rw [hnil]; exact .nil, fun _ => ⟨hnil, hrest⟩⟩
  · obtain ⟨hnil, -⟩ := hshape q hq
    exact ⟨fun w hw => by simp [hnil] at hw, fun _ => by simp [State.resourceWithdrawn]⟩

theorem State.ReadsSame.sameDirectory {s t : State} (h : s.ReadsSame t) : s.SameDirectory t where
  slots := State.slots_ext h.record
  backlog := h.backlog
  grant := h.grant
  teardown c hc := .inl (by simpa [State.client, h.clients] using hc)

theorem execRetire_served (p : ClientId) (s : State) (one : s.OneClaimEach) (h : s.Served) :
    ∃ t, execRetire p s = .next t ∧ t.Served := by
  refine ⟨_, rfl, State.requestAtRecord_induction h (h.answer p · []) fun ps i r _ hr _ => ?_⟩
  have hwithdrawn := (h.resourceWithdrawn i r).sameDirectory (s.withdrawn_readsSame i r hr (one i r · hr)).sameDirectory
  simp only
  split <;> rename_i hheld
  · rw [if_pos hheld] at hwithdrawn
    exact (hwithdrawn.giveBackMany _).answer p _ _
  · rw [if_neg hheld] at hwithdrawn
    exact (hwithdrawn.giveBackMany _).answer p _ _

theorem execSweepVisit_served (c : ClientId) (s : State) (h : s.Served) :
    ∃ t, execSweepVisit c s = .next t ∧ t.Served := by
  refine ⟨_, rfl, ?_⟩
  split
  · split
    · exact h
    · rename_i i _
      have hset : (s.setClient c { s.client c with sweepFrom := i.val + 1 }).Served :=
        h.quiet ((State.Quiet.refl s).setClient c _ .inl rfl rfl rfl)
      simp only
      split
      · exact hset.endHolding i c _
      · exact hset.endWait i c
  · exact h

theorem execLeaseWarn_served (i : SlotId) (c : ClientId) (s : State) (h : s.Served) :
    ∃ t, execLeaseWarn i c s = .next t ∧ t.Served := by
  refine ⟨_, rfl, ?_⟩
  split
  · rename_i due _
    exact h.warnLease i c due _
  · exact h

/-- An expiry taken is out of the list first (R80). -/
theorem State.Served.removeLive {s : State} (h : s.Served) (o : Owner) : (s.removeLive o).Served :=
  h.quiet (.of_sameButDeadlines (s.removeLive_same o))

theorem execLeaseEnd_served (i : SlotId) (c : ClientId) (s : State) (h : s.Served) :
    ∃ t, execLeaseEnd i c s = .next t ∧ t.Served := by
  refine ⟨_, rfl, ?_⟩
  split
  · exact (h.removeLive _).endHolding i c _
  · exact h

theorem execOfferEnd_served (i : SlotId) (c : ClientId) (s : State) (h : s.Served) :
    ∃ t, execOfferEnd i c s = .next t ∧ t.Served := by
  refine ⟨_, rfl, ?_⟩
  split
  · exact (h.removeLive _).endHolding i c _
  · exact h

theorem execWaitEnd_served (i : SlotId) (c : ClientId) (s : State) (h : s.Served) :
    ∃ t, execWaitEnd i c s = .next t ∧ t.Served := by
  refine ⟨_, rfl, ?_⟩
  split
  · exact (h.removeLive _).lapseWait i c
  · exact h

/-! ### The clock, the settings and the part resets -/

/-- Client records alone change, none of them out of TEARDOWN. -/
theorem State.Served.clients {s t : State} (h : s.Served) (slots : t.slots = s.slots) (backlog : t.backlog = s.backlog)
    (grant : t.grant = s.grant) (sessions : ∀ c, (s.client c).session = .teardown → (t.client c).session = .teardown) :
    t.Served := h.sameDirectory ⟨slots, backlog, grant, fun c hc => .inl (sessions c hc)⟩

theorem State.Served.setClient {s : State} (h : s.Served) (c : ClientId) (x : Client)
    (session : (s.client c).session = .teardown → x.session = .teardown) : (s.setClient c x).Served := by
  refine h.clients rfl rfl rfl fun d hd => ?_
  by_cases hdc : d = c
  · subst hdc
    simpa using session hd
  · simpa [hdc] using hd

theorem Client.countHold_session (x : Client) : x.countHold.session = x.session := by
  unfold Client.countHold
  split <;> rfl

theorem execMillisecondBoundary_served (s : State) (h : s.Served) :
    ∃ t, execMillisecondBoundary s = .next t ∧ t.Served := by
  refine ⟨_, rfl, ?_⟩
  split
  · refine h.clients rfl rfl rfl fun c hc => ?_
    have hcount : (Vector.ofFn fun d => (s.client d).countHold)[c] = (s.client c).countHold := by simp
    exact (congrArg Client.session hcount).trans ((s.client c).countHold_session.trans hc)
  · exact h

theorem execJoin_served (p : ClientId) (s : State) (h : s.Served) : ∃ t, execJoin p s = .next t ∧ t.Served := by
  refine ⟨_, rfl, State.request_induction h (h.answer p · []) fun _ hp => ?_⟩
  have hnone : (s.client p).session = .none := hp.2.1
  refine State.Served.answer ?_ p _ _
  exact (h.setClient p _ fun ht => by rw [hnone] at ht; cases ht).quiet (State.evaluateFreeze_quiet _ p)

theorem execSetClient_served (p : ClientId) (s : State) (h : s.Served) :
    ∃ t, execSetClient p s = .next t ∧ t.Served := by
  refine ⟨_, rfl, State.request_induction h (h.answer p · []) fun ps _ => ?_⟩
  simp only
  split
  · exact h.answer p _ _
  · refine State.Served.answer ?_ p _ _
    refine State.Served.quiet (State.Served.setClient (h.quiet (s.endFreeze_quiet _)) _ _ ?_)
      (State.evaluateFreeze_quiet _ _)
    exact id

theorem execAllowanceEnd_served (c : ClientId) (s : State) (h : s.Served) :
    ∃ t, execAllowanceEnd c s = .next t ∧ t.Served := by
  refine ⟨_, rfl, ?_⟩
  split
  · refine State.Served.quiet (h.setClient c _ ?_) (State.thaw_quiet _ c _)
    exact id
  · exact h

theorem execPowerOn_served (sel rsn hld : BitVec 6) (s : State) :
    ∃ t, execPowerOn sel rsn hld s = .next t ∧ t.Served :=
  ⟨_, rfl, State.served_of_empty fun i => by simp [State.record, State.powerOn]⟩

theorem execResetPin_served (s : State) : ∃ t, execResetPin s = .next t ∧ t.Served :=
  ⟨_, rfl, State.served_of_empty fun i => by simp [State.record]⟩

/-! ### Every command -/

/-- Every command keeps the condition at every slot. -/
theorem exec_served (c : Instr) (s : State) (one : s.OneClaimEach) (h : s.Served) :
    ∃ t, exec c s = .next t ∧ t.Served := by
  by_cases hq : leavesDirectory c = true
  · obtain ⟨t, ht, quiet⟩ := exec_quiet c s hq
    exact ⟨t, ht, h.quiet quiet⟩
  cases c with
  | powerOn sel rsn hld => exact execPowerOn_served sel rsn hld s
  | resetPin => exact execResetPin_served s
  | millisecondBoundary => exact execMillisecondBoundary_served s h
  | join p => exact execJoin_served p s h
  | acquire p => exact execAcquire_served p s h
  | accept p => exact execAccept_served p s h
  | decline p => exact execDecline_served p s h
  | cancel p => exact execCancel_served p s h
  | renew p => exact execRenew_served p s h
  | release p => exact execRelease_served p s h
  | downgrade p => exact execDowngrade_served p s h
  | markSound p => exact execMarkSound_served p s h
  | define p => exact execDefine_served p s h
  | amend p => exact execAmend_served p s h
  | retire p => exact execRetire_served p s one h
  | revoke p => exact execRevoke_served p s h
  | setClient p => exact execSetClient_served p s h
  | sweepVisit c => exact execSweepVisit_served c s h
  | leaseWarn i c => exact execLeaseWarn_served i c s h
  | leaseEnd i c => exact execLeaseEnd_served i c s h
  | offerEnd i c => exact execOfferEnd_served i c s h
  | waitEnd i c => exact execWaitEnd_served i c s h
  | allowanceEnd c => exact execAllowanceEnd_served c s h
  | _ => exact absurd rfl hq

/-- Settles O56: an edit of one record leaves the condition at every other slot, and the offer check or the hand-over that
follows restores it at that one; where none follows, the edit lets no head entry become due. -/
theorem stepLeavesNoneUnserved : Obligations.StepLeavesNoneUnserved := by
  intro s t one _ retiring ordered unserved hstep
  have hserved : t.Served := step_leads (P := fun s => s.OneClaimEach ∧ s.Served) (fun _ _ h => h)
    (fun c s h => exec_served c s h.1 h.2) (fun _ h => h.2)
    ⟨one, s.served_iff.mpr ⟨unserved, ordered, retiring⟩⟩ hstep
  exact t.served_iff.mp hserved

end Sys2Proof.Machine
end

section
/-! PROOF. Power-on and the reset pin: O3, O4. The stages of R164 that look the record up: O15. -/

namespace Sys2Proof.Machine

/-- Settles O3, field by field. -/
theorem powerOnResetsEveryBlock : Obligations.PowerOnResetsEveryBlock := by
  intro sel rsn hld s
  refine ⟨_, rfl, rfl, rfl, rfl, rfl, rfl, rfl, fun i => ?_, fun c => ?_, fun c => ?_, fun c => ?_, fun p => ?_⟩
  · simp [State.record, State.powerOn]
  · simp [State.client, State.powerOn, Client.initial, Config.defaultQuota, Config.defaultCeiling, Config.defaultMask]
  · simp [State.holdUnit, State.powerOn, HoldUnit.initial]
  · simp [State.noticeSet, State.powerOn, NoticeSet.empty]
  · simp [State.port, State.powerOn, Port.initial]

/-- PART-RESET where a session stood (R108, R122). -/
theorem Client.afterResetPin_eq (x : Client) (c : ClientId) :
    x.afterResetPin c = { session := .none, epoch := x.epoch,
                          endCause := if x.session = .none then x.endCause else .partReset, quota := 12,
                          ceiling := if c = 0 then 3 else 2, mask := 0b111111#6, holdAllowance := 0, holdUsed := 0,
                          holdConsumes := false, freeze := .thawed, sweepFrom := 0 } := by
  cases h : x.session <;>
    simp [Client.afterResetPin, Client.initial, Config.defaultQuota, Config.defaultCeiling, Config.defaultMask, h]

/-- Settles O4, field by field. -/
theorem resetPinKeepsOnlyEpochsAndEndCauses : Obligations.ResetPinKeepsOnlyEpochsAndEndCauses := by
  intro s
  refine ⟨_, rfl, rfl, rfl, rfl, rfl, rfl, rfl, fun i => ?_, fun c => ?_, fun c => ?_, fun c => ?_, fun p => ?_⟩
  · simp [State.record]
  · exact (show _ = (s.client c).afterResetPin c by simp [State.client]).trans ((s.client c).afterResetPin_eq c)
  · simp [State.holdUnit, HoldUnit.initial]
  · simp [State.noticeSet, NoticeSet.empty]
  · simp [State.port, Port.initial]

/-- The command of a request that names a resource looks its key up, past stages 1 to 5 (R164). -/
theorem exec_namesRecord (q : Request) (p : ClientId) (s : State) (h : q.namesRecord = true) :
    ∃ effect : List Byte → SlotId → Resource → State,
      exec (q.instr p) s = .next (s.request p q fun ps => s.atRecord p q (wordAt ps 0) (effect ps)) := by
  cases q with
  | join | leave | takeNotice | define | evict | setClient | inspectClient => cases h
  | _ => exact ⟨_, rfl⟩

/-- Settles O15: the lookup is reached by a request that passes stages 1 to 5, and refuses it. -/
theorem keyLookupThenLifecycle : Obligations.KeyLookupThenLifecycle := by
  intro q p s ps hp hq
  obtain ⟨effect, hexec⟩ := exec_namesRecord q p s hq
  rw [hexec, s.request_passes p q ps hp]
  refine ⟨fun hnone => ⟨_, rfl, ?_⟩, fun i r hd hr hk hl ha => ⟨_, rfl, ?_⟩⟩
  · rw [s.atRecord_none p q _ hnone]
    exact s.answer_onlyAnswered p _ _
  · rw [← hk, s.atRecord_retiring p q i r hd hr hl ha]
    exact s.answer_onlyAnswered p _ _

end Sys2Proof.Machine
end

section
/-! SUPPORT. The ports under the offer check, the hand-over, and the ends of holdings and waits: no event at a resource
touches them. -/

namespace Sys2Proof.Machine

theorem State.dropWaiter_ports (s : State) (i : SlotId) (c : ClientId) : (s.dropWaiter i c).ports = s.ports :=
  (s.dropWaiter_withdraws i c).ports

theorem State.createHolding_ports (s : State) (i : SlotId) (c : ClientId) (m : Tenure) (st : HoldState) :
    (s.createHolding i c m st).ports = s.ports :=
  (State.modifyRecord_withdraws (s.setGrant (s.grant + 1)) i _).ports

theorem State.makeOffer_ports (s : State) (i : SlotId) (w : Waiter) : (s.makeOffer i w).ports = s.ports := by
  unfold State.makeOffer
  split
  · rfl
  · rw [(State.raiseNotice_same _ _ _).ports, (State.arm_same _ _ _ _).ports, State.createHolding_ports,
      State.dropWaiter_ports]

theorem State.joinBacklog_ports (s : State) (i : SlotId) : (s.joinBacklog i).ports = s.ports := by
  unfold State.joinBacklog
  split <;> rfl

theorem State.offerLoop_ports (i : SlotId) (ws : List Waiter) (src : Source) (s : State) :
    (State.offerLoop i ws src s).1.ports = s.ports := by
  induction ws generalizing src s with
  | nil => rfl
  | cons w rest ih =>
    unfold State.offerLoop
    split
    · rw [ih, State.dropWaiter_ports]
    split
    · rfl
    split
    · rw [ih, State.makeOffer_ports]
    · exact s.joinBacklog_ports i

theorem State.offerCheckFrom_ports (s : State) (i : SlotId) (src : Source) :
    (s.offerCheckFrom i src).1.ports = s.ports := State.offerLoop_ports i _ src s

theorem State.offerCheck_ports (s : State) (i : SlotId) : (s.offerCheck i).ports = s.ports :=
  s.offerCheckFrom_ports i .pool

theorem State.handOver_ports (l : List SlotId) (s : State) : (State.handOver l s).1.ports = s.ports := by
  induction l generalizing s with
  | nil => rfl
  | cons front rest ih =>
    have hcheck := s.offerCheckFrom_ports front .handed
    unfold State.handOver
    split
    · rename_i hu
      rwa [hu] at hcheck
    · rename_i hu
      rw [hu] at hcheck
      exact (ih _).trans hcheck

theorem State.giveBack_ports (s : State) : s.giveBack.1.ports = s.ports := State.handOver_ports s.backlog s

theorem State.giveBackMany_ports (n : Nat) (s : State) : (State.giveBackMany n s).ports = s.ports := by
  induction n generalizing s with
  | zero => rfl
  | succ n ih => exact (ih _).trans s.giveBack_ports

theorem State.giveBackAndCheck_ports (s : State) (i : SlotId) : (s.giveBackAndCheck i).ports = s.ports := by
  have heq : s.giveBackAndCheck i = if s.giveBack.2.contains i then s.giveBack.1 else s.giveBack.1.offerCheck i := rfl
  rw [heq]
  split
  · exact s.giveBack_ports
  · rw [State.offerCheck_ports, State.giveBack_ports]

theorem State.endHolding_ports (s : State) (i : SlotId) (c : ClientId) (cause : HoldingEnd) :
    (s.endHolding i c cause).ports = s.ports := by
  unfold State.endHolding
  split
  · rfl
  split
  · rfl
  · rename_i r _ _ h _
    have hdrop := (s.dropHolding_withdraws i r h cause).ports
    simp only
    split
    · exact (State.giveBack_ports _).trans hdrop
    · rw [State.giveBackAndCheck_ports, hdrop]

theorem State.endWait_ports (s : State) (i : SlotId) (c : ClientId) : (s.endWait i c).ports = s.ports := by
  unfold State.endWait
  split
  · rfl
  simp only
  split
  · rw [State.offerCheck_ports, State.dropWaiter_ports]
  · exact s.dropWaiter_ports i c

theorem State.lapseWait_ports (s : State) (i : SlotId) (c : ClientId) : (s.lapseWait i c).ports = s.ports := by
  unfold State.lapseWait
  split
  · rfl
  simp only
  split
  · rw [State.offerCheck_ports, (State.raiseNotice_same _ _ _).ports, State.dropWaiter_ports]
  · rw [(State.raiseNotice_same _ _ _).ports, State.dropWaiter_ports]

end Sys2Proof.Machine
end

section
/-! PROOF. The commands that end a holding or a wait, each with the offers that follow: O30 (DECLINE, RELEASE), O31 (CANCEL),
O33 (DOWNGRADE), O35 (REVOKE), O43 (LEASE-END, OFFER-END), O44 (WAIT-END), O21 (SWEEP_VISIT). -/

namespace Sys2Proof.Machine

/-- A request that passes stages 1 to 7 has its effect at the record (R164). -/
theorem State.request_reaches {s : State} {p : ClientId} {q : Request} {ps : List Byte} {i : SlotId} {r : Resource}
    (h : s.Reaches p q ps i r) (effect : List Byte → SlotId → Resource → State) :
    (s.request p q fun ps => s.atRecord p q (wordAt ps 0) (effect ps)) = effect ps i r := by
  rw [s.request_passes p q ps h.1, s.atRecord_reaches p q ps i r h]

theorem State.HoldingEnds.answer {s t : State} {i : SlotId} {r : Resource} {h : Holding} {cause : HoldingEnd}
    (k : s.HoldingEnds t i r h cause) (p : ClientId) (a : Answer) (data : List Byte) :
    s.HoldingEnds (t.answer p a data) i r h cause := State.OffersFrom.answer k p a data

/-! ### Where an offer comes from -/

/-- An offer is to an entry of the queue it is made at, under the record's key (R57). -/
theorem State.OffersMade.source {s t : State} {os : List Offer} (hm : s.OffersMade t os) {x : Offer} (hx : x ∈ os) :
    ∃ r, s.record x.slot = some r ∧ x.key = r.key ∧ ∃ w ∈ r.queue, w.client = x.client := by
  cases hr : s.record x.slot with
  | none => exact absurd rfl ((hm.free x.slot hr).2.1 x hx)
  | some r =>
    obtain ⟨q, gone, -, ⟨-, hqueue, hclients, hkeys, -⟩, -⟩ := hm.record x.slot r hr
    have hmem : x ∈ os.filter fun y => y.slot == x.slot := List.mem_filter.mpr ⟨hx, by simp⟩
    obtain ⟨w, hw, he⟩ := List.mem_map.mp (hclients ▸ List.mem_map_of_mem (f := fun y : Offer => (y.client, y.tenure)) hmem)
    exact ⟨r, rfl, (hkeys x hmem).1, w, hqueue ▸ List.mem_append_left _ (List.mem_filter.mp hw).1,
      congrArg Prod.fst he⟩

/-- A client with a holding has no entry in the same resource's queue (R49). -/
theorem Resource.not_waiting_of_holding {r : Resource} {c : ClientId} (one : r.claimsOf c ≤ 1) {h : Holding}
    (hh : r.holdingOf c = some h) : ∀ w ∈ r.queue, w.client ≠ c := by
  intro w hw hc
  have := Resource.claimsOf_two r c ⟨h, Resource.holdingOf_mem hh⟩ ⟨w, hw, hc⟩
  omega

/-! ### The notices after a DECLINE -/

theorem NoticeSet.mem_raise {ns : NoticeSet} {m n : Notice} (h : m ∈ (ns.raise n).records) :
    m = n ∨ m ∈ ns.records := by
  unfold NoticeSet.raise at h
  split at h
  · rcases List.mem_append.mp h with hold | hnew
    · exact .inr (List.mem_filter.mp hold).1
    · exact .inl (List.mem_singleton.mp hnew)
  split at h
  · rcases List.mem_append.mp h with hold | hnew
    · exact .inr hold
    · exact .inl (List.mem_singleton.mp hnew)
  · exact .inr h

theorem State.mem_raisedFor {s : State} {c : ClientId} {ns : NoticeSet} {m n : Notice}
    (h : m ∈ (s.raisedFor c ns n).records) : m = n ∨ m ∈ ns.records := by
  unfold State.raisedFor at h
  split at h
  · exact NoticeSet.mem_raise h
  · exact .inr h

/-- A record of a set after offers is an OFFER of one of them, or was there before (R57). -/
theorem State.mem_offersRaised {s : State} {c : ClientId} (os : List Offer) {ns : NoticeSet} {m : Notice}
    (h : m ∈ (os.foldl (fun ns x => s.raisedFor c ns x.notice) ns).records) :
    (∃ x ∈ os, m = x.notice) ∨ m ∈ ns.records := by
  induction os generalizing ns with
  | nil => exact .inr h
  | cons x os ih =>
    rcases ih h with ⟨y, hy, rfl⟩ | hm
    · exact .inl ⟨y, List.mem_cons_of_mem _ hy, rfl⟩
    · rcases State.mem_raisedFor hm with rfl | hm
      · exact .inl ⟨x, by simp, rfl⟩
      · exact .inr hm

section
variable (s : State) (i : SlotId) (r : Resource) (h : Holding) (cause : HoldingEnd)

theorem State.noticeSet_holdingDropped :
    (s.holdingDropped i r h cause).noticeSet h.client = s.noticesAfter r.key h cause := by
  unfold State.holdingDropped
  simp only
  split <;> simp

theorem State.record_holdingDropped_ne {j : SlotId} (hj : j ≠ i) :
    (s.holdingDropped i r h cause).record j = s.record j := by
  unfold State.holdingDropped
  simp only
  split <;> simp [hj]

theorem State.queue_holdingDropped {q : Resource} (hq : (s.holdingDropped i r h cause).record i = some q) :
    q.queue = r.queue := by
  unfold State.holdingDropped at hq
  simp only at hq
  split at hq
  · simp at hq
  · obtain rfl : _ = q := by simpa using hq
    rfl

end

/-- The offers that follow the end of a holding bring its client no OFFER under the resource's key. -/
theorem State.HoldingEnds.no_offer {s t : State} {i : SlotId} {r : Resource} {h : Holding} (one : s.OneClaimEach)
    (hd : s.DirectoryLegal) (hr : s.record i = some r) (hh : r.holdingOf h.client = some h)
    (k : s.HoldingEnds t i r h .declined) : ∀ n ∈ (t.noticeSet h.client).records, n.isOfferFor r.key = false := by
  obtain ⟨os, hm, -⟩ := k
  intro n hn
  rw [hm.notices, s.noticeSet_holdingDropped] at hn
  rcases State.mem_offersRaised _ hn with ⟨x, hx, rfl⟩ | hold
  · obtain ⟨hx, hclient⟩ := List.mem_filter.mp hx
    obtain ⟨q, hq, hkey, w, hw, hwc⟩ := hm.source hx
    have hslot : x.slot ≠ i := fun hi => by
      rw [hi] at hq
      rw [s.queue_holdingDropped i r h _ hq] at hw
      exact Resource.not_waiting_of_holding (one i r _ hr) hh w hw (hwc.trans (by simpa using hclient))
    rw [s.record_holdingDropped_ne i r h _ hslot] at hq
    have hne : x.key ≠ r.key := fun he => hslot (hd.2 _ _ _ _ hq hr (hkey ▸ he))
    simp [Notice.isOfferFor, Offer.notice, hne]
  · simpa using (List.mem_filter.mp hold).2

/-- Settles O30: the caller's standing passes the checks, and the holding's end follows. -/
theorem declineAndReleaseEndTheHolding : Obligations.DeclineAndReleaseEndTheHolding := by
  intro p s ps i r h one hh hgen
  obtain ⟨-, rfl⟩ := Resource.holdingOf_mem hh
  refine ⟨fun hp hstate => ?_, fun hp hstate => ?_⟩
  · have hnone : r.offerRefusal h.client (longAt ps 2) = none := by simp [Resource.offerRefusal, hh, hstate, hgen]
    have hends := s.endHolding_ends i r h .declined one hp.2.2.1 hh
    refine ⟨(s.endHolding i h.client .declined).answer h.client .done [], ?_, hends.answer _ _ _,
      s.answer_answered _ _ _ _ (s.endHolding_ports i _ _), ?_⟩
    · exact congrArg _ ((State.request_reaches hp _).trans (by simp only [hnone]))
    · exact (hends.answer _ _ _).no_offer one hp.2.1 hp.2.2.1 hh
  · have hnone : r.holderRefusal h.client (longAt ps 2) = none := by simp [Resource.holderRefusal, hh, hstate, hgen]
    have hends := s.endHolding_ends i r h .released one hp.2.2.1 hh
    refine ⟨(s.endHolding i h.client .released).answer h.client .done [], ?_, hends.answer _ _ _,
      s.answer_answered _ _ _ _ (s.endHolding_ports i _ _)⟩
    exact congrArg _ ((State.request_reaches hp _).trans (by simp only [hnone]))

/-- Settles O31: the entry is the caller's own, and its end follows. -/
theorem cancelLeavesTheQueue : Obligations.CancelLeavesTheQueue := by
  intro p s ps i r hp
  refine ⟨fun hnone => ?_, fun w one hw => ?_⟩
  · refine ⟨s.answer p .notWaiting [], ?_, s.answer_onlyAnswered p _ _⟩
    exact congrArg _ ((State.request_reaches hp _).trans (by simp [hnone]))
  · refine ⟨(s.endWait i p).answer p .done [], ?_, (s.endWait_ends i r p one hp.2.2.1).answer _ _ _,
      s.answer_answered _ _ _ _ (s.endWait_ports i p)⟩
    exact congrArg _ ((State.request_reaches hp _).trans (by simp [hw]))

/-! ### DOWNGRADE -/

/-- A change of the client's holdings is a change of the one it has (R49). -/
theorem State.modifyHolding_eq {s : State} {i : SlotId} {r : Resource} {c : ClientId} {h : Holding}
    (one : r.claimsOf c ≤ 1) (hr : s.record i = some r) (hh : r.holdingOf c = some h) (f : Holding → Holding) :
    s.modifyHolding i c f
      = s.setRecord i (some { r with holders := r.holders.map fun g => if g.client = c then f h else g }) := by
  rw [State.modifyHolding, s.modifyRecord_some i _ r hr]
  congr 3
  apply List.map_congr_left
  intro g hg
  split
  · rename_i hc
    rw [Resource.holdingOf_unique one hh g hg hc]
  · rfl

/-- The offer check brings a client that holds the resource no new deadline there (R49). -/
theorem State.deadlineOf_offerCheck_holding {s : State} {i : SlotId} {c : ClientId}
    (hw : ∀ r, s.record i = some r → ∀ w ∈ r.queue, w.client ≠ c) :
    (s.offerCheck i).deadlineOf (.holding i c) = s.deadlineOf (.holding i c) := by
  obtain ⟨os, hm, -⟩ := s.offerCheck_pass i
  refine hm.otherHolding i c fun x hx he => ?_
  obtain ⟨r, hr, -, w, hwq, hwc⟩ := hm.source hx
  exact hw r (he.1 ▸ hr) w hwq (hwc.trans he.2)

/-- Settles O33: the two refusals, then the change of tenure, which the offer check follows. -/
theorem downgradeSharesTheHolding : Obligations.DowngradeSharesTheHolding := by
  intro p s ps i r h hp hh hstate hgen
  have hnone : r.holderRefusal p (longAt ps 2) = none := by simp [Resource.holderRefusal, hh, hstate, hgen]
  have hr : s.record i = some r := hp.2.2.1
  refine ⟨fun hcls => ?_, fun hcls ht => ?_, fun hcls ht one => ?_⟩
  · refine ⟨s.answer p .shareRefused [], ?_, s.answer_onlyAnswered p _ _⟩
    exact congrArg _ ((State.request_reaches hp _).trans (by simp [hnone, hcls]))
  · refine ⟨s.answer p .exclusiveNeeded [], ?_, s.answer_onlyAnswered p _ _⟩
    exact congrArg _ ((State.request_reaches hp _).trans (by simp [hnone, hcls, Resource.holdsShared, hh, ht]))
  · have hmod := State.modifyHolding_eq (one i r p hr) hr hh fun g => { g with tenure := .shared }
    generalize hu : s.setRecord i (some { r with holders := r.holders.map fun g =>
      if g.client = p then { h with tenure := .shared } else g }) = u at hmod ⊢
    refine ⟨(u.offerCheck i).answer p .done [], ?_, s.answer_answered _ _ _ _ ?_, ?_,
      (u.offerCheck_offersFrom i).answer _ _ _⟩
    · refine congrArg _ ((State.request_reaches hp _).trans ?_)
      simp [hnone, hcls, Resource.holdsShared, hh, ht, hmod]
    · rw [u.offerCheck_ports, ← hu]
      rfl
    · refine (State.deadlineOf_offerCheck_holding fun q hq => ?_).trans (by rw [← hu]; rfl)
      obtain rfl : _ = q := by simpa [← hu] using hq
      exact fun w hw => Resource.not_waiting_of_holding (one i r p hr) hh w hw

/-! ### REVOKE -/

/-- A client index in range is the client's (R166). -/
theorem clientOf_eq {b : Byte} {c : ClientId} (h : b.toNat = c.val) : clientOf b = c := by
  unfold clientOf
  rw [dif_pos (h ▸ c.isLt)]
  exact Fin.ext h

/-- Settles O35: the named client's HELD holding ends, or there is none. -/
theorem revokeEndsTheNamedHolding : Obligations.RevokeEndsTheNamedHolding := by
  intro p s ps i r c hp hc
  refine ⟨fun hoffered => ?_, fun h hh hstate one => ?_⟩
  · have hnot : r.hasHeld c = false := by
      unfold Resource.hasHeld
      cases hh : r.holdingOf c with
      | none => rfl
      | some h => simp [hoffered h hh]
    refine ⟨s.answer p .notHolder [], ?_, s.answer_onlyAnswered p _ _⟩
    exact congrArg _ ((State.request_reaches hp _).trans (by simp [clientOf_eq hc, hnot]))
  · obtain ⟨-, rfl⟩ := Resource.holdingOf_mem hh
    have hheld : r.hasHeld h.client = true := by simp [Resource.hasHeld, hh, hstate]
    refine ⟨(s.endHolding i h.client .revoked).answer p .done [], ?_,
      (s.endHolding_ends i r h .revoked one hp.2.2.1 hh).answer _ _ _,
      s.answer_answered _ _ _ _ (s.endHolding_ports i _ _)⟩
    exact congrArg _ ((State.request_reaches hp _).trans (by simp [clientOf_eq hc, hheld]))

/-! ### Expiries -/

theorem State.dueOfKind_isDue {s : State} {o : Owner} {k : DeadlineKind} (h : s.IsDue o k) : s.dueOfKind o k = true := by
  simp [State.dueOfKind, s.dueDeadline_isDue o k h]

/-- A holding that ends by a deadline that is taken first (R80). -/
theorem State.expiredHolding_ends {s : State} {i : SlotId} {r : Resource} {h : Holding} (cause : HoldingEnd)
    (one : s.OneClaimEach) (hr : s.record i = some r) (hh : r.holdingOf h.client = some h) :
    s.HoldingEnds ((s.removeLive (.holding i h.client)).endHolding i h.client cause) i r h cause := by
  have := (s.removeLive (.holding i h.client)).endHolding_ends i r h cause one hr hh
  rwa [State.HoldingEnds, s.holdingDropped_removeLive] at this

/-- Settles O43: the deadline is due, so it is taken, and the holding's end follows. -/
theorem leaseEndAndOfferEndEndTheHolding : Obligations.LeaseEndAndOfferEndEndTheHolding := by
  intro i c s r h hr hh one
  obtain ⟨-, rfl⟩ := Resource.holdingOf_mem hh
  refine ⟨fun hdue => ⟨_, ?_, State.expiredHolding_ends .expired one hr hh, State.endHolding_ports _ _ _ _⟩,
    fun hdue => ⟨_, ?_, State.expiredHolding_ends .lapsed one hr hh, State.endHolding_ports _ _ _ _⟩⟩
  · exact congrArg _ (if_pos (State.dueOfKind_isDue hdue))
  · exact congrArg _ (if_pos (State.dueOfKind_isDue hdue))

theorem State.WaitEnds.of_removeLive {s t : State} {i : SlotId} {r : Resource} {c : ClientId} {told : NoticeSet}
    (h : (s.removeLive (.waiter i c)).WaitEnds t i r c told) : s.WaitEnds t i r c told := by
  rwa [State.WaitEnds, s.waiterDropped_removeLive] at h

/-- Settles O44: the deadline is due, so it is taken, and the lapse of the wait follows. -/
theorem waitEndLapsesTheWait : Obligations.WaitEndLapsesTheWait := by
  intro i c s r w hdue hr _ one
  refine ⟨(s.removeLive (.waiter i c)).lapseWait i c, ?_, State.lapseWait_ports _ _ _,
    ((s.removeLive (.waiter i c)).lapseWait_ends i r c one hr).of_removeLive⟩
  exact congrArg _ (if_pos (State.dueOfKind_isDue hdue))

/-! ### The teardown sweep -/

theorem Resource.claimsOf_eq_zero {r : Resource} {c : ClientId} :
    r.claimsOf c = 0 ↔ r.holdingOf c = none ∧ r.waiterOf c = none := by
  simp [Resource.claimsOf, Resource.holdingOf, Resource.waiterOf, List.countP_eq_zero, List.find?_eq_none]

theorem State.hasClaim_iff {s : State} {c : ClientId} {i : SlotId} :
    ((s.record i).any fun r => (r.holdingOf c).isSome || (r.waiterOf c).isSome) = true
      ↔ ∃ r, s.record i = some r ∧ r.claimsOf c ≠ 0 := by
  cases hr : s.record i with
  | none => simp
  | some r =>
    simp [Resource.claimsOf_eq_zero, Option.isSome_iff_ne_none]
    tauto

theorem State.mem_claimSlots {s : State} {c : ClientId} {i : SlotId} :
    i ∈ s.claimSlots c ↔ ∃ r, s.record i = some r ∧ r.claimsOf c ≠ 0 := by
  unfold State.claimSlots
  rw [List.mem_filter, State.hasClaim_iff, and_iff_right (mem_allSlots i)]

/-- The lowest slot that satisfies a test is the one a search finds. -/
theorem find?_allSlots_eq_some {p : SlotId → Bool} {i : SlotId} (hi : p i = true)
    (hlow : ∀ j : SlotId, j.val < i.val → p j = false) : allSlots.find? p = some i := by
  rw [List.find?_eq_some_iff_getElem]
  refine ⟨hi, i.val, by simp [allSlots], by simp [allSlots], fun j hj => ?_⟩
  simp [allSlots, hlow ⟨j, by omega⟩ hj]

/-- With no claim left at its position or above, the sweep has nowhere to go (R114). -/
theorem State.nextVisit_eq_none {s : State} {c : ClientId}
    (h : ∀ i r, s.record i = some r → (s.client c).sweepFrom ≤ i.val → r.claimsOf c = 0) : s.nextVisit c = none := by
  unfold State.nextVisit
  rw [List.find?_eq_none]
  intro i hi
  obtain ⟨r, hr, hne⟩ := State.mem_claimSlots.mp hi
  simpa using fun hle => hne (h i r hr hle)

/-- The sweep visits the lowest slot with a claim at its position or above (R114). -/
theorem State.nextVisit_eq_some {s : State} {c : ClientId} {i : SlotId} {r : Resource} (hr : s.record i = some r)
    (hclaim : r.claimsOf c ≠ 0) (hfrom : (s.client c).sweepFrom ≤ i.val)
    (hlow : ∀ j r', s.record j = some r' → (s.client c).sweepFrom ≤ j.val → j.val < i.val → r'.claimsOf c = 0) :
    s.nextVisit c = some i := by
  unfold State.nextVisit State.claimSlots
  rw [List.find?_filter]
  refine find?_allSlots_eq_some ?_ fun j hj => ?_
  · simpa [State.hasClaim_iff.mpr ⟨r, hr, hclaim⟩] using hfrom
  · rw [decide_eq_false_iff_not, State.hasClaim_iff, decide_eq_true_eq]
    rintro ⟨⟨r', hr', hne⟩, hle⟩
    exact hne (hlow j r' hr' hle hj)

theorem EndCause.holdingEnd_eq (cause : EndCause) :
    cause.holdingEnd = if cause = .leave then .left else .tornDown := by
  cases cause <;> rfl

/-- The sweep's visit ends the claim on the slot it visits (R115). -/
theorem execSweepVisit_eq {s : State} {c : ClientId} {i : SlotId} {r : Resource}
    (htd : (s.client c).session = .teardown) (hvisit : s.nextVisit c = some i) (hr : s.record i = some r) :
    execSweepVisit c s = .next (if (r.holdingOf c).isSome
      then (s.setClient c { s.client c with sweepFrom := i.val + 1 }).endHolding i c (s.client c).endCause.holdingEnd
      else (s.setClient c { s.client c with sweepFrom := i.val + 1 }).endWait i c) := by
  simp [execSweepVisit, htd, hvisit, hr]

/-- Settles O21: the visit is to the lowest claim not yet passed, and that claim ends. -/
theorem sweepVisitEndsTheNextClaim : Obligations.SweepVisitEndsTheNextClaim := by
  intro c s htd
  refine ⟨fun i r one hr hfrom hlow => ⟨fun h hh => ?_, fun hnone hw => ?_⟩, fun hno => ?_⟩
  · obtain ⟨-, rfl⟩ := Resource.holdingOf_mem hh
    have hclaim : r.claimsOf h.client ≠ 0 := fun h0 => by simp [Resource.claimsOf_eq_zero, hh] at h0
    have hexec := execSweepVisit_eq htd (State.nextVisit_eq_some hr hclaim hfrom hlow) hr
    rw [if_pos (by simp [hh]), EndCause.holdingEnd_eq] at hexec
    exact ⟨_, hexec, State.endHolding_ports _ _ _ _, State.endHolding_ends _ i r h _ one hr hh⟩
  · have hclaim : r.claimsOf c ≠ 0 := fun h0 => by simp [(Resource.claimsOf_eq_zero.mp h0).2] at hw
    have hexec := execSweepVisit_eq htd (State.nextVisit_eq_some hr hclaim hfrom hlow) hr
    rw [if_neg (by simp [hnone])] at hexec
    exact ⟨_, hexec, State.endWait_ports _ _ _, State.endWait_ends _ i r c one hr⟩
  · change execSweepVisit c s = _
    simp [execSweepVisit, htd, State.nextVisit_eq_none hno]

end Sys2Proof.Machine
end

section
/-! PROOF. The requests that define, amend and retire resources: O37, O38, O39. -/

namespace Sys2Proof.Machine

/-! ### DEFINE -/

/-- Settles O37: the outcomes by whether the key is in use and a slot is free. -/
theorem defineFillsTheLowestFreeSlot : Obligations.DefineFillsTheLowestFreeSlot := by
  intro p s ps hp
  have hexec : exec (.define p) s = .next (if (s.slotOfKey (wordAt ps 0)).isSome then s.answer p .keyInUse []
      else match s.freeSlot with
        | none => s.answer p .directoryFull []
        | some i => (s.setRecord i (some (definedRecord ps))).answer p .done [BitVec.ofNat 8 i.val]) :=
    congrArg _ (s.request_passes p .define ps hp _)
  rw [hexec]
  refine ⟨fun ⟨i, r, hr, hk⟩ => ⟨_, rfl, ?_⟩, fun hno hfull => ⟨_, rfl, ?_⟩, fun hno i hi hlow =>
    ⟨(s.setRecord i (some (definedRecord ps))).answer p .done [BitVec.ofNat 8 i.val], ?_, ?_, ?_, ?_, rfl, rfl, rfl,
      ⟨rfl, rfl, rfl⟩, rfl, rfl, rfl⟩⟩
  · have hused : (s.slotOfKey (wordAt ps 0)).isSome = true := by
      rw [Option.isSome_iff_ne_none]
      exact fun h => (s.slotOfKey_eq_none _).mp h i r hr hk
    rw [if_pos hused]
    exact s.answer_onlyAnswered p _ _
  · rw [(s.slotOfKey_eq_none _).mpr hno, s.freeSlot_eq_none hfull]
    exact s.answer_onlyAnswered p _ _
  · rw [(s.slotOfKey_eq_none _).mpr hno, s.freeSlot_eq_some i hi hlow]
    rfl
  · exact s.answer_answered _ p _ _ rfl
  · simp [State.answer, definedRecord, classOf]
  · intro j hj
    simp [State.answer, hj]

/-! ### AMEND -/

/-- What AMEND refuses: SHARED claims against EXCLUSIVE-ONLY, or more holdings than the new limit (R14). -/
theorem Resource.amendRefused_iff (r : Resource) (cls : ResClass) :
    r.amendRefused cls = true ↔
      (cls = .exclusiveOnly ∧ ((∃ h ∈ r.holders, h.tenure = .shared) ∨ ∃ w ∈ r.queue, w.mode = .shared))
      ∨ ∃ limit, cls = .shareable limit ∧ limit < r.holders.length := by
  cases cls <;> simp [Resource.amendRefused]

/-- An amendment widens unless it keeps the class and does not raise the limit (R15). -/
theorem ResClass.widens_iff (old new : ResClass) :
    old.widens new = true ↔ ¬ (new = old ∨ ∃ a b, old = .shareable a ∧ new = .shareable b ∧ b ≤ a) := by
  cases old <;> cases new <;> simp [ResClass.widens]
  omega

/-- Settles O38: IN-USE by the checks of R14, and the offer check where the terms widen. -/
theorem amendReplacesTheTerms : Obligations.AmendReplacesTheTerms := by
  intro p s ps i r hp cls inUse amended
  have hexec : exec (.amend p) s = .next (if r.amendRefused cls then s.answer p .inUse []
      else (if r.cls.widens cls then (s.setRecord i (some amended)).offerCheck i
        else s.setRecord i (some amended)).answer p .done []) :=
    congrArg _ (State.request_reaches hp _)
  rw [hexec]
  refine ⟨fun hin => ?_, fun hin => ?_⟩
  · rw [if_pos ((r.amendRefused_iff cls).mpr hin)]
    exact ⟨_, rfl, s.answer_onlyAnswered p _ _⟩
  · rw [if_neg (mt (r.amendRefused_iff cls).mp hin)]
    intro noWider
    refine ⟨fun hn => ?_, fun hw => ?_⟩
    · rw [if_neg fun h => (ResClass.widens_iff _ _).mp h hn]
      exact ⟨_, rfl, s.answer_answered _ p _ _ rfl, by simp [State.answer], fun j hj => by simp [State.answer, hj], rfl, rfl,
        rfl, ⟨rfl, rfl, rfl⟩, rfl, rfl, rfl⟩
    · rw [if_pos ((ResClass.widens_iff _ _).mpr hw)]
      exact ⟨_, rfl, s.answer_answered _ p _ _ (State.offerCheck_ports _ i),
        (State.offerCheck_offersFrom _ i).answer _ _ _⟩

/-! ### RETIRE -/

section
variable {s : State} {i : SlotId} {r : Resource}

theorem State.record_resourceWithdrawn_self : (s.resourceWithdrawn i r).record i
    = if r.heldOnes = [] then none else some { r with lifecycle := .retiring, holders := r.heldOnes, queue := [] } :=
  s.record_setRecord_self i _

/-- What RETIRE withdraws has no deadline left (R16). -/
theorem State.deadlineOf_resourceWithdrawn {o : Owner} (h : r.promises i o = true) :
    (s.resourceWithdrawn i r).deadlineOf o = none := by
  have hlive : ((s.resourceWithdrawn i r).deadlines.find? fun d => d.owner == o) = none := by
    rw [List.find?_eq_none]
    intro d hd he
    have := (List.mem_filter.mp hd).2
    simp [show d.owner = o by simpa using he, h] at this
  have hstored : (((s.resourceWithdrawn i r).holdUnit o.clientId).stored.find? fun d => d.owner == o) = none := by
    rw [List.find?_eq_none]
    intro d hd he
    obtain rfl : d.owner = o := by simpa using he
    simp [State.resourceWithdrawn, State.holdUnit, h] at hd
  simp [State.deadlineOf, hlive, hstored]

/-- RETIRE as one event, before its reply (R16, R17). -/
def State.retired (s : State) (i : SlotId) (r : Resource) : State :=
  State.giveBackMany r.offers.length
    (if (r.holders.any fun h => h.state == .held) = true
      then (s.withdrawAll i r).modifyRecord i fun r' => { r' with lifecycle := .retiring }
      else (s.withdrawAll i r).setRecord i none)

theorem Resource.any_held_iff : (r.holders.any fun h => h.state == .held) = true ↔ r.heldOnes ≠ [] := by
  rw [List.any_eq_true, Resource.heldOnes, ne_eq, List.filter_eq_nil_iff]
  simp

theorem State.withdrawAll_ports : (s.withdrawAll i r).ports = s.ports := by
  change (r.offers.foldl (State.withdrawOffer i) (r.queue.foldl (State.withdrawWaiter i r.key) s)).ports = s.ports
  refine List.foldlRecOn (motive := fun u : State => u.ports = s.ports) _ _ ?_ fun u hu h _ => ?_
  · refine List.foldlRecOn (motive := fun u : State => u.ports = s.ports) _ _ rfl fun u hu w _ => ?_
    exact ((State.raiseNotice_same _ _ _).ports.trans (u.dropWaiter_ports i w.client)).trans hu
  · unfold State.withdrawOffer
    split
    · exact hu
    · exact (u.dropHolding_withdraws i _ h _).ports.trans hu

theorem State.retired_ports : (s.retired i r).ports = s.ports := by
  unfold State.retired
  rw [State.giveBackMany_ports]
  split
  · exact (State.modifyRecord_withdraws _ i _).ports.trans State.withdrawAll_ports
  · exact State.withdrawAll_ports

/-- The records handed over leave the retired resource and its place outside the backlog alone (R68). -/
theorem State.retired_here (hr : s.record i = some r) (one : ∀ c, r.claimsOf c ≤ 1) :
    (s.retired i r).record i = (s.resourceWithdrawn i r).record i ∧ i ∉ (s.retired i r).backlog := by
  have same := s.withdrawn_readsSame i r hr one
  unfold State.retired
  generalize (if (r.holders.any fun h => h.state == .held) = true
    then (s.withdrawAll i r).modifyRecord i fun r' => { r' with lifecycle := .retiring }
    else (s.withdrawAll i r).setRecord i none) = u at same ⊢
  have hout : i ∉ u.backlog := by
    rw [same.backlog]
    simp [State.resourceWithdrawn]
  obtain ⟨-, houtside, -⟩ := State.giveBackMany_spec r.offers.length u
  exact ⟨(houtside i hout).1.trans (same.record i), (houtside i hout).2⟩

end

/-- Where no offer is made a slot's claims keep the deadlines they had. -/
theorem State.OffersMade.deadlineOf_at {s t : State} {os : List Offer} (h : s.OffersMade t os) {i : SlotId}
    (hi : t.record i = s.record i) {o : Owner} (ho : o.slot? = some i) (hs : s.deadlineOf o = none) :
    t.deadlineOf o = none := by
  by_contra hne
  have hsome : (t.deadlineOf o).isSome = true := Option.isSome_iff_ne_none.mpr hne
  rw [h.stays ?_ hsome] at hne
  · exact hne hs
  · rw [offered, List.any_eq_false]
    intro x hx he
    obtain rfl : x.owner = o := by simpa using he
    exact h.none_at hi x hx (by simpa [Offer.owner, Owner.slot?] using ho)

theorem execRetire_reaches {s : State} {p : ClientId} {ps : List Byte} {i : SlotId} {r : Resource}
    (hp : s.Reaches p .retire ps i r) :
    execRetire p s = .next ((s.retired i r).answer p .done [if r.heldOnes = [] then 0x01#8 else 0x02#8]) := by
  refine congrArg _ ((State.request_reaches hp _).trans ?_)
  unfold State.retired
  by_cases hheld : r.heldOnes = []
  · have hany : ¬ (r.holders.any fun h => h.state == .held) = true := fun h => Resource.any_held_iff.mp h hheld
    simp only [hany, hheld, if_true, if_false, Bool.false_eq_true]
  · simp only [Resource.any_held_iff.mpr hheld, hheld, if_true, if_false]

/-- Settles O39: the withdrawals, then the hand-over, which leaves the retired resource alone. -/
theorem retireWithdrawsThenRemoves : Obligations.RetireWithdrawsThenRemoves := by
  intro p s ps i r hp one
  have hr : s.record i = some r := hp.2.2.1
  have hone := fun c => one i r c hr
  obtain ⟨hrec, hout⟩ := State.retired_here hr hone
  have hoffers : (s.resourceWithdrawn i r).OffersFrom (s.retired i r) i _ := s.retire_offersFrom i r hr hone
  have hnone : ∀ o : Owner, o.slot? = some i → r.promises i o = true → (s.retired i r).deadlineOf o = none :=
    fun o hs ho => by
      obtain ⟨os, hm, -⟩ := hoffers
      exact hm.deadlineOf_at hrec hs (State.deadlineOf_resourceWithdrawn ho)
  have hans := fun data => s.answer_answered (s.retired i r) p .done data State.retired_ports
  refine ⟨_, execRetire_reaches hp, fun hheld => ?_, fun hheld => ?_, hout, fun w hw => ?_, fun h hh hs => ?_,
    hoffers.answer p _ _⟩
  · rw [if_pos hheld]
    exact ⟨hrec.trans (State.record_resourceWithdrawn_self.trans (if_pos hheld)), hans _⟩
  · rw [if_neg hheld]
    exact ⟨hrec.trans (State.record_resourceWithdrawn_self.trans (if_neg hheld)), hans _⟩
  · exact hnone (.waiter i w.client) rfl (by simpa [Resource.promises] using ⟨w, hw, rfl⟩)
  · exact hnone (.holding i h.client) rfl (by simpa [Resource.promises] using ⟨h, hh, rfl, hs⟩)

end Sys2Proof.Machine
end

section
/-! PROOF. QUERY reads the record and the caller's relation: O40. -/

namespace Sys2Proof.Machine

/-! ### Fields of several bytes (R140) -/

theorem word_of_bytes (w : BitVec 16) : w.extractLsb' 8 8 ++ w.extractLsb' 0 8 = w := by
  apply BitVec.eq_of_getLsbD_eq
  intro i hi
  simp only [BitVec.getLsbD_append, BitVec.getLsbD_extractLsb']
  by_cases h : i < 8
  · simp [h]
  · simp [h, show i - 8 < 8 by omega, show 8 + (i - 8) = i by omega]

theorem long_of_words (w : BitVec 32) : w.extractLsb' 16 16 ++ w.extractLsb' 0 16 = w := by
  apply BitVec.eq_of_getLsbD_eq
  intro i hi
  simp only [BitVec.getLsbD_append, BitVec.getLsbD_extractLsb']
  by_cases h : i < 16
  · simp [h]
  · simp [h, show i - 16 < 16 by omega, show 16 + (i - 16) = i by omega]

/-- A two-byte field reads back as the word it was written from. -/
theorem wordAt_wordBytes (before after : List Byte) (w : BitVec 16) :
    wordAt (before ++ (wordBytes w ++ after)) before.length = w := by
  simp [wordAt, byteAt, wordBytes, word_of_bytes]

/-- A four-byte field reads back as the word it was written from. -/
theorem longAt_longBytes (before after : List Byte) (w : BitVec 32) :
    longAt (before ++ (longBytes w ++ after)) before.length = w := by
  have hhi := wordAt_wordBytes before (wordBytes (w.extractLsb' 0 16) ++ after) (w.extractLsb' 16 16)
  have hlo := wordAt_wordBytes (before ++ wordBytes (w.extractLsb' 16 16)) after (w.extractLsb' 0 16)
  have hlen : (before ++ wordBytes (w.extractLsb' 16 16)).length = before.length + 2 := by simp [wordBytes]
  rw [hlen] at hlo
  simp only [longAt, longBytes, List.append_assoc] at hhi hlo ⊢
  rw [hhi, hlo, long_of_words]

theorem toNat_ofNat_byte {n : Nat} (h : n < 256) : (BitVec.ofNat 8 n).toNat = n := by
  simpa using Nat.mod_eq_of_lt h

/-! ### The time left (R74) -/

/-- The figures that replies give for an owner's deadline are those R74 and R121 ask for. -/
theorem State.left_msLeft (s : State) (o : Owner) : s.Left o (s.msLeft o) (s.leftFrozen o) := by
  unfold State.Left State.msLeft State.leftFrozen
  refine ⟨fun interval remaining kept h => ?_, fun kind remaining kept h hk => ?_, fun h => ?_⟩
  · simp [h, DeadlineKind.left]
  · cases kind with
    | leaseWarn interval => exact absurd rfl (hk interval)
    | _ => simp [h, DeadlineKind.left]
  · simp [h]

/-! ### Bounds on what the summary counts -/

/-- One record's count is part of the directory's. -/
theorem State.le_total (s : State) (f : Resource → Nat) {i : SlotId} {r : Resource} (hr : s.record i = some r) :
    f r ≤ s.total f := by
  have := Finset.single_le_sum (f := fun j : SlotId => (s.record j).elim 0 f) (fun _ _ => Nat.zero_le _)
    (Finset.mem_univ i)
  simpa [State.total_eq_sum, hr] using this

/-- The shared limit is at most 6 (R1). -/
theorem Resource.limit_le_six {r : Resource} (h : r.TermsLegal) : r.cls.limit ≤ 6 := by
  cases hc : r.cls with
  | exclusiveOnly => exact Nat.zero_le 6
  | shareable limit => exact (h.2.2.2.2.2 limit hc).2

/-- A resource has at most 6 holdings (R1, R26). -/
theorem Resource.holders_le_six {r : Resource} (ht : r.TenureLaw) (h : r.TermsLegal) : r.holders.length ≤ 6 := by
  have hlimit := r.limit_le_six h
  have hlaw := ht.2
  cases hc : r.cls with
  | exclusiveOnly =>
    rw [hc] at hlaw
    exact Nat.le_trans hlaw.1 (by decide)
  | shareable limit =>
    rw [hc] at hlaw hlimit
    exact Nat.le_trans hlaw.2 hlimit

/-! ### The resource summary (R168) -/

/-- The flags and the count of the summary's fifth byte, read back. -/
theorem summaryFlags_read (shareable retiring suspect waiting : Bool) (n : Fin 8) :
    let x := BitVec.ofNat 8 (bitValue shareable 7 + bitValue retiring 6 + bitValue suspect 5 + bitValue waiting 4 + n.val)
    x.getLsbD 7 = shareable ∧ x.getLsbD 6 = retiring ∧ x.getLsbD 5 = suspect ∧ x.getLsbD 4 = waiting
    ∧ x.getLsbD 3 = false ∧ x.toNat % 8 = n.val := by
  revert shareable retiring suspect waiting n
  decide

theorem Occupancy.code_le (o : Occupancy) : o.code ≤ 3 := by cases o <;> decide

/-- An EXCLUSIVE holding leaves no room for a SHARED one (R26). -/
theorem Resource.TenureLaw.not_both {r : Resource} (h : r.TenureLaw) {g g' : Holding} (hg : g ∈ r.holders)
    (hg' : g' ∈ r.holders) (he : g.tenure = .exclusive) : g'.tenure ≠ .shared := by
  obtain ⟨x, hx⟩ := List.length_eq_one_iff.mp (h.1 g hg he)
  rw [hx, List.mem_singleton] at hg hg'
  rw [hg', ← hg, he]
  decide

section
variable {r : Resource}

theorem Resource.occupancy_vacant (h : r.holders = []) : r.occupancy = .vacant := by
  simp [Resource.occupancy, h]

theorem Resource.occupancy_offered (hne : r.holders ≠ []) (h : ∀ g ∈ r.holders, g.state = .offered) :
    r.occupancy = .offered := by
  have hnone : ∀ g ∈ r.holders, g.state ≠ .held := fun g hg => by rw [h g hg]; decide
  have h1 : ¬ (r.holders.any fun g => g.state == .held && g.tenure == .exclusive) = true := by
    simpa using fun g hg hs => absurd hs (hnone g hg)
  have h2 : ¬ (r.holders.any fun g => g.state == .held) = true := by simpa using hnone
  rw [Resource.occupancy, if_neg (by simpa using hne), if_neg h1, if_neg h2]

theorem Resource.occupancy_exclusive {g : Holding} (hg : g ∈ r.holders) (hs : g.state = .held)
    (ht : g.tenure = .exclusive) : r.occupancy = .exclusive := by
  have h1 : (r.holders.any fun g => g.state == .held && g.tenure == .exclusive) = true :=
    List.any_eq_true.mpr ⟨g, hg, by simp [hs, ht]⟩
  rw [Resource.occupancy, if_neg (by simpa using List.ne_nil_of_mem hg), if_pos h1]

theorem Resource.occupancy_shared (law : r.TenureLaw) {g : Holding} (hg : g ∈ r.holders) (hs : g.state = .held)
    (ht : g.tenure = .shared) : r.occupancy = .shared := by
  have h1 : ¬ (r.holders.any fun g => g.state == .held && g.tenure == .exclusive) = true := by
    simpa using fun g' hg' _ he => law.not_both hg' hg he ht
  have h2 : (r.holders.any fun g => g.state == .held) = true := List.any_eq_true.mpr ⟨g, hg, by simp [hs]⟩
  rw [Resource.occupancy, if_neg (by simpa using List.ne_nil_of_mem hg), if_neg h1, if_pos h2]

end

/-! ### The caller's relation (R20) -/

/-- The first entry of the client is the one at its position (R46). -/
theorem waiterOf_eq_some {r : Resource} {p : ClientId} {before after : List Waiter} {w : Waiter}
    (hq : r.queue = before ++ w :: after) (hw : w.client = p) (hb : ∀ v ∈ before, v.client ≠ p) :
    r.waiterOf p = some w ∧ positionIn r.queue p = before.length + 1 := by
  have hnone : (before.find? fun v => v.client == p) = none := List.find?_eq_none.mpr fun v hv => by simpa using hb v hv
  refine ⟨by simp [Resource.waiterOf, hq, List.find?_append, hnone, hw], ?_⟩
  have hidx : (before.findIdx fun v => v.client == p) = before.length :=
    List.findIdx_eq_length.mpr fun v hv => by simpa using hb v hv
  simp [positionIn, hq, List.findIdx_append, hidx, hw, List.findIdx_cons]

/-! ### QUERY -/

section
variable (s : State) (i : SlotId) (r : Resource) (rest : List Byte)

/-- The first byte holds the occupancy over the slot number. -/
theorem State.querySummary_occupancy :
    (byteAt (s.querySummary i r ++ rest) 0).toNat / 64 = r.occupancy.code
      ∧ (byteAt (s.querySummary i r ++ rest) 0).toNat % 64 = i.val := by
  have hcode := r.occupancy.code_le
  have hslot : i.val < 64 := i.isLt
  have hbyte : (byteAt (s.querySummary i r ++ rest) 0).toNat = r.occupancy.code * 64 + i.val :=
    toNat_ofNat_byte (by omega)
  omega

theorem State.querySummary_limit (h : r.TermsLegal) :
    (byteAt (s.querySummary i r ++ rest) 1).toNat = r.cls.limit :=
  toNat_ofNat_byte (Nat.lt_of_le_of_lt (Resource.limit_le_six h) (by decide))

theorem State.querySummary_leaseTerm : wordAt (s.querySummary i r ++ rest) 2 = r.leaseTerm :=
  word_of_bytes r.leaseTerm

theorem State.querySummary_flags (hcount : r.holders.length ≤ 6) :
    let x := byteAt (s.querySummary i r ++ rest) 4
    x.getLsbD 7 = r.cls.isShareable ∧ x.getLsbD 6 = (r.lifecycle == .retiring) ∧ x.getLsbD 5 = (r.integrity == .suspect)
      ∧ x.getLsbD 4 = s.inBacklog i ∧ x.getLsbD 3 = false ∧ x.toNat % 8 = r.holders.length :=
  summaryFlags_read r.cls.isShareable _ _ _ ⟨r.holders.length, Nat.lt_succ_of_le (Nat.le_succ_of_le hcount)⟩

/-- The waiter entries of one resource are within the pool, so their count fits a byte. -/
theorem State.queue_length_le (hpools : s.WithinPools) (hr : s.record i = some r) : r.queue.length ≤ 48 :=
  (s.le_total (fun q => q.queue.length) hr).trans hpools.2

theorem State.querySummary_queue (hqueue : r.queue.length ≤ 48) :
    (byteAt (s.querySummary i r ++ rest) 5).toNat = r.queue.length :=
  toNat_ofNat_byte (Nat.lt_of_le_of_lt hqueue (by decide))

variable (p : ClientId)

theorem State.queryRelation_none (hh : r.holdingOf p = none) (hw : r.waiterOf p = none) :
    s.queryRelation i r p = [0x00#8] := by
  simp [State.queryRelation, hh, hw]

theorem State.queryRelation_waiting {w : Waiter} (hh : r.holdingOf p = none) (hw : r.waiterOf p = some w) :
    s.queryRelation i r p = [BitVec.ofNat 8 (64 + w.priority.val), BitVec.ofNat 8 (positionIn r.queue p)] := by
  simp [State.queryRelation, hh, hw]

/-- The relation's first byte of a holding: its state over its tenure. -/
def Holding.relationByte (h : Holding) : Byte :=
  BitVec.ofNat 8 ((if h.state = .held then 3 else 2) * 64 + bitValue h.tenure.bit 5)

theorem Holding.relationByte_toNat (h : Holding) :
    h.relationByte.toNat = (if h.state = .held then 192 else 128) + (if h.tenure = .shared then 32 else 0) := by
  unfold Holding.relationByte
  cases h.state <;> cases h.tenure <;> rfl

theorem State.queryRelation_holding {h : Holding} (hh : r.holdingOf p = some h) :
    s.queryRelation i r p
      = h.relationByte :: (longBytes h.gen ++ wordBytes (BitVec.ofNat 16 (s.msLeft (.holding i p)))) := by
  simp [State.queryRelation, hh, Holding.relationByte]

end

/-- Settles O40: the summary byte by byte, then the relation by the caller's claim. -/
theorem queryReadsTheRecord : Obligations.QueryReadsTheRecord := by
  intro p s ps i r hp htenure hpools
  obtain ⟨-, hlegal, hr, -⟩ := id hp
  have hterms : r.TermsLegal := hlegal.1 i r hr
  have hlaw : r.TenureLaw := htenure i r hr
  have hqueue := s.queue_length_le i r hpools hr
  generalize hrest : s.queryRelation i r p = rest
  have hexec : exec (.query p) s = .next (s.answer p .done (s.querySummary i r ++ rest)) :=
    congrArg _ ((State.request_reaches hp _).trans (by rw [hrest]))
  obtain ⟨hoccupancy, hslot⟩ := s.querySummary_occupancy i r rest
  have hlimit := s.querySummary_limit i r rest hterms
  obtain ⟨hclass, hretiring, hsuspect, hbacklog, hzero, hcount⟩ :=
    s.querySummary_flags i r rest (r.holders_le_six hlaw hterms)
  refine ⟨_, _, s.msLeft (.holding i p), s.leftFrozen (.holding i p), hexec, s.answer_onlyAnswered p _ _, hslot, ?_, ?_, ?_,
    ?_, ?_, ?_, s.querySummary_leaseTerm i r rest, ?_, ?_, ?_, hzero, hcount, s.querySummary_queue i r rest hqueue, ?_, ?_, ?_⟩
  · intro h
    rw [hoccupancy, Resource.occupancy_vacant h]
    rfl
  · intro hne h
    rw [hoccupancy, Resource.occupancy_offered hne h]
    rfl
  · rintro ⟨g, hg, hs, ht⟩
    rw [hoccupancy, Resource.occupancy_exclusive hg hs ht]
    rfl
  · rintro ⟨g, hg, hs, ht⟩
    rw [hoccupancy, Resource.occupancy_shared hlaw hg hs ht]
    rfl
  · intro h
    rw [hlimit, hclass, h]
    exact ⟨rfl, rfl⟩
  · intro limit h
    rw [hlimit, hclass, h]
    exact ⟨rfl, rfl⟩
  · rw [hretiring, beq_iff_eq]
  · rw [hsuspect, beq_iff_eq]
  · rw [hbacklog, State.inBacklog, List.contains_iff_mem]
  · intro hnone
    obtain ⟨hh, hw⟩ := Resource.claimsOf_eq_zero.mp hnone
    rw [← hrest, s.queryRelation_none i r p hh hw]
    exact ⟨rfl, rfl⟩
  · intro w before after hh hq hw hb
    obtain ⟨hwaiter, hpos⟩ := waiterOf_eq_some hq hw hb
    have hplace : before.length + 1 ≤ 48 := by
      have : r.queue.length = before.length + (after.length + 1) := by rw [hq]; simp
      omega
    have hprio := w.priority.isLt
    rw [← hrest, s.queryRelation_waiting i r p hh hwaiter, hpos]
    exact ⟨rfl, toNat_ofNat_byte (by omega), toNat_ofNat_byte (by omega)⟩
  · intro h hh
    rw [← hrest, s.queryRelation_holding i r p hh]
    refine ⟨rfl, h.relationByte_toNat, ?_, s.left_msLeft _, ?_⟩
    · exact longAt_longBytes (s.querySummary i r ++ [h.relationByte]) _ h.gen
    · exact wordAt_wordBytes (s.querySummary i r ++ h.relationByte :: longBytes h.gen) []
        (BitVec.ofNat 16 (s.msLeft (.holding i p)))

end Sys2Proof.Machine
end

section
/-! SUPPORT. What one event can do to one record of the directory and to the grant counter, and the laws of a record that
it keeps: tenures (R26), generations (R28), one claim each (R49), no entry behind a RETIRING record (R6). -/

namespace Sys2Proof.Machine

/-- A SHAREABLE class has a limit of 2 at least (R1). -/
def ResClass.Lawful (cls : ResClass) : Prop := ∀ limit, cls = .shareable limit → 2 ≤ limit

/-- A record as DEFINE makes it (R13). -/
structure Resource.Fresh (r : Resource) : Prop where
  holders : r.holders = []
  queue : r.queue = []
  active : r.lifecycle = .active
  cls : r.cls.Lawful

/-- The record with both lists kept: other terms, as AMEND lets them be (R14), another integrity, or RETIRING once its
queue is empty (R17). -/
structure Resource.Reworked (r r' : Resource) : Prop where
  holders : r'.holders = r.holders
  queue : r'.queue = r.queue
  lifecycle : r'.lifecycle = r.lifecycle ∨ r.queue = []
  cls : r'.cls = r.cls ∨ (r.amendRefused r'.cls = false ∧ r'.cls.Lawful)

/-- What one event can make of a slot's record, with the grant counter before and after it. -/
inductive RecordEdit (g : Gen) : Option Resource → Gen → Option Resource → Prop
  | same (x : Option Resource) : RecordEdit g x g x
  | defined (r : Resource) (fresh : r.Fresh) : RecordEdit g none g (some r)
  | removed (x : Option Resource) : RecordEdit g x g none
  | reworked (r r' : Resource) (h : r.Reworked r') : RecordEdit g (some r) g (some r')
  | unqueued (r : Resource) (p : Waiter → Bool) :
      RecordEdit g (some r) g (some { r with queue := r.queue.eraseP p })
  | queued (r : Resource) (w : Waiter) (free : r.claimsOf w.client = 0) (active : r.lifecycle = .active)
      (mode : ¬ (w.mode = .shared ∧ r.cls = .exclusiveOnly)) :
      RecordEdit g (some r) g (some { r with queue := r.queueWith w })
  | granted (r : Resource) (h : Holding) (queue : List Waiter) (unspent : g ≠ 0xFFFFFFFF#32) (gen : h.gen = g + 1)
      (admits : r.Admits h.tenure)
      (claim : queue = r.queue ∧ r.claimsOf h.client = 0 ∨ ∃ w, r.queue = w :: queue ∧ w.client = h.client) :
      RecordEdit g (some r) (g + 1) (some { r with holders := r.holders ++ [h], queue := queue })
  | altered (r : Resource) (f : Holding → Holding) (client : ∀ h, (f h).client = h.client)
      (gen : ∀ h, (f h).gen = h.gen)
      (tenure : ∀ h, (f h).tenure = h.tenure ∨ (r.cls ≠ .exclusiveOnly ∧ (f h).tenure = .shared)) :
      RecordEdit g (some r) g (some { r with holders := r.holders.map f })
  | ended (r : Resource) (p : Holding → Bool) (integrity : Integrity) :
      RecordEdit g (some r) g (some { r with holders := r.holders.eraseP p, integrity := integrity })

/-! ### Tenures (R26) -/

/-- Fewer holdings and entries keep the tenure law. -/
theorem Resource.TenureLaw.sublist {r r' : Resource} (law : r.TenureLaw) (cls : r'.cls = r.cls)
    (holders : r'.holders.Sublist r.holders) (queue : r'.queue.Sublist r.queue) : r'.TenureLaw := by
  obtain ⟨alone, limit⟩ := law
  refine ⟨fun h hh ht => ?_, ?_⟩
  · have hle := holders.length_le
    have hpos := List.length_pos_of_mem hh
    have hone := alone h (holders.subset hh) ht
    omega
  · rw [cls]
    split at limit
    · obtain ⟨hlen, hex, hq⟩ := limit
      exact ⟨holders.length_le.trans hlen, fun h hh => hex h (holders.subset hh), fun w hw => hq w (queue.subset hw)⟩
    · exact ⟨limit.1, holders.length_le.trans limit.2⟩

theorem Resource.Fresh.tenureLaw {r : Resource} (h : r.Fresh) : r.TenureLaw := by
  refine ⟨by simp [h.holders], ?_⟩
  split
  · simp [h.holders, h.queue]
  · exact ⟨h.cls _ ‹_›, by simp [h.holders]⟩

/-- Terms that AMEND accepts keep the tenure law (R14). -/
theorem Resource.TenureLaw.reworked {r r' : Resource} (law : r.TenureLaw) (h : r.Reworked r') : r'.TenureLaw := by
  rcases h.cls with hcls | ⟨accepted, lawful⟩
  · exact law.sublist hcls (h.holders ▸ .refl _) (h.queue ▸ .refl _)
  · obtain ⟨alone, -⟩ := law
    refine ⟨fun g => by rw [h.holders]; exact alone g, ?_⟩
    rw [h.holders, h.queue]
    split
    · rename_i hc
      simp only [hc, Resource.amendRefused, Bool.or_eq_false_iff, List.any_eq_false, beq_iff_eq] at accepted
      obtain ⟨noShared, noEntry⟩ := accepted
      have hex : ∀ g ∈ r.holders, g.tenure = .exclusive := fun g hg => by
        cases ht : g.tenure with
        | exclusive => rfl
        | shared => exact absurd ht (noShared g hg)
      refine ⟨?_, hex, fun w hw => ?_⟩
      · cases hh : r.holders with
        | nil => simp
        | cons g gs =>
          have hg : g ∈ r.holders := by simp [hh]
          rw [← hh, alone g hg (hex g hg)]
      · cases hm : w.mode with
        | exclusive => rfl
        | shared => exact absurd hm (noEntry w hw)
    · rename_i hc
      refine ⟨lawful _ hc, ?_⟩
      simpa [hc, Resource.amendRefused] using accepted

/-- A new entry that ACQUIRE lets into the queue keeps the tenure law. -/
theorem Resource.TenureLaw.queued {r : Resource} (law : r.TenureLaw) {w : Waiter}
    (mode : ¬ (w.mode = .shared ∧ r.cls = .exclusiveOnly)) :
    Resource.TenureLaw { r with queue := r.queueWith w } := by
  obtain ⟨alone, limit⟩ := law
  refine ⟨alone, ?_⟩
  simp only
  split at limit
  · rename_i hc
    obtain ⟨hlen, hex, hq⟩ := limit
    refine ⟨hlen, hex, fun v hv => ?_⟩
    rcases mem_insertAfterLast.mp hv with rfl | hv
    · cases hm : v.mode with
      | exclusive => rfl
      | shared => exact absurd ⟨hm, hc⟩ mode
    · exact hq v hv
  · exact limit

/-- A holding whose tenure the record admits keeps the tenure law (R26). -/
theorem Resource.TenureLaw.granted {r : Resource} (law : r.TenureLaw) {h : Holding} {queue : List Waiter}
    (admits : r.Admits h.tenure) (sub : queue.Sublist r.queue) :
    Resource.TenureLaw { r with holders := r.holders ++ [h], queue := queue } := by
  obtain ⟨-, limit⟩ := law
  unfold Resource.Admits at admits
  split at admits
  · rename_i ht
    refine ⟨by simp [admits], ?_⟩
    simp only
    split at limit
    · exact ⟨by simp [admits], by simp [admits, ht], fun w hw => limit.2.2 w (sub.subset hw)⟩
    · have hone : (r.holders ++ [h]).length = 1 := by simp [admits]
      exact ⟨limit.1, by omega⟩
  · rename_i ht hc
    obtain ⟨shared, room⟩ := admits
    refine ⟨fun g hg he => ?_, ?_⟩
    · have hs : g.tenure = .shared := by
        rcases List.mem_append.mp hg with hg | hg
        · exact shared g hg
        · rw [List.mem_singleton.mp hg, ht]
      rw [hs] at he
      cases he
    · simp only [hc] at limit ⊢
      exact ⟨limit.1, by simpa using room⟩
  · exact admits.elim

/-- A holding made SHARED, where the class lets it be, keeps the tenure law (R27). -/
theorem Resource.TenureLaw.altered {r : Resource} (law : r.TenureLaw) {f : Holding → Holding}
    (tenure : ∀ h, (f h).tenure = h.tenure ∨ (r.cls ≠ .exclusiveOnly ∧ (f h).tenure = .shared)) :
    Resource.TenureLaw { r with holders := r.holders.map f } := by
  obtain ⟨alone, limit⟩ := law
  have stays : ∀ g, (f g).tenure = .exclusive → g.tenure = .exclusive := fun g hg => by
    rcases tenure g with h | ⟨-, h⟩
    · rwa [← h]
    · rw [h] at hg
      cases hg
  refine ⟨fun g hg he => ?_, ?_⟩
  · obtain ⟨g', hg', rfl⟩ := List.mem_map.mp hg
    simpa using alone g' hg' (stays g' he)
  · simp only [List.length_map, List.forall_mem_map]
    split at limit
    · rename_i hc
      obtain ⟨hlen, hex, hq⟩ := limit
      refine ⟨hlen, fun g hg => ?_, hq⟩
      rcases tenure g with h | ⟨hne, -⟩
      · rw [h, hex g hg]
      · exact absurd hc hne
    · exact limit

/-- Every edit keeps the tenure law of its record (R26). -/
theorem RecordEdit.tenureLaw {g g' : Gen} {x x' : Option Resource} (e : RecordEdit g x g' x')
    (law : ∀ r, x = some r → r.TenureLaw) : ∀ r, x' = some r → r.TenureLaw := by
  cases e with
  | same => exact law
  | defined r fresh => rintro _ ⟨⟩; exact fresh.tenureLaw
  | removed => rintro _ ⟨⟩
  | reworked r r' h => rintro _ ⟨⟩; exact (law r rfl).reworked h
  | unqueued r p => rintro _ ⟨⟩; exact (law r rfl).sublist rfl (.refl _) List.eraseP_sublist
  | queued r w free active mode => rintro _ ⟨⟩; exact (law r rfl).queued mode
  | granted r h queue unspent gen admits claim =>
    rintro _ ⟨⟩
    refine (law r rfl).granted admits ?_
    rcases claim with ⟨rfl, -⟩ | ⟨w, hq, -⟩
    · exact .refl _
    · exact hq ▸ List.sublist_cons_self w queue
  | altered r f client gen tenure => rintro _ ⟨⟩; exact (law r rfl).altered tenure
  | ended r p integrity => rintro _ ⟨⟩; exact (law r rfl).sublist rfl List.eraseP_sublist (.refl _)

/-! ### Generations (R28) -/

/-- The generations of a slot's holdings, in list order. -/
def gensOf (x : Option Resource) : List Gen := x.elim [] fun r => r.holders.map Holding.gen

/-- An edit leaves a part of the generations, or adds the next one (R28). -/
theorem RecordEdit.gens {g g' : Gen} {x x' : Option Resource} (e : RecordEdit g x g' x') :
    (g' = g ∧ (gensOf x').Sublist (gensOf x))
    ∨ (g ≠ 0xFFFFFFFF#32 ∧ g' = g + 1 ∧ gensOf x' = gensOf x ++ [g + 1]) := by
  cases e with
  | same => exact .inl ⟨rfl, .refl _⟩
  | defined r fresh => exact .inl ⟨rfl, by simp [gensOf, fresh.holders]⟩
  | removed => exact .inl ⟨rfl, List.nil_sublist _⟩
  | reworked r r' h => exact .inl ⟨rfl, by simp [gensOf, h.holders]⟩
  | unqueued r p => exact .inl ⟨rfl, .refl _⟩
  | queued r w free active mode => exact .inl ⟨rfl, .refl _⟩
  | granted r h queue unspent gen admits claim => exact .inr ⟨unspent, rfl, by simp [gensOf, gen]⟩
  | altered r f client gen tenure =>
    refine .inl ⟨rfl, ?_⟩
    have : Holding.gen ∘ f = Holding.gen := funext gen
    simp [gensOf, this]
  | ended r p integrity => exact .inl ⟨rfl, List.Sublist.map _ List.eraseP_sublist⟩

/-! ### One claim each (R49), and RETIRING records (R6) -/

/-- An edit adds a claim only for a client that has none (R49, R57). -/
theorem RecordEdit.claims {g g' : Gen} {x x' : Option Resource} (e : RecordEdit g x g' x') (c : ClientId)
    (one : ∀ r, x = some r → r.claimsOf c ≤ 1) : ∀ r, x' = some r → r.claimsOf c ≤ 1 := by
  cases e with
  | same => exact one
  | defined r fresh => rintro _ ⟨⟩; simp [Resource.claimsOf, fresh.holders, fresh.queue]
  | removed => rintro _ ⟨⟩
  | reworked r r' h =>
    rintro _ ⟨⟩
    simpa only [Resource.claimsOf, h.holders, h.queue] using one r rfl
  | unqueued r p =>
    rintro _ ⟨⟩
    have hle := (List.eraseP_sublist (p := p) (l := r.queue)).countP_le (p := fun w => w.client == c)
    have := one r rfl
    simp only [Resource.claimsOf] at this ⊢
    omega
  | queued r w free active mode =>
    rintro _ ⟨⟩
    have hcount := (perm_insertAfterLast (fun v => decide (w.priority ≤ v.priority)) w r.queue).countP_eq
      fun v => v.client == c
    have hone := one r rfl
    simp only [Resource.claimsOf, Resource.queueWith, hcount, List.countP_cons] at hone free ⊢
    by_cases hc : w.client = c
    · subst hc
      simp only [beq_self_eq_true, if_true]
      omega
    · simpa [hc] using hone
  | granted r h queue unspent gen admits claim =>
    rintro _ ⟨⟩
    have hone := one r rfl
    simp only [Resource.claimsOf, List.countP_append, List.countP_singleton] at hone ⊢
    rcases claim with ⟨rfl, free⟩ | ⟨w, hq, hw⟩
    · by_cases hc : h.client = c
      · subst hc
        simp only [Resource.claimsOf] at free
        simp only [beq_self_eq_true, if_true]
        omega
      · simpa [hc] using hone
    · rw [hq, List.countP_cons, hw] at hone
      omega
  | altered r f client gen tenure =>
    rintro _ ⟨⟩
    have : ((fun h : Holding => h.client == c) ∘ f) = fun h => h.client == c := funext fun h => by simp [client]
    simpa [Resource.claimsOf, List.countP_map, this] using one r rfl
  | ended r p integrity =>
    rintro _ ⟨⟩
    have hle := (List.eraseP_sublist (p := p) (l := r.holders)).countP_le (p := fun h => h.client == c)
    have := one r rfl
    simp only [Resource.claimsOf] at this ⊢
    omega

/-- A RETIRING record has an empty queue (R6). -/
def Resource.RetiredIdle (r : Resource) : Prop := r.lifecycle = .retiring → r.queue = []

/-- No edit lets an entry into the queue of a RETIRING record (R6, R17). -/
theorem RecordEdit.retiredIdle {g g' : Gen} {x x' : Option Resource} (e : RecordEdit g x g' x')
    (idle : ∀ r, x = some r → r.RetiredIdle) : ∀ r, x' = some r → r.RetiredIdle := by
  cases e with
  | same => exact idle
  | defined r fresh => rintro _ ⟨⟩ -; exact fresh.queue
  | removed => rintro _ ⟨⟩
  | reworked r r' h =>
    rintro _ ⟨⟩ hl
    rcases h.lifecycle with same | empty
    · rw [h.queue]
      exact idle r rfl (same ▸ hl)
    · rw [h.queue, empty]
  | unqueued r p => rintro _ ⟨⟩ hl; simp [idle r rfl hl]
  | queued r w free active mode => rintro _ ⟨⟩ hl; simp [active] at hl
  | granted r h queue unspent gen admits claim =>
    rintro _ ⟨⟩ hl
    have hempty := idle r rfl hl
    rcases claim with ⟨rfl, -⟩ | ⟨w, hq, -⟩
    · exact hempty
    · rw [hempty] at hq
      cases hq
  | altered r f client gen tenure => rintro _ ⟨⟩; exact idle r rfl
  | ended r p integrity => rintro _ ⟨⟩; exact idle r rfl

end Sys2Proof.Machine
end

section
/-! SUPPORT. What a command does, change by change (`State.Change`): to one record, to the deadlines of one claim, or to the
freeze of one client. Every command but the part resets and the release of the reset pin is a sequence of such changes
(`exec_changes`), so that a law of the device is kept by every command once it is kept by each change. -/

namespace Sys2Proof.Machine

/-! ### Changes aside, and of a freeze -/

/-- A client that is FROZEN or OVERSTAYED has an OPEN session and its hold sense asserted (R92, R97, R98). -/
def State.Standing (s : State) (c : ClientId) : Prop :=
  (s.client c).freeze ≠ .thawed → (s.client c).session = .opened ∧ (s.holdUnit c).level = true

/-- Neither a record nor a deadline changes, and nobody becomes FROZEN or ceases to be. -/
structure State.Aside (s t : State) : Prop where
  slots : t.slots = s.slots
  grant : t.grant = s.grant
  deadlines : t.deadlines = s.deadlines
  standing : ∀ c, s.Standing c → t.Standing c
  frozen : ∀ c, (t.client c).freeze = .frozen ↔ (s.client c).freeze = .frozen
  stored : ∀ c, (t.holdUnit c).stored = (s.holdUnit c).stored
  freezeStart : ∀ c, (t.holdUnit c).freezeStart = (s.holdUnit c).freezeStart

/-- A stored deadline as it runs again (R79). -/
def State.runs (s : State) (d : StoredDeadline) : Deadline :=
  { owner := d.owner, kind := d.kind, due := s.clock + BitVec.ofNat 32 d.remaining }

/-- Client `c` ceases to be FROZEN: its ALLOWANCE-END leaves the list, its stored deadlines go back into it (R95). -/
structure State.Thaws (s t : State) (c : ClientId) : Prop where
  slots : t.slots = s.slots
  grant : t.grant = s.grant
  frozen : (s.client c).freeze = .frozen
  thawed : (t.client c).freeze ≠ .frozen
  standing : s.Standing c → t.Standing c
  clients : s.SameClientsBut t c
  units : s.SameUnitsBut t c
  freezeStart : (t.holdUnit c).freezeStart = none
  stored : (t.holdUnit c).stored = []
  deadlines : t.deadlines.Perm
    ((s.deadlines.filter fun d => d.owner != .client c) ++ (s.holdUnit c).stored.map s.runs)

/-- One change that a command can make. -/
inductive State.Change (s : State) : State → Prop
  | aside {t : State} (h : s.Aside t) : s.Change t
  | thaws {t : State} (c : ClientId) (h : s.Thaws t c) : s.Change t
  | freezes (c : ClientId) (thawed : (s.client c).freeze = .thawed) (opened : (s.client c).session = .opened)
      (level : (s.holdUnit c).level = true) : s.Change (s.enterFreeze c)
  | defines (i : SlotId) (r : Resource) (free : s.record i = none) (fresh : r.Fresh) :
      s.Change (s.setRecord i (some r))
  | reworks (i : SlotId) (r r' : Resource) (hr : s.record i = some r) (h : r.Reworked r') :
      s.Change (s.setRecord i (some r'))
  | removes (i : SlotId)
      (bare : ∀ r, s.record i = some r → r.holders = [] ∧ (r.lifecycle = .retiring ∨ r.queue = [])) :
      s.Change (s.setRecord i none)
  | unqueues (i : SlotId) (c : ClientId) : s.Change (s.dropWaiter i c)
  | queues (i : SlotId) (r : Resource) (w : Waiter) (hr : s.record i = some r) (free : r.claimsOf w.client = 0)
      (active : r.lifecycle = .active) (mode : ¬ (w.mode = .shared ∧ r.cls = .exclusiveOnly)) :
      s.Change (s.setRecord i (some { r with queue := r.queueWith w }))
  | waits (i : SlotId) (c : ClientId) (n : Nat) (r : Resource) (w : Waiter) (hr : s.record i = some r)
      (hw : w ∈ r.queue) (hc : w.client = c) : s.Change (s.arm (.waiter i c) .waitEnd n)
  | grants (i : SlotId) (c : ClientId) (r : Resource) (mode : Tenure) (hr : s.record i = some r)
      (free : r.claimsOf c = 0) (unspent : s.grant ≠ 0xFFFFFFFF#32) (admits : r.Admits mode) :
      s.Change ((s.createHolding i c mode .held).armLease i c r)
  | offers (i : SlotId) (r : Resource) (w : Waiter) (rest : List Waiter) (hr : s.record i = some r)
      (hq : r.queue = w :: rest) (unspent : s.grant ≠ 0xFFFFFFFF#32) (admits : r.Admits w.mode) :
      s.Change (s.makeOffer i w)
  | leases (i : SlotId) (c : ClientId) (r : Resource) (h : Holding) (f : Holding → Holding)
      (hr : s.record i = some r) (hh : r.holdingOf c = some h) (held : (f h).state = .held)
      (same : ∀ g, (f g).client = g.client ∧ (f g).gen = g.gen ∧ (f g).tenure = g.tenure) :
      s.Change ((s.modifyHolding i c f).armLease i c r)
  | shares (i : SlotId) (c : ClientId) (r : Resource) (hr : s.record i = some r) (cls : r.cls ≠ .exclusiveOnly) :
      s.Change (s.modifyHolding i c fun h => { h with tenure := .shared })
  | warns (i : SlotId) (c : ClientId) (d : Deadline) (interval : Ms) (last : Time) (hd : d ∈ s.deadlines)
      (owner : d.owner = .holding i c) (kind : d.kind = .leaseWarn interval) :
      s.Change (((s.removeLive (.holding i c)).insertDeadline
        { owner := .holding i c, kind := .leaseEnd, due := last }).modifyHolding i c fun h => { h with warned := true })
  | ends (i : SlotId) (r : Resource) (h : Holding) (cause : HoldingEnd) (hr : s.record i = some r) :
      s.Change (s.dropHolding i r h cause)
  | expires (o : Owner) (claim : o.slot?.isSome = true)
      (gone : ∀ i c r, o = .holding i c → s.record i = some r → r.holdingOf c = none) : s.Change (s.removeLive o)

/-- A sequence of changes. -/
def State.Changes (s t : State) : Prop := Relation.ReflTransGen State.Change s t

/-- What every change keeps, a sequence of changes keeps. -/
theorem State.Changes.keeps {P : State → Prop} (h : ∀ s t : State, s.Change t → P s → P t) {s t : State}
    (k : s.Changes t) (hs : P s) : P t := by
  induction k with
  | refl => exact hs
  | tail _ hc ih => exact h _ _ hc ih

/-! ### What a change makes of the records -/

theorem State.record_createHolding_self (s : State) (i : SlotId) (c : ClientId) (m : Tenure) (st : HoldState) :
    (s.createHolding i c m st).record i = (s.record i).map fun r =>
      { r with holders := r.holders ++ [{ client := c, tenure := m, state := st, gen := s.grant + 1,
                                          suspect := r.integrity == .suspect, warned := false }] } :=
  (s.setGrant (s.grant + 1)).record_modifyRecord_self i _

theorem State.modifyRecord_grant (s : State) (i : SlotId) (f : Resource → Resource) :
    (s.modifyRecord i f).grant = s.grant := (s.modifyRecord_withdraws i f).grant

theorem State.makeOffer_grant {s : State} {i : SlotId} {r : Resource} {w : Waiter} {rest : List Waiter}
    (hr : s.record i = some r) (hq : r.queue = w :: rest) : (s.makeOffer i w).grant = s.grant + 1 := by
  rw [s.makeOffer_eq i r w rest hr hq, (State.raiseNotice_same _ _ _).grant, (State.arm_same _ _ _ _).grant]
  rfl

theorem State.makeOffer_record {s : State} {i : SlotId} {r : Resource} {w : Waiter} {rest : List Waiter}
    (hr : s.record i = some r) (hq : r.queue = w :: rest) :
    (s.makeOffer i w).record i
        = some { r with holders := r.holders ++ [(s.offerTo i r w).holding], queue := rest }
      ∧ s.SameRecordsBut (s.makeOffer i w) i := by
  have hslots : (s.makeOffer i w).slots = ((((s.setRecord i (some { r with queue := rest })).disarm
      (.waiter i w.client)).setGrant (s.grant + 1)).setRecord i
        (some { r with holders := r.holders ++ [(s.offerTo i r w).holding], queue := rest })).slots := by
    rw [s.makeOffer_eq i r w rest hr hq, (State.raiseNotice_same _ _ _).slots, (State.arm_same _ _ _ _).slots]
    rfl
  have hrec : ∀ j, (s.makeOffer i w).record j = ((((s.setRecord i (some { r with queue := rest })).disarm
      (.waiter i w.client)).setGrant (s.grant + 1)).setRecord i
        (some { r with holders := r.holders ++ [(s.offerTo i r w).holding], queue := rest })).record j :=
    fun j => by simp only [State.record, hslots]
  refine ⟨by rw [hrec, State.record_setRecord_self], fun j hj => ?_⟩
  rw [hrec, State.record_setRecord_ne _ _ _ _ hj, State.record_setGrant, (State.disarm_same _ _).record,
    State.record_setRecord_ne _ _ _ _ hj]

/-- The record of one slot and the grant counter are edited, every other record is as before. -/
def State.Edits (s t : State) (i : SlotId) : Prop :=
  s.SameRecordsBut t i ∧ RecordEdit s.grant (s.record i) t.grant (t.record i)

/-- A record edited alone, with the grant counter as before. -/
theorem State.Edits.of_withdraws {s t : State} {i : SlotId} (h : s.Withdraws t i)
    (e : RecordEdit s.grant (s.record i) s.grant (t.record i)) : s.Edits t i :=
  ⟨h.elsewhere, h.grant.symm ▸ e⟩

/-- Where records and grant counter stay, nothing is edited. -/
theorem State.Edits.of_same {s t : State} (slots : t.slots = s.slots) (grant : t.grant = s.grant) (i : SlotId) :
    s.Edits t i := by
  have hrec : ∀ j, t.record j = s.record j := fun j => by simp only [State.record, slots]
  exact ⟨fun j _ => hrec j, by rw [hrec, grant]; exact .same _⟩

/-- What follows at the deadlines does not matter to the records. -/
theorem State.Edits.sameButDeadlines {s t u : State} {i : SlotId} (h : s.Edits t i) (k : t.SameButDeadlines u) :
    s.Edits u i :=
  ⟨h.1.trans fun j _ => k.record j, by rw [k.record, k.grant]; exact h.2⟩

theorem State.modifyHolding_edits (s : State) (i : SlotId) (c : ClientId) (f : Holding → Holding)
    (same : ∀ g, (f g).client = g.client ∧ (f g).gen = g.gen)
    (tenure : ∀ g r, s.record i = some r →
      (f g).tenure = g.tenure ∨ (r.cls ≠ .exclusiveOnly ∧ (f g).tenure = .shared)) :
    s.Edits (s.modifyHolding i c f) i := by
  refine .of_withdraws (s.modifyRecord_withdraws i _) ?_
  rw [State.modifyHolding, s.record_modifyRecord_self]
  cases hr : s.record i with
  | none => exact .same _
  | some r =>
    refine .altered r _ (fun g => ?_) (fun g => ?_) fun g => ?_
    · split
      · exact (same g).1
      · rfl
    · split
      · exact (same g).2
      · rfl
    · split
      · exact tenure g r hr
      · exact .inl rfl

/-- Every change edits one record at most. -/
theorem State.Change.edits {s t : State} (h : s.Change t) : ∃ i, s.Edits t i := by
  cases h with
  | aside h => exact ⟨0, .of_same h.slots h.grant 0⟩
  | thaws c h => exact ⟨0, .of_same h.slots h.grant 0⟩
  | freezes c thawed opened level =>
    have quiet := s.enterFreeze_quiet c
    exact ⟨0, .of_same quiet.slots quiet.grant 0⟩
  | defines i r free fresh =>
    refine ⟨i, .of_withdraws (s.setRecord_withdraws i _) ?_⟩
    rw [free, State.record_setRecord_self]
    exact .defined r fresh
  | reworks i r r' hr h =>
    refine ⟨i, .of_withdraws (s.setRecord_withdraws i _) ?_⟩
    rw [hr, State.record_setRecord_self]
    exact .reworked r r' h
  | removes i bare =>
    refine ⟨i, .of_withdraws (s.setRecord_withdraws i _) ?_⟩
    rw [State.record_setRecord_self]
    exact .removed _
  | unqueues i c =>
    refine ⟨i, .of_withdraws (s.dropWaiter_withdraws i c) ?_⟩
    rw [s.record_dropWaiter_self]
    cases hr : s.record i with
    | none => exact .same _
    | some r => exact .unqueued r _
  | queues i r w hr free active mode =>
    refine ⟨i, .of_withdraws (s.setRecord_withdraws i _) ?_⟩
    rw [hr, State.record_setRecord_self]
    exact .queued r w free active mode
  | waits i c n => exact ⟨i, (State.Edits.of_same rfl rfl i).sameButDeadlines (s.arm_same _ _ _)⟩
  | grants i c r mode hr free unspent admits =>
    refine ⟨i, State.Edits.sameButDeadlines (t := s.createHolding i c mode .held) ⟨?_, ?_⟩ (State.armLease_same _ _ _ _)⟩
    · exact (State.modifyRecord_withdraws (s.setGrant (s.grant + 1)) i _).elsewhere
    · rw [s.record_createHolding_self, hr, State.createHolding, State.modifyRecord_grant]
      exact .granted r _ r.queue unspent rfl admits (.inl ⟨rfl, free⟩)
  | offers i r w rest hr hq unspent admits =>
    obtain ⟨here, elsewhere⟩ := State.makeOffer_record hr hq
    refine ⟨i, elsewhere, ?_⟩
    rw [here, hr, State.makeOffer_grant hr hq]
    exact .granted r _ rest unspent rfl admits (.inr ⟨w, hq, rfl⟩)
  | leases i c r h f hr hh held same =>
    exact ⟨i, (s.modifyHolding_edits i c f (fun g => ⟨(same g).1, (same g).2.1⟩)
      fun g _ _ => .inl (same g).2.2).sameButDeadlines (State.armLease_same _ _ _ _)⟩
  | shares i c r hr cls =>
    refine ⟨i, s.modifyHolding_edits i c _ (fun _ => ⟨rfl, rfl⟩) fun g q hq => .inr ⟨?_, rfl⟩⟩
    obtain rfl : r = q := by simpa [hr] using hq
    exact cls
  | warns i c d interval last hd owner kind =>
    exact ⟨i, State.modifyHolding_edits _ i c _ (fun _ => ⟨rfl, rfl⟩) fun _ _ _ => .inl rfl⟩
  | ends i r h cause hr =>
    refine ⟨i, .of_withdraws (s.dropHolding_withdraws i r h cause) ?_⟩
    rw [s.record_dropHolding_self, hr]
    exact .ended r _ _
  | expires o claim gone => exact ⟨0, (State.Edits.of_same rfl rfl 0).sameButDeadlines (s.removeLive_same o)⟩

end Sys2Proof.Machine
end

section
/-! SUPPORT. The operations that commands share, as sequences of changes. -/

namespace Sys2Proof.Machine

/-! ### Changes aside -/

theorem State.Aside.of_same {s t : State} (slots : t.slots = s.slots) (grant : t.grant = s.grant)
    (deadlines : t.deadlines = s.deadlines) (clients : t.clients = s.clients) (units : t.holdUnits = s.holdUnits) :
    s.Aside t := by
  have hc : ∀ c, t.client c = s.client c := fun c => by simp only [State.client, clients]
  have hu : ∀ c, t.holdUnit c = s.holdUnit c := fun c => by simp only [State.holdUnit, units]
  exact ⟨slots, grant, deadlines, fun c h => by simpa only [State.Standing, hc, hu] using h, fun c => by rw [hc],
    fun c => by rw [hu], fun c => by rw [hu]⟩

/-- Client records change, their sessions and freeze states do not. -/
theorem State.Aside.of_clients {s t : State} (slots : t.slots = s.slots) (grant : t.grant = s.grant)
    (deadlines : t.deadlines = s.deadlines) (units : t.holdUnits = s.holdUnits)
    (clients : ∀ c, (t.client c).session = (s.client c).session ∧ (t.client c).freeze = (s.client c).freeze) :
    s.Aside t := by
  have hu : ∀ c, t.holdUnit c = s.holdUnit c := fun c => by simp only [State.holdUnit, units]
  exact ⟨slots, grant, deadlines,
    fun c h => by simpa only [State.Standing, (clients c).1, (clients c).2, hu] using h,
    fun c => by rw [(clients c).2], fun c => by rw [hu], fun c => by rw [hu]⟩

/-- One client record changes, and the client neither becomes FROZEN nor ceases to be. -/
theorem State.Aside.of_setClient (s : State) (c : ClientId) (x : Client)
    (frozen : x.freeze = .frozen ↔ (s.client c).freeze = .frozen)
    (standing : s.Standing c → x.freeze ≠ .thawed → x.session = .opened ∧ (s.holdUnit c).level = true) :
    s.Aside (s.setClient c x) where
  slots := rfl
  grant := rfl
  deadlines := rfl
  stored _ := rfl
  freezeStart _ := rfl
  frozen d := by
    by_cases hd : d = c
    · subst hd
      simpa using frozen
    · simp [hd]
  standing d h := by
    by_cases hd : d = c
    · subst hd
      simpa [State.Standing] using standing h
    · simpa [State.Standing, hd] using h

theorem State.holdUnit_setLevel (s : State) (c : ClientId) (level : Bool) (d : ClientId) :
    (s.setLevel c level).holdUnit d = if d = c then { s.holdUnit c with level := level } else s.holdUnit d :=
  s.holdUnit_setHoldUnit c _ d

/-- A hold-sense level taken as asserted (R90). -/
theorem State.Aside.of_setLevel (s : State) (c : ClientId) : s.Aside (s.setLevel c true) where
  slots := rfl
  grant := rfl
  deadlines := rfl
  frozen _ := Iff.rfl
  stored d := by
    rw [s.holdUnit_setLevel]
    split <;> simp [*]
  freezeStart d := by
    rw [s.holdUnit_setLevel]
    split <;> simp [*]
  standing d h hf := by
    obtain ⟨opened, level⟩ := h hf
    refine ⟨opened, ?_⟩
    rw [s.holdUnit_setLevel]
    split
    · rfl
    · exact level

namespace State.Changes

theorem refl (s : State) : s.Changes s := Relation.ReflTransGen.refl

theorem trans {s t u : State} (h : s.Changes t) (k : t.Changes u) : s.Changes u := Relation.ReflTransGen.trans h k

theorem change {s t u : State} (h : s.Changes t) (k : t.Change u) : s.Changes u := h.tail k

theorem aside {s t u : State} (h : s.Changes t) (k : t.Aside u) : s.Changes u := h.change (.aside k)

theorem setPort {s t : State} (h : s.Changes t) (p : ClientId) (x : Port) : s.Changes (t.setPort p x) :=
  h.aside (.of_same rfl rfl rfl rfl rfl)

theorem setNoticeSet {s t : State} (h : s.Changes t) (c : ClientId) (ns : NoticeSet) : s.Changes (t.setNoticeSet c ns) :=
  h.aside (.of_same rfl rfl rfl rfl rfl)

theorem setBacklog {s t : State} (h : s.Changes t) (l : List SlotId) : s.Changes (t.setBacklog l) :=
  h.aside (.of_same rfl rfl rfl rfl rfl)

theorem answer {s t : State} (h : s.Changes t) (p : ClientId) (a : Answer) (data : List Byte) :
    s.Changes (t.answer p a data) := h.setPort p _

theorem raiseNotice {s t : State} (h : s.Changes t) (c : ClientId) (n : Notice) : s.Changes (t.raiseNotice c n) :=
  have k := t.raiseNotice_same c n
  h.aside (.of_same k.slots k.grant k.deadlines k.clients k.holdUnits)

theorem setClient {s t : State} (h : s.Changes t) (c : ClientId) (x : Client)
    (frozen : x.freeze = .frozen ↔ (t.client c).freeze = .frozen)
    (standing : t.Standing c → x.freeze ≠ .thawed → x.session = .opened ∧ (t.holdUnit c).level = true) :
    s.Changes (t.setClient c x) := h.aside (.of_setClient t c x frozen standing)

/-! ### The offer check and the hand-over (R11, R67) -/

theorem joinBacklog {s t : State} (h : s.Changes t) (i : SlotId) : s.Changes (t.joinBacklog i) := by
  unfold State.joinBacklog
  split
  · exact h
  · exact h.setBacklog _

theorem offerLoop {s t : State} (i : SlotId) (ws : List Waiter) (src : Source) (h : s.Changes t)
    (hq : t.QueueIs i ws) : s.Changes (State.offerLoop i ws src t).1 := by
  induction ws generalizing src t with
  | nil => exact h.setBacklog _
  | cons w rest ih =>
    obtain ⟨r, hr, hq⟩ := hq.record_cons
    unfold State.offerLoop
    split
    · refine ih src (h.change (.unqueues i w.client)) ?_
      simp [State.QueueIs, t.record_dropWaiter_self, hr, hq]
    split
    · exact h.setBacklog _
    rename_i hdue
    split
    · simp only [State.offerDue, State.grantSpent, hr, Option.any_some, r.compatible_iff, Bool.not_eq_true',
        Bool.and_eq_false_iff, not_or, Bool.not_eq_false, beq_eq_false_iff_ne] at hdue
      refine ih src.spend (h.change (.offers i r w rest hr hq hdue.1 hdue.2)) ?_
      simp [State.QueueIs, (State.makeOffer_record hr hq).1]
    · exact h.joinBacklog i

theorem offerCheckFrom {s t : State} (h : s.Changes t) (i : SlotId) (src : Source) :
    s.Changes (t.offerCheckFrom i src).1 := offerLoop i _ src h rfl

theorem offerCheck {s t : State} (h : s.Changes t) (i : SlotId) : s.Changes (t.offerCheck i) :=
  h.offerCheckFrom i .pool

theorem handOver {s t : State} (l : List SlotId) (h : s.Changes t) : s.Changes (State.handOver l t).1 := by
  induction l generalizing t with
  | nil => exact h
  | cons front rest ih =>
    have hcheck := h.offerCheckFrom front .handed
    unfold State.handOver
    split
    · rename_i hu
      rwa [hu] at hcheck
    · rename_i hu
      rw [hu] at hcheck
      exact ih hcheck

theorem giveBack {s t : State} (h : s.Changes t) : s.Changes t.giveBack.1 := handOver t.backlog h

theorem giveBackMany {s t : State} (n : Nat) (h : s.Changes t) : s.Changes (State.giveBackMany n t) := by
  induction n generalizing t with
  | zero => exact h
  | succ n ih => exact ih h.giveBack

theorem giveBackAndCheck {s t : State} (h : s.Changes t) (i : SlotId) : s.Changes (t.giveBackAndCheck i) := by
  have heq : t.giveBackAndCheck i = if t.giveBack.2.contains i then t.giveBack.1 else t.giveBack.1.offerCheck i := rfl
  rw [heq]
  split
  · exact h.giveBack
  · exact h.giveBack.offerCheck i

/-! ### The end of a holding and of a wait (R40, R47) -/

theorem endHolding {s t : State} (h : s.Changes t) (i : SlotId) (c : ClientId) (cause : HoldingEnd) :
    s.Changes (t.endHolding i c cause) := by
  unfold State.endHolding
  split
  · exact h
  rename_i r hr
  split
  · exact h
  rename_i g _
  have hdrop := h.change (.ends i r g cause hr)
  simp only
  split
  · rename_i hdue
    refine ((hdrop.change (.removes i fun q hq => ?_)).setBacklog _).giveBack
    simp only [State.removalDue, hq, Option.any_some, Bool.and_eq_true, beq_iff_eq, List.isEmpty_iff] at hdue
    exact ⟨hdue.2, .inl hdue.1⟩
  · exact hdrop.giveBackAndCheck i

theorem endWait {s t : State} (h : s.Changes t) (i : SlotId) (c : ClientId) : s.Changes (t.endWait i c) := by
  unfold State.endWait
  split
  · exact h
  have hdrop := h.change (.unqueues i c)
  simp only
  split
  · exact hdrop.offerCheck i
  · exact hdrop

end State.Changes

/-! ### Expiries (R80) -/

/-- A deadline that can be taken is in the list, the owner's and due. -/
theorem State.dueDeadline_mem {s : State} {o : Owner} {d : Deadline} (h : s.dueDeadline o = some d) :
    d ∈ s.deadlines ∧ d.owner = o ∧ d.due = s.clock := by
  unfold State.dueDeadline at h
  split at h
  · rename_i e he
    split at h
    · cases h
      have hdue := List.find?_some he
      simp only [Bool.and_eq_true, beq_iff_eq] at hdue
      exact ⟨List.mem_of_find?_eq_some he, ‹_›, hdue.1⟩
    · cases h
  · cases h

theorem State.removeLive_removeLive (s : State) (o : Owner) : (s.removeLive o).removeLive o = s.removeLive o := by
  simp [State.removeLive, State.setDeadlines, List.filter_filter]

/-- The deadline of a holding that ends goes with it, taken before or not (R78, R80). -/
theorem State.dropHolding_removeLive (s : State) (i : SlotId) (r : Resource) (h : Holding) (cause : HoldingEnd) :
    (s.removeLive (.holding i h.client)).dropHolding i r h cause = s.dropHolding i r h cause := by
  have hdisarm : ∀ x, ((s.removeLive (.holding i h.client)).setRecord i x).disarm (.holding i h.client)
      = (s.setRecord i x).disarm (.holding i h.client) := fun x => by
    unfold State.disarm
    exact congrArg (State.discardStored · _) ((s.setRecord i x).removeLive_removeLive _)
  rw [State.dropHolding, State.dropHolding, hdisarm]

/-- As `dropHolding_removeLive`, for a waiter entry. -/
theorem State.dropWaiter_removeLive (s : State) (i : SlotId) (c : ClientId) :
    (s.removeLive (.waiter i c)).dropWaiter i c = s.dropWaiter i c := by
  have hedit : ∀ f, (s.removeLive (.waiter i c)).modifyRecord i f = (s.modifyRecord i f).removeLive (.waiter i c) :=
    fun f => by
      cases hr : s.record i with
      | none => rw [s.modifyRecord_none i f hr]; exact State.modifyRecord_none _ i f hr
      | some r => rw [s.modifyRecord_some i f r hr]; exact State.modifyRecord_some _ i f r hr
  unfold State.dropWaiter
  rw [hedit]
  exact congrArg (State.discardStored · _) ((s.modifyRecord i _).removeLive_removeLive _)

/-- A holding that ends by a deadline of its own (R37, R63). -/
theorem State.expire_changes (s : State) (i : SlotId) (c : ClientId) (cause : HoldingEnd) :
    s.Changes ((s.removeLive (.holding i c)).endHolding i c cause) := by
  have htaken : (∀ r, s.record i = some r → r.holdingOf c = none) → s.Changes (s.removeLive (.holding i c)) :=
    fun gone => (State.Changes.refl s).change (.expires _ rfl fun j d r ho hr => by
      obtain ⟨rfl, rfl⟩ := Owner.holding.inj ho
      exact gone r hr)
  cases hr : s.record i with
  | none =>
    have hend : (s.removeLive (.holding i c)).endHolding i c cause = s.removeLive (.holding i c) := by
      have : (s.removeLive (.holding i c)).record i = none := hr
      simp [State.endHolding, this]
    rw [hend]
    exact htaken (by simp [hr])
  | some r =>
    cases hh : r.holdingOf c with
    | none =>
      have hend : (s.removeLive (.holding i c)).endHolding i c cause = s.removeLive (.holding i c) := by
        have : (s.removeLive (.holding i c)).record i = some r := hr
        simp [State.endHolding, this, hh]
      rw [hend]
      refine htaken fun q hq => ?_
      obtain rfl : r = q := by simpa [hr] using hq
      exact hh
    | some h =>
      obtain ⟨-, rfl⟩ := Resource.holdingOf_mem hh
      rw [(s.removeLive _).endHolding_eq i h.client cause r h hr hh, s.dropHolding_removeLive,
        ← s.endHolding_eq i h.client cause r h hr hh]
      exact (State.Changes.refl s).endHolding i h.client cause

/-- A wait that ends by its deadline (R55). -/
theorem State.lapse_changes (s : State) (i : SlotId) (c : ClientId) :
    s.Changes ((s.removeLive (.waiter i c)).lapseWait i c) := by
  unfold State.lapseWait
  split
  · exact (State.Changes.refl s).change (.expires _ rfl fun j d r ho => by cases ho)
  rw [s.dropWaiter_removeLive]
  have hdrop := (State.Changes.refl s).change (.unqueues i c)
  simp only
  split
  · exact (hdrop.raiseNotice c _).offerCheck i
  · exact hdrop.raiseNotice c _

/-- A lease warning (R84). -/
theorem State.warn_changes {s : State} {i : SlotId} {c : ClientId} {d : Deadline} {interval : Ms} (due : Time)
    (hd : d ∈ s.deadlines) (owner : d.owner = .holding i c) (kind : d.kind = .leaseWarn interval) :
    s.Changes (s.warnLease i c due interval) := by
  have hwarned := (State.Changes.refl s).change (.warns i c d interval (due + interval.setWidth 32) hd owner kind)
  unfold State.warnLease
  simp only
  split
  · exact hwarned
  split
  · exact hwarned
  · exact hwarned.raiseNotice c _

/-! ### Replies -/

theorem State.portReady_changes (s : State) (p : ClientId) : s.Changes (s.portReady p) := by
  unfold State.portReady
  simp only
  split
  · exact (State.Changes.refl s).setPort p _
  · exact .refl s

theorem State.placeReply_changes (s : State) (p : ClientId) (a : Answer) (data : List Byte) :
    s.Changes (s.placeReply p a data) := by
  unfold State.placeReply
  simp only
  split <;> exact ((State.Changes.refl s).setPort p _).trans (State.portReady_changes _ p)

theorem State.answerWaiting_changes (s : State) (p c : ClientId) : s.Changes (s.answerWaiting p c) := by
  unfold State.answerWaiting
  split
  · exact s.placeReply_changes p _ _
  · exact .refl s

/-! ### The freeze (R92, R95) -/

theorem State.evaluateFreeze_changes (s : State) (c : ClientId) : s.Changes (s.evaluateFreeze c) := by
  unfold State.evaluateFreeze
  split
  · rename_i h
    obtain ⟨thawed, condition⟩ := h
    simp only [State.freezeCondition, Bool.and_eq_true, beq_iff_eq, decide_eq_true_eq] at condition
    exact (State.Changes.refl s).change (.freezes c thawed condition.1.1 condition.1.2)
  · exact .refl s

/-- Client `c` alone differs, in its session, its settings and its hold-sense level, its freeze and its deadlines aside. -/
structure State.DiffersAt (s u : State) (c : ClientId) : Prop where
  slots : u.slots = s.slots
  grant : u.grant = s.grant
  deadlines : u.deadlines = s.deadlines
  clock : u.clock = s.clock
  freeze : (u.client c).freeze = (s.client c).freeze
  clients : s.SameClientsBut u c
  units : s.SameUnitsBut u c
  stored : (u.holdUnit c).stored = (s.holdUnit c).stored
  freezeStart : (u.holdUnit c).freezeStart = (s.holdUnit c).freezeStart

theorem State.DiffersAt.refl (s : State) (c : ClientId) : s.DiffersAt s c :=
  ⟨rfl, rfl, rfl, rfl, rfl, fun _ _ => rfl, fun _ _ => rfl, rfl, rfl⟩

theorem State.DiffersAt.of_setClient (s : State) (c : ClientId) (x : Client)
    (freeze : x.freeze = (s.client c).freeze) : s.DiffersAt (s.setClient c x) c :=
  ⟨rfl, rfl, rfl, rfl, by simpa using freeze, fun d hd => by simp [hd], fun _ _ => rfl, rfl, rfl⟩

theorem State.DiffersAt.of_setLevel (s : State) (c : ClientId) (level : Bool) : s.DiffersAt (s.setLevel c level) c :=
  ⟨rfl, rfl, rfl, rfl, rfl, fun _ _ => rfl, fun d hd => by rw [s.holdUnit_setLevel, if_neg hd],
    by simp [s.holdUnit_setLevel], by simp [s.holdUnit_setLevel]⟩

/-- What is put back joins the list (R79). -/
theorem State.foldl_putBack_perm (l : List StoredDeadline) (s : State) :
    (l.foldl State.putBack s).deadlines.Perm (s.deadlines ++ l.map s.runs) := by
  induction l generalizing s with
  | nil => simp
  | cons d l ih =>
    have hput : (s.putBack d).deadlines.Perm (s.runs d :: s.deadlines) := perm_insertAfterLast _ _ _
    rw [List.foldl_cons, List.map_cons]
    refine (ih (s.putBack d)).trans ?_
    refine (hput.append_right _).trans ?_
    exact (List.perm_middle (l₁ := s.deadlines) (l₂ := l.map s.runs) (a := s.runs d)).symm

theorem State.holdUnit_foldl_putBack (l : List StoredDeadline) (s : State) (d : ClientId) :
    (l.foldl State.putBack s).holdUnit d = s.holdUnit d := by
  simp only [State.holdUnit, State.holdUnits_foldl_putBack]

theorem State.thaw_client (s : State) (c : ClientId) (next : Freeze) (d : ClientId) :
    (s.thaw c next).client d = if d = c then { s.client c with freeze := next } else s.client d := by
  rw [State.thaw, (State.foldl_putBack_same _ _).client, State.client_setHoldUnit, State.client_setClient]
  rfl

theorem State.thaw_holdUnit (s : State) (c : ClientId) (next : Freeze) (d : ClientId) :
    (s.thaw c next).holdUnit d
      = if d = c then { s.holdUnit c with freezeStart := none, stored := [] } else s.holdUnit d := by
  rw [State.thaw, State.holdUnit_foldl_putBack, State.holdUnit_setHoldUnit]
  rfl

/-- A FROZEN client thaws, whatever has happened to its session and its hold sense in the same event. -/
theorem State.thaw_thaws {s u : State} {c : ClientId} (h : s.DiffersAt u c) (frozen : (s.client c).freeze = .frozen)
    {next : Freeze} (hnext : next ≠ .frozen) (standing : s.Standing c → (u.thaw c next).Standing c) :
    s.Thaws (u.thaw c next) c where
  slots := (u.thaw_quiet c next).slots.trans h.slots
  grant := (u.thaw_quiet c next).grant.trans h.grant
  frozen := frozen
  thawed := by simpa [u.thaw_client] using hnext
  standing := standing
  clients d hd := by rw [u.thaw_client, if_neg hd, h.clients d hd]
  units d hd := by rw [u.thaw_holdUnit, if_neg hd, h.units d hd]
  freezeStart := by simp [u.thaw_holdUnit]
  stored := by simp [u.thaw_holdUnit]
  deadlines := by
    have hruns : u.runs = s.runs := by
      funext d
      simp only [State.runs, h.clock]
    have hperm := State.foldl_putBack_perm (u.holdUnit c).stored (((u.removeLive (.client c)).setClient c
      { u.client c with freeze := next }).setHoldUnit c { u.holdUnit c with freezeStart := none, stored := [] })
    rw [← hruns, ← h.deadlines, ← h.stored]
    exact hperm

theorem State.endFreeze_client (s : State) (c : ClientId) :
    (s.endFreeze c).client c = { s.client c with freeze := .thawed } := by
  unfold State.endFreeze
  split
  · simp [s.thaw_client]
  all_goals simp

/-- The end of a freeze, whatever has happened to the client's session and its hold sense in the same event (R97 to R99). -/
theorem State.endFreeze_changes {s u : State} {c : ClientId} (h : s.DiffersAt u c) : s.Changes (u.endFreeze c) := by
  have standing : ∀ t : State, (t.client c).freeze = .thawed → t.Standing c := fun t ht hne => absurd ht hne
  have hclient := u.endFreeze_client c
  unfold State.endFreeze at hclient ⊢
  split
  · rename_i hf
    refine (State.Changes.refl s).change (.thaws c (State.thaw_thaws h (h.freeze ▸ hf) (by decide) fun _ =>
      standing _ ?_))
    simp [u.thaw_client]
  all_goals
    rename_i hf
    have hnot : (s.client c).freeze ≠ .frozen := by rw [← h.freeze, hf]; decide
    refine (State.Changes.refl s).aside ⟨h.slots, h.grant, h.deadlines, fun d hd => ?_, fun d => ?_, fun d => ?_,
      fun d => ?_⟩ <;> by_cases hdc : d = c
    · subst hdc
      exact standing _ (by simp)
    · simpa [State.Standing, hdc, h.clients d hdc, h.units d hdc] using hd
    · subst hdc
      simp [hnot]
    · simp [hdc, h.clients d hdc]
    · subst hdc
      exact h.stored
    · exact congrArg HoldUnit.stored (h.units d hdc)
    · subst hdc
      exact h.freezeStart
    · exact congrArg HoldUnit.freezeStart (h.units d hdc)

/-! ### Teardown (R113, R116) -/

theorem State.Changes.completeTeardown {s t : State} (h : s.Changes t) (c : ClientId)
    (closed : (t.client c).session ≠ .opened) : s.Changes (t.completeTeardown c) := by
  unfold State.completeTeardown
  have hnone : s.Changes (t.setClient c { t.client c with session := .none }) := by
    refine h.setClient c _ Iff.rfl fun hs hf => absurd (hs hf).1 closed
  exact ((hnone.trans (State.answerWaiting_changes _ c c)).trans (State.answerWaiting_changes _ _ c)).trans
    (State.portReady_changes _ c)

theorem State.beginTeardown_changes (s : State) (c : ClientId) (cause : EndCause) :
    s.Changes (s.beginTeardown c cause) := by
  unfold State.beginTeardown
  simp only
  generalize ht : s.setClient c { s.client c with session := .teardown, endCause := cause, sweepFrom := 0 } = t
  have hended : s.Changes (t.endFreeze c) :=
    State.endFreeze_changes (ht ▸ State.DiffersAt.of_setClient s c _ rfl)
  have hsession : (((t.endFreeze c).setNoticeSet c NoticeSet.empty).client c).session ≠ .opened := by
    rw [State.client_setNoticeSet, t.endFreeze_client, ← ht]
    simp
  split
  · exact (hended.setNoticeSet c _).completeTeardown c hsession
  · exact hended.setNoticeSet c _

end Sys2Proof.Machine
end

section
/-! SUPPORT. Every command but the part resets and the release of the reset pin is a sequence of changes. -/

namespace Sys2Proof.Machine

/-! ### The requests that claim a resource or answer an offer -/

/-- What ACQUIRE's own checks lead to (R49 to R52), with what they have found of the record: a refusal, a grant of a tenure
that the record admits, or an entry in its queue. -/
theorem State.acquireAt_outcomes {P : State → Prop} {s : State} {p : ClientId} {i : SlotId} {r : Resource}
    {mode : Tenure} {priority : Fin 4} {wait : Ms} (refused : ∀ a data, P (s.answer p a data))
    (granted : r.claimsOf p = 0 → s.grant ≠ 0xFFFFFFFF#32 → r.Admits mode → P (s.grantNow p i r mode))
    (queued : r.claimsOf p = 0 → ¬ (mode = .shared ∧ r.cls = .exclusiveOnly) →
      P (s.enqueue p i r { client := p, mode := mode, priority := priority } wait)) :
    P (s.acquireAt p i r mode priority wait) := by
  unfold State.acquireAt
  split
  · exact refused _ _
  rename_i hmode
  split
  · exact refused _ _
  rename_i hclaim
  have free : r.claimsOf p = 0 := by
    rw [Resource.claimsOf_eq_zero]
    simpa using hclaim
  split
  · exact refused _ _
  rename_i hspent
  split
  · exact refused _ _
  split
  · rename_i hgrant
    simp only [Bool.and_eq_true, r.compatible_iff] at hgrant
    exact granted free (by simpa [State.grantSpent] using hspent) hgrant.1.2
  split
  · exact refused _ _
  split
  · exact refused _ _
  · exact queued free hmode

/-- A new entry takes its place in the queue, with its deadline if the wait has an end (R52). -/
theorem State.enqueue_changes {s : State} {i : SlotId} {r : Resource} (w : Waiter) (wait : Ms)
    (hr : s.record i = some r) (free : r.claimsOf w.client = 0) (active : r.lifecycle = .active)
    (mode : ¬ (w.mode = .shared ∧ r.cls = .exclusiveOnly)) : s.Changes (s.enqueue w.client i r w wait) := by
  have hqueued := (State.Changes.refl s).change (.queues i r w hr free active mode)
  have harmed := hqueued.change (.waits i w.client wait.toNat _ w (State.record_setRecord_self _ _ _)
    (mem_insertAfterLast.mpr (.inl rfl)) rfl)
  unfold State.enqueue
  simp only
  refine State.Changes.answer ?_ _ _ _
  split <;> split
  · exact hqueued.offerCheck i
  · exact harmed.offerCheck i
  · exact hqueued
  · exact harmed

theorem execAcquire_changes (p : ClientId) (s : State) : ∃ t, execAcquire p s = .next t ∧ s.Changes t := by
  have hrefl := State.Changes.refl s
  refine ⟨_, rfl, State.requestAtRecord_induction hrefl (hrefl.answer p · []) fun ps i r _ hr active =>
    State.acquireAt_outcomes (hrefl.answer p) (fun free unspent admits => ?_) fun free mode => ?_⟩
  · exact (hrefl.change (.grants i p r _ hr free unspent admits)).answer p _ _
  · exact State.enqueue_changes _ _ hr free (active (.inl rfl)) mode

theorem execAccept_changes (p : ClientId) (s : State) : ∃ t, execAccept p s = .next t ∧ s.Changes t := by
  have hrefl := State.Changes.refl s
  refine ⟨_, rfl, State.requestAtRecord_induction hrefl (hrefl.answer p · []) fun ps i r _ hr _ => ?_⟩
  split
  · exact hrefl.answer p _ _
  · rename_i h _ hh
    exact ((hrefl.change (.leases i p r h (fun g => { g with state := .held, warned := false }) hr hh rfl
      fun _ => ⟨rfl, rfl, rfl⟩)).setNoticeSet p _).answer p _ _
  · exact hrefl.answer p _ _

theorem execDecline_changes (p : ClientId) (s : State) : ∃ t, execDecline p s = .next t ∧ s.Changes t := by
  have hrefl := State.Changes.refl s
  refine ⟨_, rfl, State.requestAtRecord_induction hrefl (hrefl.answer p · []) fun ps i r _ _ _ => ?_⟩
  split
  · exact hrefl.answer p _ _
  · exact (hrefl.endHolding i p _).answer p _ _

theorem execCancel_changes (p : ClientId) (s : State) : ∃ t, execCancel p s = .next t ∧ s.Changes t := by
  have hrefl := State.Changes.refl s
  refine ⟨_, rfl, State.requestAtRecord_induction hrefl (hrefl.answer p · []) fun ps i r _ _ _ => ?_⟩
  split
  · exact (hrefl.endWait i p).answer p _ _
  · exact hrefl.answer p _ _

/-! ### The requests on a HELD holding -/

/-- The generation checks pass only with a HELD holding of that generation (R30). -/
theorem Resource.holderRefusal_eq_none {r : Resource} {c : ClientId} {gen : Gen} :
    r.holderRefusal c gen = none ↔ ∃ h, r.holdingOf c = some h ∧ h.state = .held ∧ h.gen = gen := by
  unfold Resource.holderRefusal
  cases r.holdingOf c with
  | none => simp
  | some h => cases hs : h.state <;> simp [hs]

theorem execRenew_changes (p : ClientId) (s : State) : ∃ t, execRenew p s = .next t ∧ s.Changes t := by
  have hrefl := State.Changes.refl s
  refine ⟨_, rfl, State.requestAtRecord_induction hrefl (hrefl.answer p · []) fun ps i r _ hr _ => ?_⟩
  split
  · exact hrefl.answer p _ _
  · rename_i hnone
    obtain ⟨h, hh, held, -⟩ := Resource.holderRefusal_eq_none.mp hnone
    exact ((hrefl.change (.leases i p r h (fun g => { g with warned := false }) hr hh held
      fun _ => ⟨rfl, rfl, rfl⟩)).setNoticeSet p _).answer p _ _

theorem execRelease_changes (p : ClientId) (s : State) : ∃ t, execRelease p s = .next t ∧ s.Changes t := by
  have hrefl := State.Changes.refl s
  refine ⟨_, rfl, State.requestAtRecord_induction hrefl (hrefl.answer p · []) fun ps i r _ _ _ => ?_⟩
  split
  · exact hrefl.answer p _ _
  · exact (hrefl.endHolding i p _).answer p _ _

theorem execDowngrade_changes (p : ClientId) (s : State) : ∃ t, execDowngrade p s = .next t ∧ s.Changes t := by
  have hrefl := State.Changes.refl s
  refine ⟨_, rfl, State.requestAtRecord_induction hrefl (hrefl.answer p · []) fun ps i r _ hr _ => ?_⟩
  split
  · exact hrefl.answer p _ _
  split
  · exact hrefl.answer p _ _
  rename_i hcls
  split
  · exact hrefl.answer p _ _
  · exact ((hrefl.change (.shares i p r hr hcls)).offerCheck i).answer p _ _

theorem execMarkSound_changes (p : ClientId) (s : State) : ∃ t, execMarkSound p s = .next t ∧ s.Changes t := by
  have hrefl := State.Changes.refl s
  refine ⟨_, rfl, State.requestAtRecord_induction hrefl (hrefl.answer p · []) fun ps i r _ hr _ => ?_⟩
  split
  · exact hrefl.answer p _ _
  split
  · exact hrefl.answer p _ _
  · exact (hrefl.change (.reworks i r { r with integrity := .sound } hr ⟨rfl, rfl, .inl rfl, .inl rfl⟩)).answer p _ _

theorem execRevoke_changes (p : ClientId) (s : State) : ∃ t, execRevoke p s = .next t ∧ s.Changes t := by
  have hrefl := State.Changes.refl s
  refine ⟨_, rfl, State.requestAtRecord_induction hrefl (hrefl.answer p · []) fun ps i r _ _ _ => ?_⟩
  simp only
  split
  · exact (hrefl.endHolding i _ _).answer p _ _
  · exact hrefl.answer p _ _

/-! ### The requests of the directory -/

/-- The class of a DEFINE or an AMEND in range (R13, R166). -/
theorem TermsHold.lawful {ps : List Byte} (h : TermsHold ps) : (classOf (byteAt ps 2) (byteAt ps 3)).Lawful := by
  intro limit hl
  obtain ⟨hcls, -⟩ := h
  unfold classOf at hl
  split at hl
  · rename_i h2
    obtain rfl := ResClass.shareable.inj hl
    rcases hcls with ⟨h1, -⟩ | ⟨-, h2, -⟩
    · simp [h2] at h1
    · exact h2
  · cases hl

/-- The lowest free slot is free (R3). -/
theorem State.record_of_freeSlot {s : State} {i : SlotId} (h : s.freeSlot = some i) : s.record i = none := by
  simpa using List.find?_some h

theorem execDefine_changes (p : ClientId) (s : State) : ∃ t, execDefine p s = .next t ∧ s.Changes t := by
  have hrefl := State.Changes.refl s
  refine ⟨_, rfl, State.request_induction hrefl (hrefl.answer p · []) fun ps hp => ?_⟩
  obtain ⟨-, -, -, -, -, hterms⟩ := hp
  split
  · exact hrefl.answer p _ _
  split
  · exact hrefl.answer p _ _
  · rename_i i hi
    exact (hrefl.change (.defines i (definedRecord ps) (State.record_of_freeSlot hi)
      ⟨rfl, rfl, rfl, hterms.lawful⟩)).answer p _ _

theorem execAmend_changes (p : ClientId) (s : State) : ∃ t, execAmend p s = .next t ∧ s.Changes t := by
  have hrefl := State.Changes.refl s
  refine ⟨_, rfl, State.requestAtRecord_induction hrefl (hrefl.answer p · []) fun ps i r hp hr _ => ?_⟩
  obtain ⟨-, -, -, -, -, hterms⟩ := hp
  simp only
  split
  · exact hrefl.answer p _ _
  rename_i haccepted
  have hamended := hrefl.change (.reworks i r (r.amended ps) hr
    ⟨rfl, rfl, .inl rfl, .inr ⟨by simpa [Resource.amended] using haccepted, hterms.lawful⟩⟩)
  refine State.Changes.answer ?_ p _ _
  split
  · exact hamended.offerCheck i
  · exact hamended

/-- Every waiter entry withdrawn, head first, leaves the queue empty and the rest of the record as it is (R16). -/
theorem State.record_withdrawWaiters (i : SlotId) (key : Key) (ws : List Waiter) {s : State} {r : Resource}
    (hr : s.record i = some r) (hq : r.queue = ws) :
    (ws.foldl (State.withdrawWaiter i key) s).record i = some { r with queue := [] } := by
  induction ws generalizing s r with
  | nil => rw [List.foldl_nil, hr, ← hq]
  | cons w rest ih =>
    have hhead : (State.withdrawWaiter i key s w).record i = some { r with queue := rest } := by
      rw [(State.withdrawWaiter_spec i key w s r hr).2.1, hq]
      simp
    exact ih (r := { r with queue := rest }) hhead rfl

/-- The offers withdrawn one after another leave the queue as it is, and nothing of the holder list where it held nothing
else (R16). -/
theorem State.record_withdrawOffers (i : SlotId) (hs : List Holding) {s : State} {r : Resource}
    (hr : s.record i = some r) :
    ∃ q, (hs.foldl (State.withdrawOffer i) s).record i = some q ∧ q.queue = r.queue
      ∧ (r.holders = hs → q.holders = []) := by
  induction hs generalizing s r with
  | nil => exact ⟨r, hr, rfl, id⟩
  | cons h rest ih =>
    have hdrop : State.withdrawOffer i s h = s.dropHolding i r h .withdrawn := by simp [State.withdrawOffer, hr]
    obtain ⟨q, hq, hqueue, hempty⟩ := ih (s.record_dropHolding_self i r h .withdrawn)
    rw [List.foldl_cons, hdrop]
    exact ⟨q, hq, hqueue, fun hh => hempty (by simp [hh])⟩

/-- The withdrawals of RETIRE, and the queue they leave empty (R16). -/
theorem State.withdrawAll_changes {s : State} {i : SlotId} {r : Resource} (hr : s.record i = some r) :
    s.Changes (s.withdrawAll i r) ∧ ∃ q, (s.withdrawAll i r).record i = some q ∧ q.queue = []
      ∧ (r.offers = r.holders → q.holders = []) := by
  have hwaiters : s.Changes (r.queue.foldl (State.withdrawWaiter i r.key) s) :=
    List.foldlRecOn _ _ (State.Changes.refl s) fun t ht w _ =>
      (ht.change (.unqueues i w.client)).raiseNotice w.client _
  obtain ⟨q, hq, hqueue, hempty⟩ := State.record_withdrawOffers i r.offers
    (State.record_withdrawWaiters i r.key r.queue hr rfl)
  refine ⟨State.Changes.setBacklog (List.foldlRecOn _ _ hwaiters fun t ht h _ => ?_) _, q, hq, hqueue,
    fun hall => hempty hall.symm⟩
  unfold State.withdrawOffer
  split
  · exact ht
  · exact ht.change (.ends i _ h .withdrawn ‹_›)

theorem execRetire_changes (p : ClientId) (s : State) : ∃ t, execRetire p s = .next t ∧ s.Changes t := by
  have hrefl := State.Changes.refl s
  refine ⟨_, rfl, State.requestAtRecord_induction hrefl (hrefl.answer p · []) fun ps i r _ hr _ => ?_⟩
  obtain ⟨hall, q, hq, hqueue, hempty⟩ := State.withdrawAll_changes hr
  simp only
  split
  · rw [State.modifyRecord_some _ i _ q hq]
    exact ((hall.change (.reworks i q { q with lifecycle := .retiring } hq
      ⟨rfl, rfl, .inr hqueue, .inl rfl⟩)).giveBackMany _).answer p _ _
  · rename_i hnone
    have hoffers : r.offers = r.holders := by
      refine List.filter_eq_self.mpr fun h hh => ?_
      cases hs : h.state with
      | offered => rfl
      | held => exact absurd (List.any_eq_true.mpr ⟨h, hh, by simp [hs]⟩) hnone
    refine ((hall.change (.removes i fun q' hq' => ?_)).giveBackMany _).answer p _ _
    obtain rfl : q = q' := by simpa [hq] using hq'
    exact ⟨hempty hoffers, .inr hqueue⟩

theorem execQuery_changes (p : ClientId) (s : State) : ∃ t, execQuery p s = .next t ∧ s.Changes t :=
  have hrefl := State.Changes.refl s
  ⟨_, rfl, State.requestAtRecord_induction hrefl (hrefl.answer p · []) fun _ _ _ _ _ _ => hrefl.answer p _ _⟩

/-! ### Expiries -/

theorem execLeaseWarn_changes (i : SlotId) (c : ClientId) (s : State) :
    ∃ t, execLeaseWarn i c s = .next t ∧ s.Changes t := by
  refine ⟨_, rfl, ?_⟩
  split
  · rename_i hdue
    obtain ⟨hd, owner, -⟩ := State.dueDeadline_mem hdue
    exact State.warn_changes _ hd owner rfl
  · exact .refl s

theorem execLeaseEnd_changes (i : SlotId) (c : ClientId) (s : State) :
    ∃ t, execLeaseEnd i c s = .next t ∧ s.Changes t := by
  refine ⟨_, rfl, ?_⟩
  split
  · exact s.expire_changes i c _
  · exact .refl s

theorem execOfferEnd_changes (i : SlotId) (c : ClientId) (s : State) :
    ∃ t, execOfferEnd i c s = .next t ∧ s.Changes t := by
  refine ⟨_, rfl, ?_⟩
  split
  · exact s.expire_changes i c _
  · exact .refl s

theorem execWaitEnd_changes (i : SlotId) (c : ClientId) (s : State) :
    ∃ t, execWaitEnd i c s = .next t ∧ s.Changes t := by
  refine ⟨_, rfl, ?_⟩
  split
  · exact s.lapse_changes i c
  · exact .refl s

/-- The allowance has ended: the client is OVERSTAYED with its session and its hold sense as they were (R96). -/
theorem execAllowanceEnd_changes (c : ClientId) (s : State) : ∃ t, execAllowanceEnd c s = .next t ∧ s.Changes t := by
  refine ⟨_, rfl, ?_⟩
  split
  · rename_i h
    have hdiff := State.DiffersAt.of_setClient s c { s.client c with holdUsed := (s.client c).allowanceMs } rfl
    refine (State.Changes.refl s).change (.thaws c (State.thaw_thaws hdiff h.2 (by decide) fun hs _ => ?_))
    have hstands := hs (by rw [h.2]; decide)
    simpa [State.thaw_client, State.thaw_holdUnit] using hstands
  · exact .refl s

/-! ### Hold sense -/

theorem execHoldAssertion_changes (c : ClientId) (s : State) : ∃ t, execHoldAssertion c s = .next t ∧ s.Changes t := by
  refine ⟨_, rfl, ?_⟩
  have hset : s.Changes (s.setLevel c true) := (State.Changes.refl s).aside (.of_setLevel s c)
  have hlevel : ((s.setLevel c true).holdUnit c).level = true := by simp [s.holdUnit_setLevel]
  simp only
  generalize s.setLevel c true = t at hset hlevel
  split
  · exact .refl s
  split
  · rename_i thawed
    split
    · rename_i condition
      simp only [State.freezeCondition, Bool.and_eq_true, beq_iff_eq, decide_eq_true_eq] at condition
      exact hset.change (.freezes c thawed condition.1.1 condition.1.2)
    split
    · rename_i spent
      simp only [Client.allowanceSpent, Bool.and_eq_true, beq_iff_eq, decide_eq_true_eq] at spent
      exact hset.setClient c _ (by simp [thawed]) fun _ _ => ⟨spent.1.1, hlevel⟩
    · exact hset
  · exact hset

theorem execHoldRelease_changes (c : ClientId) (s : State) : ∃ t, execHoldRelease c s = .next t ∧ s.Changes t := by
  refine ⟨_, rfl, ?_⟩
  split
  · exact State.endFreeze_changes (.of_setLevel s c false)
  · exact .refl s

/-! ### Sessions -/

theorem execJoin_changes (p : ClientId) (s : State) : ∃ t, execJoin p s = .next t ∧ s.Changes t := by
  have hrefl := State.Changes.refl s
  refine ⟨_, rfl, State.request_induction hrefl (hrefl.answer p · []) fun _ hp => ?_⟩
  have hnone : (s.client p).session = .none := hp.2.1
  have hset : s.Changes (s.setClient p { s.client p with
      epoch := nextEpoch (s.client p).epoch, session := .opened, holdUsed := 0 }) :=
    hrefl.setClient p _ Iff.rfl fun hs hf => by
      have hopened := (hs hf).1
      rw [hnone] at hopened
      cases hopened
  exact (hset.trans (State.evaluateFreeze_changes _ p)).answer p _ _

theorem execLeave_changes (p : ClientId) (s : State) : ∃ t, execLeave p s = .next t ∧ s.Changes t :=
  have hrefl := State.Changes.refl s
  ⟨_, rfl, State.request_induction hrefl (hrefl.answer p · []) fun _ _ =>
    (hrefl.setPort p _).trans (State.beginTeardown_changes _ p _)⟩

theorem execEvict_changes (p : ClientId) (s : State) : ∃ t, execEvict p s = .next t ∧ s.Changes t := by
  have hrefl := State.Changes.refl s
  refine ⟨_, rfl, State.request_induction hrefl (hrefl.answer p · []) fun ps _ => ?_⟩
  simp only
  split
  · exact hrefl.answer p _ _
  · exact (hrefl.setPort p _).trans (State.beginTeardown_changes _ _ _)

theorem execSetClient_changes (p : ClientId) (s : State) : ∃ t, execSetClient p s = .next t ∧ s.Changes t := by
  have hrefl := State.Changes.refl s
  refine ⟨_, rfl, State.request_induction hrefl (hrefl.answer p · []) fun ps _ => ?_⟩
  simp only
  split
  · exact hrefl.answer p _ _
  · have hended := State.endFreeze_changes (State.DiffersAt.refl s (clientOf (byteAt ps 0)))
    refine State.Changes.answer (State.Changes.trans ?_ (State.evaluateFreeze_changes _ _)) p _ _
    exact hended.setClient _ _ Iff.rfl id

theorem execClientResetSense_changes (c : ClientId) (s : State) :
    ∃ t, execClientResetSense c s = .next t ∧ s.Changes t := by
  refine ⟨_, rfl, ?_⟩
  have hport := (State.Changes.refl s).setPort c { s.port c with senseOwed := false }
  simp only
  split
  · split
    · exact hport.trans (State.beginTeardown_changes _ c _)
    · exact hport
  · exact .refl s

theorem execSweepVisit_changes (c : ClientId) (s : State) : ∃ t, execSweepVisit c s = .next t ∧ s.Changes t := by
  refine ⟨_, rfl, ?_⟩
  split
  · split
    · exact .refl s
    · rename_i i _
      have hset : s.Changes (s.setClient c { s.client c with sweepFrom := i.val + 1 }) :=
        (State.Changes.refl s).setClient c _ Iff.rfl id
      simp only
      split
      · exact hset.endHolding i c _
      · exact hset.endWait i c
  · exact .refl s

theorem execTeardownCompletion_changes (c : ClientId) (s : State) :
    ∃ t, execTeardownCompletion c s = .next t ∧ s.Changes t := by
  refine ⟨_, rfl, ?_⟩
  split
  · rename_i h
    exact (State.Changes.refl s).completeTeardown c (by rw [h.1]; decide)
  · exact .refl s

theorem execTakeNotice_changes (p : ClientId) (s : State) : ∃ t, execTakeNotice p s = .next t ∧ s.Changes t := by
  have hrefl := State.Changes.refl s
  refine ⟨_, rfl, State.request_induction hrefl (hrefl.answer p · []) fun _ _ => ?_⟩
  split
  · exact hrefl.answer p _ _
  · exact (hrefl.setNoticeSet p _).answer p _ _

theorem execInspectClient_changes (p : ClientId) (s : State) : ∃ t, execInspectClient p s = .next t ∧ s.Changes t := by
  have hrefl := State.Changes.refl s
  refine ⟨_, rfl, State.request_induction hrefl (hrefl.answer p · []) fun _ _ => ?_⟩
  simp only
  split
  · exact hrefl.answer p _ _
  split <;> exact hrefl.answer p _ _

theorem execUnknownCode_changes (p : ClientId) (s : State) : ∃ t, execUnknownCode p s = .next t ∧ s.Changes t := by
  refine ⟨_, rfl, ?_⟩
  split
  · split
    · exact .refl s
    · exact (State.Changes.refl s).answer p _ _
  all_goals exact .refl s

/-! ### Ports and the clock -/

theorem execFrameStart_changes (p : ClientId) (s : State) : ∃ t, execFrameStart p s = .next t ∧ s.Changes t := by
  refine ⟨_, rfl, ?_⟩
  simp only
  split
  · exact .refl s
  split
  · exact ((State.Changes.refl s).setPort p _).setNoticeSet p _
  · exact (State.Changes.refl s).setPort p _

theorem execFrameEnd_changes (p : ClientId) (n : Nat) (d : BitVec n) (s : State) :
    ∃ t, execFrameEnd p n d s = .next t ∧ s.Changes t := by
  refine ⟨_, rfl, ?_⟩
  have hclosed := (State.Changes.refl s).setPort p { s.port p with selectLow := false, frame := none }
  simp only
  split
  · exact .refl s
  split
  · exact hclosed
  split
  · exact hclosed
  · refine State.Changes.setPort ?_ p _
    split
    · exact (hclosed.setPort p _).setNoticeSet p _
    · exact hclosed

theorem execReplyReady_changes (p : ClientId) (s : State) : ∃ t, execReplyReady p s = .next t ∧ s.Changes t := by
  refine ⟨_, rfl, ?_⟩
  split
  · exact s.placeReply_changes p _ _
  all_goals exact .refl s

theorem execResetSenseAssert_changes (p : ClientId) (s : State) :
    ∃ t, execResetSenseAssert p s = .next t ∧ s.Changes t := by
  refine ⟨_, rfl, ?_⟩
  simp only
  split
  · exact .refl s
  split <;> exact (State.Changes.refl s).setPort p _

theorem execResetSenseRelease_changes (p : ClientId) (s : State) :
    ∃ t, execResetSenseRelease p s = .next t ∧ s.Changes t := by
  refine ⟨_, rfl, ?_⟩
  split
  · exact ((State.Changes.refl s).setPort p _).trans (State.portReady_changes _ p)
  · exact .refl s

theorem execStartupEnd_changes (s : State) : ∃ t, execStartupEnd s = .next t ∧ s.Changes t := by
  refine ⟨_, rfl, ?_⟩
  split
  · exact (State.Changes.refl s).aside (.of_same rfl rfl rfl rfl rfl)
  · exact .refl s

theorem Client.countHold_freeze (x : Client) : x.countHold.freeze = x.freeze := by
  unfold Client.countHold
  split <;> rfl

theorem execMillisecondBoundary_changes (s : State) : ∃ t, execMillisecondBoundary s = .next t ∧ s.Changes t := by
  refine ⟨_, rfl, ?_⟩
  split
  · refine (State.Changes.refl s).aside (.of_clients rfl rfl rfl rfl fun c => ?_)
    have hcount : (Vector.ofFn fun d => (s.client d).countHold)[c] = (s.client c).countHold := by simp
    exact ⟨(congrArg Client.session hcount).trans (s.client c).countHold_session,
      (congrArg Client.freeze hcount).trans (s.client c).countHold_freeze⟩
  · exact .refl s

/-! ### Every command -/

/-- The command resets the part, or releases the reset pin. -/
def resetsPart : Instr → Bool
  | .powerOn .. | .resetPin | .resetPinRelease _ => true
  | _ => false

/-- Every other command is a sequence of changes. -/
theorem exec_changes (c : Instr) (s : State) (h : resetsPart c = false) : ∃ t, exec c s = .next t ∧ s.Changes t := by
  cases c with
  | powerOn | resetPin | resetPinRelease => cases h
  | startupEnd => exact execStartupEnd_changes s
  | millisecondBoundary => exact execMillisecondBoundary_changes s
  | frameStart p => exact execFrameStart_changes p s
  | frameEnd p n d => exact execFrameEnd_changes p n d s
  | idle p => exact ⟨s, rfl, .refl s⟩
  | replyReady p => exact execReplyReady_changes p s
  | join p => exact execJoin_changes p s
  | leave p => exact execLeave_changes p s
  | acquire p => exact execAcquire_changes p s
  | accept p => exact execAccept_changes p s
  | decline p => exact execDecline_changes p s
  | cancel p => exact execCancel_changes p s
  | renew p => exact execRenew_changes p s
  | release p => exact execRelease_changes p s
  | downgrade p => exact execDowngrade_changes p s
  | markSound p => exact execMarkSound_changes p s
  | query p => exact execQuery_changes p s
  | takeNotice p => exact execTakeNotice_changes p s
  | define p => exact execDefine_changes p s
  | amend p => exact execAmend_changes p s
  | retire p => exact execRetire_changes p s
  | revoke p => exact execRevoke_changes p s
  | evict p => exact execEvict_changes p s
  | setClient p => exact execSetClient_changes p s
  | inspectClient p => exact execInspectClient_changes p s
  | unknownCode p => exact execUnknownCode_changes p s
  | sweepVisit c => exact execSweepVisit_changes c s
  | teardownCompletion c => exact execTeardownCompletion_changes c s
  | resetSenseAssert p => exact execResetSenseAssert_changes p s
  | clientResetSense c => exact execClientResetSense_changes c s
  | resetSenseRelease p => exact execResetSenseRelease_changes p s
  | holdAssertion c => exact execHoldAssertion_changes c s
  | holdRelease c => exact execHoldRelease_changes c s
  | leaseWarn i c => exact execLeaseWarn_changes i c s
  | leaseEnd i c => exact execLeaseEnd_changes i c s
  | offerEnd i c => exact execOfferEnd_changes i c s
  | waitEnd i c => exact execWaitEnd_changes i c s
  | allowanceEnd c => exact execAllowanceEnd_changes c s

end Sys2Proof.Machine
end

section
/-! PROOF. The laws that read the records and the grant counter alone: tenures (O52) and generations (O54). -/

namespace Sys2Proof.Machine

/-- A part reset leaves no record; the release of the reset pin leaves records and grant counter as they are. -/
theorem exec_resetsPart {c : Instr} (s : State) (h : resetsPart c = true) :
    ∃ t, exec c s = .next t ∧ ((∀ i, t.record i = none) ∨ (t.slots = s.slots ∧ t.grant = s.grant)) := by
  cases c with
  | powerOn sel rsn hld => exact ⟨_, rfl, .inl fun i => by simp [State.record, State.powerOn]⟩
  | resetPin => exact ⟨_, rfl, .inl fun i => by simp [State.record]⟩
  | resetPinRelease levels =>
    obtain ⟨t, ht, quiet⟩ := execResetPinRelease_quiet levels s
    exact ⟨t, ht, .inr ⟨quiet.slots, quiet.grant⟩⟩
  | _ => cases h

/-- A law of the records and the grant counter, which an empty directory meets and every change keeps, every command keeps. -/
theorem exec_keeps_directory {P : State → Prop} (empty : ∀ t : State, (∀ i, t.record i = none) → P t)
    (same : ∀ s t : State, t.slots = s.slots → t.grant = s.grant → P s → P t)
    (change : ∀ s t : State, s.Change t → P s → P t) (c : Instr) (s : State) (hs : P s) :
    ∃ t, exec c s = .next t ∧ P t := by
  by_cases hc : resetsPart c = true
  · obtain ⟨t, ht, hnone | ⟨slots, grant⟩⟩ := exec_resetsPart s hc
    · exact ⟨t, ht, empty t hnone⟩
    · exact ⟨t, ht, same s t slots grant hs⟩
  · obtain ⟨t, ht, changes⟩ := exec_changes c s (by simpa using hc)
    exact ⟨t, ht, changes.keeps change hs⟩

/-- A law of single records that an edit keeps, a change keeps. -/
theorem State.Change.keeps_records {P : Resource → Prop}
    (edit : ∀ {g g' x x'}, RecordEdit g x g' x' → (∀ r, x = some r → P r) → ∀ r, x' = some r → P r) {s t : State}
    (h : s.Change t) (hs : ∀ i r, s.record i = some r → P r) : ∀ i r, t.record i = some r → P r := by
  obtain ⟨i, elsewhere, e⟩ := h.edits
  intro j r hr
  by_cases hj : j = i
  · exact edit e (hs i) r (hj ▸ hr)
  · exact hs j r (elsewhere j hj ▸ hr)

/-! ### Tenures (R26) -/

/-- Settles O52: a change edits one record at most, and each edit keeps its tenure law. -/
theorem stepKeepsTheTenureLaw : Obligations.StepKeepsTheTenureLaw := by
  intro s t law hstep
  refine step_leads (P := State.TenureLaw) (fun _ _ h => h) (exec_keeps_directory ?_ ?_ ?_) (fun _ => id) law hstep
  · intro t hnone i r hr
    rw [hnone] at hr
    cases hr
  · intro s t slots _ law i r hr
    exact law i r (by simpa only [State.record, slots] using hr)
  · intro s t h law
    exact h.keeps_records (P := Resource.TenureLaw) RecordEdit.tenureLaw law

/-! ### Generations (R28) -/

/-- The law of generations, slot by slot (R28). -/
theorem State.generationsLegal_iff (s : State) : s.GenerationsLegal ↔
    (∀ i, ∀ x ∈ gensOf (s.record i), x ≠ 0 ∧ x ≤ s.grant) ∧ (∀ i, (gensOf (s.record i)).Nodup)
    ∧ ∀ i j x, x ∈ gensOf (s.record i) → x ∈ gensOf (s.record j) → i = j := by
  have mem : ∀ i x, x ∈ gensOf (s.record i) ↔ ∃ r h, s.record i = some r ∧ h ∈ r.holders ∧ h.gen = x := by
    intro i x
    cases s.record i <;> simp [gensOf]
  have nodup : ∀ i, (gensOf (s.record i)).Nodup ↔
      ∀ r, s.record i = some r → (r.holders.map Holding.gen).Nodup := by
    intro i
    cases s.record i <;> simp [gensOf]
  simp only [State.GenerationsLegal, nodup, mem]
  refine and_congr ⟨?_, ?_⟩ (and_congr Iff.rfl ⟨?_, ?_⟩)
  · rintro h i x ⟨r, g, hr, hg, rfl⟩
    exact h i r g hr hg
  · exact fun h i r g hr hg => h i _ ⟨r, g, hr, hg, rfl⟩
  · rintro h i j x ⟨r, g, hr, hg, rfl⟩ ⟨r', g', hr', hg', heq⟩
    exact h i j r r' g g' hr hr' hg hg' heq.symm
  · exact fun h i j r r' g g' hr hr' hg hg' heq => h i j g.gen ⟨r, g, hr, hg, rfl⟩ ⟨r', g', hr', hg', heq.symm⟩

/-- A counter that is not spent counts on (R28). -/
theorem Gen.toNat_succ {g : Gen} (h : g ≠ 0xFFFFFFFF#32) : (g + 1).toNat = g.toNat + 1 := by
  have hne : g.toNat ≠ 2 ^ 32 - 1 := fun he => h (BitVec.eq_of_toNat_eq (by simpa using he))
  have hlt := g.isLt
  rw [BitVec.toNat_add]
  exact Nat.mod_eq_of_lt (by simp; omega)

/-- A change leaves the grant counter, or takes the next generation (R28). -/
theorem State.Change.grant_le {s t : State} (h : s.Change t) : s.grant ≤ t.grant := by
  obtain ⟨i, -, e⟩ := h.edits
  rcases e.gens with ⟨hg, -⟩ | ⟨unspent, hg, -⟩
  · rw [hg]
    exact BitVec.le_refl _
  · rw [hg, BitVec.le_def, Gen.toNat_succ unspent]
    exact Nat.le_succ _

theorem State.Changes.grant_le {s t : State} (h : s.Changes t) : s.grant ≤ t.grant := by
  induction h with
  | refl => exact BitVec.le_refl _
  | tail _ hc ih => exact BitVec.le_trans ih hc.grant_le

/-- A change leaves a part of the generations, or adds the next one, which is above all that were granted (R28). -/
theorem State.Change.generationsLegal {s t : State} (h : s.Change t) (law : s.GenerationsLegal) :
    t.GenerationsLegal := by
  rw [State.generationsLegal_iff] at law ⊢
  obtain ⟨bounded, nodup, apart⟩ := law
  have hle := h.grant_le
  obtain ⟨i, elsewhere, e⟩ := h.edits
  rcases e.gens with ⟨-, hsub⟩ | ⟨unspent, hgrant, hgens⟩
  · have hold : ∀ j x, x ∈ gensOf (t.record j) → x ∈ gensOf (s.record j) := fun j x hx => by
      by_cases hj : j = i
      · subst hj
        exact hsub.subset hx
      · exact elsewhere j hj ▸ hx
    refine ⟨fun j x hx => ?_, fun j => ?_, fun j k x hx hx' => apart j k x (hold j x hx) (hold k x hx')⟩
    · obtain ⟨hne, hx⟩ := bounded j x (hold j x hx)
      exact ⟨hne, BitVec.le_trans hx hle⟩
    · by_cases hj : j = i
      · subst hj
        exact hsub.nodup (nodup j)
      · exact elsewhere j hj ▸ nodup j
  · have hnew : ∀ j, s.grant + 1 ∉ gensOf (s.record j) := fun j hx => by
      have := (bounded j _ hx).2
      rw [BitVec.le_def, Gen.toNat_succ unspent] at this
      omega
    have hold : ∀ j x, x ∈ gensOf (t.record j) → x ∈ gensOf (s.record j) ∨ (j = i ∧ x = s.grant + 1) :=
      fun j x hx => by
        by_cases hj : j = i
        · subst hj
          simpa [hgens] using hx
        · exact .inl (elsewhere j hj ▸ hx)
    refine ⟨fun j x hx => ?_, fun j => ?_, fun j k x hx hx' => ?_⟩
    · rcases hold j x hx with hx | ⟨-, rfl⟩
      · exact ⟨(bounded j x hx).1, BitVec.le_trans (bounded j x hx).2 hle⟩
      · refine ⟨fun hz => ?_, hgrant ▸ BitVec.le_refl _⟩
        have := congrArg BitVec.toNat hz
        rw [Gen.toNat_succ unspent] at this
        simp at this
    · by_cases hj : j = i
      · subst hj
        rw [hgens]
        exact (List.nodup_append_comm.mp (List.nodup_cons.mpr ⟨hnew j, nodup j⟩))
      · exact elsewhere j hj ▸ nodup j
    · rcases hold j x hx with hx | ⟨rfl, rfl⟩ <;> rcases hold k _ hx' with hx' | ⟨rfl, hx'⟩
      · exact apart j k x hx hx'
      · exact absurd (hx' ▸ hx) (hnew j)
      · exact absurd hx' (hnew k)
      · rfl

/-- No command but a part reset turns the grant counter back (R28). -/
theorem exec_grant_le (c : Instr) (s : State) (on : ∀ sel rsn hld, c ≠ .powerOn sel rsn hld) (pin : c ≠ .resetPin) :
    ∃ t, exec c s = .next t ∧ s.grant ≤ t.grant := by
  by_cases hc : resetsPart c = true
  · cases c with
    | powerOn sel rsn hld => exact absurd rfl (on sel rsn hld)
    | resetPin => exact absurd rfl pin
    | resetPinRelease levels =>
      obtain ⟨t, ht, quiet⟩ := execResetPinRelease_quiet levels s
      exact ⟨t, ht, quiet.grant ▸ BitVec.le_refl _⟩
    | _ => cases hc
  · obtain ⟨t, ht, changes⟩ := exec_changes c s (by simpa using hc)
    exact ⟨t, ht, changes.grant_le⟩

/-- Settles O54: a change leaves a part of the generations or adds the next one, and only a part reset turns the counter
back. -/
theorem stepKeepsTheGenerationLaw : Obligations.StepKeepsTheGenerationLaw := by
  intro s t law hstep
  refine ⟨?_, fun on pin => ?_⟩
  · refine step_leads (P := State.GenerationsLegal) (fun _ _ h => h) (exec_keeps_directory ?_ ?_ ?_) (fun _ => id)
      law hstep
    · intro t hnone
      rw [State.generationsLegal_iff]
      simp [hnone, gensOf]
    · intro s t slots grant law
      simpa only [State.GenerationsLegal, State.record, slots, grant] using law
    · exact fun s t h => h.generationsLegal
  · cases hq : s.pending with
    | nil =>
      rw [step_nil s hq] at hstep
      cases hstep
      exact BitVec.le_refl _
    | cons c rest =>
      obtain ⟨u, hu, hle⟩ := exec_grant_le c { s with pending := rest }
        (fun sel rsn hld hc => on sel rsn hld rest (hc ▸ hq)) fun hc => pin rest (hc ▸ hq)
      rw [step_cons s c rest hq, hu] at hstep
      cases hstep
      exact hle

end Sys2Proof.Machine
end

section
/-! PROOF. Every change keeps a claim's deadline in the list or, exactly while its client is FROZEN, stored, once (R23, R75,
R92): the first half of O58. -/

namespace Sys2Proof.Machine

/-! ### The law, client by client -/

/-- The freeze law of one client (R91, R92, R98). -/
structure State.FreezeAt (s : State) (c : ClientId) : Prop where
  standing : s.Standing c
  frozen : (s.client c).freeze = .frozen → (s.holdUnit c).freezeStart.isSome = true
    ∧ (∀ d ∈ s.deadlines, d.owner.isClaimOf c = false) ∧ ∀ d ∈ (s.holdUnit c).stored, d.owner.isClaimOf c = true
  running : (s.client c).freeze ≠ .frozen → (s.holdUnit c).freezeStart = none ∧ (s.holdUnit c).stored = []
    ∧ ∀ d ∈ s.deadlines, d.owner ≠ .client c

theorem State.freezeLaw_iff (s : State) : s.FreezeLaw ↔ ∀ c, s.FreezeAt c := by
  refine forall_congr' fun c => ⟨?_, ?_⟩
  · rintro ⟨frozen, running, overstayed⟩
    refine ⟨fun hf => ?_, fun hf => (frozen hf).2.2, running⟩
    cases h : (s.client c).freeze with
    | thawed => exact absurd h hf
    | frozen => exact ⟨(frozen h).1, (frozen h).2.1⟩
    | overstayed => exact overstayed h
  · rintro ⟨standing, frozen, running⟩
    refine ⟨fun hf => ?_, running, fun hf => standing (by rw [hf]; decide)⟩
    obtain ⟨opened, level⟩ := standing (by rw [hf]; decide)
    exact ⟨opened, level, frozen hf⟩

/-- Every owner's deadline runs or is stored, by its client's freeze, and is one at most. -/
def State.DeadlinesApart (s : State) : Prop := (∀ c, s.FreezeAt c) ∧ s.OneDeadlineEach

theorem State.deadlinesApart_iff (s : State) : s.DeadlinesApart ↔ s.FreezeLaw ∧ s.OneDeadlineEach :=
  and_congr_left fun _ => s.freezeLaw_iff.symm

theorem Owner.isClaimOf_self {o : Owner} (claim : o.slot?.isSome = true) : o.isClaimOf o.clientId = true := by
  simp [Owner.isClaimOf, claim]

/-- A claim is one client's alone. -/
theorem Owner.isClaimOf_ne {o : Owner} {c d : ClientId} (h : o.isClaimOf c = true) (hne : d ≠ c) :
    o.isClaimOf d = false := by
  have hc := Owner.isClaimOf_clientId h
  simp [Owner.isClaimOf, hc, Ne.symm hne]

/-! ### Operations on the deadlines of a claim -/

namespace State.DeadlinesApart

/-- What is neither in the list nor in the client records nor in the Hold Sense Unit does not matter. -/
theorem congr {s t : State} (h : s.DeadlinesApart) (deadlines : t.deadlines = s.deadlines)
    (clients : t.clients = s.clients) (units : t.holdUnits = s.holdUnits) : t.DeadlinesApart := by
  have hc : ∀ c, t.client c = s.client c := fun c => by simp only [State.client, clients]
  have hu : ∀ c, t.holdUnit c = s.holdUnit c := fun c => by simp only [State.holdUnit, units]
  refine ⟨fun c => ?_, by simpa only [State.OneDeadlineEach, deadlines, hu] using h.2⟩
  obtain ⟨standing, frozen, running⟩ := h.1 c
  exact ⟨by simpa only [State.Standing, hc, hu] using standing, by simpa only [hc, hu, deadlines] using frozen,
    by simpa only [hc, hu, deadlines] using running⟩

/-- Fewer deadlines, live and stored. -/
theorem sublist {s t : State} (h : s.DeadlinesApart) (same : s.SameButDeadlines t)
    (live : t.deadlines.Sublist s.deadlines)
    (stored : ∀ c, (t.holdUnit c).stored.Sublist (s.holdUnit c).stored) : t.DeadlinesApart := by
  refine ⟨fun c => ?_, (live.map _).nodup h.2.1, fun c => ((stored c).map _).nodup (h.2.2 c)⟩
  obtain ⟨standing, frozen, running⟩ := h.1 c
  refine ⟨by simpa only [State.Standing, same.client, same.level] using standing, fun hf => ?_, fun hf => ?_⟩
  · obtain ⟨start, hlive, hstored⟩ := frozen (same.client c ▸ hf)
    exact ⟨same.freezeStart c ▸ start, fun d hd => hlive d (live.subset hd), fun d hd => hstored d ((stored c).subset hd)⟩
  · obtain ⟨start, hstored, hlive⟩ := running (same.client c ▸ hf)
    exact ⟨(same.freezeStart c).trans start, List.sublist_nil.mp (hstored ▸ stored c),
      fun d hd => hlive d (live.subset hd)⟩

theorem removeLive {s : State} (h : s.DeadlinesApart) (o : Owner) : (s.removeLive o).DeadlinesApart :=
  h.sublist (s.removeLive_same o) List.filter_sublist fun _ => .refl _

theorem disarm {s : State} (h : s.DeadlinesApart) (o : Owner) : (s.disarm o).DeadlinesApart := by
  refine h.sublist (s.disarm_same o) List.filter_sublist fun c => ?_
  rw [s.stored_disarm]
  split
  · exact List.filter_sublist
  · exact .refl _

/-- A claim's deadline joins the list while its client is not FROZEN (R76). -/
theorem insertDeadline {s : State} (h : s.DeadlinesApart) {d : Deadline} (claim : d.owner.slot?.isSome = true)
    (runs : (s.client d.owner.clientId).freeze ≠ .frozen) (fresh : ∀ e ∈ s.deadlines, e.owner ≠ d.owner) :
    (s.insertDeadline d).DeadlinesApart := by
  have hmem : ∀ e, e ∈ (s.insertDeadline d).deadlines → e = d ∨ e ∈ s.deadlines := fun e he =>
    mem_insertAfterLast.mp he
  refine ⟨fun c => ?_, ?_, h.2.2⟩
  · obtain ⟨standing, frozen, running⟩ := h.1 c
    refine ⟨standing, fun hf => ?_, fun hf => ?_⟩
    · obtain ⟨start, hlive, hstored⟩ := frozen hf
      refine ⟨start, fun e he => ?_, hstored⟩
      rcases hmem e he with rfl | he
      · refine Owner.isClaimOf_ne (Owner.isClaimOf_self claim) ?_
        rintro rfl
        exact runs hf
      · exact hlive e he
    · obtain ⟨start, hstored, hlive⟩ := running hf
      refine ⟨start, hstored, fun e he => ?_⟩
      rcases hmem e he with rfl | he
      · exact Owner.isClaimOf_ne_client (Owner.isClaimOf_self claim)
      · exact hlive e he
  · refine (((perm_insertAfterLast _ d s.deadlines).map Deadline.owner).nodup_iff).mpr ?_
    refine List.nodup_cons.mpr ⟨fun hin => ?_, h.2.1⟩
    obtain ⟨e, he, heq⟩ := List.mem_map.mp hin
    exact fresh e he heq

theorem store_holdUnit (s : State) (d : StoredDeadline) (c : ClientId) : (s.store d).holdUnit c
    = if c = d.owner.clientId then { s.holdUnit c with stored := (s.holdUnit c).stored ++ [d] } else s.holdUnit c := by
  rw [State.store, State.holdUnit_setHoldUnit]
  split
  · rename_i hc
    rw [hc]
  · rfl

/-- A claim's deadline is stored while its client is FROZEN (R94). -/
theorem store {s : State} (h : s.DeadlinesApart) {d : StoredDeadline} (claim : d.owner.slot?.isSome = true)
    (stands : (s.client d.owner.clientId).freeze = .frozen)
    (fresh : ∀ e ∈ (s.holdUnit d.owner.clientId).stored, e.owner ≠ d.owner) : (s.store d).DeadlinesApart := by
  have same := s.store_same d
  refine ⟨fun c => ?_, h.2.1, fun c => ?_⟩
  · obtain ⟨standing, frozen, running⟩ := h.1 c
    refine ⟨by simpa only [State.Standing, same.client, same.level] using standing, fun hf => ?_, fun hf => ?_⟩
    · obtain ⟨start, hlive, hstored⟩ := frozen hf
      refine ⟨same.freezeStart c ▸ start, hlive, fun e he => ?_⟩
      rw [store_holdUnit] at he
      split at he
      · rename_i hc
        rcases List.mem_append.mp he with he | he
        · exact hstored e he
        · rw [List.mem_singleton.mp he, hc]
          exact Owner.isClaimOf_self claim
      · exact hstored e he
    · have hc : c ≠ d.owner.clientId := by
        rintro rfl
        exact hf stands
      rw [store_holdUnit, if_neg hc]
      exact running hf
  · rw [store_holdUnit]
    split
    · rename_i hc
      subst hc
      rw [List.map_append]
      refine List.nodup_append_comm.mp (List.nodup_cons.mpr ⟨fun hin => ?_, h.2.2 _⟩)
      obtain ⟨e, he, heq⟩ := List.mem_map.mp hin
      exact fresh e he heq
    · exact h.2.2 c

/-- A claim's deadline armed in place of the one it has (R77). -/
theorem arm {s : State} (h : s.DeadlinesApart) {o : Owner} (claim : o.slot?.isSome = true) (k : DeadlineKind) (n : Nat) :
    (s.arm o k n).DeadlinesApart := by
  have hclient : ∀ c, (s.disarm o).client c = s.client c := (s.disarm_same o).client
  unfold State.arm
  simp only
  split
  · rename_i hf
    refine (h.disarm o).store claim (by simpa only [hclient] using hf) fun e he => ?_
    rw [s.stored_disarm, if_pos rfl] at he
    simpa using (List.mem_filter.mp he).2
  · rename_i hf
    exact (h.disarm o).insertDeadline claim (by simpa only [hclient] using hf) (s.deadlines_disarm_owner_ne o)

theorem armLease {s : State} (h : s.DeadlinesApart) (i : SlotId) (c : ClientId) (r : Resource) :
    (s.armLease i c r).DeadlinesApart := by
  unfold State.armLease
  split <;> exact h.arm rfl _ _

theorem modifyRecord {s : State} (h : s.DeadlinesApart) (i : SlotId) (f : Resource → Resource) :
    (s.modifyRecord i f).DeadlinesApart := by
  cases hr : s.record i with
  | none => rwa [s.modifyRecord_none i f hr]
  | some r => exact s.modifyRecord_some i f r hr ▸ h.congr rfl rfl rfl

theorem createHolding {s : State} (h : s.DeadlinesApart) (i : SlotId) (c : ClientId) (m : Tenure) (st : HoldState) :
    (s.createHolding i c m st).DeadlinesApart :=
  modifyRecord (s := s.setGrant (s.grant + 1)) (h.congr rfl rfl rfl) i _

theorem notices {s t : State} (h : s.DeadlinesApart) (k : s.SameButNotices t) : t.DeadlinesApart :=
  h.congr k.deadlines k.clients k.holdUnits

/-- An owner with a deadline in the list is of a client that is not FROZEN, and has none stored (R92). -/
theorem live_runs {s : State} (h : s.DeadlinesApart) {d : Deadline} (hd : d ∈ s.deadlines)
    (claim : d.owner.slot?.isSome = true) : (s.client d.owner.clientId).freeze ≠ .frozen
      ∧ (s.holdUnit d.owner.clientId).stored = [] := by
  obtain ⟨-, frozen, running⟩ := h.1 d.owner.clientId
  have hruns : (s.client d.owner.clientId).freeze ≠ .frozen := fun hf => by
    have := (frozen hf).2.1 d hd
    rw [Owner.isClaimOf_self claim] at this
    cases this
  exact ⟨hruns, (running hruns).2.1⟩

/-! ### Changes aside, and of a freeze -/

theorem aside {s t : State} (h : s.DeadlinesApart) (k : s.Aside t) : t.DeadlinesApart := by
  refine ⟨fun c => ?_, by simpa only [State.OneDeadlineEach, k.deadlines, k.stored] using h.2⟩
  obtain ⟨standing, frozen, running⟩ := h.1 c
  exact ⟨k.standing c standing, by simpa only [k.frozen, k.freezeStart, k.stored, k.deadlines] using frozen,
    by simpa only [ne_eq, k.frozen, k.freezeStart, k.stored, k.deadlines] using running⟩

theorem thaws {s t : State} {c : ClientId} (h : s.DeadlinesApart) (k : s.Thaws t c) : t.DeadlinesApart := by
  obtain ⟨-, hlive, hstored⟩ := (h.1 c).frozen k.frozen
  have hmem : ∀ d ∈ t.deadlines,
      (d ∈ s.deadlines ∧ d.owner ≠ .client c) ∨ d.owner.isClaimOf c = true := fun d hd => by
    rcases List.mem_append.mp (k.deadlines.mem_iff.mp hd) with hd | hd
    · simpa using Or.inl (b := d.owner.isClaimOf c = true) (List.mem_filter.mp hd)
    · obtain ⟨e, he, rfl⟩ := List.mem_map.mp hd
      exact .inr (hstored e he)
  refine ⟨fun d => ?_, ?_, fun d => ?_⟩
  · by_cases hdc : d = c
    · subst hdc
      refine ⟨k.standing (h.1 d).standing, fun hf => absurd hf k.thawed, fun _ => ⟨k.freezeStart, k.stored, fun e he => ?_⟩⟩
      rcases hmem e he with ⟨-, hne⟩ | hclaim
      · exact hne
      · exact Owner.isClaimOf_ne_client hclaim
    · obtain ⟨standing, frozen, running⟩ := h.1 d
      refine ⟨by simpa only [State.Standing, k.clients d hdc, k.units d hdc] using standing, fun hf => ?_, fun hf => ?_⟩
      · rw [k.units d hdc]
        obtain ⟨start, hlive, hstored⟩ := frozen (k.clients d hdc ▸ hf)
        refine ⟨start, fun e he => ?_, hstored⟩
        rcases hmem e he with ⟨he, -⟩ | hclaim
        · exact hlive e he
        · exact Owner.isClaimOf_ne hclaim hdc
      · rw [k.units d hdc]
        obtain ⟨start, hstored, hlive⟩ := running (k.clients d hdc ▸ hf)
        refine ⟨start, hstored, fun e he => ?_⟩
        rcases hmem e he with ⟨he, -⟩ | hclaim
        · exact hlive e he
        · exact Owner.isClaimOf_ne_client hclaim
  · have howners : ((s.holdUnit c).stored.map s.runs).map Deadline.owner
        = (s.holdUnit c).stored.map StoredDeadline.owner := by
      rw [List.map_map]
      rfl
    rw [((k.deadlines.map _).nodup_iff), List.map_append, howners]
    refine List.nodup_append.mpr ⟨(List.filter_sublist.map _).nodup h.2.1, h.2.2 c, ?_⟩
    rintro _ hlive' _ hstored' rfl
    obtain ⟨d, hd, heq⟩ := List.mem_map.mp hlive'
    obtain ⟨e, he, heq'⟩ := List.mem_map.mp hstored'
    have hfalse := hlive d (List.mem_filter.mp hd).1
    rw [heq, ← heq', hstored e he] at hfalse
    cases hfalse
  · by_cases hdc : d = c
    · subst hdc
      simp [k.stored]
    · rw [k.units d hdc]
      exact h.2.2 d

end State.DeadlinesApart

/-! ### Freeze entry (R92) -/

theorem State.enterFreeze_client (s : State) (c d : ClientId) : (s.enterFreeze c).client d
    = if d = c then { s.client c with freeze := .frozen } else s.client d := s.client_setClient c _ d

theorem State.enterFreeze_holdUnit (s : State) (c d : ClientId) : (s.enterFreeze c).holdUnit d
    = if d = c then { s.holdUnit c with
        freezeStart := some s.clock
        stored := (s.holdUnit c).stored ++ (s.deadlines.filter fun e => e.owner.isClaimOf c).map s.takenOut }
      else s.holdUnit d := s.holdUnit_setHoldUnit c _ d

/-- The ALLOWANCE-END that freeze entry arms (R92). -/
def State.allowanceFor (s : State) (c : ClientId) : Deadline :=
  { owner := .client c, kind := .allowanceEnd,
    due := s.clock + BitVec.ofNat 32 ((s.client c).allowanceMs - (s.client c).holdUsed) }

/-- Freeze entry puts the ALLOWANCE-END in the place of the client's claims' deadlines (R92). -/
theorem State.enterFreeze_deadlines (s : State) (c : ClientId) : (s.enterFreeze c).deadlines.Perm
    (s.allowanceFor c :: s.deadlines.filter fun d => !d.owner.isClaimOf c) := perm_insertAfterLast _ _ _

theorem State.DeadlinesApart.freezes {s : State} {c : ClientId} (h : s.DeadlinesApart)
    (thawed : (s.client c).freeze = .thawed) (opened : (s.client c).session = .opened)
    (level : (s.holdUnit c).level = true) : (s.enterFreeze c).DeadlinesApart := by
  obtain ⟨-, hnone, hnoEnd⟩ := (h.1 c).running (by rw [thawed]; decide)
  have hmem : ∀ d ∈ (s.enterFreeze c).deadlines,
      d.owner = .client c ∨ (d ∈ s.deadlines ∧ d.owner.isClaimOf c = false) := fun d hd => by
    rcases List.mem_cons.mp ((s.enterFreeze_deadlines c).mem_iff.mp hd) with rfl | hd
    · exact .inl rfl
    · simpa using Or.inr (a := d.owner = .client c) (List.mem_filter.mp hd)
  refine ⟨fun d => ?_, ?_, fun d => ?_⟩
  · by_cases hdc : d = c
    · subst hdc
      have hfrozen : ((s.enterFreeze d).client d).freeze = .frozen := by simp [s.enterFreeze_client]
      refine ⟨fun _ => ?_, fun _ => ⟨?_, fun e he => ?_, fun e he => ?_⟩, fun hf => absurd hfrozen hf⟩
      · simpa [s.enterFreeze_client, s.enterFreeze_holdUnit] using And.intro opened level
      · simp [s.enterFreeze_holdUnit]
      · rcases hmem e he with heq | ⟨-, hno⟩
        · rw [heq]
          rfl
        · exact hno
      · simp only [s.enterFreeze_holdUnit, if_true, hnone, List.nil_append, List.mem_map] at he
        obtain ⟨e', he', rfl⟩ := he
        exact (List.mem_filter.mp he').2
    · obtain ⟨standing, frozen, running⟩ := h.1 d
      refine ⟨?_, fun hf => ?_, fun hf => ?_⟩
      · simpa only [State.Standing, s.enterFreeze_client, s.enterFreeze_holdUnit, if_neg hdc] using standing
      · rw [s.enterFreeze_client, if_neg hdc] at hf
        rw [s.enterFreeze_holdUnit, if_neg hdc]
        obtain ⟨start, hlive, hstored⟩ := frozen hf
        refine ⟨start, fun e he => ?_, hstored⟩
        rcases hmem e he with heq | ⟨he, -⟩
        · rw [heq]
          rfl
        · exact hlive e he
      · rw [s.enterFreeze_client, if_neg hdc] at hf
        rw [s.enterFreeze_holdUnit, if_neg hdc]
        obtain ⟨start, hstored, hlive⟩ := running hf
        refine ⟨start, hstored, fun e he => ?_⟩
        rcases hmem e he with heq | ⟨he, -⟩
        · rw [heq]
          exact fun hc => hdc (Owner.client.inj hc).symm
        · exact hlive e he
  · rw [(((s.enterFreeze_deadlines c).map _).nodup_iff), List.map_cons]
    refine List.nodup_cons.mpr ⟨fun hin => ?_, (List.filter_sublist.map _).nodup h.2.1⟩
    obtain ⟨e, he, heq⟩ := List.mem_map.mp hin
    exact hnoEnd e (List.mem_filter.mp he).1 heq
  · rw [s.enterFreeze_holdUnit]
    split
    · have howners : ((s.deadlines.filter fun e => e.owner.isClaimOf c).map s.takenOut).map StoredDeadline.owner
          = (s.deadlines.filter fun e => e.owner.isClaimOf c).map Deadline.owner := by
        rw [List.map_map]
        rfl
      simp only [hnone, List.nil_append, howners]
      exact (List.filter_sublist.map _).nodup h.2.1
    · exact h.2.2 d

/-! ### Every change -/

/-- Every change keeps each owner's deadline running or stored, by its client's freeze, and one at most. -/
theorem State.Change.deadlinesApart {s t : State} (h : s.Change t) (apart : s.DeadlinesApart) : t.DeadlinesApart := by
  cases h with
  | aside h => exact apart.aside h
  | thaws c h => exact apart.thaws h
  | freezes c thawed opened level => exact apart.freezes thawed opened level
  | defines | reworks | removes | queues => exact apart.congr rfl rfl rfl
  | unqueues i c => exact (apart.modifyRecord i _).disarm _
  | waits => exact apart.arm rfl _ _
  | grants i c r => exact (apart.createHolding i c _ _).armLease i c r
  | offers i r w rest hr hq =>
    rw [s.makeOffer_eq i r w rest hr hq]
    refine State.DeadlinesApart.notices (State.DeadlinesApart.arm ?_ rfl _ _) (State.raiseNotice_same _ _ _)
    have hgone : (s.setRecord i (some { r with queue := rest })).DeadlinesApart := apart.congr rfl rfl rfl
    exact (hgone.disarm _).congr rfl rfl rfl
  | leases i c r => exact (apart.modifyRecord i _).armLease i c r
  | shares i => exact apart.modifyRecord i _
  | warns i c d interval last hd owner =>
    refine State.DeadlinesApart.modifyRecord ((apart.removeLive _).insertDeadline rfl ?_ fun e he => ?_) i _
    · have hruns := (apart.live_runs hd (by rw [owner]; rfl)).1
      rw [owner] at hruns
      exact hruns
    · simpa using (List.mem_filter.mp he).2
  | ends i r g cause hr =>
    have hset : (s.setRecord i (some { r with
      holders := r.holders.eraseP fun h => h.client == g.client
      integrity := if g.endsSuspect cause then .suspect else r.integrity })).DeadlinesApart := apart.congr rfl rfl rfl
    exact (hset.disarm _).notices (State.endNotices_same _ _ _ _)
  | expires o => exact apart.removeLive o

/-- A part without a deadline, every client THAWED. -/
theorem State.deadlinesApart_of_reset {t : State} (deadlines : t.deadlines = [])
    (clients : ∀ c, (t.client c).freeze = .thawed)
    (units : ∀ c, (t.holdUnit c).freezeStart = none ∧ (t.holdUnit c).stored = []) : t.DeadlinesApart := by
  refine ⟨fun c => ⟨fun hf => absurd (clients c) hf, fun hf => ?_, fun _ => ?_⟩, ?_, fun c => ?_⟩
  · rw [clients] at hf
    cases hf
  · exact ⟨(units c).1, (units c).2, by simp [deadlines]⟩
  · simp [deadlines]
  · simp [(units c).2]

/-- After a part reset no deadline runs or is stored, and every client is THAWED; the release of the reset pin changes
levels alone, and in a part that is not ENDED yet nobody is FROZEN or OVERSTAYED (R89, R91, R152). -/
theorem exec_resetsPart_deadlinesApart {c : Instr} (s : State) (h : resetsPart c = true) (quiet : s.StartupQuiet)
    (apart : s.DeadlinesApart) : ∃ t, exec c s = .next t ∧ t.DeadlinesApart := by
  cases c with
  | powerOn sel rsn hld =>
    exact ⟨_, rfl, State.deadlinesApart_of_reset rfl (fun c => by simp [State.client, State.powerOn, Client.initial])
      fun c => by simp [State.holdUnit, State.powerOn, HoldUnit.initial]⟩
  | resetPin =>
    exact ⟨_, rfl, State.deadlinesApart_of_reset rfl
      (fun c => by simp [State.client, Client.afterResetPin, Client.initial])
      fun c => by simp [State.holdUnit, HoldUnit.initial]⟩
  | resetPinRelease levels =>
    refine ⟨_, rfl, ?_⟩
    split
    · rename_i hheld
      obtain ⟨-, -, hsession⟩ := quiet (by rw [hheld]; decide)
      refine ⟨fun c => ?_, apart.2.1, fun c => by simpa [State.holdUnit] using apart.2.2 c⟩
      obtain ⟨standing, frozen, running⟩ := apart.1 c
      have thawed : (s.client c).freeze = .thawed := by
        by_contra hf
        have hopened := (standing hf).1
        rw [hsession c] at hopened
        cases hopened
      refine ⟨fun hf => absurd thawed hf, fun hf => ?_, fun hf => ?_⟩
      · exact absurd (thawed.symm.trans hf) (by decide)
      · simpa [State.holdUnit] using running (by rw [thawed]; decide)
    · exact apart
  | _ => cases h

/-- Every command keeps each owner's deadline running or stored, by its client's freeze, and one at most. -/
theorem exec_deadlinesApart (c : Instr) (s : State) (quiet : s.StartupQuiet) (apart : s.DeadlinesApart) :
    ∃ t, exec c s = .next t ∧ t.DeadlinesApart := by
  by_cases hc : resetsPart c = true
  · exact exec_resetsPart_deadlinesApart s hc quiet apart
  · obtain ⟨t, ht, changes⟩ := exec_changes c s (by simpa using hc)
    exact ⟨t, ht, changes.keeps (fun _ _ h => h.deadlinesApart) apart⟩

end Sys2Proof.Machine
end

section
/-! SUPPORT. Who has a deadline, and of which kind (`State.Armed`): one rule for each operation on deadlines. -/

namespace Sys2Proof.Machine

/-- The owner has a deadline of that kind, in the list or stored. -/
def State.Armed (s : State) (o : Owner) (k : DeadlineKind) : Prop :=
  (∃ d ∈ s.deadlines, d.owner = o ∧ d.kind = k)
  ∨ ∃ d ∈ (s.holdUnit o.clientId).stored, d.owner = o ∧ d.kind = k

theorem State.armed_congr {s t : State} (deadlines : t.deadlines = s.deadlines)
    (stored : ∀ c, (t.holdUnit c).stored = (s.holdUnit c).stored) (o : Owner) (k : DeadlineKind) :
    t.Armed o k ↔ s.Armed o k := by
  simp only [State.Armed, deadlines, stored]

theorem State.armed_setRecord (s : State) (i : SlotId) (x : Option Resource) (o : Owner) (k : DeadlineKind) :
    (s.setRecord i x).Armed o k ↔ s.Armed o k := .rfl

theorem State.armed_setGrant (s : State) (g : Gen) (o : Owner) (k : DeadlineKind) :
    (s.setGrant g).Armed o k ↔ s.Armed o k := .rfl

theorem State.armed_modifyRecord (s : State) (i : SlotId) (f : Resource → Resource) (o : Owner) (k : DeadlineKind) :
    (s.modifyRecord i f).Armed o k ↔ s.Armed o k := by
  cases hr : s.record i with
  | none => rw [s.modifyRecord_none i f hr]
  | some r => rw [s.modifyRecord_some i f r hr, s.armed_setRecord]

theorem State.armed_createHolding (s : State) (i : SlotId) (c : ClientId) (m : Tenure) (st : HoldState) (o : Owner)
    (k : DeadlineKind) : (s.createHolding i c m st).Armed o k ↔ s.Armed o k :=
  (s.setGrant (s.grant + 1)).armed_modifyRecord i _ o k

theorem State.armed_of_notices {s t : State} (h : s.SameButNotices t) (o : Owner) (k : DeadlineKind) :
    t.Armed o k ↔ s.Armed o k :=
  State.armed_congr h.deadlines (fun c => by simp only [State.holdUnit, h.holdUnits]) o k

/-- Taking one owner's deadlines out leaves every other owner's. -/
theorem mem_filter_owner_ne {α : Type} (f : α → Owner) (l : List α) {o o' : Owner} (h : o' ≠ o) (d : α) (p : Prop) :
    ((d ∈ l.filter fun e => f e != o) ∧ f d = o' ∧ p) ↔ d ∈ l ∧ f d = o' ∧ p := by
  rw [List.mem_filter, bne_iff_ne]
  constructor
  · rintro ⟨⟨hd, -⟩, hp⟩
    exact ⟨hd, hp⟩
  · rintro ⟨hd, rfl, hp⟩
    exact ⟨⟨hd, h⟩, rfl, hp⟩

theorem not_mem_filter_owner_self {α : Type} (f : α → Owner) (l : List α) (o : Owner) (d : α) (p : Prop) :
    ¬ ((d ∈ l.filter fun e => f e != o) ∧ f d = o ∧ p) := by
  rw [List.mem_filter, bne_iff_ne]
  rintro ⟨⟨-, hne⟩, heq, -⟩
  exact hne heq

theorem State.armed_disarm (s : State) (o o' : Owner) (k : DeadlineKind) :
    (s.disarm o).Armed o' k ↔ o' ≠ o ∧ s.Armed o' k := by
  have hlive : (s.disarm o).deadlines = s.deadlines.filter fun d => d.owner != o := rfl
  simp only [State.Armed, hlive, s.stored_disarm]
  by_cases ho : o' = o
  · subst ho
    simp only [if_true, not_mem_filter_owner_self, exists_false, or_self, ne_eq, not_true_eq_false, false_and]
  · have hstored : ∀ d : StoredDeadline, (d ∈ if o'.clientId = o.clientId
          then (s.holdUnit o'.clientId).stored.filter fun d => d.owner != o else (s.holdUnit o'.clientId).stored)
          ∧ d.owner = o' ∧ d.kind = k
        ↔ d ∈ (s.holdUnit o'.clientId).stored ∧ d.owner = o' ∧ d.kind = k := fun d => by
      split
      · exact mem_filter_owner_ne StoredDeadline.owner _ ho d _
      · rfl
    simp only [mem_filter_owner_ne Deadline.owner _ ho, hstored, ne_eq, ho, not_false_eq_true, true_and]

theorem State.armed_insertDeadline (s : State) (d : Deadline) (o : Owner) (k : DeadlineKind) :
    (s.insertDeadline d).Armed o k ↔ (o = d.owner ∧ k = d.kind) ∨ s.Armed o k := by
  have hmem : ∀ e, e ∈ (s.insertDeadline d).deadlines ↔ e = d ∨ e ∈ s.deadlines := fun e => mem_insertAfterLast
  have hunit : (s.insertDeadline d).holdUnit o.clientId = s.holdUnit o.clientId := rfl
  simp only [State.Armed, hmem, hunit, or_and_right, exists_or, exists_eq_left, or_assoc, eq_comm (a := o),
    eq_comm (a := k)]

theorem State.stored_store (s : State) (d : StoredDeadline) (c : ClientId) : ((s.store d).holdUnit c).stored
    = if c = d.owner.clientId then (s.holdUnit c).stored ++ [d] else (s.holdUnit c).stored := by
  rw [State.DeadlinesApart.store_holdUnit]
  split <;> rfl

theorem State.armed_store (s : State) (d : StoredDeadline) (o : Owner) (k : DeadlineKind) :
    (s.store d).Armed o k ↔ (o = d.owner ∧ k = d.kind) ∨ s.Armed o k := by
  have hlive : (s.store d).deadlines = s.deadlines := rfl
  simp only [State.Armed, hlive, s.stored_store]
  by_cases ho : o = d.owner
  · subst ho
    simp only [if_true, List.mem_append, List.mem_singleton, or_and_right, exists_or, exists_eq_left, true_and,
      eq_comm (a := k)]
    rw [← or_assoc, or_comm]
  · have hnew : ∀ e : StoredDeadline, (e ∈ if o.clientId = d.owner.clientId
          then (s.holdUnit o.clientId).stored ++ [d] else (s.holdUnit o.clientId).stored) ∧ e.owner = o ∧ e.kind = k
        ↔ e ∈ (s.holdUnit o.clientId).stored ∧ e.owner = o ∧ e.kind = k := fun e => by
      split
      · simp only [List.mem_append, List.mem_singleton]
        constructor
        · rintro ⟨he | rfl, h⟩
          · exact ⟨he, h⟩
          · exact absurd h.1.symm ho
        · rintro ⟨he, h⟩
          exact ⟨.inl he, h⟩
      · rfl
    simp only [hnew, ho, false_and, false_or]

/-- An arming gives its owner the one deadline armed, and changes nobody else's (R77). -/
theorem State.armed_arm (s : State) (o : Owner) (k : DeadlineKind) (n : Nat) (o' : Owner) (k' : DeadlineKind) :
    (s.arm o k n).Armed o' k' ↔ (o' = o ∧ k' = k) ∨ (o' ≠ o ∧ s.Armed o' k') := by
  unfold State.arm
  simp only
  split
  · rw [State.armed_store, State.armed_disarm]
  · rw [State.armed_insertDeadline, State.armed_disarm]

/-- The kind of deadline that a lease on the record's terms starts with (R83). -/
def Resource.leaseKind (r : Resource) : DeadlineKind :=
  if r.warnMargin = 0 then .leaseEnd else .leaseWarn r.warnMargin

theorem State.armed_armLease (s : State) (i : SlotId) (c : ClientId) (r : Resource) (o : Owner) (k : DeadlineKind) :
    (s.armLease i c r).Armed o k ↔ (o = .holding i c ∧ k = r.leaseKind) ∨ (o ≠ .holding i c ∧ s.Armed o k) := by
  unfold State.armLease Resource.leaseKind
  split <;> exact s.armed_arm _ _ _ o k

theorem State.armed_removeLive_ne (s : State) {o o' : Owner} (h : o' ≠ o) (k : DeadlineKind) :
    (s.removeLive o).Armed o' k ↔ s.Armed o' k := by
  simp only [State.Armed, State.removeLive, State.setDeadlines, mem_filter_owner_ne Deadline.owner _ h]
  rfl

theorem State.Armed.of_removeLive {s : State} {o o' : Owner} {k : DeadlineKind} (h : (s.removeLive o).Armed o' k) :
    s.Armed o' k :=
  h.imp_left fun ⟨d, hd, hk⟩ => ⟨d, (List.mem_filter.mp hd).1, hk⟩

/-! ### One deadline each -/

/-- A claim's deadline runs or is stored, and is the one that `deadlineOf` reads (R74). -/
theorem State.DeadlinesApart.armed_iff {s : State} (h : s.DeadlinesApart) {o : Owner} (claim : o.slot?.isSome = true)
    (k : DeadlineKind) : s.Armed o k ↔ ∃ left isStored, s.deadlineOf o = some (k, left, isStored) := by
  constructor
  · rintro (⟨d, hd, rfl, rfl⟩ | ⟨d, hd, rfl, rfl⟩)
    · have hfind : (s.deadlines.find? fun e => e.owner == d.owner) = some d := by
        cases hf : s.deadlines.find? fun e => e.owner == d.owner with
        | none => simpa using List.find?_eq_none.mp hf d hd
        | some e =>
          have he : e.owner = d.owner := by simpa using List.find?_some hf
          rw [List.inj_on_of_nodup_map h.2.1 (List.mem_of_find?_eq_some hf) hd he]
      exact ⟨s.distance d.due, false, by simp only [State.deadlineOf, hfind]⟩
    · have hnone : (s.deadlines.find? fun e => e.owner == d.owner) = none := by
        refine List.find?_eq_none.mpr fun e he heq => ?_
        have howner : e.owner = d.owner := by simpa using heq
        have hstored := (h.live_runs he (howner ▸ claim)).2
        rw [howner] at hstored
        rw [hstored] at hd
        cases hd
      exact ⟨d.remaining, true, by simp only [State.deadlineOf, hnone, find?_owner_of_nodup (h.2.2 _) hd]⟩
  · rintro ⟨left, isStored, heq⟩
    unfold State.deadlineOf at heq
    split at heq
    · rename_i d hf
      cases heq
      exact .inl ⟨d, List.mem_of_find?_eq_some hf, by simpa using List.find?_some hf, rfl⟩
    · split at heq
      · rename_i d hf
        cases heq
        exact .inr ⟨d, List.mem_of_find?_eq_some hf, by simpa using List.find?_some hf, rfl⟩
      · cases heq

/-- A claim has deadlines of one kind at most. -/
theorem State.DeadlinesApart.kind_unique {s : State} (h : s.DeadlinesApart) {o : Owner} (claim : o.slot?.isSome = true)
    {k k' : DeadlineKind} (hk : s.Armed o k) (hk' : s.Armed o k') : k = k' := by
  obtain ⟨left, st, heq⟩ := (h.armed_iff claim k).mp hk
  obtain ⟨left', st', heq'⟩ := (h.armed_iff claim k').mp hk'
  rw [heq] at heq'
  cases heq'
  rfl

end Sys2Proof.Machine
end

section
/-! PROOF. Every holding in use has the deadline its state asks for, and every deadline an owner in use (R23, R75, R92): the
second half of O58. The law is read at one resource and client at a time (`State.OwnedAt`), since a change touches one of
them only (`State.ClaimsBut`). -/

namespace Sys2Proof.Machine

/-! ### The law at one resource and client -/

/-- The client has a holding of that state on the record. -/
def HoldsIn (x : Option Resource) (c : ClientId) (st : HoldState) : Prop :=
  ∃ r, x = some r ∧ ∃ h ∈ r.holders, h.client = c ∧ h.state = st

/-- The client has an entry in the record's queue. -/
def WaitsIn (x : Option Resource) (c : ClientId) : Prop := ∃ r, x = some r ∧ ∃ w ∈ r.queue, w.client = c

/-- The kinds of deadline that a holding of that state can have (R23). -/
def HoldState.Asks : HoldState → DeadlineKind → Prop
  | .offered, k => k = .offerEnd
  | .held, k => k = .leaseEnd ∨ ∃ interval, k = .leaseWarn interval

theorem HoldState.Asks.holding {st : HoldState} {k : DeadlineKind} (h : st.Asks k) :
    k ≠ .waitEnd ∧ k ≠ .allowanceEnd := by
  cases st with
  | offered => exact h ▸ by decide
  | held => rcases h with rfl | ⟨interval, rfl⟩ <;> exact ⟨nofun, nofun⟩

theorem Resource.held_asks_leaseKind (r : Resource) : HoldState.held.Asks r.leaseKind := by
  unfold Resource.leaseKind
  split
  · exact .inl rfl
  · exact .inr ⟨_, rfl⟩

/-- Deadlines and owners, of one client's claims on one slot's resource (R23, R75). -/
structure State.OwnedAt (s : State) (i : SlotId) (c : ClientId) : Prop where
  asks : ∀ st, HoldsIn (s.record i) c st → ∃ k, s.Armed (.holding i c) k ∧ st.Asks k
  holding : ∀ k, s.Armed (.holding i c) k →
    (∃ st, HoldsIn (s.record i) c st) ∧ k ≠ .waitEnd ∧ k ≠ .allowanceEnd
  waiting : ∀ k, s.Armed (.waiter i c) k → WaitsIn (s.record i) c ∧ k = .waitEnd

/-- A client has its ALLOWANCE-END exactly while it is FROZEN (R92). -/
structure State.AllowedAt (s : State) (c : ClientId) : Prop where
  armed : (s.client c).freeze = .frozen → ∃ k, s.Armed (.client c) k
  frozen : ∀ k, s.Armed (.client c) k → (s.client c).freeze = .frozen ∧ k = .allowanceEnd

/-- Deadlines and owners, claim by claim and client by client. -/
def State.Owned (s : State) : Prop := (∀ i c, s.OwnedAt i c) ∧ ∀ c, s.AllowedAt c

/-- What is stored stands with the client of its owner (R94). -/
theorem State.DeadlinesApart.stored_owner {s : State} (h : s.DeadlinesApart) {c : ClientId} {d : StoredDeadline}
    (hd : d ∈ (s.holdUnit c).stored) : d.owner.isClaimOf c = true := by
  obtain ⟨-, frozen, running⟩ := h.1 c
  by_cases hf : (s.client c).freeze = .frozen
  · exact (frozen hf).2.2 d hd
  · rw [(running hf).2.1] at hd
    cases hd

/-- An ALLOWANCE-END runs (R92): nothing but claims' deadlines is stored. -/
theorem State.DeadlinesApart.armed_client {s : State} (h : s.DeadlinesApart) (c : ClientId) (k : DeadlineKind) :
    s.Armed (.client c) k ↔ ∃ d ∈ s.deadlines, d.owner = .client c ∧ d.kind = k := by
  refine ⟨?_, .inl⟩
  rintro (hd | ⟨d, hd, howner, -⟩)
  · exact hd
  · exact absurd howner (Owner.isClaimOf_ne_client (h.stored_owner hd))

theorem State.DeadlinesApart.holdingHasDeadline_iff {s : State} (h : s.DeadlinesApart) (i : SlotId) (g : Holding) :
    s.HoldingHasDeadline i g ↔ ∃ k, s.Armed (.holding i g.client) k ∧ g.state.Asks k := by
  have hasks : ∀ k, g.state.Asks k ↔ (g.state = .offered → k = .offerEnd)
      ∧ (g.state = .held → k = .leaseEnd ∨ ∃ interval, k = .leaseWarn interval) := fun k => by
    cases g.state <;> simp [HoldState.Asks]
  simp only [State.HoldingHasDeadline, h.armed_iff (o := .holding i g.client) rfl, hasks, exists_and_right]

theorem State.ownerInUse_of_owned {s : State} (h : s.Owned) {o : Owner} {k : DeadlineKind} (armed : s.Armed o k) :
    s.OwnerInUse o k := by
  cases o with
  | holding i c =>
    obtain ⟨⟨-, r, hr, g, hg, hc, -⟩, hk⟩ := (h.1 i c).holding k armed
    exact ⟨r, g, hr, hg, hc, hk⟩
  | waiter i c =>
    obtain ⟨⟨r, hr, w, hw, hc⟩, hk⟩ := (h.1 i c).waiting k armed
    exact ⟨r, w, hr, hw, hc, hk⟩
  | client c => exact (h.2 c).frozen k armed

theorem State.DeadlinesApart.owned_iff {s : State} (h : s.DeadlinesApart) : s.DeadlinesOwned ↔ s.Owned := by
  constructor
  · rintro ⟨asks, allowed, live, stored⟩
    have inUse : ∀ o k, s.Armed o k → s.OwnerInUse o k := by
      rintro _ _ (⟨d, hd, rfl, rfl⟩ | ⟨d, hd, rfl, rfl⟩)
      · exact live d hd
      · exact stored _ d hd
    refine ⟨fun i c => ⟨?_, fun k hk => ?_, fun k hk => ?_⟩, fun c => ⟨fun hf => ?_, fun k => inUse (.client c) k⟩⟩
    · rintro st ⟨r, hr, g, hg, rfl, rfl⟩
      exact (h.holdingHasDeadline_iff i g).mp (asks i r g hr hg)
    · obtain ⟨r, g, hr, hg, hc, hne⟩ := inUse (.holding i c) k hk
      exact ⟨⟨g.state, r, hr, g, hg, hc, rfl⟩, hne⟩
    · obtain ⟨r, w, hr, hw, hc, hk⟩ := inUse (.waiter i c) k hk
      exact ⟨⟨r, hr, w, hw, hc⟩, hk⟩
    · obtain ⟨d, hd, howner⟩ := allowed c hf
      exact ⟨d.kind, .inl ⟨d, hd, howner, rfl⟩⟩
  · intro owned
    refine ⟨fun i r g hr hg => ?_, fun c hf => ?_, fun d hd => ?_, fun c d hd => ?_⟩
    · exact (h.holdingHasDeadline_iff i g).mpr ((owned.1 i g.client).asks _ ⟨r, hr, g, hg, rfl, rfl⟩)
    · obtain ⟨k, hk⟩ := (owned.2 c).armed hf
      obtain ⟨d, hd, howner, -⟩ := (h.armed_client c k).mp hk
      exact ⟨d, hd, howner⟩
    · exact State.ownerInUse_of_owned owned (.inl ⟨d, hd, rfl, rfl⟩)
    · have hc := Owner.isClaimOf_clientId (h.stored_owner hd)
      exact State.ownerInUse_of_owned owned (.inr ⟨d, hc.symm ▸ hd, rfl, rfl⟩)

/-! ### What a change does not touch -/

theorem State.OwnedAt.still_waits {s t : State} {i : SlotId} {c : ClientId} (h : s.OwnedAt i c)
    (waits : WaitsIn (s.record i) c → WaitsIn (t.record i) c)
    (waiter : ∀ k, t.Armed (.waiter i c) k → s.Armed (.waiter i c) k) :
    ∀ k, t.Armed (.waiter i c) k → WaitsIn (t.record i) c ∧ k = .waitEnd :=
  fun k hk => (h.waiting k (waiter k hk)).imp_left waits

theorem State.OwnedAt.congr {s t : State} {i : SlotId} {c : ClientId} (h : s.OwnedAt i c)
    (holds : ∀ st, HoldsIn (t.record i) c st ↔ HoldsIn (s.record i) c st)
    (armed : ∀ k, t.Armed (.holding i c) k ↔ s.Armed (.holding i c) k)
    (waiting : ∀ k, t.Armed (.waiter i c) k → WaitsIn (t.record i) c ∧ k = .waitEnd) : t.OwnedAt i c :=
  ⟨by simpa only [holds, armed] using h.asks, by simpa only [holds, armed] using h.holding, waiting⟩

theorem State.AllowedAt.congr {s t : State} {c : ClientId} (h : s.AllowedAt c)
    (frozen : (t.client c).freeze = .frozen ↔ (s.client c).freeze = .frozen)
    (armed : ∀ k, t.Armed (.client c) k ↔ s.Armed (.client c) k) : t.AllowedAt c :=
  ⟨by simpa only [frozen, armed] using h.armed, by simpa only [frozen, armed] using h.frozen⟩

/-- The client has no holding on the record, and no deadline of one. -/
theorem State.OwnedAt.of_none {t : State} {i : SlotId} {c : ClientId} (holds : ∀ st, ¬ HoldsIn (t.record i) c st)
    (armed : ∀ k, ¬ t.Armed (.holding i c) k)
    (waiting : ∀ k, t.Armed (.waiter i c) k → WaitsIn (t.record i) c ∧ k = .waitEnd) : t.OwnedAt i c :=
  ⟨fun st hst => absurd hst (holds st), fun k hk => absurd hk (armed k), waiting⟩

/-- The client has holdings of one state on the record, and the one deadline they ask for. -/
theorem State.OwnedAt.of_one {t : State} {i : SlotId} {c : ClientId} {st : HoldState} {k : DeadlineKind}
    (holds : ∀ st', HoldsIn (t.record i) c st' ↔ st' = st) (armed : ∀ k', t.Armed (.holding i c) k' ↔ k' = k)
    (asks : st.Asks k) (waiting : ∀ k, t.Armed (.waiter i c) k → WaitsIn (t.record i) c ∧ k = .waitEnd) :
    t.OwnedAt i c := by
  refine ⟨fun st' hst => ?_, fun k' hk => ?_, waiting⟩
  · obtain rfl := (holds st').mp hst
    exact ⟨k, (armed k).mpr rfl, asks⟩
  · obtain rfl := (armed k').mp hk
    exact ⟨⟨st, (holds st).mpr rfl⟩, asks.holding⟩

/-- Nothing changes but the claims of client `c` on slot `i`'s record, and their deadlines. -/
structure State.ClaimsBut (s t : State) (i : SlotId) (c : ClientId) : Prop where
  elsewhere : s.SameRecordsBut t i
  holds : ∀ d, d ≠ c → ∀ st, HoldsIn (t.record i) d st ↔ HoldsIn (s.record i) d st
  waits : ∀ d, d ≠ c → WaitsIn (s.record i) d → WaitsIn (t.record i) d
  armed : ∀ o, o ≠ .holding i c → o ≠ .waiter i c → ∀ k, t.Armed o k ↔ s.Armed o k
  clients : t.clients = s.clients

/-- It remains to see to the claims that a change touches. -/
theorem State.Owned.claimsBut {s t : State} {i : SlotId} {c : ClientId} (h : s.Owned) (k : s.ClaimsBut t i c)
    (here : t.OwnedAt i c) : t.Owned := by
  refine ⟨fun j d => ?_, fun d => (h.2 d).congr (by simp only [State.client, k.clients]) (k.armed _ nofun nofun)⟩
  by_cases hj : j = i
  · subst hj
    by_cases hd : d = c
    · exact hd ▸ here
    · exact (h.1 j d).congr (k.holds d hd) (k.armed _ (by simp [hd]) nofun)
        ((h.1 j d).still_waits (k.waits d hd) fun e => (k.armed (.waiter j d) nofun (by simp [hd]) e).mp)
  · have hrec := k.elsewhere j hj
    exact (h.1 j d).congr (fun st => by rw [hrec]) (k.armed _ (by simp [hj]) nofun)
      ((h.1 j d).still_waits (fun hw => hrec ▸ hw) fun e => (k.armed (.waiter j d) nofun (by simp [hj]) e).mp)

/-- Holdings, entries and who is FROZEN stay, and so does every deadline, up to its time. -/
theorem State.Owned.congr {s t : State} (h : s.Owned)
    (holds : ∀ i c st, HoldsIn (t.record i) c st ↔ HoldsIn (s.record i) c st)
    (waits : ∀ i c, WaitsIn (s.record i) c → WaitsIn (t.record i) c)
    (frozen : ∀ c, (t.client c).freeze = .frozen ↔ (s.client c).freeze = .frozen)
    (armed : ∀ o k, t.Armed o k ↔ s.Armed o k) : t.Owned :=
  ⟨fun i c => (h.1 i c).congr (holds i c) (armed _) ((h.1 i c).still_waits (waits i c) fun k => (armed _ k).mp),
   fun c => (h.2 c).congr (frozen c) (armed _)⟩

/-- A record in place of another, where the deadlines stay. -/
theorem State.Owned.setRecord {s : State} (h : s.Owned) (i : SlotId) (x : Option Resource)
    (holds : ∀ c st, HoldsIn x c st ↔ HoldsIn (s.record i) c st)
    (waits : ∀ c, WaitsIn (s.record i) c → WaitsIn x c) : (s.setRecord i x).Owned := by
  refine h.congr (fun j c st => ?_) (fun j c => ?_) (fun _ => .rfl) (s.armed_setRecord i x)
  · by_cases hj : j = i
    · rw [hj, State.record_setRecord_self]
      exact holds c st
    · rw [State.record_setRecord_ne _ _ _ _ hj]
  · by_cases hj : j = i
    · rw [hj, State.record_setRecord_self]
      exact waits c
    · rw [State.record_setRecord_ne _ _ _ _ hj]
      exact id

/-- Nobody's claim changes where all that follows is a freeze. -/
theorem State.Owned.freezes {s t : State} {c : ClientId} (h : s.Owned) (slots : t.slots = s.slots)
    (frozen : ∀ d, d ≠ c → ((t.client d).freeze = .frozen ↔ (s.client d).freeze = .frozen))
    (armed : ∀ o, o ≠ .client c → ∀ k, t.Armed o k ↔ s.Armed o k) (here : t.AllowedAt c) : t.Owned := by
  have hrec : ∀ i, t.record i = s.record i := fun i => by simp only [State.record, slots]
  refine ⟨fun i d => ?_, fun d => ?_⟩
  · exact (h.1 i d).congr (fun st => by rw [hrec]) (armed _ nofun)
      ((h.1 i d).still_waits (fun hw => (hrec i).symm ▸ hw) fun k => (armed (.waiter i d) nofun k).mp)
  · by_cases hd : d = c
    · exact hd ▸ here
    · exact (h.2 d).congr (frozen d hd) (armed _ (by simp [hd]))

end Sys2Proof.Machine
end

section
/-! PROOF. Each change keeps deadlines and owners together, and so does every step (O58). -/

namespace Sys2Proof.Machine

/-! ### The freeze -/

/-- The end of a freeze takes the ALLOWANCE-END out and puts the stored deadlines back (R95). -/
theorem State.DeadlinesApart.armed_thaws {s t : State} {c : ClientId} (h : s.DeadlinesApart) (k : s.Thaws t c)
    (o : Owner) (kind : DeadlineKind) : t.Armed o kind ↔ o ≠ .client c ∧ s.Armed o kind := by
  have live : (∃ d ∈ t.deadlines, d.owner = o ∧ d.kind = kind)
      ↔ (∃ d ∈ s.deadlines, d.owner ≠ .client c ∧ d.owner = o ∧ d.kind = kind)
        ∨ ∃ e ∈ (s.holdUnit c).stored, e.owner = o ∧ e.kind = kind := by
    simp only [k.deadlines.mem_iff, List.mem_append, or_and_right, exists_or, List.mem_filter, bne_iff_ne, and_assoc,
      List.mem_map, exists_exists_and_eq_and, State.runs]
  have owner : ∀ e ∈ (s.holdUnit c).stored, e.owner ≠ .client c ∧ e.owner.clientId = c := fun e he =>
    ⟨Owner.isClaimOf_ne_client (h.stored_owner he), Owner.isClaimOf_clientId (h.stored_owner he)⟩
  constructor
  · rintro (hlive | ⟨e, he, rfl, rfl⟩)
    · rcases live.mp hlive with ⟨d, hd, hne, rfl, rfl⟩ | ⟨e, he, rfl, rfl⟩
      · exact ⟨hne, .inl ⟨d, hd, rfl, rfl⟩⟩
      · obtain ⟨hne, hc⟩ := owner e he
        exact ⟨hne, .inr ⟨e, hc.symm ▸ he, rfl, rfl⟩⟩
    · by_cases hc : e.owner.clientId = c
      · rw [hc, k.stored] at he
        cases he
      · rw [k.units _ hc] at he
        refine ⟨fun heq => hc ?_, .inr ⟨e, he, rfl, rfl⟩⟩
        rw [heq]
        rfl
  · rintro ⟨hne, ⟨d, hd, rfl, rfl⟩ | ⟨e, he, rfl, rfl⟩⟩
    · exact .inl (live.mpr (.inl ⟨d, hd, hne, rfl, rfl⟩))
    · by_cases hc : e.owner.clientId = c
      · exact .inl (live.mpr (.inr ⟨e, hc ▸ he, rfl, rfl⟩))
      · exact .inr ⟨e, (k.units _ hc).symm ▸ he, rfl, rfl⟩

theorem State.Owned.thaws {s t : State} {c : ClientId} (h : s.Owned) (apart : s.DeadlinesApart) (k : s.Thaws t c) :
    t.Owned := by
  refine h.freezes k.slots (fun d hd => by rw [k.clients d hd]) (fun o ho kind => ?_) ⟨fun hf => ?_, fun kind hk => ?_⟩
  · rw [apart.armed_thaws k, and_iff_right ho]
  · exact absurd hf k.thawed
  · exact absurd rfl ((apart.armed_thaws k _ kind).mp hk).1

/-- Freeze entry stores what runs for the client's claims and arms its ALLOWANCE-END (R92). -/
theorem State.armed_enterFreeze (s : State) (c : ClientId) (o : Owner) (k : DeadlineKind) :
    (s.enterFreeze c).Armed o k ↔ (o = .client c ∧ k = .allowanceEnd) ∨ s.Armed o k := by
  have live : (∃ d ∈ (s.enterFreeze c).deadlines, d.owner = o ∧ d.kind = k)
      ↔ (o = .client c ∧ k = .allowanceEnd)
        ∨ ∃ d ∈ s.deadlines, d.owner.isClaimOf c = false ∧ d.owner = o ∧ d.kind = k := by
    simp only [(s.enterFreeze_deadlines c).mem_iff, List.mem_cons, or_and_right, exists_or, exists_eq_left,
      List.mem_filter, Bool.not_eq_true', and_assoc, State.allowanceFor, eq_comm (a := o), eq_comm (a := k)]
  have stored : ∀ d, d ∈ ((s.enterFreeze c).holdUnit o.clientId).stored ↔ d ∈ (s.holdUnit o.clientId).stored
      ∨ (o.clientId = c ∧ ∃ e ∈ s.deadlines, e.owner.isClaimOf c = true ∧ s.takenOut e = d) := fun d => by
    rw [s.enterFreeze_holdUnit]
    split
    · rename_i hc
      simp only [hc, List.mem_append, List.mem_map, List.mem_filter, and_assoc, true_and]
    · rename_i hc
      simp only [hc, false_and, or_false]
  constructor
  · rintro (hlive | ⟨d, hd, rfl, rfl⟩)
    · rcases live.mp hlive with hnew | ⟨d, hd, -, rfl, rfl⟩
      · exact .inl hnew
      · exact .inr (.inl ⟨d, hd, rfl, rfl⟩)
    · rcases (stored d).mp hd with hd | ⟨-, e, he, -, rfl⟩
      · exact .inr (.inr ⟨d, hd, rfl, rfl⟩)
      · exact .inr (.inl ⟨e, he, rfl, rfl⟩)
  · rintro (hnew | ⟨d, hd, rfl, rfl⟩ | ⟨d, hd, rfl, rfl⟩)
    · exact .inl (live.mpr (.inl hnew))
    · cases hclaim : d.owner.isClaimOf c with
      | false => exact .inl (live.mpr (.inr ⟨d, hd, hclaim, rfl, rfl⟩))
      | true => exact .inr ⟨s.takenOut d, (stored _).mpr (.inr ⟨Owner.isClaimOf_clientId hclaim, d, hd, hclaim, rfl⟩), rfl, rfl⟩
    · exact .inr ⟨d, (stored d).mpr (.inl hd), rfl, rfl⟩

theorem State.Owned.enterFreeze {s : State} (h : s.Owned) {c : ClientId} (thawed : (s.client c).freeze = .thawed) :
    (s.enterFreeze c).Owned := by
  refine h.freezes (s.enterFreeze_quiet c).slots (fun d hd => by rw [s.enterFreeze_client, if_neg hd]) (fun o ho k => ?_)
    ⟨fun _ => ⟨.allowanceEnd, (s.armed_enterFreeze c _ _).mpr (.inl ⟨rfl, rfl⟩)⟩, fun k hk => ?_⟩
  · simp only [s.armed_enterFreeze, ho, false_and, false_or]
  · refine ⟨by simp [s.enterFreeze_client], ?_⟩
    rcases (s.armed_enterFreeze c _ _).mp hk with ⟨-, rfl⟩ | hk
    · rfl
    · have hf := ((h.2 c).frozen k hk).1
      rw [thawed] at hf
      cases hf

/-! ### One client's claims on a record -/

theorem holdsIn_some {r : Resource} {c : ClientId} {st : HoldState} :
    HoldsIn (some r) c st ↔ ∃ h ∈ r.holders, h.client = c ∧ h.state = st := by
  simp [HoldsIn]

theorem waitsIn_some {r : Resource} {c : ClientId} : WaitsIn (some r) c ↔ ∃ w ∈ r.queue, w.client = c := by
  simp [WaitsIn]

theorem not_holdsIn_none {c : ClientId} {st : HoldState} : ¬ HoldsIn none c st := nofun

theorem not_waitsIn_none {c : ClientId} : ¬ WaitsIn none c := nofun

/-- Deadlines alone change, those of one client's claims on one slot's resource. -/
theorem State.SameButDeadlines.claimsBut {s t : State} (k : s.SameButDeadlines t) (i : SlotId) (c : ClientId)
    (armed : ∀ o, o ≠ .holding i c → o ≠ .waiter i c → ∀ k, t.Armed o k ↔ s.Armed o k) : s.ClaimsBut t i c :=
  ⟨fun j _ => k.record j, fun d _ st => by rw [k.record], fun d _ hw => (k.record i).symm ▸ hw, armed, k.clients⟩

/-- A holding that is altered keeps its owner and its state. -/
theorem State.Owned.modifyHolding {s : State} (h : s.Owned) (i : SlotId) (c : ClientId) {f : Holding → Holding}
    (same : ∀ g, (f g).client = g.client ∧ (f g).state = g.state) : (s.modifyHolding i c f).Owned := by
  cases hr : s.record i with
  | none => rwa [State.modifyHolding, s.modifyRecord_none i _ hr]
  | some r =>
    rw [State.modifyHolding, s.modifyRecord_some i _ r hr]
    refine h.setRecord i _ (fun d st => ?_) fun d hw => ?_
    · have hsame : ∀ g : Holding, (if g.client = c then f g else g).client = g.client
          ∧ (if g.client = c then f g else g).state = g.state := fun g => by
        split
        · exact same g
        · exact ⟨rfl, rfl⟩
      simp only [hr, holdsIn_some, List.mem_map, exists_exists_and_eq_and, hsame]
    · rw [hr, waitsIn_some] at hw
      exact waitsIn_some.mpr hw

/-- A waiter entry that goes takes its deadline with it (R47). -/
theorem State.Owned.dropWaiter {s : State} (h : s.Owned) (i : SlotId) (c : ClientId) : (s.dropWaiter i c).Owned := by
  have armed : ∀ o k, (s.dropWaiter i c).Armed o k ↔ o ≠ .waiter i c ∧ s.Armed o k := fun o k => by
    rw [State.dropWaiter, State.armed_disarm, State.armed_modifyRecord]
  have holds : ∀ d st, HoldsIn ((s.dropWaiter i c).record i) d st ↔ HoldsIn (s.record i) d st := fun d st => by
    rw [s.record_dropWaiter_self]
    cases s.record i with
    | none => rfl
    | some r => rw [Option.map_some, holdsIn_some, holdsIn_some]
  have k := s.dropWaiter_withdraws i c
  refine h.claimsBut (i := i) (c := c) ⟨k.elsewhere, fun d _ => holds d, fun d hd => ?_, fun o _ ho e => ?_, k.clients⟩
    ((h.1 i c).congr (holds c) (fun e => ?_) fun e he => ?_)
  · rw [s.record_dropWaiter_self]
    rintro ⟨r, hr, w, hw, rfl⟩
    rw [hr]
    exact waitsIn_some.mpr ⟨w, (List.mem_eraseP_of_neg (by simpa using hd)).mpr hw, rfl⟩
  · rw [armed, and_iff_right ho]
  · simp only [armed, ne_eq, reduceCtorEq, not_false_eq_true, true_and]
  · exact absurd rfl ((armed _ e).mp he).1

/-- A wait deadline is armed for an entry of the queue (R52). -/
theorem State.Owned.armWait {s : State} (h : s.Owned) {i : SlotId} {r : Resource} {w : Waiter} (n : Nat)
    (hr : s.record i = some r) (hw : w ∈ r.queue) : (s.arm (.waiter i w.client) .waitEnd n).Owned := by
  have same := s.arm_same (.waiter i w.client) .waitEnd n
  refine h.claimsBut (same.claimsBut i w.client fun o _ ho k => ?_)
    ((h.1 i w.client).congr (fun st => by rw [same.record]) (fun k => ?_) fun k hk => ?_)
  · simp only [s.armed_arm, ho, false_and, false_or, ne_eq, not_false_eq_true, true_and]
  · simp only [s.armed_arm, reduceCtorEq, false_and, false_or, ne_eq, not_false_eq_true, true_and]
  · rcases (s.armed_arm _ _ _ _ _).mp hk with ⟨-, rfl⟩ | ⟨hne, -⟩
    · exact ⟨⟨r, (same.record i).trans hr, w, hw, rfl⟩, rfl⟩
    · exact absurd rfl hne

/-- A client without a claim is granted a holding, with a lease (R83). -/
theorem State.Owned.grant {s : State} (h : s.Owned) {i : SlotId} {c : ClientId} {r : Resource} (mode : Tenure)
    (hr : s.record i = some r) (free : r.claimsOf c = 0) :
    ((s.createHolding i c mode .held).armLease i c r).Owned := by
  have same := (s.createHolding i c mode .held).armLease_same i c r
  have created := (s.setGrant (s.grant + 1)).modifyRecord_withdraws i fun q => { q with holders := q.holders ++
    [{ client := c, tenure := mode, state := .held, gen := s.grant + 1, suspect := q.integrity == .suspect,
       warned := false }] }
  have armed : ∀ o k, ((s.createHolding i c mode .held).armLease i c r).Armed o k
      ↔ (o = .holding i c ∧ k = r.leaseKind) ∨ (o ≠ .holding i c ∧ s.Armed o k) := fun o k => by
    rw [State.armed_armLease, State.armed_createHolding]
  have hrec := (same.record i).trans (s.record_createHolding_self i c mode .held)
  rw [hr, Option.map_some] at hrec
  have holds : ∀ d st, HoldsIn (((s.createHolding i c mode .held).armLease i c r).record i) d st
      ↔ HoldsIn (s.record i) d st ∨ (d = c ∧ st = .held) := fun d st => by
    simp only [hrec, hr, holdsIn_some, List.mem_append, List.mem_singleton, or_and_right, exists_or, exists_eq_left,
      eq_comm (a := c), eq_comm (a := HoldState.held)]
  have queue : ∀ d, WaitsIn (s.record i) d
      → WaitsIn (((s.createHolding i c mode .held).armLease i c r).record i) d := fun d hw => by
    rw [hr, waitsIn_some] at hw
    rw [hrec]
    exact waitsIn_some.mpr hw
  refine h.claimsBut (i := i) (c := c) ⟨fun j hj => (same.record j).trans (created.elsewhere j hj), fun d hd st => ?_,
    fun d _ => queue d, fun o ho _ k => ?_, same.clients.trans created.clients⟩
    (.of_one (st := .held) (k := r.leaseKind) (fun st => ?_) (fun k => ?_) r.held_asks_leaseKind
      ((h.1 i c).still_waits (queue c) fun k hk => ?_))
  · simp only [holds, hd, false_and, or_false]
  · simp only [armed, ho, false_and, false_or, ne_eq, not_false_eq_true, true_and]
  · have none : ¬ HoldsIn (s.record i) c st := by
      rw [hr, holdsIn_some]
      rintro ⟨g, hg, hc, -⟩
      have hnone := (Resource.claimsOf_eq_zero.mp free).1
      rw [Resource.holdingOf, List.find?_eq_none] at hnone
      exact hnone g hg (by simpa using hc)
    simp only [holds, none, true_and, false_or]
  · simp only [armed, true_and, ne_eq, not_true_eq_false, false_and, or_false]
  · simpa [armed] using hk

/-- The head entry's offer takes the entry's place, with the offer window for its deadline (R57). -/
theorem State.Owned.makeOffer {s : State} (h : s.Owned) (one : s.OneClaimEach) {i : SlotId} {r : Resource} {w : Waiter}
    {rest : List Waiter} (hr : s.record i = some r) (hq : r.queue = w :: rest) : (s.makeOffer i w).Owned := by
  obtain ⟨hrec, elsewhere⟩ := State.makeOffer_record hr hq
  have clients : (s.makeOffer i w).clients = s.clients := by
    rw [s.makeOffer_eq i r w rest hr hq, (State.raiseNotice_same _ _ _).clients, (State.arm_same _ _ _ _).clients]
    rfl
  have armed : ∀ o k, (s.makeOffer i w).Armed o k ↔ (o = .holding i w.client ∧ k = .offerEnd)
      ∨ (o ≠ .holding i w.client ∧ o ≠ .waiter i w.client ∧ s.Armed o k) := fun o k => by
    rw [s.makeOffer_eq i r w rest hr hq, State.armed_of_notices (State.raiseNotice_same _ _ _), State.armed_arm,
      State.armed_setRecord, State.armed_setGrant, State.armed_disarm,
      State.armed_setRecord]
  have holds : ∀ d st, HoldsIn ((s.makeOffer i w).record i) d st
      ↔ HoldsIn (s.record i) d st ∨ (d = w.client ∧ st = .offered) := fun d st => by
    simp only [hrec, hr, holdsIn_some, List.mem_append, List.mem_singleton, or_and_right, exists_or, exists_eq_left,
      State.offerTo, Offer.holding, eq_comm (a := w.client), eq_comm (a := HoldState.offered)]
  refine h.claimsBut (i := i) (c := w.client) ⟨elsewhere, fun d hd st => ?_, fun d hd => ?_, fun o ho ho' k => ?_, clients⟩
    (.of_one (st := .offered) (k := .offerEnd) (fun st => ?_) (fun k => ?_) rfl fun k hk => ?_)
  · simp only [holds, hd, false_and, or_false]
  · rw [hr, hrec, waitsIn_some, waitsIn_some, hq]
    rintro ⟨v, hv, rfl⟩
    rcases List.mem_cons.mp hv with rfl | hv
    · exact absurd rfl hd
    · exact ⟨v, hv, rfl⟩
  · simp only [armed, ho, ho', false_and, false_or, ne_eq, not_false_eq_true, true_and]
  · have none : ¬ HoldsIn (s.record i) w.client st := by
      rw [hr, holdsIn_some]
      rintro ⟨g, hg, hc, -⟩
      have htwo := r.claimsOf_two w.client ⟨g, hg, hc⟩ ⟨w, by simp [hq], rfl⟩
      have hone := one i r w.client hr
      omega
    simp only [holds, none, true_and, false_or]
  · simp only [armed, true_and, ne_eq, not_true_eq_false, false_and, or_false]
  · simp [armed] at hk

/-- The client's holding becomes HELD, or stays so, with a new lease (R58, R83). -/
theorem State.Owned.lease {s : State} (h : s.Owned) (one : s.OneClaimEach) {i : SlotId} {c : ClientId} {r : Resource}
    {g : Holding} {f : Holding → Holding} (hr : s.record i = some r) (hg : r.holdingOf c = some g)
    (held : (f g).state = .held) (client : ∀ g, (f g).client = g.client) :
    ((s.modifyHolding i c f).armLease i c r).Owned := by
  have same := (s.modifyHolding i c f).armLease_same i c r
  have armed : ∀ o k, ((s.modifyHolding i c f).armLease i c r).Armed o k
      ↔ (o = .holding i c ∧ k = r.leaseKind) ∨ (o ≠ .holding i c ∧ s.Armed o k) := fun o k => by
    rw [State.armed_armLease, State.modifyHolding, State.armed_modifyRecord]
  have hrec : ((s.modifyHolding i c f).armLease i c r).record i
      = some { r with holders := r.holders.map fun g => if g.client = c then f g else g } := by
    rw [same.record, State.modifyHolding, State.record_modifyRecord_self, hr, Option.map_some]
  have holds : ∀ d st, HoldsIn (((s.modifyHolding i c f).armLease i c r).record i) d st
      ↔ ∃ g ∈ r.holders, g.client = d ∧ (if g.client = c then f g else g).state = st := fun d st => by
    have hclient : ∀ g : Holding, (if g.client = c then f g else g).client = g.client := fun g => by
      split
      · exact client g
      · rfl
    simp only [hrec, holdsIn_some, List.mem_map, exists_exists_and_eq_and, hclient]
  have queue : ∀ d, WaitsIn (s.record i) d → WaitsIn (((s.modifyHolding i c f).armLease i c r).record i) d :=
    fun d hw => by
      rw [hr, waitsIn_some] at hw
      rw [hrec]
      exact waitsIn_some.mpr hw
  have modified := s.modifyRecord_withdraws i fun r =>
    { r with holders := r.holders.map fun h => if h.client = c then f h else h }
  refine h.claimsBut (i := i) (c := c) ⟨fun j hj => (same.record j).trans (modified.elsewhere j hj), fun d hd st => ?_,
    fun d _ => queue d, fun o ho _ k => ?_, same.clients.trans modified.clients⟩
    (.of_one (st := .held) (k := r.leaseKind) (fun st => ?_) (fun k => ?_) r.held_asks_leaseKind
      ((h.1 i c).still_waits (queue c) fun k hk => ?_))
  · rw [holds, hr, holdsIn_some]
    refine exists_congr fun g => and_congr_right fun _ => and_congr_right fun hgd => ?_
    rw [if_neg (hgd ▸ hd)]
  · simp only [armed, ho, false_and, false_or, ne_eq, not_false_eq_true, true_and]
  · obtain ⟨hmem, hc⟩ := Resource.holdingOf_mem hg
    rw [holds]
    constructor
    · rintro ⟨g', hg', hc', rfl⟩
      rw [if_pos hc', Resource.holdingOf_unique (one i r c hr) hg g' hg' hc', held]
    · rintro rfl
      exact ⟨g, hmem, hc, by rw [if_pos hc, held]⟩
  · simp only [armed, true_and, ne_eq, not_true_eq_false, false_and, or_false]
  · simpa [armed] using hk

/-- A LEASE-WARN that comes due leaves a LEASE-END in its place (R84). -/
theorem State.Owned.warn {s : State} (h : s.Owned) (apart : s.DeadlinesApart) {i : SlotId} {c : ClientId} {d : Deadline}
    {interval : Ms} (last : Time) (hd : d ∈ s.deadlines) (owner : d.owner = .holding i c)
    (kind : d.kind = .leaseWarn interval) :
    ((s.removeLive (.holding i c)).insertDeadline { owner := .holding i c, kind := .leaseEnd, due := last }).Owned := by
  have same := (s.removeLive_same (.holding i c)).trans
    ((s.removeLive (.holding i c)).insertDeadline_same { owner := .holding i c, kind := .leaseEnd, due := last })
  have warned : s.Armed (.holding i c) (.leaseWarn interval) := .inl ⟨d, hd, owner, kind⟩
  have armed : ∀ o, o ≠ .holding i c → ∀ k, ((s.removeLive (.holding i c)).insertDeadline
      { owner := .holding i c, kind := .leaseEnd, due := last }).Armed o k ↔ s.Armed o k := fun o ho k => by
    simp only [State.armed_insertDeadline, s.armed_removeLive_ne ho, ho, false_and, false_or]
  have gone : ∀ k, ¬ (s.removeLive (.holding i c)).Armed (.holding i c) k := by
    rintro k (⟨e, he, heq, -⟩ | ⟨e, he, -⟩)
    · exact absurd heq (by simpa using (List.mem_filter.mp he).2)
    · have hstored := (apart.live_runs hd (by rw [owner]; rfl)).2
      rw [owner] at hstored
      have hnil : e ∈ ([] : List StoredDeadline) := hstored ▸ he
      cases hnil
  refine h.claimsBut (same.claimsBut i c fun o ho _ => armed o ho) ⟨fun st hst => ?_, fun k hk => ?_,
    (h.1 i c).still_waits (fun hw => (same.record i).symm ▸ hw) fun k => (armed (.waiter i c) nofun k).mp⟩
  · refine ⟨.leaseEnd, (State.armed_insertDeadline _ _ _ _).mpr (.inl ⟨rfl, rfl⟩), ?_⟩
    obtain ⟨k, hk, asks⟩ := (h.1 i c).asks st (same.record i ▸ hst)
    obtain rfl := apart.kind_unique rfl hk warned
    cases st with
    | held => exact .inl rfl
    | offered => cases asks
  · rw [same.record]
    rcases (State.armed_insertDeadline _ _ _ _).mp hk with ⟨-, rfl⟩ | hk
    · exact ⟨((h.1 i c).holding _ warned).1, nofun, nofun⟩
    · exact absurd hk (gone k)

/-- A holding that ends takes its deadline with it (R40). -/
theorem State.Owned.dropHolding {s : State} (h : s.Owned) (one : s.OneClaimEach) {i : SlotId} {r : Resource}
    (g : Holding) (cause : HoldingEnd) (hr : s.record i = some r) : (s.dropHolding i r g cause).Owned := by
  have hrec := s.record_dropHolding_self i r g cause
  have k := s.dropHolding_withdraws i r g cause
  have armed : ∀ o k, (s.dropHolding i r g cause).Armed o k ↔ o ≠ .holding i g.client ∧ s.Armed o k := fun o k => by
    rw [State.dropHolding, State.armed_of_notices (State.endNotices_same _ _ _ _), State.armed_disarm,
      State.armed_setRecord]
  have holds : ∀ d st, HoldsIn ((s.dropHolding i r g cause).record i) d st
      ↔ d ≠ g.client ∧ HoldsIn (s.record i) d st := fun d st => by
    rw [hrec, hr, holdsIn_some, holdsIn_some, r.eraseP_holders _ (one i r g.client hr)]
    simp only [List.mem_filter, bne_iff_ne]
    constructor
    · rintro ⟨g', ⟨hg', hne⟩, rfl, rfl⟩
      exact ⟨hne, g', hg', rfl, rfl⟩
    · rintro ⟨hne, g', hg', rfl, rfl⟩
      exact ⟨g', ⟨hg', hne⟩, rfl, rfl⟩
  have queue : ∀ d, WaitsIn (s.record i) d → WaitsIn ((s.dropHolding i r g cause).record i) d := fun d hw => by
    rw [hr, waitsIn_some] at hw
    rw [hrec]
    exact waitsIn_some.mpr hw
  refine h.claimsBut (i := i) (c := g.client) ⟨k.elsewhere, fun d hd st => ?_, fun d _ => queue d, fun o ho _ e => ?_,
    k.clients⟩ (.of_none (fun st hst => ((holds _ _).mp hst).1 rfl) (fun e he => ((armed _ e).mp he).1 rfl)
      ((h.1 i g.client).still_waits (queue _) fun e he => ((armed _ e).mp he).2))
  · rw [holds, and_iff_right hd]
  · rw [armed, and_iff_right ho]

/-- The deadline of an owner that no holding is goes. -/
theorem State.Owned.removeLive {s : State} (h : s.Owned) {o : Owner} (claim : o.slot?.isSome = true)
    (gone : ∀ i c r, o = .holding i c → s.record i = some r → r.holdingOf c = none) : (s.removeLive o).Owned := by
  have same := s.removeLive_same o
  cases o with
  | holding i c =>
    have none : ∀ st, ¬ HoldsIn (s.record i) c st := by
      rintro st ⟨r, hr, g, hg, hc, -⟩
      have hnone := gone i c r rfl hr
      rw [Resource.holdingOf, List.find?_eq_none] at hnone
      exact hnone g hg (by simpa using hc)
    refine h.claimsBut (same.claimsBut i c fun o ho _ k => s.armed_removeLive_ne ho k) (.of_none (fun st => ?_)
      (fun k hk => ?_) ((h.1 i c).still_waits (fun hw => (same.record i).symm ▸ hw) fun k hk => hk.of_removeLive))
    · rw [same.record]
      exact none st
    · obtain ⟨⟨st, hst⟩, -⟩ := (h.1 i c).holding k hk.of_removeLive
      exact none st hst
  | waiter i c =>
    exact h.claimsBut (same.claimsBut i c fun o _ ho k => s.armed_removeLive_ne ho k)
      ((h.1 i c).congr (fun st => by rw [same.record]) (s.armed_removeLive_ne nofun)
        ((h.1 i c).still_waits (fun hw => (same.record i).symm ▸ hw) fun k hk => hk.of_removeLive))
  | client c => cases claim

/-! ### Every change, every step -/

/-- Each change keeps deadlines and owners together, where no client has two claims on a resource and no RETIRING record
has an entry. -/
theorem State.Change.owned {s t : State} (h : s.Change t) (apart : s.DeadlinesApart) (one : s.OneClaimEach)
    (idle : ∀ i r, s.record i = some r → r.RetiredIdle) (owned : s.Owned) : t.Owned := by
  cases h with
  | aside h =>
    have hrec : ∀ i, t.record i = s.record i := fun i => by simp only [State.record, h.slots]
    exact owned.congr (fun i c st => by rw [hrec]) (fun i c hw => (hrec i).symm ▸ hw) h.frozen
      (State.armed_congr h.deadlines h.stored)
  | thaws c h => exact owned.thaws apart h
  | freezes c thawed => exact owned.enterFreeze thawed
  | defines i r free fresh =>
    refine owned.setRecord i _ (fun c st => ?_) fun c hw => ?_
    · simp [free, holdsIn_some, fresh.holders, not_holdsIn_none]
    · exact absurd (free ▸ hw) not_waitsIn_none
  | reworks i r r' hr h =>
    refine owned.setRecord i _ (fun c st => ?_) fun c hw => ?_
    · rw [hr, holdsIn_some, holdsIn_some, h.holders]
    · rw [hr, waitsIn_some] at hw
      rwa [waitsIn_some, h.queue]
  | removes i bare =>
    refine owned.setRecord i none (fun c st => ?_) fun c hw => ?_
    · refine ⟨fun hst => absurd hst not_holdsIn_none, ?_⟩
      rintro ⟨r, hr, g, hg, -⟩
      rw [(bare r hr).1] at hg
      cases hg
    · obtain ⟨r, hr, w, hw, -⟩ := hw
      have hempty : r.queue = [] := (bare r hr).2.elim (idle i r hr) id
      rw [hempty] at hw
      cases hw
  | unqueues i c => exact owned.dropWaiter i c
  | queues i r w hr =>
    refine owned.setRecord i _ (fun c st => ?_) fun c hw => ?_
    · rw [hr, holdsIn_some, holdsIn_some]
    · rw [hr, waitsIn_some] at hw
      obtain ⟨v, hv, hc⟩ := hw
      exact waitsIn_some.mpr ⟨v, mem_insertAfterLast.mpr (.inr hv), hc⟩
  | waits i c n r w hr hw hc => exact hc ▸ owned.armWait n hr hw
  | grants i c r mode hr free => exact owned.grant mode hr free
  | offers i r w rest hr hq => exact owned.makeOffer one hr hq
  | leases i c r g f hr hg held same => exact owned.lease one hr hg held fun g => (same g).1
  | shares i c => exact owned.modifyHolding i c fun _ => ⟨rfl, rfl⟩
  | warns i c d interval last hd owner kind =>
    exact (owned.warn apart last hd owner kind).modifyHolding i c fun _ => ⟨rfl, rfl⟩
  | ends i r g cause hr => exact owned.dropHolding one g cause hr
  | expires o claim gone => exact owned.removeLive claim gone

/-- Deadlines and owners together, with the laws that keep them so. -/
structure State.Accounted (s : State) : Prop where
  apart : s.DeadlinesApart
  one : s.OneClaimEach
  idle : ∀ i r, s.record i = some r → r.RetiredIdle
  owned : s.Owned

theorem State.Accounted.withQueue {s : State} (a : s.Accounted) (q : List Instr) :
    State.Accounted { s with pending := q } where
  apart := a.apart.congr rfl rfl rfl
  one := a.one
  idle := a.idle
  owned := a.owned.congr (fun _ _ _ => .rfl) (fun _ _ => id) (fun _ => .rfl) fun _ _ => .rfl

theorem State.Change.accounted {s t : State} (h : s.Change t) (a : s.Accounted) : t.Accounted where
  apart := h.deadlinesApart a.apart
  one i r c hr := h.keeps_records (P := fun r => r.claimsOf c ≤ 1) (fun e => e.claims c) (fun i r => a.one i r c) i r hr
  idle := h.keeps_records RecordEdit.retiredIdle a.idle
  owned := h.owned a.apart a.one a.idle a.owned

/-- A part without a record and without a deadline, every client THAWED. -/
theorem State.owned_of_reset {t : State} (slots : ∀ i, t.record i = none) (deadlines : t.deadlines = [])
    (clients : ∀ c, (t.client c).freeze = .thawed) (units : ∀ c, (t.holdUnit c).stored = []) : t.Owned := by
  have armed : ∀ o k, ¬ t.Armed o k := fun o k => by simp [State.Armed, deadlines, units]
  refine ⟨fun i c => .of_none (fun st => ?_) (armed _) fun k hk => absurd hk (armed _ k), fun c => ⟨fun hf => ?_, fun k hk =>
    absurd hk (armed _ k)⟩⟩
  · rw [slots]
    exact not_holdsIn_none
  · rw [clients] at hf
    cases hf

theorem exec_resetsPart_owned {c : Instr} (s : State) (h : resetsPart c = true) (owned : s.Owned) :
    ∃ t, exec c s = .next t ∧ t.Owned := by
  cases c with
  | powerOn sel rsn hld =>
    exact ⟨_, rfl, State.owned_of_reset (fun i => by simp [State.record, State.powerOn]) rfl
      (fun c => by simp [State.client, State.powerOn, Client.initial])
      fun c => by simp [State.holdUnit, State.powerOn, HoldUnit.initial]⟩
  | resetPin =>
    exact ⟨_, rfl, State.owned_of_reset (fun i => by simp [State.record]) rfl
      (fun c => by simp [State.client, Client.afterResetPin, Client.initial])
      fun c => by simp [State.holdUnit, HoldUnit.initial]⟩
  | resetPinRelease levels =>
    refine ⟨_, rfl, ?_⟩
    split
    · exact owned.congr (fun _ _ _ => .rfl) (fun _ _ => id) (fun _ => .rfl)
        (State.armed_congr rfl fun c => by simp [State.holdUnit])
    · exact owned
  | _ => cases h

/-- Every command keeps deadlines and owners together. -/
theorem exec_owned (c : Instr) (s : State) (a : s.Accounted) : ∃ t, exec c s = .next t ∧ t.Owned := by
  by_cases hc : resetsPart c = true
  · exact exec_resetsPart_owned s hc a.owned
  · obtain ⟨t, ht, changes⟩ := exec_changes c s (by simpa using hc)
    exact ⟨t, ht, (changes.keeps (fun _ _ h => h.accounted) a).owned⟩

/-- Settles O58: each change that a command makes keeps both halves of the law, the second at the one claim it touches; a
part reset leaves no deadline, and the release of the reset pin finds nobody FROZEN or OVERSTAYED. -/
theorem stepKeepsTheFreezeLaw : Obligations.StepKeepsTheFreezeLaw := by
  have apart : ∀ s t : State, s.StartupQuiet → s.DeadlinesApart → step s = .next t → t.DeadlinesApart :=
    fun s t quiet h hstep => step_leads (P := fun s => s.StartupQuiet ∧ s.DeadlinesApart)
      (fun _ _ h => ⟨h.1, h.2.congr rfl rfl rfl⟩)
      (fun c s h => exec_deadlinesApart c s h.1 h.2) (fun _ h => h.2) ⟨quiet, h⟩ hstep
  refine ⟨fun s t _ quiet law one hstep => ?_, fun s t _ quiet law one claims retiring _ owned hstep => ?_⟩
  · exact t.deadlinesApart_iff.mp (apart s t quiet (s.deadlinesApart_iff.mpr ⟨law, one⟩) hstep)
  · have hs := s.deadlinesApart_iff.mpr ⟨law, one⟩
    have accounted : s.Accounted := ⟨hs, claims, fun i r hr hl => (retiring i r hr hl).1, hs.owned_iff.mp owned⟩
    have ht : t.Owned := step_leads (P := State.Accounted) (fun _ q h => h.withQueue q) exec_owned (fun _ h => h.owned)
      accounted hstep
    exact (apart s t quiet hs hstep).owned_iff.mpr ht

end Sys2Proof.Machine
end

section
/-! PROOF. The requests on a holding of one's own, and ACQUIRE's grant: the checks on the caller's standing (O28), the new
leases of ACQUIRE and RENEW (O26, O32), MARK SOUND (O34), the integrity that the end of a holding leaves (O36). -/

namespace Sys2Proof.Machine

/-! ### The caller's standing (R30, R60) -/

/-- The requests that name a generation (R30, R60). -/
def Request.NamesGeneration (q : Request) : Prop :=
  q = .accept ∨ q = .decline ∨ q = .renew ∨ q = .release ∨ q = .downgrade ∨ q = .markSound

theorem Request.NamesGeneration.namesRecord {q : Request} (h : q.NamesGeneration) : q.namesRecord = true := by
  rcases h with rfl | rfl | rfl | rfl | rfl | rfl <;> rfl

/-- A key or a generation of 0 is out of range (R166). -/
theorem Request.NamesGeneration.refusal {q : Request} (h : q.NamesGeneration) {s : State} {p : ClientId} {ps : List Byte}
    (session : s.SessionPasses p q) (length : ps.length = 6) (zero : wordAt ps 0 = 0 ∨ longAt ps 2 = 0) :
    s.refusal p q ps = some .badParam := by
  have ranges : q.inRange ps = false := by
    rw [← Bool.not_eq_true, q.inRange_iff]
    rcases h with rfl | rfl | rfl | rfl | rfl | rfl <;>
    · rintro ⟨hkey, hgen⟩
      rcases zero with hz | hz
      · simp [hz] at hkey
      · simp [hz] at hgen
  have fits : q.fits ps.length = true := by
    rw [q.fits_iff, length]
    rcases h with rfl | rfl | rfl | rfl | rfl | rfl <;> rfl
  have others : q ≠ .join ∧ q.supervisorOnly = false := by
    rcases h with rfl | rfl | rfl | rfl | rfl | rfl <;> exact ⟨nofun, rfl⟩
  have opened : (s.client p).session = .opened := session.trans (if_neg others.1)
  have hjoin : (q == .join) = false := by simpa using others.1
  simp [State.refusal, opened, hjoin, sessionRefusal, others.2, fits, ranges]

/-- A request that reaches a record reaches the one in the slot (R164). -/
theorem State.Reaches.record {s : State} {p : ClientId} {q : Request} {ps : List Byte} {i : SlotId} {r : Resource}
    (h : s.Reaches p q ps i r) : s.record i = some r := by
  obtain ⟨-, -, hr, -⟩ := h
  exact hr

theorem State.Reaches.ranges {s : State} {p : ClientId} {q : Request} {ps : List Byte} {i : SlotId} {r : Resource}
    (h : s.Reaches p q ps i r) : q.RangesHold ps := by
  obtain ⟨⟨-, -, -, -, ranges⟩, -⟩ := h
  exact ranges

/-- ACCEPT and DECLINE are refused for the caller's standing (R60). -/
theorem exec_offerRefused {q : Request} (hq : q = .accept ∨ q = .decline) {p : ClientId} {s : State} {ps : List Byte}
    {i : SlotId} {r : Resource} (h : s.Reaches p q ps i r) {a : Answer}
    (refused : r.offerRefusal p (longAt ps 2) = some a) :
    ∃ t, exec (q.instr p) s = .next t ∧ s.OnlyAnswered t p a [] := by
  refine ⟨s.answer p a [], ?_, s.answer_onlyAnswered p a []⟩
  rcases hq with rfl | rfl
  · exact congrArg _ ((State.request_reaches h _).trans (by simp only [refused]))
  · exact congrArg _ ((State.request_reaches h _).trans (by simp only [refused]))

/-- RENEW, RELEASE, DOWNGRADE and MARK SOUND are refused for the caller's standing (R30). -/
theorem exec_holderRefused {q : Request} (hq : q = .renew ∨ q = .release ∨ q = .downgrade ∨ q = .markSound)
    {p : ClientId} {s : State} {ps : List Byte} {i : SlotId} {r : Resource} (h : s.Reaches p q ps i r) {a : Answer}
    (refused : r.holderRefusal p (longAt ps 2) = some a) :
    ∃ t, exec (q.instr p) s = .next t ∧ s.OnlyAnswered t p a [] := by
  refine ⟨s.answer p a [], ?_, s.answer_onlyAnswered p a []⟩
  rcases hq with rfl | rfl | rfl | rfl <;>
    exact congrArg _ ((State.request_reaches h _).trans (by simp only [refused]))

/-- Settles O28: a zero fails stage 4, and the standing checks come first in the effect of each request. -/
theorem standingChecks : Obligations.StandingChecks := by
  refine ⟨fun q p s ps flight session hq length zero => ?_, fun q p s ps i r hp => ⟨fun hq => ?_, fun hq => ?_⟩⟩
  · obtain ⟨effect, hexec⟩ := exec_namesRecord q p s (Request.NamesGeneration.namesRecord hq)
    refine ⟨s.answer p .badParam [], ?_, s.answer_onlyAnswered p _ _⟩
    rw [hexec, s.request_inFlight p q ps flight, Request.NamesGeneration.refusal hq session length zero]
  · exact ⟨fun hh => exec_offerRefused hq hp (by simp [Resource.offerRefusal, hh]),
      fun h hh held => exec_offerRefused hq hp (by simp [Resource.offerRefusal, hh, held]),
      fun h hh offered gen => exec_offerRefused hq hp (by simp [Resource.offerRefusal, hh, offered, gen])⟩
  · exact ⟨fun hh => exec_holderRefused hq hp (by simp [Resource.holderRefusal, hh]),
      fun h hh offered => exec_holderRefused hq hp (by simp [Resource.holderRefusal, hh, offered]),
      fun h hh held gen => exec_holderRefused hq hp (by simp [Resource.holderRefusal, hh, held, gen])⟩

/-! ### A new lease (R83) -/

/-- What `Arms` reads of the two states. -/
theorem State.Arms.congr {s u t v : State} {o : Owner} {k : DeadlineKind} {n : Nat} (h : u.Arms t o k n)
    (deadlines : u.deadlines = s.deadlines) (units : u.holdUnits = s.holdUnits) (clients : u.clients = s.clients)
    (clock : u.clock = s.clock) (live : v.deadlines = t.deadlines) (units' : v.holdUnits = t.holdUnits) :
    s.Arms v o k n := by
  have hv : ∀ c, v.holdUnit c = t.holdUnit c := fun c => by simp only [State.holdUnit, units']
  simpa only [State.Arms, State.SameUnitsBut, State.InsertedInto, State.distance, State.isFrozen, State.client,
    State.holdUnit, deadlines, units, clients, clock, live, units'] using h

/-- A new record stands in the slot, and its client has a new lease on the terms of the old one; besides, the grant counter
and the notices may change. -/
structure State.Leases (s t : State) (i : SlotId) (c : ClientId) (r r' : Resource) : Prop where
  record : t.record i = some r'
  lease : t.deadlineOf (.holding i c) = some (r.lease (s.isFrozen c))
  others : s.SameDeadlinesBut t fun o => o = .holding i c
  arms : s.ArmsLease t i c r
  time : s.SameTime t
  elsewhere : s.SameRecordsBut t i
  backlog : t.backlog = s.backlog
  clients : t.clients = s.clients
  freezes : s.SameFreezes t

/-- A record is set, the grant counter too, then a lease armed and the notices seen to. -/
theorem State.Leases.of_set (s : State) {t : State} (g : Gen) (i : SlotId) (c : ClientId) (r r' : Resource)
    (k : (((s.setGrant g).setRecord i (some r')).armLease i c r).SameButNotices t) : s.Leases t i c r r' := by
  have same := ((s.setGrant g).setRecord i (some r')).armLease_same i c r
  have record : ∀ j, t.record j = ((s.setGrant g).setRecord i (some r')).record j := fun j => by
    rw [← same.record]
    simp only [State.record, k.slots]
  have unit : ∀ d, t.holdUnit d = (((s.setGrant g).setRecord i (some r')).armLease i c r).holdUnit d := fun d => by
    simp only [State.holdUnit, k.holdUnits]
  refine ⟨?_, ?_, fun o ho => ?_, ?_, ⟨k.pending.trans same.pending, k.startup.trans same.startup, k.clock.trans same.clock⟩,
    fun j hj => ?_, k.backlog.trans same.backlog, k.clients.trans same.clients, fun d => ?_⟩
  · rw [record, State.record_setRecord_self]
  · rw [State.deadlineOf_same k, State.deadlineOf_armLease_self]
    rfl
  · rw [State.deadlineOf_same k, State.deadlineOf_armLease_ne _ _ _ _ _ ho]
    rfl
  · exact (((s.setGrant g).setRecord i (some r')).armLease_arms i c r).congr rfl rfl rfl rfl k.deadlines k.holdUnits
  · rw [record, State.record_setRecord_ne _ _ _ _ hj]
    rfl
  · rw [unit]
    exact ⟨same.level d, same.freezeStart d⟩

theorem State.Leases.answer {s t : State} {i : SlotId} {c : ClientId} {r r' : Resource} (h : s.Leases t i c r r')
    (p : ClientId) (a : Answer) (data : List Byte) : s.Leases (t.answer p a data) i c r r' :=
  ⟨h.record, h.lease, h.others, h.arms, h.time, h.elsewhere, h.backlog, h.clients, h.freezes⟩

/-- The record after the renewal of the client's holding `h` (R32). -/
def Resource.renewed (r : Resource) (c : ClientId) (h : Holding) : Resource :=
  { r with holders := r.holders.map fun g => if g.client = c then { h with warned := false } else g }

section
variable {s : State} {i : SlotId} {r : Resource} {c : ClientId} {h : Holding} (one : r.claimsOf c ≤ 1)
  (hr : s.record i = some r) (hh : r.holdingOf c = some h)
include one hr hh

/-- A renewal is a record set, a lease armed, a notice set cleared of EXPIRING, and an answer (R32). -/
theorem State.renewAt_eq : s.renewAt c i r h.gen
    = (((s.setRecord i (some (r.renewed c h))).armLease i c r).setNoticeSet c
        ((s.noticeSet c).without (Notice.isExpiringFor r.key h.gen))).answer c .done (wordBytes r.leaseTerm) := by
  have hmod : (s.modifyHolding i c fun g => { g with warned := false }) = s.setRecord i (some (r.renewed c h)) :=
    State.modifyHolding_eq one hr hh _
  have hnotices := ((s.setRecord i (some (r.renewed c h))).armLease_same i c r).noticeSet c
  rw [State.renewAt, hmod, State.clearExpiring, State.clearNotices, hnotices]
  rfl

theorem State.renewAt_leases : s.Leases (s.renewAt c i r h.gen) i c r (r.renewed c h) := by
  rw [State.renewAt_eq one hr hh]
  exact (State.Leases.of_set s s.grant i c r _ (State.setNoticeSet_same _ _ _)).answer _ _ _

theorem State.renewAt_noticeSet (d : ClientId) : (s.renewAt c i r h.gen).noticeSet d
    = if d = c then (s.noticeSet c).without (Notice.isExpiringFor r.key h.gen) else s.noticeSet d := by
  rw [State.renewAt_eq one hr hh]
  refine (State.noticeSet_setNoticeSet _ c _ d).trans ?_
  rw [((s.setRecord i (some (r.renewed c h))).armLease_same i c r).noticeSet]
  rfl

theorem State.renewAt_answered : s.Answered (s.renewAt c i r h.gen) c .done (wordBytes r.leaseTerm) := by
  rw [State.renewAt_eq one hr hh]
  exact s.answer_answered _ c _ _ ((s.setRecord i (some (r.renewed c h))).armLease_same i c r).ports

theorem State.renewAt_grant : (s.renewAt c i r h.gen).grant = s.grant := by
  rw [State.renewAt_eq one hr hh]
  exact ((s.setRecord i (some (r.renewed c h))).armLease_same i c r).grant

end

/-- Settles O32: the holding, alone its client's, is altered, its lease armed and its EXPIRING cleared. -/
theorem renewArmsANewLease : Obligations.RenewArmsANewLease := by
  intro p s ps i r h hp one hh held gen
  have hr := hp.record
  have passes : r.holderRefusal p (longAt ps 2) = none := Resource.holderRefusal_eq_none.mpr ⟨h, hh, held, gen⟩
  obtain ⟨record, lease, others, arms, time, elsewhere, backlog, clients, freezes⟩ :=
    State.renewAt_leases (one i r p hr) hr hh
  have notices := State.renewAt_noticeSet (one i r p hr) hr hh
  refine ⟨s.renewAt p i r h.gen, ?_, State.renewAt_answered (one i r p hr) hr hh, record, lease, others, arms,
    (notices p).trans (if_pos rfl), fun c hc => (notices c).trans (if_neg hc), time, elsewhere, backlog,
    State.renewAt_grant (one i r p hr) hr hh, clients, freezes⟩
  refine congrArg _ ((State.request_reaches hp _).trans ?_)
  simp only [passes, gen]

/-! ### ACQUIRE's grant (R50) -/

theorem clampPriority_eq {s : State} {p : ClientId} {ps : List Byte} (h : (byteAt ps 3).toNat ≤ 3) :
    clampPriority (priorityOf (byteAt ps 3)) (s.client p).ceiling = s.priorityUsed p ps := by
  have hlt : (byteAt ps 3).toNat < 4 := by omega
  simp only [clampPriority, priorityOf, State.priorityUsed, dif_pos hlt, Fin.ext_iff, Fin.lt_def]
  split
  · rename_i hc
    exact (Nat.min_eq_right (Nat.le_of_lt hc)).symm
  · rename_i hc
    exact (Nat.min_eq_left (Nat.le_of_not_lt hc)).symm

theorem State.standsAhead_eq_false {s : State} {r : Resource} {priority : Fin 4} :
    s.standsAhead r priority = false ↔ s.NoneAhead r priority := by
  simp [State.standsAhead, State.NoneAhead]

theorem State.grantSpace_iff {s : State} : s.grantSpace = true ↔ s.HasSpace := by
  simp [State.grantSpace, State.HasSpace, State.freeHoldings, Config.holdingRecords]

/-- ACQUIRE's own checks passed, nobody ahead and room for the tenure: an immediate grant (R50). -/
theorem State.acquireAt_grants {s : State} {p : ClientId} {i : SlotId} {r : Resource} {mode : Tenure} {priority : Fin 4}
    (wait : Ms) (passes : s.AcquirePasses p r mode) (ahead : s.NoneAhead r priority) (admits : r.Admits mode)
    (space : s.HasSpace) : s.acquireAt p i r mode priority wait = s.grantNow p i r mode := by
  obtain ⟨hmode, hholding, hwaiter, hgrant, hquota⟩ := passes
  simp [State.acquireAt, hmode, hholding, hwaiter, State.grantSpent, hgrant, Nat.not_le.mpr hquota,
    State.standsAhead_eq_false.mpr ahead, (r.compatible_iff mode).mpr admits, State.grantSpace_iff.mpr space]

/-- The record with a new HELD holding at the tail of its list (R24). -/
def Resource.granted (r : Resource) (c : ClientId) (mode : Tenure) (gen : Gen) : Resource :=
  { r with holders := r.holders ++ [{ client := c, tenure := mode, state := .held, gen := gen,
                                      suspect := r.integrity == .suspect, warned := false }] }

/-- A grant is the counter and the record set, a lease armed, and an answer (R50). -/
theorem State.grantNow_eq {s : State} {i : SlotId} {r : Resource} (hr : s.record i = some r) (p : ClientId)
    (mode : Tenure) : s.grantNow p i r mode
      = (((s.setGrant (s.grant + 1)).setRecord i (some (r.granted p mode (s.grant + 1)))).armLease i p r).answer p
          .granted (grantedData (s.grant + 1) r.leaseTerm (r.integrity == .suspect)) := by
  have created : s.createHolding i p mode .held
      = (s.setGrant (s.grant + 1)).setRecord i (some (r.granted p mode (s.grant + 1))) :=
    State.modifyRecord_some _ _ _ r hr
  rw [State.grantNow, created]

/-- Settles O26: the checks lead to the grant, which sets the record and the counter and arms the lease. -/
theorem acquireGrantsAtOnce : Obligations.AcquireGrantsAtOnce := by
  intro p s ps i r hp mode priority passes ahead admits space
  have hr := hp.record
  obtain ⟨-, -, -, hpriority⟩ := hp.ranges
  have same := ((s.setGrant (s.grant + 1)).setRecord i (some (r.granted p mode (s.grant + 1)))).armLease_same i p r
  obtain ⟨record, lease, others, arms, time, elsewhere, backlog, clients, freezes⟩ :=
    (State.Leases.of_set s (s.grant + 1) i p r (r.granted p mode (s.grant + 1)) (.refl _)).answer p .granted
      (grantedData (s.grant + 1) r.leaseTerm (r.integrity == .suspect))
  have answered := s.answer_answered _ p .granted (grantedData (s.grant + 1) r.leaseTerm (r.integrity == .suspect))
    same.ports
  refine ⟨s.grantNow p i r mode, ?_, ?_⟩
  · refine congrArg _ ((State.request_reaches hp _).trans ?_)
    rw [clampPriority_eq hpriority]
    exact State.acquireAt_grants _ passes ahead admits space
  · rw [State.grantNow_eq hr p mode]
    exact ⟨by simpa only [grantedData, beq_iff_eq] using answered, same.grant, record, lease, others, arms, time,
      elsewhere, backlog, clients, same.notices, freezes⟩

/-! ### Integrity (R34, R39) -/

/-- Settles O34: the caller's one refusal, then the record set. -/
theorem markSoundClearsTheDoubt : Obligations.MarkSoundClearsTheDoubt := by
  intro p s ps i r h hp hh held gen
  have passes : r.holderRefusal p (longAt ps 2) = none := Resource.holderRefusal_eq_none.mpr ⟨h, hh, held, gen⟩
  refine ⟨fun shared => ?_, fun exclusive => ?_⟩
  · refine ⟨s.answer p .exclusiveNeeded [], ?_, s.answer_onlyAnswered p _ _⟩
    exact congrArg _ ((State.request_reaches hp _).trans (by simp [passes, Resource.holdsShared, hh, shared]))
  · refine ⟨(s.setRecord i (some { r with integrity := .sound })).answer p .done [], ?_, s.answer_answered _ p _ _ rfl,
      s.record_setRecord_self i _, fun j hj => s.record_setRecord_ne i _ j hj, rfl, rfl, rfl, ⟨rfl, rfl, rfl⟩,
      ⟨rfl, rfl, rfl⟩⟩
    exact congrArg _ ((State.request_reaches hp _).trans (by simp [passes, Resource.holdsShared, hh, exclusive]))

/-- Offers leave a record its integrity (R57). -/
theorem State.OffersMade.integrity {s t : State} {os : List Offer} (h : s.OffersMade t os) {i : SlotId} {r r' : Resource}
    (hr : s.record i = some r) (hr' : t.record i = some r') : r'.integrity = r.integrity := by
  obtain ⟨q, gone, hq, ⟨lists, -⟩, -⟩ := h.record i r hr
  obtain rfl : q = r' := by simpa [hr'] using hq.symm
  exact (congrArg Resource.integrity lists).trans rfl

/-- The record that stands after the end of a holding has the integrity of R39. -/
theorem State.integrity_endHolding {s : State} {i : SlotId} {r r' : Resource} {h : Holding} {cause : HoldingEnd}
    (hr : s.record i = some r) (hh : r.holdingOf h.client = some h)
    (hr' : (s.endHolding i h.client cause).record i = some r') : r'.integrity = h.integrityAfter cause r.integrity := by
  rw [s.endHolding_eq i h.client cause r h hr hh] at hr'
  split at hr'
  · obtain ⟨⟨os, made, -⟩, -⟩ := State.giveBackMany_spec 1 ((s.dropHolding i r h cause).removeRecord i)
    have gone := (made.free i (State.record_setRecord_self _ i none)).1
    exact absurd (gone.symm.trans hr') nofun
  · obtain ⟨os, made, -⟩ := (s.dropHolding i r h cause).giveBackAndCheck_offersFrom i
    rw [made.integrity (s.record_dropHolding_self i r h cause) hr', ← h.endsSuspect_iff]

/-- Settles O36: R39's case and its complement. -/
theorem integrityAtTheEndOfAHolding : Obligations.IntegrityAtTheEndOfAHolding := by
  intro s i r h cause hr hh r' hr'
  have integrity := State.integrity_endHolding hr hh hr'
  exact ⟨fun suspect => integrity.trans (if_pos suspect), fun other => integrity.trans (if_neg other)⟩

/-! ### Expiries (R80) -/

/-- Without a deadline that is due, an owner has none to take. -/
theorem State.dueDeadline_eq_none {s : State} {o : Owner} (h : ∀ d ∈ s.deadlines, d.owner = o → d.due ≠ s.clock) :
    s.dueDeadline o = none := by
  cases hd : s.dueDeadline o with
  | none => rfl
  | some d =>
    obtain ⟨hmem, howner, hdue⟩ := State.dueDeadline_mem hd
    exact absurd hdue (h d hmem howner)

theorem State.dueOfKind_eq_false {s : State} {o : Owner} (h : ∀ d ∈ s.deadlines, d.owner = o → d.due ≠ s.clock)
    (k : DeadlineKind) : s.dueOfKind o k = false := by
  simp [State.dueOfKind, State.dueDeadline_eq_none h]

/-- Settles O46: every expiry asks for its owner's due deadline first. -/
theorem expiriesNeedALiveDueDeadline : Obligations.ExpiriesNeedALiveDueDeadline := by
  intro i c s
  refine ⟨fun h => ⟨?_, ?_, ?_⟩, fun h => ?_, fun h => ?_⟩
  · simp only [exec, execLeaseWarn, State.dueDeadline_eq_none h]
  · simp [exec, execLeaseEnd, State.dueOfKind_eq_false h]
  · simp [exec, execOfferEnd, State.dueOfKind_eq_false h]
  · simp [exec, execWaitEnd, State.dueOfKind_eq_false h]
  · simp [exec, execAllowanceEnd, State.dueOfKind_eq_false h]

end Sys2Proof.Machine
end

section
/-! PROOF. The machine right after reset meets the laws (O49): its directory, pools and lists are empty, and every client,
unit, notice set and port has its initial value. -/

namespace Sys2Proof.Machine

/-! ### The state after reset, block by block -/

theorem record_reset (i : SlotId) : State.reset.record i = none := by
  simp [State.reset, State.powerOn, State.record]

theorem client_reset (c : ClientId) : State.reset.client c = Client.initial c := by
  simp [State.reset, State.powerOn, State.client]

theorem holdUnit_reset (c : ClientId) : (State.reset.holdUnit c).freezeStart = none
    ∧ (State.reset.holdUnit c).stored = [] := by
  simp [State.reset, State.powerOn, State.holdUnit, HoldUnit.initial]

theorem noticeSet_reset (c : ClientId) : State.reset.noticeSet c = NoticeSet.empty := by
  simp [State.reset, State.powerOn, State.noticeSet]

theorem port_reset (p : ClientId) : State.reset.port p = Port.initial false false := by
  simp [State.reset, State.powerOn, State.port]

/-! ### Laws that an empty directory meets -/

theorem State.total_of_empty {s : State} (h : ∀ i, s.record i = none) (f : Resource → Nat) : s.total f = 0 := by
  simp [State.total_eq_sum, h]

/-- A law of single records asks nothing of an empty directory. -/
theorem State.records_of_empty {s : State} (h : ∀ i, s.record i = none) {P : SlotId → Resource → Prop} :
    ∀ i r, s.record i = some r → P i r := by
  intro i r hr
  rw [h i] at hr
  cases hr

theorem State.generationsLegal_of_empty {s : State} (h : ∀ i, s.record i = none) : s.GenerationsLegal := by
  rw [State.generationsLegal_iff]
  simp [h, gensOf]

/-! ### Laws of ports and clients -/

/-- A port in STARTING, as every port is until start-up has ended, is consistent (R138). -/
theorem State.portConsistent_of_initial {s : State} {p : ClientId} (port : s.port p = Port.initial false false)
    (startup : s.startup ≠ .ended) : s.PortConsistent p := by
  simp [State.PortConsistent, port, Port.initial, startup]

/-- A set without a record, and no request in flight, has nothing presented (R131). -/
theorem State.presentedLaw_of_empty {s : State} (sets : ∀ c, s.noticeSet c = NoticeSet.empty)
    (ports : ∀ c, (s.port c).inFlight = .none) : s.PresentedLaw := by
  intro c
  simp [sets, ports, NoticeSet.empty]

/-- Settles O49: each law, from the initial values of what it reads. -/
theorem resetMeetsTheLaws : Obligations.ResetMeetsTheLaws := by
  have thawed : ∀ c, (State.reset.client c).freeze = .thawed := fun c => by rw [client_reset]; rfl
  have closed : ∀ c, (State.reset.client c).session = .none := fun c => by rw [client_reset]; rfl
  have settings : State.reset.TermsAndSettings := (State.termsAndSettings_iff _).mpr
    ⟨State.directoryLegal_of_empty record_reset, fun c => by rw [client_reset]; exact Client.initial_settingsHold c⟩
  obtain ⟨directory, hold, settings⟩ := settings
  obtain ⟨unserved, ordered, retiring⟩ := State.reset.served_iff.mp (State.served_of_empty record_reset)
  have apart : State.reset.DeadlinesApart := State.deadlinesApart_of_reset rfl thawed holdUnit_reset
  have owned : State.reset.Owned := State.owned_of_reset record_reset rfl thawed fun c => (holdUnit_reset c).2
  obtain ⟨freeze, oneEach⟩ := State.reset.deadlinesApart_iff.mp apart
  have inFlight : ∀ p, (State.reset.port p).inFlight = .none := fun p => by rw [port_reset]; rfl
  refine ⟨fun p => State.portConsistent_of_initial (port_reset p) nofun, fun _ => ⟨rfl, rfl, closed⟩, directory,
    State.records_of_empty record_reset, ordered,
    fun i r c => State.records_of_empty record_reset (P := fun _ r => r.claimsOf c ≤ 1) i r, fun c => ?_,
    State.generationsLegal_of_empty record_reset, ⟨?_, ?_⟩, ⟨List.nodup_nil, nofun, fun h => absurd rfl h⟩, unserved,
    retiring, fun c => ?_, hold, settings, fun c => ⟨fun _ => ?_, fun _ => noticeSet_reset c⟩, fun p c hw => ?_,
    ⟨freeze, oneEach, .nil, nofun, fun c => ?_⟩, apart.owned_iff.mpr owned,
    State.presentedLaw_of_empty noticeSet_reset inFlight⟩
  · rw [State.claimCount, State.total_of_empty record_reset]
    exact Nat.zero_le _
  · rw [State.total_of_empty record_reset]
    exact Nat.zero_le _
  · rw [State.total_of_empty record_reset]
    exact Nat.zero_le _
  · rw [noticeSet_reset]
    exact ⟨Nat.zero_le _, .nil⟩
  · exact State.total_of_empty record_reset _
  · rw [inFlight] at hw
    cases hw
  · rw [(holdUnit_reset c).2]
    nofun

end Sys2Proof.Machine
end

section
/-! SUPPORT. Claims and pool records counted over the directory: what an edit of one record, and the offers that follow it,
make of the claim counts (R49), of the pools (R22, R45) and of the Offer Backlog (R69). -/

namespace Sys2Proof.Machine

/-! ### The claims on one record, client by client -/

/-- The clients of a slot's holdings, in list order. -/
def holderClients (x : Option Resource) : List ClientId := x.elim [] fun r => r.holders.map Holding.client

/-- The clients of a slot's waiter entries, in queue order. -/
def waiterClients (x : Option Resource) : List ClientId := x.elim [] fun r => r.queue.map Waiter.client

theorem length_holderClients (x : Option Resource) : (holderClients x).length = x.elim 0 fun r => r.holders.length := by
  cases x <;> simp [holderClients]

theorem length_waiterClients (x : Option Resource) : (waiterClients x).length = x.elim 0 fun r => r.queue.length := by
  cases x <;> simp [waiterClients]

theorem count_clients (x : Option Resource) (c : ClientId) :
    x.elim 0 (fun r => r.claimsOf c) = (holderClients x).count c + (waiterClients x).count c := by
  cases x with
  | none => simp [holderClients, waiterClients]
  | some r => simp only [Option.elim_some, holderClients, waiterClients, List.count, List.countP_map]; rfl

/-- An edit of a slot's record that adds no holding and no entry, and frees `n` holding records. -/
structure Thins (x y : Option Resource) (n : Nat) : Prop where
  holders : (holderClients y).Sublist (holderClients x)
  waiters : (waiterClients y).Sublist (waiterClients x)
  freed : (holderClients y).length + n = (holderClients x).length

theorem Thins.refl (x : Option Resource) : Thins x x 0 := ⟨.refl _, .refl _, rfl⟩

/-- Fewer entries, and the holdings of the same clients as before. -/
theorem Thins.of_queue {r r' : Resource} (holders : r'.holders.map Holding.client = r.holders.map Holding.client)
    (queue : r'.queue.Sublist r.queue) : Thins (some r) (some r') 0 where
  holders := by simp only [holderClients, Option.elim_some, holders]; exact .refl _
  waiters := queue.map _
  freed := by simp only [holderClients, Option.elim_some, holders]; rfl

theorem Thins.claims {x y : Option Resource} {n : Nat} (h : Thins x y n) (c : ClientId) :
    y.elim 0 (fun r => r.claimsOf c) ≤ x.elim 0 fun r => r.claimsOf c := by
  rw [count_clients, count_clients]
  exact Nat.add_le_add (h.holders.count_le c) (h.waiters.count_le c)

theorem Thins.entries {x y : Option Resource} {n : Nat} (h : Thins x y n) :
    y.elim 0 (fun r => r.queue.length) ≤ x.elim 0 fun r => r.queue.length := by
  rw [← length_waiterClients, ← length_waiterClients]
  exact h.waiters.length_le

/-! ### Totals -/

/-- A total in which no slot counts more. -/
theorem State.total_mono {s t : State} {f : Resource → Nat}
    (h : ∀ i, (t.record i).elim 0 f ≤ (s.record i).elim 0 f) : t.total f ≤ s.total f := by
  rw [State.total_eq_sum, State.total_eq_sum]
  exact Finset.sum_le_sum fun i _ => h i

/-- A total after an edit of one record. -/
theorem State.total_edit {s t : State} {i : SlotId} (h : s.SameRecordsBut t i) (f : Resource → Nat) :
    t.total f + (s.record i).elim 0 f = s.total f + (t.record i).elim 0 f := by
  have rest : ∑ j ∈ Finset.univ.erase i, (t.record j).elim 0 f = ∑ j ∈ Finset.univ.erase i, (s.record j).elim 0 f :=
    Finset.sum_congr rfl fun j hj => by rw [h j (Finset.ne_of_mem_erase hj)]
  rw [State.total_eq_sum, State.total_eq_sum, ← Finset.add_sum_erase _ _ (Finset.mem_univ i),
    ← Finset.add_sum_erase (a := i) _ (fun j => (s.record j).elim 0 f) (Finset.mem_univ i), rest]
  omega

theorem State.total_of_slots {s t : State} (h : t.slots = s.slots) (f : Resource → Nat) : t.total f = s.total f := by
  simp only [State.total, State.record, h]

/-! ### The pools and the backlog -/

/-- The laws of the pools and of the Offer Backlog (R22, R45, R69), where `n` holding records have been freed and are still
to be given back: they count as in use. -/
structure State.PoolsOwing (s : State) (n : Nat) : Prop where
  holdings : s.holdingsInUse + n ≤ 96
  entries : (s.total fun r => r.queue.length) ≤ 48
  nodup : s.backlog.Nodup
  records : ∀ i ∈ s.backlog, (s.record i).isSome = true
  full : s.backlog ≠ [] → 96 ≤ s.holdingsInUse + n

/-- With nothing to be given back, what counts as in use is in use. -/
theorem State.PoolsOwing.inUse {s : State} (h : s.PoolsOwing 0) :
    s.holdingsInUse ≤ 96 ∧ (s.backlog ≠ [] → 96 ≤ s.holdingsInUse) := by
  have holdings := h.holdings
  have full := h.full
  rw [Nat.add_zero] at holdings full
  exact ⟨holdings, full⟩

theorem State.poolsOwing_zero (s : State) : s.PoolsOwing 0 ↔ s.WithinPools ∧ s.BacklogLaw := by
  have within : s.WithinPools ↔ s.holdingsInUse ≤ 96 ∧ (s.total fun r => r.queue.length) ≤ 48 := .rfl
  rw [within, State.BacklogLaw, s.freeHoldings_eq_zero]
  constructor
  · intro h
    obtain ⟨holdings, full⟩ := h.inUse
    exact ⟨⟨holdings, h.entries⟩, h.nodup, h.records, full⟩
  · rintro ⟨⟨holdings, entries⟩, nodup, records, full⟩
    exact ⟨(Nat.add_zero _).symm ▸ holdings, entries, nodup, records, (Nat.add_zero _).symm ▸ full⟩

/-- The laws read the records and the backlog alone. -/
theorem State.PoolsOwing.congr {s t : State} {n : Nat} (h : s.PoolsOwing n) (slots : t.slots = s.slots)
    (backlog : t.backlog = s.backlog) : t.PoolsOwing n := by
  have record : ∀ j, t.record j = s.record j := fun j => by simp only [State.record, slots]
  have inUse : t.holdingsInUse = s.holdingsInUse := State.total_of_slots slots _
  have entries := State.total_of_slots slots fun r => r.queue.length
  refine ⟨?_, ?_, ?_, fun i hi => ?_, fun hne => ?_⟩
  · rw [inUse]
    exact h.holdings
  · rw [entries]
    exact h.entries
  · rw [backlog]
    exact h.nodup
  · rw [record]
    exact h.records i (backlog ▸ hi)
  · rw [inUse]
    exact h.full (backlog ▸ hne)

theorem State.poolsOwing_of_empty {s : State} (h : ∀ i, s.record i = none) (backlog : s.backlog = []) :
    s.PoolsOwing 0 := by
  have total : ∀ f, s.total f = 0 := State.total_of_empty h
  exact ⟨by simp [State.holdingsInUse, total], by simp [total], by simp [backlog], by simp [backlog], by simp [backlog]⟩

/-! ### Offers -/

/-- Offers turn entries into holdings of the same clients (R57): nobody has more claims at any slot. -/
theorem State.OffersMade.claims_le {s t : State} {os : List Offer} (h : s.OffersMade t os) (i : SlotId) (c : ClientId) :
    (t.record i).elim 0 (fun r => r.claimsOf c) ≤ (s.record i).elim 0 fun r => r.claimsOf c := by
  cases hr : s.record i with
  | none => simp [(h.free i hr).1]
  | some r =>
    obtain ⟨r', gone, hr', ⟨lists, queue, takers, -⟩, -⟩ := h.record i r hr
    have holders : r'.holders = r.holders ++ (os.filter fun x => x.slot == i).map Offer.holding :=
      (congrArg Resource.holders lists).trans rfl
    have offered : ((os.filter fun x => x.slot == i).map Offer.holding).countP (fun g => g.client == c)
        = (gone.filter fun w => (s.client w.client).session != .teardown).countP fun w => w.client == c := by
      have := congrArg (List.countP fun y : ClientId × Tenure => y.1 == c) takers
      rw [List.countP_map, List.countP_map] at this
      rw [List.countP_map]
      exact this
    have left : ((gone.filter fun w => (s.client w.client).session != .teardown).countP fun w => w.client == c)
        ≤ gone.countP fun w => w.client == c := List.filter_sublist.countP_le
    simp only [hr', Option.elim_some, Resource.claimsOf, holders, queue, List.countP_append, offered]
    omega

theorem State.OffersMade.entries_le {s t : State} {os : List Offer} (h : s.OffersMade t os) (i : SlotId) :
    (t.record i).elim 0 (fun r => r.queue.length) ≤ (s.record i).elim 0 fun r => r.queue.length := by
  cases hr : s.record i with
  | none => simp [(h.free i hr).1]
  | some r =>
    obtain ⟨r', gone, hr', ⟨-, queue, -⟩, -⟩ := h.record i r hr
    simp [hr', queue]

theorem State.OffersMade.isSome_record {s t : State} {os : List Offer} (h : s.OffersMade t os) {i : SlotId}
    (hi : (s.record i).isSome = true) : (t.record i).isSome = true := by
  obtain ⟨r, hr⟩ := Option.isSome_iff_exists.mp hi
  obtain ⟨r', gone, hr', -⟩ := h.record i r hr
  simp [hr']

/-- An offer is owed only at a record. -/
theorem State.Checked.isSome_record {s : State} {i : SlotId} (h : s.Checked i) (hi : i ∈ s.backlog) :
    (s.record i).isSome = true := by
  obtain ⟨r, -, hr, -⟩ := h.2.mp hi
  simp [hr]

/-- The hand-over of the records freed, and the offer check, restore the laws (R67, R69). -/
theorem State.PoolsOwing.offersFrom {s t : State} {i : SlotId} {n : Nat} (h : s.PoolsOwing n) (k : s.OffersFrom t i n) :
    t.PoolsOwing 0 := by
  obtain ⟨os, made, -, checked, -, within, handed⟩ := k
  obtain ⟨served, rest, split, -, -, -, -, -, left, full⟩ := handed h.nodup
  have nodup : rest.Nodup := (List.nodup_append.mp (split ▸ h.nodup)).2.1
  have known : ∀ j ∈ rest, (t.record j).isSome = true := fun j hj =>
    made.isSome_record (h.records j (by rw [split]; exact List.mem_append_right _ hj))
  have entries := State.total_mono made.entries_le
  refine ⟨?_, entries.trans h.entries, ?_, fun j hj => ?_, ?_⟩
  · rw [Nat.add_zero]
    exact within h.holdings
  · rcases left with hb | hb | ⟨hi, hb⟩ <;> rw [hb]
    · exact nodup
    · exact nodup.filter _
    · exact List.nodup_append_comm.mp (List.nodup_cons.mpr ⟨hi, nodup⟩)
  · by_cases hji : j = i
    · exact hji ▸ checked.isSome_record (hji ▸ hj)
    · refine known j ?_
      rcases left with hb | hb | ⟨-, hb⟩ <;> simpa [hb, hji] using hj
  · rw [Nat.add_zero]
    exact full h.full

/-! ### What adds no claim -/

/-- No client has more claims than before, or another quota; and the laws of the pools and the backlog hold as they did,
but for `n` holding records freed and still to be given back. -/
structure State.Sheds (s : State) (n : Nat) (t : State) : Prop where
  claims : ∀ c, t.claimCount c ≤ s.claimCount c
  quotas : ∀ c, (t.client c).quota = (s.client c).quota
  pools : s.PoolsOwing 0 → t.PoolsOwing n

namespace State.Sheds

theorem trans {s t u : State} {n : Nat} (h : s.Sheds 0 t) (k : t.Sheds n u) : s.Sheds n u :=
  ⟨fun c => (k.claims c).trans (h.claims c), fun c => (k.quotas c).trans (h.quotas c), fun p => k.pools (h.pools p)⟩

/-- Where the records, the backlog and the quotas stay, so do the laws. -/
theorem of_same {s t : State} (slots : t.slots = s.slots) (backlog : t.backlog = s.backlog)
    (quotas : ∀ c, (t.client c).quota = (s.client c).quota) : s.Sheds 0 t :=
  ⟨fun c => Nat.le_of_eq (State.claimCount_of_slots slots c), quotas, fun h => h.congr slots backlog⟩

theorem of_quiet {s t : State} (h : s.Quiet t) : s.Sheds 0 t := of_same h.slots h.backlog fun c => (h.settings c).1

theorem refl (s : State) : s.Sheds 0 s := of_quiet (.refl s)

theorem quiet {s t u : State} (h : s.Sheds 0 t) (k : t.Quiet u) : s.Sheds 0 u := h.trans (of_quiet k)

theorem answer {s t : State} (h : s.Sheds 0 t) (p : ClientId) (a : Answer) (data : List Byte) :
    s.Sheds 0 (t.answer p a data) := h.quiet ((State.Quiet.refl t).answer p a data)

/-- The offers that follow an edit give back what it has freed (R40, R67). -/
theorem offersFrom {s t u : State} {i : SlotId} {n : Nat} (h : s.Sheds n t) (k : t.OffersFrom u i n) :
    s.Sheds 0 u := by
  refine ⟨fun c => ?_, fun c => ?_, fun p => (h.pools p).offersFrom k⟩ <;> obtain ⟨os, made, -⟩ := k
  · exact (State.total_mono fun i => made.claims_le i c).trans (h.claims c)
  · rw [made.client, h.quotas]

theorem offerCheck {s t : State} (h : s.Sheds 0 t) (i : SlotId) : s.Sheds 0 (t.offerCheck i) :=
  h.offersFrom (t.offerCheck_offersFrom i)

/-- An edit of one record that adds no holding and no entry, and leaves no slot without a record in the backlog. -/
theorem of_edit {s t : State} {i : SlotId} {n : Nat} (elsewhere : s.SameRecordsBut t i)
    (thins : Thins (s.record i) (t.record i) n) (clients : t.clients = s.clients)
    (backlog : t.backlog.Sublist s.backlog) (stands : i ∈ t.backlog → (s.record i).isSome = true →
      (t.record i).isSome = true) : s.Sheds n t := by
  have inUse : t.holdingsInUse + n = s.holdingsInUse := by
    have total := State.total_edit elsewhere fun r => r.holders.length
    have freed := thins.freed
    rw [length_holderClients, length_holderClients] at freed
    simp only [State.holdingsInUse]
    omega
  refine ⟨fun c => ?_, fun c => by simp only [State.client, clients], fun h => ?_⟩
  · have total := State.total_edit elsewhere fun r => r.claimsOf c
    have claims := thins.claims c
    simp only [State.claimCount]
    omega
  · have entries := State.total_edit elsewhere fun r => r.queue.length
    have fewer := thins.entries
    have hentries := h.entries
    obtain ⟨holdings, full⟩ := h.inUse
    refine ⟨?_, by omega, h.nodup.sublist backlog, fun j hj => ?_, fun hne => ?_⟩
    · rwa [inUse]
    · have known := h.records j (backlog.subset hj)
      by_cases hji : j = i
      · subst hji
        exact stands hj known
      · rwa [elsewhere j hji]
    · rw [inUse]
      exact full fun hnil => hne (by simpa [hnil] using backlog)

/-- As `of_edit`, where the backlog stays and so does the record. -/
theorem of_withdraws {s t : State} {i : SlotId} {n : Nat} (k : s.Withdraws t i)
    (thins : Thins (s.record i) (t.record i) n)
    (stands : (s.record i).isSome = true → (t.record i).isSome = true) : s.Sheds n t :=
  of_edit k.elsewhere thins k.clients (k.backlog ▸ .refl _) fun _ => stands

/-- A record changes, its claims not. -/
theorem of_setRecord {s : State} {i : SlotId} {r r' : Resource} (hr : s.record i = some r)
    (holders : r'.holders = r.holders) (queue : r'.queue = r.queue) : s.Sheds 0 (s.setRecord i (some r')) := by
  refine of_withdraws (s.setRecord_withdraws i _) ?_ fun _ => by simp
  rw [hr, State.record_setRecord_self]
  exact .of_queue (by rw [holders]) (queue ▸ .refl _)

/-- A holding changes, its client not. -/
theorem of_modifyHolding (s : State) (i : SlotId) (c : ClientId) {f : Holding → Holding}
    (client : ∀ g, (f g).client = g.client) : s.Sheds 0 (s.modifyHolding i c f) := by
  have record : (s.modifyHolding i c f).record i = (s.record i).map fun r =>
      { r with holders := r.holders.map fun h => if h.client = c then f h else h } := s.record_modifyRecord_self i _
  refine of_withdraws (s.modifyRecord_withdraws i _) ?_ fun h => by simpa [record] using h
  rw [record]
  cases s.record i with
  | none => exact .refl none
  | some r =>
    refine .of_queue ?_ (.refl _)
    rw [List.map_map]
    refine List.map_congr_left fun g _ => ?_
    simp only [Function.comp_apply]
    split
    · exact client g
    · rfl

end State.Sheds

end Sys2Proof.Machine
end

section
/-! PROOF. Every command but ACQUIRE, SET CLIENT and the part resets adds no claim; these four are counted one by one. With
that every step keeps the claim quota (O53), the pools and the law of the Offer Backlog (O55). -/

namespace Sys2Proof.Machine

/-! ### The end of a holding (R40) -/

/-- With one claim each, the end of a client's holding frees one holding record. -/
theorem Resource.length_holders_without {r : Resource} {h : Holding} (one : r.claimsOf h.client ≤ 1)
    (hh : r.holdingOf h.client = some h) :
    (r.holders.filter fun g => g.client != h.client).length + 1 = r.holders.length := by
  have present : 0 < r.holders.countP fun g => g.client == h.client :=
    List.countP_pos_iff.mpr ⟨h, (Resource.holdingOf_mem hh).1, by simp⟩
  have parts := List.length_eq_countP_add_countP (l := r.holders) fun g => g.client == h.client
  have rest : (r.holders.filter fun g => g.client != h.client).length
      = r.holders.countP fun g => decide ¬ (g.client == h.client) = true := by
    rw [← List.countP_eq_length_filter]
    congr 1
    funext g
    by_cases hc : g.client = h.client <;> simp [hc]
  unfold Resource.claimsOf at one
  omega

section
variable {s : State} {i : SlotId} {r : Resource} {h : Holding}

theorem State.holdingDropped_sheds (one : s.OneClaimEach) (hr : s.record i = some r)
    (hh : r.holdingOf h.client = some h) (cause : HoldingEnd) : s.Sheds 1 (s.holdingDropped i r h cause) := by
  have freed := Resource.length_holders_without (one i r _ hr) hh
  have sub : (r.holders.filter fun g => g.client != h.client).Sublist r.holders := List.filter_sublist
  unfold State.holdingDropped
  simp only
  split
  · rename_i last
    refine .of_edit (i := i) (fun j hj => by simp [hj]) ?_ rfl List.filter_sublist fun hi => by simp at hi
    rw [hr, State.record_setBacklog, State.record_setRecord_self]
    rw [last.2] at freed
    exact ⟨List.nil_sublist _, List.nil_sublist _, by simpa [holderClients] using freed⟩
  · refine .of_edit (i := i) (fun j hj => by simp [hj]) ?_ rfl (.refl _) fun _ _ => by simp
    rw [hr, State.record_setRecord_self]
    exact ⟨sub.map _, .refl _, by simpa [holderClients] using freed⟩

theorem State.endHolding_sheds (one : s.OneClaimEach) (i : SlotId) (c : ClientId) (cause : HoldingEnd) :
    s.Sheds 0 (s.endHolding i c cause) := by
  cases hr : s.record i with
  | none => simpa [State.endHolding, hr] using State.Sheds.refl s
  | some r =>
    cases hh : r.holdingOf c with
    | none => simpa [State.endHolding, hr, hh] using State.Sheds.refl s
    | some h =>
      obtain ⟨-, rfl⟩ := Resource.holdingOf_mem hh
      exact (State.holdingDropped_sheds one hr hh cause).offersFrom (s.endHolding_ends i r h cause one hr hh)

/-! ### The end of a wait (R47) -/

theorem State.WaitEnds.sheds {t : State} {c : ClientId} {told : NoticeSet} (hr : s.record i = some r)
    (k : s.WaitEnds t i r c told) : s.Sheds 0 t := by
  have dropped : s.Sheds 0 (s.waiterDropped i r c told) := by
    refine .of_edit (i := i) (fun j hj => by simp [State.waiterDropped, hj]) ?_ rfl (.refl _) fun _ _ => by
      simp [State.waiterDropped]
    rw [hr, State.waiterDropped, State.record_setNoticeSet, State.record_setHoldUnit, State.record_setDeadlines,
      State.record_setRecord_self]
    exact .of_queue rfl List.filter_sublist
  by_cases head : r.queue.head?.map Waiter.client = some c
  · exact dropped.offersFrom (k.1 head)
  · rw [k.2 head]
    exact dropped.trans (.of_same rfl rfl fun _ => rfl)

theorem State.endWait_sheds (one : s.OneClaimEach) (i : SlotId) (c : ClientId) : s.Sheds 0 (s.endWait i c) := by
  cases hr : s.record i with
  | none => simpa [State.endWait, hr] using State.Sheds.refl s
  | some r => exact (s.endWait_ends i r c one hr).sheds hr

theorem State.lapseWait_sheds (one : s.OneClaimEach) (i : SlotId) (c : ClientId) : s.Sheds 0 (s.lapseWait i c) := by
  cases hr : s.record i with
  | none => simpa [State.lapseWait, hr] using State.Sheds.refl s
  | some r => exact (s.lapseWait_ends i r c one hr).sheds hr

/-! ### RETIRE (R16, R17) -/

/-- The offers withdrawn free their holding records, and the HELD holdings stay. -/
theorem Resource.length_heldOnes (r : Resource) :
    r.heldOnes.length + (r.holders.countP fun h => h.state == .offered) = r.holders.length := by
  have parts := List.length_eq_countP_add_countP (l := r.holders) fun h => h.state == .held
  have offered : (r.holders.countP fun h => h.state == .offered)
      = r.holders.countP fun h => decide ¬ (h.state == .held) = true := by
    congr 1
    funext h
    cases h.state <;> rfl
  rw [Resource.heldOnes, ← List.countP_eq_length_filter]
  omega

theorem State.retired_sheds (one : s.OneClaimEach) (hr : s.record i = some r) : s.Sheds 0 (s.retired i r) := by
  refine State.Sheds.offersFrom ?_ (s.retire_offersFrom i r hr (one i r · hr))
  refine .of_edit (fun j hj => s.record_setRecord_ne i _ j hj) ?_ rfl List.filter_sublist fun hi => by
    simp [State.resourceWithdrawn] at hi
  have held := r.length_heldOnes
  have sub : r.heldOnes.Sublist r.holders := List.filter_sublist
  rw [hr, State.record_resourceWithdrawn_self]
  split
  · rename_i unheld
    rw [unheld] at held
    exact ⟨List.nil_sublist _, List.nil_sublist _, by simpa [holderClients] using held⟩
  · exact ⟨sub.map _, List.nil_sublist _, by simpa [holderClients] using held⟩

end

/-! ### The commands that add no claim -/

/-- The command can add a claim or change a quota, or resets the part. -/
def changesClaimsOrQuotas : Instr → Bool
  | .powerOn .. | .resetPin | .acquire _ | .setClient _ => true
  | _ => false

section
variable {s : State} (one : s.OneClaimEach) (p c : ClientId) (i : SlotId)

theorem execAccept_sheds : ∃ t, execAccept p s = .next t ∧ s.Sheds 0 t := by
  have hrefl := State.Sheds.refl s
  refine ⟨_, rfl, State.requestAtRecord_induction hrefl (hrefl.answer p · []) fun ps i r _ _ _ => ?_⟩
  split
  · exact hrefl.answer p _ _
  · have held := State.Sheds.of_modifyHolding s i p (f := fun g => { g with state := .held, warned := false })
      fun _ => rfl
    exact ((held.quiet (.of_sameButDeadlines (State.armLease_same _ i p r))).quiet
      ((State.Quiet.refl _).setNoticeSet p _)).answer p _ _
  · exact hrefl.answer p _ _

theorem execRenew_sheds : ∃ t, execRenew p s = .next t ∧ s.Sheds 0 t := by
  have hrefl := State.Sheds.refl s
  refine ⟨_, rfl, State.requestAtRecord_induction hrefl (hrefl.answer p · []) fun ps i r _ _ _ => ?_⟩
  split
  · exact hrefl.answer p _ _
  · have renewed := State.Sheds.of_modifyHolding s i p (f := fun g => { g with warned := false }) fun _ => rfl
    exact ((renewed.quiet (.of_sameButDeadlines (State.armLease_same _ i p r))).quiet
      ((State.Quiet.refl _).setNoticeSet p _)).answer p _ _

theorem execDowngrade_sheds : ∃ t, execDowngrade p s = .next t ∧ s.Sheds 0 t := by
  have hrefl := State.Sheds.refl s
  refine ⟨_, rfl, State.requestAtRecord_induction hrefl (hrefl.answer p · []) fun ps i r _ _ _ => ?_⟩
  split
  · exact hrefl.answer p _ _
  split
  · exact hrefl.answer p _ _
  split
  · exact hrefl.answer p _ _
  · exact ((State.Sheds.of_modifyHolding s i p (f := fun g => { g with tenure := .shared }) fun _ => rfl).offerCheck
      i).answer p _ _

theorem execMarkSound_sheds : ∃ t, execMarkSound p s = .next t ∧ s.Sheds 0 t := by
  have hrefl := State.Sheds.refl s
  refine ⟨_, rfl, State.requestAtRecord_induction hrefl (hrefl.answer p · []) fun ps i r _ hr _ => ?_⟩
  split
  · exact hrefl.answer p _ _
  split
  · exact hrefl.answer p _ _
  · exact (State.Sheds.of_setRecord (r' := { r with integrity := .sound }) hr rfl rfl).answer p _ _

theorem execDefine_sheds : ∃ t, execDefine p s = .next t ∧ s.Sheds 0 t := by
  have hrefl := State.Sheds.refl s
  refine ⟨_, rfl, State.request_induction hrefl (hrefl.answer p · []) fun ps _ => ?_⟩
  split
  · exact hrefl.answer p _ _
  split
  · exact hrefl.answer p _ _
  · rename_i i hi
    refine State.Sheds.answer (.of_withdraws (s.setRecord_withdraws i _) ?_ fun _ => by simp) p _ _
    rw [State.record_of_freeSlot hi, State.record_setRecord_self]
    exact ⟨.refl [], .refl [], rfl⟩

theorem execAmend_sheds : ∃ t, execAmend p s = .next t ∧ s.Sheds 0 t := by
  have hrefl := State.Sheds.refl s
  refine ⟨_, rfl, State.requestAtRecord_induction hrefl (hrefl.answer p · []) fun ps i r _ hr _ => ?_⟩
  have amended := State.Sheds.of_setRecord (r' := r.amended ps) hr rfl rfl
  simp only
  split
  · exact hrefl.answer p _ _
  · refine State.Sheds.answer ?_ p _ _
    split
    · exact amended.offerCheck i
    · exact amended

theorem execJoin_sheds : ∃ t, execJoin p s = .next t ∧ s.Sheds 0 t := by
  have hrefl := State.Sheds.refl s
  refine ⟨_, rfl, State.request_induction hrefl (hrefl.answer p · []) fun _ _ => ?_⟩
  have opened : s.Sheds 0 (s.setClient p { s.client p with
      epoch := nextEpoch (s.client p).epoch, session := .opened, holdUsed := 0 }) := .of_same rfl rfl fun d => by
    rw [State.client_setClient]
    split <;> simp [*]
  exact (opened.quiet (State.evaluateFreeze_quiet _ p)).answer p _ _

theorem execLeaseWarn_sheds : ∃ t, execLeaseWarn i c s = .next t ∧ s.Sheds 0 t := by
  refine ⟨_, rfl, ?_⟩
  split
  · rename_i interval due _
    have armed := State.Quiet.of_sameButDeadlines ((s.removeLive_same (.holding i c)).trans
      (State.insertDeadline_same _ { owner := .holding i c, kind := .leaseEnd, due := due + interval.setWidth 32 }))
    have warned := (State.Sheds.of_quiet armed).trans
      (State.Sheds.of_modifyHolding _ i c (f := fun g => { g with warned := true }) fun _ => rfl)
    unfold State.warnLease
    simp only
    split
    · exact warned
    split
    · exact warned
    · exact warned.quiet (.of_sameButNotices (State.raiseNotice_same _ c _))
  · exact .refl s

theorem execAllowanceEnd_sheds : ∃ t, execAllowanceEnd c s = .next t ∧ s.Sheds 0 t := by
  refine ⟨_, rfl, ?_⟩
  split
  · refine State.Sheds.quiet (t := s.setClient c _) (.of_same rfl rfl fun d => ?_) (State.thaw_quiet _ c _)
    rw [State.client_setClient]
    split <;> simp [*]
  · exact .refl s

theorem execMillisecondBoundary_sheds : ∃ t, execMillisecondBoundary s = .next t ∧ s.Sheds 0 t := by
  refine ⟨_, rfl, ?_⟩
  split
  · refine .of_same rfl rfl fun d => ?_
    have counted : (Vector.ofFn fun e => (s.client e).countHold)[d] = (s.client d).countHold := by simp
    refine (congrArg Client.quota counted).trans ?_
    unfold Client.countHold
    split <;> rfl
  · exact .refl s

include one

theorem execDecline_sheds : ∃ t, execDecline p s = .next t ∧ s.Sheds 0 t := by
  have hrefl := State.Sheds.refl s
  refine ⟨_, rfl, State.requestAtRecord_induction hrefl (hrefl.answer p · []) fun ps i r _ _ _ => ?_⟩
  split
  · exact hrefl.answer p _ _
  · exact (State.endHolding_sheds one i p _).answer p _ _

theorem execCancel_sheds : ∃ t, execCancel p s = .next t ∧ s.Sheds 0 t := by
  have hrefl := State.Sheds.refl s
  refine ⟨_, rfl, State.requestAtRecord_induction hrefl (hrefl.answer p · []) fun ps i r _ _ _ => ?_⟩
  split
  · exact (State.endWait_sheds one i p).answer p _ _
  · exact hrefl.answer p _ _

theorem execRelease_sheds : ∃ t, execRelease p s = .next t ∧ s.Sheds 0 t := by
  have hrefl := State.Sheds.refl s
  refine ⟨_, rfl, State.requestAtRecord_induction hrefl (hrefl.answer p · []) fun ps i r _ _ _ => ?_⟩
  split
  · exact hrefl.answer p _ _
  · exact (State.endHolding_sheds one i p _).answer p _ _

theorem execRevoke_sheds : ∃ t, execRevoke p s = .next t ∧ s.Sheds 0 t := by
  have hrefl := State.Sheds.refl s
  refine ⟨_, rfl, State.requestAtRecord_induction hrefl (hrefl.answer p · []) fun ps i r _ _ _ => ?_⟩
  simp only
  split
  · exact (State.endHolding_sheds one i _ _).answer p _ _
  · exact hrefl.answer p _ _

theorem execRetire_sheds : ∃ t, execRetire p s = .next t ∧ s.Sheds 0 t := by
  have hrefl := State.Sheds.refl s
  refine ⟨_, rfl, State.requestAtRecord_induction hrefl (hrefl.answer p · []) fun ps i r _ hr _ => ?_⟩
  have retired := State.retired_sheds one hr
  unfold State.retired at retired
  simp only
  split <;> rename_i held
  · rw [if_pos held] at retired
    exact retired.answer p _ _
  · rw [if_neg held] at retired
    exact retired.answer p _ _

theorem execSweepVisit_sheds : ∃ t, execSweepVisit c s = .next t ∧ s.Sheds 0 t := by
  refine ⟨_, rfl, ?_⟩
  split
  · split
    · exact .refl s
    · rename_i i _
      have moved : s.Sheds 0 (s.setClient c { s.client c with sweepFrom := i.val + 1 }) :=
        .of_quiet ((State.Quiet.refl s).setClient c _ .inl rfl rfl rfl)
      have one' : (s.setClient c { s.client c with sweepFrom := i.val + 1 }).OneClaimEach := one
      simp only
      split
      · exact moved.trans (State.endHolding_sheds one' i c _)
      · exact moved.trans (State.endWait_sheds one' i c)
  · exact .refl s

/-- A holding that ends by a deadline of its own (R37, R63). -/
theorem State.expire_sheds (cause : HoldingEnd) :
    s.Sheds 0 ((s.removeLive (.holding i c)).endHolding i c cause) := by
  have one' : (s.removeLive (.holding i c)).OneClaimEach := one
  exact (State.Sheds.of_quiet (.of_sameButDeadlines (s.removeLive_same _))).trans (State.endHolding_sheds one' i c cause)

theorem execLeaseEnd_sheds : ∃ t, execLeaseEnd i c s = .next t ∧ s.Sheds 0 t := by
  refine ⟨_, rfl, ?_⟩
  split
  · exact State.expire_sheds one c i _
  · exact .refl s

theorem execOfferEnd_sheds : ∃ t, execOfferEnd i c s = .next t ∧ s.Sheds 0 t := by
  refine ⟨_, rfl, ?_⟩
  split
  · exact State.expire_sheds one c i _
  · exact .refl s

theorem execWaitEnd_sheds : ∃ t, execWaitEnd i c s = .next t ∧ s.Sheds 0 t := by
  have one' : (s.removeLive (.waiter i c)).OneClaimEach := one
  refine ⟨_, rfl, ?_⟩
  split
  · exact (State.Sheds.of_quiet (.of_sameButDeadlines (s.removeLive_same _))).trans (State.lapseWait_sheds one' i c)
  · exact .refl s

/-- Every command but the four adds no claim. -/
theorem exec_sheds (instr : Instr) (h : changesClaimsOrQuotas instr = false) :
    ∃ t, exec instr s = .next t ∧ s.Sheds 0 t := by
  by_cases quiet : leavesDirectory instr = true
  · obtain ⟨t, ht, hquiet⟩ := exec_quiet instr s quiet
    exact ⟨t, ht, .of_quiet hquiet⟩
  cases instr with
  | powerOn | resetPin | acquire | setClient => cases h
  | millisecondBoundary => exact execMillisecondBoundary_sheds
  | join p => exact execJoin_sheds p
  | accept p => exact execAccept_sheds p
  | decline p => exact execDecline_sheds one p
  | cancel p => exact execCancel_sheds one p
  | renew p => exact execRenew_sheds p
  | release p => exact execRelease_sheds one p
  | downgrade p => exact execDowngrade_sheds p
  | markSound p => exact execMarkSound_sheds p
  | define p => exact execDefine_sheds p
  | amend p => exact execAmend_sheds p
  | retire p => exact execRetire_sheds one p
  | revoke p => exact execRevoke_sheds one p
  | sweepVisit c => exact execSweepVisit_sheds one c
  | leaseWarn i c => exact execLeaseWarn_sheds c i
  | leaseEnd i c => exact execLeaseEnd_sheds one c i
  | offerEnd i c => exact execOfferEnd_sheds one c i
  | waitEnd i c => exact execWaitEnd_sheds one c i
  | allowanceEnd c => exact execAllowanceEnd_sheds c
  | _ => exact absurd rfl quiet

end

/-! ### A claim more (R49) -/

/-- The claim quotas, the pools and the law of the backlog hold after if they held before. -/
structure State.KeepsClaimLaws (s t : State) : Prop where
  quota : s.WithinQuota → t.WithinQuota
  pools : s.PoolsOwing 0 → t.PoolsOwing 0

theorem State.Sheds.keepsClaimLaws {s t : State} (h : s.Sheds 0 t) : s.KeepsClaimLaws t :=
  ⟨fun within c => (h.claims c).trans ((within c).trans (Nat.le_of_eq (h.quotas c).symm)), h.pools⟩

theorem State.KeepsClaimLaws.sheds {s t u : State} (h : s.KeepsClaimLaws t) (k : t.Sheds 0 u) : s.KeepsClaimLaws u :=
  ⟨fun q => k.keepsClaimLaws.quota (h.quota q), fun q => k.pools (h.pools q)⟩

/-- One claim more for client `p`, whose quota has room for it. -/
theorem State.WithinQuota.addClaim {s t : State} {i : SlotId} {p : ClientId} {r r' : Resource} (within : s.WithinQuota)
    (elsewhere : s.SameRecordsBut t i) (clients : t.clients = s.clients) (hr : s.record i = some r)
    (hr' : t.record i = some r') (claims : ∀ c, r'.claimsOf c = r.claimsOf c + if p = c then 1 else 0)
    (room : s.claimCount p < (s.client p).quota) : t.WithinQuota := by
  intro c
  have total := State.total_edit elsewhere fun r => r.claimsOf c
  have count : t.claimCount c = s.claimCount c + if p = c then 1 else 0 := by
    rw [hr, hr', Option.elim_some, Option.elim_some, claims] at total
    simp only [State.claimCount]
    omega
  rw [count, show t.client c = s.client c by simp only [State.client, clients]]
  split
  · rename_i hc
    subst hc
    exact room
  · rw [Nat.add_zero]
    exact within c

theorem Resource.claimsOf_granted (r : Resource) (p : ClientId) (mode : Tenure) (gen : Gen) (c : ClientId) :
    (r.granted p mode gen).claimsOf c = r.claimsOf c + if p = c then 1 else 0 := by
  simp only [Resource.claimsOf, Resource.granted, List.countP_append, List.countP_singleton, beq_iff_eq]
  omega

theorem Resource.claimsOf_queueWith (r : Resource) (w : Waiter) (c : ClientId) :
    Resource.claimsOf { r with queue := r.queueWith w } c = r.claimsOf c + if w.client = c then 1 else 0 := by
  have count := (perm_insertAfterLast (fun v => decide (w.priority ≤ v.priority)) w r.queue).countP_eq
    fun v => v.client == c
  simp only [Resource.claimsOf, Resource.queueWith, count, List.countP_cons, beq_iff_eq]
  omega

/-! ### ACQUIRE (R50, R52) -/

/-- What ACQUIRE leads to, with all that its checks have found: a refusal; a grant, with a holding record to be had; or an
entry, with a waiter entry to be had. -/
theorem State.acquireAt_passing {P : State → Prop} {s : State} {p : ClientId} {i : SlotId} {r : Resource}
    {mode : Tenure} {priority : Fin 4} {wait : Ms} (refused : ∀ a data, P (s.answer p a data))
    (granted : s.AcquirePasses p r mode → s.HasSpace → P (s.grantNow p i r mode))
    (queued : s.AcquirePasses p r mode → (s.total fun r' => r'.queue.length) < 48 →
      P (s.enqueue p i r { client := p, mode := mode, priority := priority } wait)) :
    P (s.acquireAt p i r mode priority wait) := by
  unfold State.acquireAt
  split
  · exact refused _ _
  rename_i hmode
  split
  · exact refused _ _
  rename_i hclaim
  split
  · exact refused _ _
  rename_i hspent
  split
  · exact refused _ _
  rename_i hquota
  have passes : s.AcquirePasses p r mode := by
    have unclaimed : r.holdingOf p = none ∧ r.waiterOf p = none := by simpa using hclaim
    exact ⟨hmode, unclaimed.1, unclaimed.2, by simpa [State.grantSpent] using hspent, Nat.lt_of_not_le hquota⟩
  split
  · rename_i space
    simp only [Bool.and_eq_true] at space
    exact granted passes (State.grantSpace_iff.mp space.2)
  split
  · exact refused _ _
  split
  · exact refused _ _
  · rename_i hfree
    simp only [State.freeWaiters, Config.waiterEntries] at hfree
    exact queued passes (by omega)

theorem State.grantNow_keepsClaimLaws {s : State} {p : ClientId} {i : SlotId} {r : Resource} {mode : Tenure}
    (hr : s.record i = some r) (passes : s.AcquirePasses p r mode) (space : s.HasSpace) :
    s.KeepsClaimLaws (s.grantNow p i r mode) := by
  obtain ⟨-, -, -, -, room⟩ := passes
  obtain ⟨free, empty⟩ := space
  rw [State.grantNow_eq hr p mode]
  generalize hu : (s.setGrant (s.grant + 1)).setRecord i (some (r.granted p mode (s.grant + 1))) = u
  have here : u.record i = some (r.granted p mode (s.grant + 1)) := by rw [← hu, State.record_setRecord_self]
  have elsewhere : s.SameRecordsBut u i := fun j hj => by rw [← hu, State.record_setRecord_ne _ _ _ _ hj]; rfl
  have backlog : u.backlog = [] := by rw [← hu]; exact empty
  have clients : u.clients = s.clients := by rw [← hu]; rfl
  have created : s.KeepsClaimLaws u := by
    refine ⟨fun within => within.addClaim elsewhere clients hr here (r.claimsOf_granted p mode _) room, fun pools => ?_⟩
    have holders := State.total_edit elsewhere fun r => r.holders.length
    have entries := State.total_edit elsewhere fun r => r.queue.length
    simp only [hr, here, Option.elim_some, Resource.granted, List.length_append, List.length_singleton] at holders entries
    have fewer := pools.entries
    exact ⟨by simp only [State.holdingsInUse]; omega, by omega, by simp [backlog], by simp [backlog],
      by simp [backlog]⟩
  exact created.sheds ((State.Sheds.of_quiet (.of_sameButDeadlines (u.armLease_same i p r))).answer p _ _)

theorem State.enqueue_keepsClaimLaws {s : State} {i : SlotId} {r : Resource} {w : Waiter} (wait : Ms)
    (hr : s.record i = some r) (room : s.claimCount w.client < (s.client w.client).quota)
    (free : (s.total fun r' => r'.queue.length) < 48) : s.KeepsClaimLaws (s.enqueue w.client i r w wait) := by
  unfold State.enqueue
  simp only
  generalize hu : s.setRecord i (some { r with queue := r.queueWith w }) = u
  have here : u.record i = some { r with queue := r.queueWith w } := by rw [← hu, State.record_setRecord_self]
  have elsewhere : s.SameRecordsBut u i := fun j hj => by rw [← hu, State.record_setRecord_ne _ _ _ _ hj]
  have backlog : u.backlog = s.backlog := by rw [← hu]; rfl
  have clients : u.clients = s.clients := by rw [← hu]; rfl
  have queued : s.KeepsClaimLaws u := by
    refine ⟨fun within => within.addClaim elsewhere clients hr here (r.claimsOf_queueWith w) room, fun pools => ?_⟩
    have holders := State.total_edit elsewhere fun r => r.holders.length
    have entries := State.total_edit elsewhere fun r => r.queue.length
    have longer : (r.queueWith w).length = r.queue.length + 1 := (perm_insertAfterLast _ w r.queue).length_eq
    simp only [hr, here, Option.elim_some, longer] at holders entries
    have same : u.holdingsInUse = s.holdingsInUse := by
      simp only [State.holdingsInUse]
      omega
    refine ⟨?_, by omega, ?_, fun j hj => ?_, ?_⟩
    · rw [same]
      exact pools.holdings
    · rw [backlog]
      exact pools.nodup
    · by_cases hji : j = i
      · simp [hji, here]
      · rw [elsewhere j hji]
        exact pools.records j (backlog ▸ hj)
    · rw [same, backlog]
      exact pools.full
  have armed : u.Sheds 0 (if wait = 0xFFFF#16 then u else u.arm (.waiter i w.client) .waitEnd wait.toNat) := by
    split
    · exact .refl u
    · exact .of_quiet (.of_sameButDeadlines (u.arm_same _ _ _))
  refine queued.sheds (State.Sheds.answer ?_ _ _ _)
  split
  · exact armed.offerCheck i
  · exact armed

theorem execAcquire_keepsClaimLaws (p : ClientId) (s : State) :
    ∃ t, execAcquire p s = .next t ∧ s.KeepsClaimLaws t := by
  have refused := fun a data => ((State.Sheds.refl s).answer p a data).keepsClaimLaws
  exact ⟨_, rfl, State.requestAtRecord_induction (State.Sheds.refl s).keepsClaimLaws (refused · [])
    fun ps i r _ hr _ => State.acquireAt_passing refused (State.grantNow_keepsClaimLaws hr)
      fun ⟨_, _, _, _, room⟩ free =>
        State.enqueue_keepsClaimLaws (w := { client := p, mode := _, priority := _ }) _ hr room free⟩

/-! ### SET CLIENT (R119) and the part resets -/

theorem execSetClient_keepsClaimLaws (p : ClientId) (s : State) :
    ∃ t, execSetClient p s = .next t ∧ s.KeepsClaimLaws t := by
  have hrefl := State.Sheds.refl s
  refine ⟨_, rfl, State.request_induction hrefl.keepsClaimLaws (fun a => (hrefl.answer p a []).keepsClaimLaws)
    fun ps _ => ?_⟩
  simp only
  split
  · exact (hrefl.answer p _ _).keepsClaimLaws
  rename_i hfits
  generalize clientOf (byteAt ps 0) = c at hfits
  have ended := s.endFreeze_quiet c
  have applied : s.KeepsClaimLaws (s.applySettings c ps) := by
    refine ⟨fun within d => ?_, fun pools => pools.congr ended.slots ended.backlog⟩
    have count : (s.applySettings c ps).claimCount d = s.claimCount d := State.claimCount_of_slots ended.slots d
    rw [count, State.applySettings, State.client_setClient]
    split
    · rename_i hd
      subst hd
      exact Nat.le_of_not_lt hfits
    · rw [(ended.settings d).1]
      exact within d
  exact applied.sheds ((State.Sheds.of_quiet (State.evaluateFreeze_quiet _ c)).answer p _ _)

/-- An empty directory meets the laws. -/
theorem State.keepsClaimLaws_of_empty {s t : State} (h : ∀ i, t.record i = none) (backlog : t.backlog = []) :
    s.KeepsClaimLaws t :=
  ⟨fun _ c => by rw [State.claimCount, State.total_of_empty h]; exact Nat.zero_le _,
    fun _ => State.poolsOwing_of_empty h backlog⟩

/-! ### Every command -/

theorem exec_keepsClaimLaws (c : Instr) {s : State} (one : s.OneClaimEach) :
    ∃ t, exec c s = .next t ∧ s.KeepsClaimLaws t := by
  by_cases hc : changesClaimsOrQuotas c = true
  · cases c with
    | powerOn sel rsn hld =>
      exact ⟨_, rfl, State.keepsClaimLaws_of_empty (fun i => by simp [State.record, State.powerOn]) rfl⟩
    | resetPin => exact ⟨_, rfl, State.keepsClaimLaws_of_empty (fun i => by simp [State.record]) rfl⟩
    | acquire p => exact execAcquire_keepsClaimLaws p s
    | setClient p => exact execSetClient_keepsClaimLaws p s
    | _ => cases hc
  · obtain ⟨t, ht, sheds⟩ := exec_sheds one c (by simpa using hc)
    exact ⟨t, ht, sheds.keepsClaimLaws⟩

/-- Every command keeps one claim for each resource and client: an edit of a record adds one only where there is none. -/
theorem exec_oneClaimEach (c : Instr) (s : State) (one : s.OneClaimEach) :
    ∃ t, exec c s = .next t ∧ t.OneClaimEach := by
  refine exec_keeps_directory (P := State.OneClaimEach) (fun t empty i r c hr => ?_) (fun s t slots _ one i r c hr => ?_)
    (fun s t change one i r c => ?_) c s one
  · rw [empty] at hr
    cases hr
  · exact one i r c (by simpa only [State.record, slots] using hr)
  · exact change.keeps_records (P := fun r => r.claimsOf c ≤ 1) (fun e => e.claims c) (fun i r => one i r c) i r

/-- Settles O53: an edit adds a claim only where there is none; and only ACQUIRE adds one, where the quota has room. -/
theorem stepKeepsTheClaimLaws : Obligations.StepKeepsTheClaimLaws := by
  intro s t one quota hstep
  refine ⟨step_leads (P := State.OneClaimEach) (fun _ _ h => h) exec_oneClaimEach (fun _ => id) one hstep, ?_⟩
  refine step_leads (P := fun s => s.OneClaimEach ∧ s.WithinQuota) (fun _ _ h => h) (fun c s h => ?_) (fun _ h => h.2)
    ⟨one, quota⟩ hstep
  obtain ⟨u, hu, keeps⟩ := exec_keepsClaimLaws c h.1
  exact ⟨u, hu, keeps.quota h.2⟩

/-- Settles O55: a holding record is taken only where one is free and the backlog lets it be, or from one just given back,
and an entry only where one is free. -/
theorem stepKeepsPoolsAndBacklog : Obligations.StepKeepsPoolsAndBacklog := by
  intro s t one within backlog hstep
  refine t.poolsOwing_zero.mp (step_leads (P := fun s => s.OneClaimEach ∧ s.PoolsOwing 0) (fun s _ h => ⟨h.1, ?_⟩)
    (fun c s h => ?_) (fun _ h => h.2) ⟨one, s.poolsOwing_zero.mpr ⟨within, backlog⟩⟩ hstep)
  · exact h.2.congr rfl rfl
  · obtain ⟨u, hu, keeps⟩ := exec_keepsClaimLaws c h.1
    exact ⟨u, hu, keeps.pools h.2⟩

end Sys2Proof.Machine
end

section
/-! PROOF. What ACQUIRE does when it does not grant at once: its refusals in their order (O25); and ACCEPT (O29). -/

namespace Sys2Proof.Machine

/-! ### ACQUIRE's refusals (R49, R51, R52) -/

/-- An ACQUIRE that passes stages 1 to 7 comes to its own checks, with the priority clamped (R48). -/
theorem exec_acquire_reaches {p : ClientId} {s : State} {ps : List Byte} {i : SlotId} {r : Resource}
    (hp : s.Reaches p .acquire ps i r) : exec (.acquire p) s
      = .next (s.acquireAt p i r (modeAsked ps) (s.priorityUsed p ps) (wordAt ps 4)) := by
  obtain ⟨-, -, -, hpriority⟩ := hp.ranges
  refine congrArg _ ((State.request_reaches hp _).trans ?_)
  rw [clampPriority_eq hpriority]
  rfl

theorem exec_acquire_refused {p : ClientId} {s : State} {ps : List Byte} {i : SlotId} {r : Resource}
    (hp : s.Reaches p .acquire ps i r) {a : Answer} {data : List Byte}
    (refused : s.acquireAt p i r (modeAsked ps) (s.priorityUsed p ps) (wordAt ps 4) = s.answer p a data) :
    ∃ t, exec (.acquire p) s = .next t ∧ s.OnlyAnswered t p a data :=
  ⟨s.answer p a data, refused ▸ exec_acquire_reaches hp, s.answer_onlyAnswered p a data⟩

section
variable {s : State} {p : ClientId} {r : Resource} {mode : Tenure} {priority : Fin 4}

theorem State.unavailableReason_ahead (ahead : ¬ s.NoneAhead r priority) :
    s.unavailableReason r mode priority = 0x02#8 :=
  if_pos (by simpa using mt State.standsAhead_eq_false.mp ahead)

theorem State.unavailableReason_incompatible (noneAhead : s.NoneAhead r priority) (admits : ¬ r.Admits mode) :
    s.unavailableReason r mode priority = 0x01#8 := by
  rw [State.unavailableReason, State.standsAhead_eq_false.mpr noneAhead,
    Bool.eq_false_iff.mpr (mt (r.compatible_iff mode).mp admits)]
  rfl

theorem State.unavailableReason_full (noneAhead : s.NoneAhead r priority) (admits : r.Admits mode) :
    s.unavailableReason r mode priority = 0x03#8 := by
  rw [State.unavailableReason, State.standsAhead_eq_false.mpr noneAhead, (r.compatible_iff mode).mpr admits]
  rfl

theorem State.freeWaiters_eq_zero : s.freeWaiters = 0 ↔ 48 ≤ s.total fun r' => r'.queue.length := by
  simp only [State.freeWaiters, Config.waiterEntries]
  omega

/-- ACQUIRE's own four checks passed, and no immediate grant: the wait limit and the pool of entries decide (R51, R52). -/
theorem State.acquireAt_waits (i : SlotId) (wait : Ms) (passes : s.AcquirePasses p r mode)
    (notNow : ¬ (s.NoneAhead r priority ∧ r.Admits mode ∧ s.HasSpace)) : s.acquireAt p i r mode priority wait
      = if wait = 0 then s.answer p .unavailable [s.unavailableReason r mode priority]
        else if s.freeWaiters = 0 then s.answer p .noWaitSpace []
        else s.enqueue p i r { client := p, mode := mode, priority := priority } wait := by
  obtain ⟨hmode, hholding, hwaiter, hgrant, hquota⟩ := passes
  have noGrant : (!s.standsAhead r priority && r.compatible mode && s.grantSpace) = false := by
    rw [Bool.eq_false_iff]
    simpa [State.standsAhead_eq_false, r.compatible_iff, State.grantSpace_iff] using notNow
  simp [State.acquireAt, hmode, hholding, hwaiter, State.grantSpent, hgrant, Nat.not_le.mpr hquota, noGrant]

end

/-- Settles O25: each refusal is the first of ACQUIRE's checks that fails. -/
theorem acquireRefusals : Obligations.AcquireRefusals := by
  intro p s ps i r hp mode priority shareRefused
  refine ⟨fun shared => ?_, fun unshared claimed => ?_, fun unshared unclaimed spent => ?_,
    fun unshared unclaimed unspent quota => ?_, fun passes nowait => ?_, fun passes waits notNow full => ?_⟩
  · exact exec_acquire_refused hp (if_pos shared)
  · have claim : ((r.holdingOf p).isSome || (r.waiterOf p).isSome) = true := by
      simpa [Resource.claimsOf_eq_zero, Option.isSome_iff_ne_none, imp_iff_not_or] using claimed
    exact exec_acquire_refused hp ((if_neg unshared).trans (if_pos claim))
  · obtain ⟨holding, waiter⟩ := Resource.claimsOf_eq_zero.mp unclaimed
    exact exec_acquire_refused hp ((if_neg unshared).trans (by simp [holding, waiter, State.grantSpent, spent]))
  · obtain ⟨holding, waiter⟩ := Resource.claimsOf_eq_zero.mp unclaimed
    exact exec_acquire_refused hp
      ((if_neg unshared).trans (by simp [holding, waiter, State.grantSpent, unspent, quota]))
  · have unavailable := fun notNow => (State.acquireAt_waits i (wordAt ps 4) (priority := priority) passes notNow).trans
      (if_pos nowait)
    refine ⟨fun ahead => ?_, fun noneAhead incompatible => ?_, fun noneAhead admits full => ?_⟩
    · rw [← State.unavailableReason_ahead (mode := mode) ahead]
      exact exec_acquire_refused hp (unavailable fun now => ahead now.1)
    · rw [← State.unavailableReason_incompatible noneAhead incompatible]
      exact exec_acquire_refused hp (unavailable fun now => incompatible now.2.1)
    · rw [← State.unavailableReason_full noneAhead admits]
      exact exec_acquire_refused hp (unavailable fun now => full now.2.2)
  · exact exec_acquire_refused hp (((State.acquireAt_waits i _ passes notNow).trans (if_neg waits)).trans
      (if_pos (State.freeWaiters_eq_zero.mpr full)))

/-! ### ACCEPT (R60, R61) -/

/-- The generation checks pass only with an OFFERED holding of that generation (R60). -/
theorem Resource.offerRefusal_eq_none {r : Resource} {c : ClientId} {gen : Gen} :
    r.offerRefusal c gen = none ↔ ∃ h, r.holdingOf c = some h ∧ h.state = .offered ∧ h.gen = gen := by
  unfold Resource.offerRefusal
  cases r.holdingOf c with
  | none => simp
  | some h => cases hs : h.state <;> simp [hs]

/-- The record after the client's offer `h` has been accepted (R61). -/
def Resource.accepted (r : Resource) (c : ClientId) (h : Holding) : Resource :=
  { r with holders := r.holders.map fun g => if g.client = c then { h with state := .held, warned := false } else g }

section
variable {s : State} {i : SlotId} {r : Resource} {c : ClientId} {h : Holding} (one : r.claimsOf c ≤ 1)
  (hr : s.record i = some r) (hh : r.holdingOf c = some h)
include one hr hh

/-- An acceptance is a record set, a lease armed, a notice set cleared of the OFFER, and an answer (R61). -/
theorem State.acceptAt_eq : s.acceptAt c i r h
    = (((s.setRecord i (some (r.accepted c h))).armLease i c r).setNoticeSet c
        ((s.noticeSet c).without (Notice.isOfferFor r.key))).answer c .granted
        (grantedData h.gen r.leaseTerm h.suspect) := by
  have hmod : (s.modifyHolding i c fun g => { g with state := .held, warned := false })
      = s.setRecord i (some (r.accepted c h)) := State.modifyHolding_eq one hr hh _
  have hnotices := ((s.setRecord i (some (r.accepted c h))).armLease_same i c r).noticeSet c
  rw [State.acceptAt, hmod, State.clearOffer, State.clearNotices, hnotices]
  rfl

end

/-- Settles O29: the offer, alone its client's, is altered, a lease armed and its OFFER cleared. -/
theorem acceptTakesTheOffer : Obligations.AcceptTakesTheOffer := by
  intro p s ps i r h hp one hh offered gen
  have hr := hp.record
  have passes : r.offerRefusal p (longAt ps 2) = none := Resource.offerRefusal_eq_none.mpr ⟨h, hh, offered, gen⟩
  have same := (s.setRecord i (some (r.accepted p h))).armLease_same i p r
  obtain ⟨record, lease, others, arms, time, elsewhere, backlog, clients, freezes⟩ :=
    (State.Leases.of_set s s.grant i p r (r.accepted p h)
      (State.setNoticeSet_same _ p ((s.noticeSet p).without (Notice.isOfferFor r.key)))).answer p .granted
        (grantedData h.gen r.leaseTerm h.suspect)
  refine ⟨s.acceptAt p i r h, ?_, ?_⟩
  · refine congrArg _ ((State.request_reaches hp _).trans ?_)
    simp only [passes, hh]
  · rw [State.acceptAt_eq (one i r p hr) hr hh]
    refine ⟨s.answer_answered _ p _ _ same.ports, record, lease, others, arms, ?_, fun c hc => ?_, time, elsewhere,
      backlog, same.grant, clients, freezes⟩
    · exact State.noticeSet_setNoticeSet_self _ p _
    · exact (State.noticeSet_setNoticeSet_ne _ p _ c hc).trans (same.noticeSet c)

end Sys2Proof.Machine
end

section
/-! PROOF. What ACQUIRE does when it queues (O27): the entry's place, its WAIT-END, and what the offer check at the head,
which finds no holding record to be had, makes of the Offer Backlog. -/

namespace Sys2Proof.Machine

/-! ### The place in the queue (R46) -/

/-- A new entry stands behind the last entry of no lower priority. -/
theorem Resource.queueWith_split (r : Resource) (w : Waiter) :
    ∃ before after, r.queue = before ++ after ∧ r.queueWith w = before ++ w :: after
      ∧ (∀ v, before.getLast? = some v → w.priority ≤ v.priority) ∧ ∀ v ∈ after, v.priority < w.priority := by
  obtain ⟨before, after, split, queue, lower, last⟩ :=
    insertAfterLast_split (fun v => decide (w.priority ≤ v.priority)) w r.queue
  exact ⟨before, after, split, queue, fun v hv => of_decide_eq_true (last v hv),
    fun v hv => Fin.not_le.mp (of_decide_eq_false (lower v hv))⟩

/-! ### The entry made (R52, R76, R87) -/

/-- The slot's record is set, with the client's new entry, and its WAIT-END armed unless the wait is unbounded (R52). -/
def State.queued (s : State) (i : SlotId) (r' : Resource) (c : ClientId) (wait : Ms) : State :=
  if wait = 0xFFFF#16 then s.setRecord i (some r')
  else (s.setRecord i (some r')).arm (.waiter i c) .waitEnd wait.toNat

/-- A new record stands in the slot and the WAIT-END of its client's entry is armed unless the wait is unbounded; besides,
the backlog and the ports may change. -/
structure State.Queues (s t : State) (i : SlotId) (r' : Resource) (c : ClientId) (wait : Ms) : Prop where
  record : t.record i = some r'
  lapse : wait ≠ 65535#16 → t.deadlineOf (.waiter i c) = some (.waitEnd, wait.toNat, s.isFrozen c)
  arms : wait ≠ 65535#16 → s.Arms t (.waiter i c) .waitEnd wait.toNat
  unbounded : wait = 65535#16 → t.deadlines = s.deadlines ∧ t.holdUnits = s.holdUnits
  others : s.SameDeadlinesBut t fun o => o = .waiter i c
  grant : t.grant = s.grant
  time : s.SameTime t
  elsewhere : s.SameRecordsBut t i
  clients : t.clients = s.clients
  notices : t.notices = s.notices
  freezes : s.SameFreezes t

section
variable (s : State) (i : SlotId) (r' : Resource) (c : ClientId) (wait : Ms)

/-- The entry's WAIT-END apart, only the slot's record has changed. -/
theorem State.queued_same : (s.setRecord i (some r')).SameButDeadlines (s.queued i r' c wait) := by
  unfold State.queued
  split
  · exact .refl _
  · exact State.arm_same _ _ _ _

theorem State.record_queued_self : (s.queued i r' c wait).record i = some r' := by
  rw [(s.queued_same i r' c wait).record, State.record_setRecord_self]

theorem State.queued_elsewhere : s.SameRecordsBut (s.queued i r' c wait) i := fun j hj => by
  rw [(s.queued_same i r' c wait).record, State.record_setRecord_ne _ _ _ _ hj]

theorem State.queued_queues : s.Queues (s.queued i r' c wait) i r' c wait := by
  have same := s.queued_same i r' c wait
  have armed : wait ≠ 65535#16 → s.queued i r' c wait
      = (s.setRecord i (some r')).arm (.waiter i c) .waitEnd wait.toNat := fun bounded => if_neg bounded
  refine ⟨s.record_queued_self i r' c wait, fun bounded => ?_, fun bounded => ?_, fun unbounded => ?_, fun o ho => ?_,
    same.grant, ⟨same.pending, same.startup, same.clock⟩, s.queued_elsewhere i r' c wait, same.clients, same.notices,
    fun d => ⟨same.level d, same.freezeStart d⟩⟩
  · rw [armed bounded, State.deadlineOf_arm_self _ _ _ _ (Nat.lt_of_lt_of_le wait.isLt (by norm_num))]
    rfl
  · rw [armed bounded]
    exact ((s.setRecord i (some r')).arm_arms _ _ _).congr rfl rfl rfl rfl rfl rfl
  · rw [State.queued, if_pos unbounded]
    exact ⟨rfl, rfl⟩
  · unfold State.queued
    split
    · rfl
    · exact State.deadlineOf_arm_ne _ _ _ _ _ ho

end

/-- The backlog and a reply are apart from all that `Queues` speaks of. -/
theorem State.Queues.backlog_answer {s t : State} {i : SlotId} {r' : Resource} {c : ClientId} {wait : Ms}
    (h : s.Queues t i r' c wait) (l : List SlotId) (p : ClientId) (a : Answer) (data : List Byte) :
    s.Queues ((t.setBacklog l).answer p a data) i r' c wait :=
  ⟨h.record, h.lapse, h.arms, h.unbounded, h.others, h.grant, h.time, h.elsewhere, h.clients, h.notices, h.freezes⟩

/-- An entry is made by setting the record and arming the WAIT-END; the offer check follows where it stands at the head,
and the reply gives its position (R46, R52). -/
theorem State.enqueue_eq (s : State) (i : SlotId) {r : Resource} {w : Waiter} (wait : Ms) {before after : List Waiter}
    (queue : r.queueWith w = before ++ w :: after) (new : ∀ v ∈ before, v.client ≠ w.client) :
    s.enqueue w.client i r w wait
      = (if before = [] then (s.queued i { r with queue := before ++ w :: after } w.client wait).offerCheck i
          else s.queued i { r with queue := before ++ w :: after } w.client wait).answer w.client .queued
        [BitVec.ofNat 8 (before.length + 1), BitVec.ofNat 8 w.priority.val] := by
  obtain ⟨-, position⟩ := waiterOf_eq_some (r := { r with queue := before ++ w :: after }) rfl rfl new
  simp only [State.enqueue, queue, position, Nat.add_eq_right, List.length_eq_zero_iff]
  rfl

/-! ### The offer check at the head (R11) -/

section
variable {t : State} {i : SlotId} {r : Resource} {w : Waiter} {rest : List Waiter} (hr : t.record i = some r)
  (head : r.queue = w :: rest) (present : (t.client w.client).session ≠ .teardown)
include hr head present

/-- No offer is due to the head: the resource is not in the backlog after (R66). -/
theorem State.offerCheck_incompatible (admits : ¬ r.Admits w.mode) : t.offerCheck i = t.leaveBacklog i := by
  have notDue : t.offerDue i w = false := by
    simp [State.offerDue, hr, Bool.eq_false_iff.mpr (mt (r.compatible_iff w.mode).mp admits)]
  simp [State.offerCheck, State.offerCheckFrom, hr, head, State.offerLoop, present, notDue]

/-- An offer is due to the head and no holding record is to be had: the resource is in the backlog after (R65). -/
theorem State.offerCheck_full (admits : r.Admits w.mode) (unspent : t.grant ≠ 0xFFFFFFFF#32)
    (full : t.freeHoldings = 0) : t.offerCheck i = t.joinBacklog i := by
  have due : t.offerDue i w = true := by
    simp [State.offerDue, State.grantSpent, unspent, hr, (r.compatible_iff w.mode).mpr admits]
  have noRecord : t.canObtain i .pool = false := by simp [State.canObtain, full]
  simp [State.offerCheck, State.offerCheckFrom, hr, head, State.offerLoop, present, due, noRecord]

end

theorem State.setBacklog_self {s : State} {l : List SlotId} (h : s.backlog = l) : s.setBacklog l = s := by
  rw [← h]
  rfl

theorem State.joinBacklog_eq (s : State) (i : SlotId) :
    s.joinBacklog i = s.setBacklog (if i ∈ s.backlog then s.backlog else s.backlog ++ [i]) := by
  unfold State.joinBacklog
  split <;> rename_i member
  · rw [if_pos (by simpa [State.inBacklog] using member), State.setBacklog_self rfl]
  · rw [if_neg (by simpa [State.inBacklog] using member)]

/-- With the law of the backlog, no holding record is free where an immediate grant has no space (R50, R69). -/
theorem State.BacklogLaw.full {s : State} (h : s.BacklogLaw) (noSpace : ¬ s.HasSpace) : s.freeHoldings = 0 := by
  obtain ⟨-, -, full⟩ := h
  by_cases empty : s.backlog = []
  · have inUse : ¬ s.holdingsInUse < 96 := fun free => noSpace ⟨free, empty⟩
    exact s.freeHoldings_eq_zero.mpr (Nat.not_lt.mp inUse)
  · exact full empty

/-- An entry more takes no holding record. -/
theorem State.freeHoldings_queued {s : State} {i : SlotId} {r r' : Resource} (hr : s.record i = some r)
    (holders : r'.holders = r.holders) (c : ClientId) (wait : Ms) :
    (s.queued i r' c wait).freeHoldings = s.freeHoldings := by
  have total := State.total_edit (s.queued_elsewhere i r' c wait) fun q => q.holders.length
  rw [State.record_queued_self, hr, Option.elim_some, Option.elim_some, holders] at total
  rw [State.freeHoldings, State.freeHoldings, Nat.add_right_cancel total]

/-- What the new entry makes of the backlog: nothing behind the head; at the head, its resource is in the backlog after, or
not, as an offer is owed to it (R65, R66). -/
theorem State.queued_backlog {s : State} {i : SlotId} {r : Resource} {w : Waiter} {before after : List Waiter} (wait : Ms)
    (hr : s.record i = some r) (present : (s.client w.client).session ≠ .teardown) (unspent : s.grant ≠ 0xFFFFFFFF#32)
    (full : before = [] → r.Admits w.mode → s.freeHoldings = 0) :
    ∃ l, (if before = [] then (s.queued i { r with queue := before ++ w :: after } w.client wait).offerCheck i
          else s.queued i { r with queue := before ++ w :: after } w.client wait)
        = (s.queued i { r with queue := before ++ w :: after } w.client wait).setBacklog l
      ∧ (before ≠ [] → l = s.backlog)
      ∧ (before = [] → r.Admits w.mode → l = if i ∈ s.backlog then s.backlog else s.backlog ++ [i])
      ∧ (before = [] → ¬ r.Admits w.mode → l = s.backlog.filter fun j => j != i) := by
  have same := s.queued_same i { r with queue := before ++ w :: after } w.client wait
  have here := s.record_queued_self i { r with queue := before ++ w :: after } w.client wait
  have free := State.freeHoldings_queued (r' := { r with queue := before ++ w :: after }) hr rfl w.client wait
  generalize s.queued i { r with queue := before ++ w :: after } w.client wait = t at same here free
  have backlog : t.backlog = s.backlog := same.backlog
  have present' : (t.client w.client).session ≠ .teardown := by rwa [same.client]
  by_cases first : before = []
  · subst first
    rw [if_pos rfl]
    by_cases admits : r.Admits w.mode
    · refine ⟨if i ∈ s.backlog then s.backlog else s.backlog ++ [i], ?_, absurd rfl, fun _ _ => rfl,
        fun _ incompatible => absurd admits incompatible⟩
      rw [State.offerCheck_full here rfl present' admits (same.grant ▸ unspent) (free.trans (full rfl admits)),
        State.joinBacklog_eq, backlog]
    · refine ⟨s.backlog.filter fun j => j != i, ?_, absurd rfl, fun _ compatible => absurd compatible admits,
        fun _ _ => rfl⟩
      rw [State.offerCheck_incompatible here rfl present' admits, State.leaveBacklog, backlog]
  · rw [if_neg first]
    exact ⟨s.backlog, (State.setBacklog_self backlog).symm, fun _ => rfl, fun h => absurd h first,
      fun h => absurd h first⟩

/-- Settles O27: no immediate grant leads to the entry, whose offer check at the head finds no record to be had. -/
theorem acquireQueues : Obligations.AcquireQueues := by
  intro p s ps i r hp mode priority wait passes notNow waits free law
  have hr := hp.record
  have ⟨⟨_, session, _⟩, _⟩ := hp
  have ⟨_, _, unclaimed, unspent, _⟩ := passes
  obtain ⟨before, after, split, queue, last, lower⟩ :=
    r.queueWith_split { client := p, mode := mode, priority := priority }
  have present : (s.client p).session ≠ .teardown := fun teardown => by
    rw [State.SessionPasses, teardown] at session
    cases session
  have new : ∀ v ∈ before, v.client ≠ p := fun v hv => by
    simpa using List.find?_eq_none.mp unclaimed v (split ▸ List.mem_append_left _ hv)
  have full : before = [] → r.Admits mode → s.freeHoldings = 0 := fun first admits => by
    subst first
    exact law.full fun space => notNow ⟨fun v hv _ => lower v (by simpa [split] using hv), admits, space⟩
  obtain ⟨l, checked, behind, owed, notOwed⟩ := State.queued_backlog
    (w := { client := p, mode := mode, priority := priority }) (after := after) wait hr present unspent full
  have enqueued := s.enqueue_eq i wait queue new
  rw [checked] at enqueued
  have entryFree : ¬ s.freeWaiters = 0 := fun used => Nat.not_le.mpr free (State.freeWaiters_eq_zero.mp used)
  have acquired := (exec_acquire_reaches hp).trans (congrArg _
    (((State.acquireAt_waits i wait passes notNow).trans (if_neg waits)).trans ((if_neg entryFree).trans enqueued)))
  obtain ⟨record, lapse, arms, unbounded, others, grant, time, elsewhere, clients, notices, freezes⟩ :=
    (s.queued_queues i { r with queue := before ++ ⟨p, mode, priority⟩ :: after } p wait).backlog_answer l p .queued
      [BitVec.ofNat 8 (before.length + 1), BitVec.ofNat 8 priority.val]
  exact ⟨_, before, after, acquired, split, last, lower, record,
    s.answer_answered _ p _ _ (s.queued_same i _ p wait).ports, lapse, arms, unbounded, others, behind, owed, notOwed,
    grant, time, elsewhere, clients, notices, freezes⟩

end Sys2Proof.Machine
end

section
/-! SUPPORT. The order of the Deadline List and the range of what is stored (R73, R76, R79) under every operation on
deadlines, and what an event at a resource leaves: the time, the ports, the terms of the records and that order. -/

namespace Sys2Proof.Machine

/-! ### Operations on deadlines -/

namespace State.DeadlinesOrdered

/-- The clock, the list and the stored deadlines are all that is read. -/
theorem congr {s t : State} (h : s.DeadlinesOrdered) (clock : t.clock = s.clock)
    (deadlines : t.deadlines = s.deadlines) (stored : ∀ c, (t.holdUnit c).stored = (s.holdUnit c).stored) :
    t.DeadlinesOrdered := by
  simpa only [State.DeadlinesOrdered, State.distance, clock, deadlines, stored] using h

/-- Fewer deadlines, live and stored. -/
theorem sublist {s t : State} (h : s.DeadlinesOrdered) (clock : t.clock = s.clock)
    (live : t.deadlines.Sublist s.deadlines) (stored : ∀ c, (t.holdUnit c).stored ⊆ (s.holdUnit c).stored) :
    t.DeadlinesOrdered := by
  obtain ⟨ordered, near, range⟩ := h
  simp only [State.DeadlinesOrdered, State.distance, clock] at ordered near ⊢
  exact ⟨ordered.sublist live, fun d hd => near d (live.subset hd), fun c d hd => range c d (stored c hd)⟩

/-- A deadline inserted takes its place in the order (R76). -/
theorem insertDeadline {s : State} (h : s.DeadlinesOrdered) {d : Deadline} (ahead : s.distance d.due < 2 ^ 31) :
    (s.insertDeadline d).DeadlinesOrdered := by
  obtain ⟨ordered, near, range⟩ := h
  refine ⟨pairwise_insertAfterLast (fun e : Deadline => s.distance e.due) d s.deadlines ordered, fun e he => ?_, range⟩
  rcases mem_insertAfterLast.mp he with rfl | he
  · exact ahead
  · exact near e he

/-- A deadline due after a duration in range. -/
theorem insertAfter {s : State} (h : s.DeadlinesOrdered) (o : Owner) (k : DeadlineKind) {n : Nat} (range : n < 2 ^ 31) :
    (s.insertDeadline { owner := o, kind := k, due := s.clock + BitVec.ofNat 32 n }).DeadlinesOrdered := by
  refine h.insertDeadline ?_
  rw [s.distance_add n (Nat.lt_trans range (by norm_num))]
  exact range

/-- What a client has stored changes, all of it in range. -/
theorem setStored {s t : State} {c : ClientId} (h : s.DeadlinesOrdered) (clock : t.clock = s.clock)
    (deadlines : t.deadlines = s.deadlines) (units : s.SameUnitsBut t c)
    (range : ∀ d ∈ (t.holdUnit c).stored, 1 ≤ d.remaining ∧ d.remaining < 2 ^ 31) : t.DeadlinesOrdered := by
  obtain ⟨ordered, near, range'⟩ := h
  refine ⟨by simpa only [State.distance, clock, deadlines] using ordered,
    by simpa only [State.distance, clock, deadlines] using near, fun d => ?_⟩
  by_cases hd : d = c
  · subst hd
    exact range
  · rw [units d hd]
    exact range' d

theorem store {s : State} (h : s.DeadlinesOrdered) {d : StoredDeadline} (range : 1 ≤ d.remaining ∧ d.remaining < 2 ^ 31) :
    (s.store d).DeadlinesOrdered := by
  refine h.setStored (c := d.owner.clientId) rfl rfl (fun c hc => ?_) fun e he => ?_
  · rw [State.DeadlinesApart.store_holdUnit, if_neg hc]
  · rw [State.DeadlinesApart.store_holdUnit, if_pos rfl] at he
    rcases List.mem_append.mp he with he | he
    · exact h.2.2 _ e he
    · rwa [List.mem_singleton.mp he]

theorem removeLive {s : State} (h : s.DeadlinesOrdered) (o : Owner) : (s.removeLive o).DeadlinesOrdered :=
  h.sublist rfl List.filter_sublist fun _ => List.Subset.refl _

theorem disarm {s : State} (h : s.DeadlinesOrdered) (o : Owner) : (s.disarm o).DeadlinesOrdered := by
  refine h.sublist (s.disarm_same o).clock List.filter_sublist fun c => ?_
  rw [s.stored_disarm]
  split
  · exact List.filter_subset_self _
  · exact List.Subset.refl _

/-- A claim's deadline armed: inserted, or stored with its duration (R77, R94). -/
theorem arm {s : State} (h : s.DeadlinesOrdered) (o : Owner) (k : DeadlineKind) {n : Nat} (range : 1 ≤ n ∧ n < 2 ^ 31) :
    (s.arm o k n).DeadlinesOrdered := by
  unfold State.arm
  simp only
  split
  · exact (h.disarm o).store range
  · rw [← (s.disarm_same o).clock]
    exact (h.disarm o).insertAfter o k range.2

/-- A lease on legal terms lasts 1 ms at least (R1, R83). -/
theorem armLease {s : State} (h : s.DeadlinesOrdered) (i : SlotId) (c : ClientId) {r : Resource} (legal : r.TermsLegal) :
    (s.armLease i c r).DeadlinesOrdered := by
  obtain ⟨-, term, margin, -⟩ := legal
  have word := r.leaseTerm.isLt
  unfold State.armLease
  split
  · exact h.arm _ _ (by omega)
  · exact h.arm _ _ (by omega)

/-! ### The freeze (R92, R95) -/

/-- What was stored in range runs again in order (R79). -/
theorem foldl_putBack {s : State} (h : s.DeadlinesOrdered) (l : List StoredDeadline)
    (range : ∀ d ∈ l, d.remaining < 2 ^ 31) : (l.foldl State.putBack s).DeadlinesOrdered := by
  induction l generalizing s with
  | nil => exact h
  | cons d l ih =>
    exact ih (h.insertAfter d.owner d.kind (range d (by simp))) fun e he => range e (List.mem_cons_of_mem _ he)

theorem thaw {s : State} (h : s.DeadlinesOrdered) (c : ClientId) (next : Freeze) : (s.thaw c next).DeadlinesOrdered := by
  refine State.DeadlinesOrdered.foldl_putBack ?_ _ fun d hd => (h.2.2 c d hd).2
  refine (h.removeLive (.client c)).setStored (c := c) rfl rfl (fun d hd => ?_) fun d hd => ?_
  · simp [hd]
  · simp at hd

theorem endFreeze {s : State} (h : s.DeadlinesOrdered) (c : ClientId) : (s.endFreeze c).DeadlinesOrdered := by
  unfold State.endFreeze
  split
  · exact h.thaw c _
  all_goals exact h.congr rfl rfl fun _ => rfl

/-- What is taken out of the list is stored with 1 ms at least (R79), and the ALLOWANCE-END is armed for what is left of
the allowance (R92). -/
theorem enterFreeze {s : State} (h : s.DeadlinesOrdered) {c : ClientId} (range : (s.client c).holdAllowance ≤ 600) :
    (s.enterFreeze c).DeadlinesOrdered := by
  have left : (s.client c).allowanceMs - (s.client c).holdUsed < 2 ^ 31 := by
    unfold Client.allowanceMs
    omega
  refine State.DeadlinesOrdered.insertAfter (s := (((s.setClient c _).setHoldUnit c _).setDeadlines _)) ?_ _ _ left
  refine (h.sublist (t := s.setDeadlines (s.deadlines.filter fun d => !d.owner.isClaimOf c)) rfl List.filter_sublist
    fun _ => List.Subset.refl _).setStored (c := c) rfl rfl (fun d hd => ?_) fun d hd => ?_
  · simp [hd]
  · simp only [State.holdUnit_setDeadlines, State.holdUnit_setHoldUnit_self] at hd
    rcases List.mem_append.mp hd with hd | hd
    · exact h.2.2 c d hd
    · obtain ⟨e, he, rfl⟩ := List.mem_map.mp hd
      have near := h.2.1 e (List.mem_filter.mp he).1
      simp only [State.takenOut]
      omega

theorem evaluateFreeze {s : State} (h : s.DeadlinesOrdered) {c : ClientId} (range : (s.client c).holdAllowance ≤ 600) :
    (s.evaluateFreeze c).DeadlinesOrdered := by
  unfold State.evaluateFreeze
  split
  · exact h.enterFreeze range
  · exact h

end State.DeadlinesOrdered

end Sys2Proof.Machine
end

section
/-! SUPPORT. What an event at a resource leaves: the time, the ports, the terms of the records, and the order of the Deadline
List (R73, R76). -/

namespace Sys2Proof.Machine

/-- The terms of every record are in range (R1, R13). -/
def State.TermsLegal (s : State) : Prop := ∀ i r, s.record i = some r → r.TermsLegal

/-- No time passes, no port and no record's terms change, and deadlines in order stay in order. -/
structure State.KeepsOrder (s t : State) : Prop extends s.KeepsTerms t where
  time : s.SameTime t
  ports : t.ports = s.ports
  order : s.TermsLegal → s.DeadlinesOrdered → t.DeadlinesOrdered

namespace State.KeepsOrder

theorem trans {s t u : State} (h : s.KeepsOrder t) (k : t.KeepsOrder u) : s.KeepsOrder u where
  toKeepsTerms := h.toKeepsTerms.trans k.toKeepsTerms
  time := ⟨k.time.1.trans h.time.1, k.time.2.1.trans h.time.2.1, k.time.2.2.trans h.time.2.2⟩
  ports := k.ports.trans h.ports
  order legal ordered := by
    refine k.order (fun i r' hr' => ?_) (h.order legal ordered)
    obtain ⟨r, hr, same⟩ := h.terms i r' hr'
    exact same.termsLegal (legal i r hr)

/-- Where no deadline changes, the order stays. -/
theorem of_same {s t : State} (terms : s.KeepsTerms t) (time : s.SameTime t) (ports : t.ports = s.ports)
    (deadlines : t.deadlines = s.deadlines) (units : t.holdUnits = s.holdUnits) : s.KeepsOrder t :=
  ⟨terms, time, ports, fun _ ordered => ordered.congr time.2.2 deadlines fun c => by simp only [State.holdUnit, units]⟩

theorem refl (s : State) : s.KeepsOrder s := of_same (.refl s) ⟨rfl, rfl, rfl⟩ rfl rfl rfl

theorem notices {s t u : State} (h : s.KeepsOrder t) (k : t.SameButNotices u) : s.KeepsOrder u :=
  h.trans (of_same (.of_quiet (.of_sameButNotices k)) ⟨k.pending, k.startup, k.clock⟩ k.ports k.deadlines k.holdUnits)

/-- Deadlines alone change, and stay in order. -/
theorem deadlines {s t u : State} (h : s.KeepsOrder t) (k : t.SameButDeadlines u)
    (order : s.TermsLegal → t.DeadlinesOrdered → u.DeadlinesOrdered) : s.KeepsOrder u where
  toKeepsTerms := h.toKeepsTerms.quiet (.of_sameButDeadlines k)
  time := ⟨k.pending.trans h.time.1, k.startup.trans h.time.2.1, k.clock.trans h.time.2.2⟩
  ports := k.ports.trans h.ports
  order legal ordered := order legal (h.order legal ordered)

theorem raiseNotice {s t : State} (h : s.KeepsOrder t) (c : ClientId) (n : Notice) :
    s.KeepsOrder (t.raiseNotice c n) := h.notices (t.raiseNotice_same c n)

theorem removeLive {s t : State} (h : s.KeepsOrder t) (o : Owner) : s.KeepsOrder (t.removeLive o) :=
  h.deadlines (t.removeLive_same o) fun _ ordered => ordered.removeLive o

theorem disarm {s t : State} (h : s.KeepsOrder t) (o : Owner) : s.KeepsOrder (t.disarm o) :=
  h.deadlines (t.disarm_same o) fun _ ordered => ordered.disarm o

theorem arm {s t : State} (h : s.KeepsOrder t) (o : Owner) (k : DeadlineKind) {n : Nat}
    (range : s.TermsLegal → 1 ≤ n ∧ n < 2 ^ 31) : s.KeepsOrder (t.arm o k n) :=
  h.deadlines (t.arm_same o k n) fun legal ordered => ordered.arm o k (range legal)

/-- A lease on the terms that a record had before the event (R83). -/
theorem armLease {s t : State} (h : s.KeepsOrder t) {j : SlotId} {r : Resource} (hr : s.record j = some r) (i : SlotId)
    (c : ClientId) : s.KeepsOrder (t.armLease i c r) :=
  h.deadlines (t.armLease_same i c r) fun legal ordered => ordered.armLease i c (legal j r hr)

/-- A record changes, its terms not, or is removed. -/
theorem of_setRecord {s t : State} {i : SlotId} {x : Option Resource} (h : s.KeepsOrder t)
    (terms : t.KeepsTerms (t.setRecord i x)) : s.KeepsOrder (t.setRecord i x) :=
  h.trans (of_same terms ⟨rfl, rfl, rfl⟩ rfl rfl rfl)

theorem setRecord_none {s t : State} (h : s.KeepsOrder t) (i : SlotId) : s.KeepsOrder (t.setRecord i none) :=
  h.of_setRecord ((State.KeepsTerms.refl t).setRecord_none i)

theorem setRecord {s t : State} (h : s.KeepsOrder t) {i : SlotId} {r r' : Resource} (hr : t.record i = some r)
    (same : r.SameTerms r') : s.KeepsOrder (t.setRecord i (some r')) :=
  h.of_setRecord ((State.KeepsTerms.refl t).setRecord i r r' hr same)

theorem modifyRecord {s t : State} (h : s.KeepsOrder t) (i : SlotId) {f : Resource → Resource}
    (same : ∀ r : Resource, r.SameTerms (f r)) : s.KeepsOrder (t.modifyRecord i f) := by
  cases hr : t.record i with
  | none => rwa [t.modifyRecord_none i f hr]
  | some r =>
    rw [t.modifyRecord_some i f r hr]
    exact h.setRecord hr (same r)

theorem modifyHolding {s t : State} (h : s.KeepsOrder t) (i : SlotId) (c : ClientId) (f : Holding → Holding) :
    s.KeepsOrder (t.modifyHolding i c f) := h.modifyRecord i fun _ => ⟨rfl, rfl, rfl, rfl, rfl⟩

theorem setBacklog {s t : State} (h : s.KeepsOrder t) (l : List SlotId) : s.KeepsOrder (t.setBacklog l) :=
  h.trans (of_same ((State.KeepsTerms.refl t).setBacklog l) ⟨rfl, rfl, rfl⟩ rfl rfl rfl)

theorem joinBacklog {s t : State} (h : s.KeepsOrder t) (i : SlotId) : s.KeepsOrder (t.joinBacklog i) := by
  unfold State.joinBacklog
  split
  · exact h
  · exact h.setBacklog _

theorem createHolding {s t : State} (h : s.KeepsOrder t) (i : SlotId) (c : ClientId) (m : Tenure) (st : HoldState) :
    s.KeepsOrder (t.createHolding i c m st) := by
  have granted : s.KeepsOrder (t.setGrant (t.grant + 1)) :=
    h.trans (of_same ((State.KeepsTerms.refl t).setGrant _) ⟨rfl, rfl, rfl⟩ rfl rfl rfl)
  exact granted.modifyRecord i fun _ => ⟨rfl, rfl, rfl, rfl, rfl⟩

theorem dropWaiter {s t : State} (h : s.KeepsOrder t) (i : SlotId) (c : ClientId) : s.KeepsOrder (t.dropWaiter i c) :=
  (h.modifyRecord i (f := fun r => { r with queue := r.queue.eraseP fun w => w.client == c })
    fun _ => ⟨rfl, rfl, rfl, rfl, rfl⟩).disarm _

/-! ### The offer check and the hand-over (R11, R67) -/

/-- An offer stands for the record's offer window (R57). -/
theorem makeOffer {s t : State} (h : s.KeepsOrder t) (i : SlotId) (w : Waiter) : s.KeepsOrder (t.makeOffer i w) := by
  refine h.trans ?_
  unfold State.makeOffer
  split
  · exact .refl t
  · rename_i r hr
    refine ((((refl t).dropWaiter i w.client).createHolding i w.client w.mode .offered).arm _ _ fun legal => ?_).raiseNotice
      w.client _
    have window := (legal i r hr).2.2.2
    omega

theorem offerLoop {s t : State} (i : SlotId) (ws : List Waiter) (src : Source) (h : s.KeepsOrder t) :
    s.KeepsOrder (State.offerLoop i ws src t).1 := by
  induction ws generalizing src t with
  | nil => exact h.setBacklog _
  | cons w rest ih =>
    unfold State.offerLoop
    split
    · exact ih src (h.dropWaiter i w.client)
    split
    · exact h.setBacklog _
    split
    · exact ih src.spend (h.makeOffer i w)
    · exact h.joinBacklog i

theorem offerCheckFrom {s t : State} (h : s.KeepsOrder t) (i : SlotId) (src : Source) :
    s.KeepsOrder (t.offerCheckFrom i src).1 := offerLoop i _ src h

theorem offerCheck {s t : State} (h : s.KeepsOrder t) (i : SlotId) : s.KeepsOrder (t.offerCheck i) :=
  h.offerCheckFrom i .pool

theorem handOver {s t : State} (l : List SlotId) (h : s.KeepsOrder t) : s.KeepsOrder (State.handOver l t).1 := by
  induction l generalizing t with
  | nil => exact h
  | cons front rest ih =>
    have checked := h.offerCheckFrom front .handed
    unfold State.handOver
    split
    · rename_i hu
      rwa [hu] at checked
    · rename_i hu
      rw [hu] at checked
      exact ih checked

theorem giveBack {s t : State} (h : s.KeepsOrder t) : s.KeepsOrder t.giveBack.1 := handOver t.backlog h

theorem giveBackMany {s t : State} (n : Nat) (h : s.KeepsOrder t) : s.KeepsOrder (State.giveBackMany n t) := by
  induction n generalizing t with
  | zero => exact h
  | succ n ih => exact ih h.giveBack

theorem giveBackAndCheck {s t : State} (h : s.KeepsOrder t) (i : SlotId) : s.KeepsOrder (t.giveBackAndCheck i) := by
  have heq : t.giveBackAndCheck i = if t.giveBack.2.contains i then t.giveBack.1 else t.giveBack.1.offerCheck i := rfl
  rw [heq]
  split
  · exact h.giveBack
  · exact h.giveBack.offerCheck i

/-! ### The end of a holding and of a wait (R40, R47), and RETIRE (R16) -/

theorem dropHolding {s t : State} (h : s.KeepsOrder t) {i : SlotId} {r : Resource} (hr : t.record i = some r)
    (g : Holding) (cause : HoldingEnd) : s.KeepsOrder (t.dropHolding i r g cause) :=
  ((h.setRecord (r' := { r with
      holders := r.holders.eraseP fun g' => g'.client == g.client
      integrity := if g.endsSuspect cause then .suspect else r.integrity }) hr ⟨rfl, rfl, rfl, rfl, rfl⟩).disarm _).notices
    (State.endNotices_same _ _ _ _)

theorem endHolding {s t : State} (h : s.KeepsOrder t) (i : SlotId) (c : ClientId) (cause : HoldingEnd) :
    s.KeepsOrder (t.endHolding i c cause) := by
  unfold State.endHolding
  split
  · exact h
  rename_i r hr
  split
  · exact h
  rename_i g _
  have dropped := h.dropHolding hr g cause
  simp only
  split
  · exact ((dropped.setRecord_none i).setBacklog _).giveBack
  · exact dropped.giveBackAndCheck i

theorem endWait {s t : State} (h : s.KeepsOrder t) (i : SlotId) (c : ClientId) : s.KeepsOrder (t.endWait i c) := by
  unfold State.endWait
  split
  · exact h
  simp only
  split
  · exact (h.dropWaiter i c).offerCheck i
  · exact h.dropWaiter i c

theorem lapseWait {s t : State} (h : s.KeepsOrder t) (i : SlotId) (c : ClientId) : s.KeepsOrder (t.lapseWait i c) := by
  unfold State.lapseWait
  split
  · exact h
  simp only
  split
  · exact ((h.dropWaiter i c).raiseNotice c _).offerCheck i
  · exact (h.dropWaiter i c).raiseNotice c _

theorem withdrawOffer {s t : State} (h : s.KeepsOrder t) (i : SlotId) (g : Holding) :
    s.KeepsOrder (State.withdrawOffer i t g) := by
  unfold State.withdrawOffer
  split
  · exact h
  · exact h.dropHolding ‹_› g _

theorem withdrawAll {s t : State} (h : s.KeepsOrder t) (i : SlotId) (r : Resource) : s.KeepsOrder (t.withdrawAll i r) := by
  refine State.KeepsOrder.setBacklog ?_ _
  refine List.foldlRecOn _ _ ?_ fun u hu g _ => hu.withdrawOffer i g
  exact List.foldlRecOn _ _ h fun u hu w _ => (hu.dropWaiter i w.client).raiseNotice w.client _

end State.KeepsOrder

/-- A LEASE-WARN that is due leads to a LEASE-END within the warning interval (R84). -/
theorem State.warnLease_keepsOrder (s : State) (i : SlotId) (c : ClientId) (interval : Ms) :
    s.KeepsOrder (s.warnLease i c s.clock interval) := by
  have word := interval.isLt
  have last : s.clock + interval.setWidth 32 = (s.removeLive (.holding i c)).clock + BitVec.ofNat 32 interval.toNat := by
    rw [BitVec.ofNat_toNat]
    rfl
  have warned : s.KeepsOrder (((s.removeLive (.holding i c)).insertDeadline
      { owner := .holding i c, kind := .leaseEnd, due := s.clock + interval.setWidth 32 }).modifyHolding i c
        fun h => { h with warned := true }) := by
    refine State.KeepsOrder.modifyHolding ?_ i c _
    refine ((State.KeepsOrder.refl s).removeLive _).deadlines (State.insertDeadline_same _ _) fun _ ordered => ?_
    rw [last]
    exact ordered.insertAfter _ _ (by omega)
  unfold State.warnLease
  simp only
  split
  · exact warned
  split
  · exact warned
  · exact warned.raiseNotice c _

end Sys2Proof.Machine
end

section
/-! SUPPORT. One port at a time: what a port's state says of its slot, its request and its frame (R138), and the operations
on a port, each of which keeps it consistent. -/

namespace Sys2Proof.Machine

/-! ### The law of one port (R138) -/

/-- A frame in progress has counted nothing yet (log 11), and a FILLED snapshot is of a slot still FILLED (R141, R143). -/
def Port.FrameFits (x : Port) : Prop :=
  ∀ f, x.frame = some f → x.selectLow = true ∧ f.edges = 0 ∧ f.received = [] ∧ f.partByte = []
    ∧ (f.snapshot.filled = true → x.slot.isFilled = true)

/-- A port is consistent, by its state (R138). -/
def Port.Consistent (x : Port) (startup : Startup) : Prop :=
  match x.state with
  | .starting => startup ≠ .ended ∧ x.slot = .empty ∧ x.inFlight = .none ∧ x.frame = none
  | .detached => startup = .ended ∧ x.slot = .empty ∧ x.frame = none
  | .ready => startup = .ended ∧ (∀ tag, x.slot ≠ .pending tag) ∧ x.inFlight = .none ∧ x.FrameFits
  | .busy => startup = .ended ∧ (∃ tag, x.slot = .pending tag) ∧ x.inFlight ≠ .none ∧ x.FrameFits

theorem State.portConsistent_iff (s : State) (p : ClientId) :
    s.PortConsistent p ↔ (s.port p).Consistent s.startup := by
  have noFrame : ∀ o : Option Frame, (∀ f, o ≠ some f) ↔ o = none := fun o => by
    simp [Option.eq_none_iff_forall_ne_some]
  simp only [State.PortConsistent]
  generalize s.port p = x
  obtain ⟨state, slot, inFlight, _, _, _, frame, _⟩ := x
  cases state
  case starting => cases slot <;> simp [Port.Consistent, noFrame]; tauto
  case detached => cases slot <;> simp [Port.Consistent, noFrame]; tauto
  case ready => simp [Port.Consistent, Port.FrameFits]; tauto
  case busy => simp [Port.Consistent, Port.FrameFits]; tauto

namespace Port.Consistent

/-- The law reads state, slot, request, frame and select alone. -/
theorem congr {x y : Port} {u : Startup} (h : x.Consistent u) (state : y.state = x.state) (slot : y.slot = x.slot)
    (inFlight : y.inFlight = x.inFlight) (frame : y.frame = x.frame) (select : y.selectLow = x.selectLow) :
    y.Consistent u := by
  simpa only [Port.Consistent, Port.FrameFits, state, slot, inFlight, frame, select] using h

/-- A port with a request in flight keeps one, whatever has become of it (R138, log 6). -/
theorem withInFlight {x : Port} {u : Startup} (h : x.Consistent u) (before : x.inFlight ≠ .none) {f : InFlight}
    (after : f ≠ .none) : Port.Consistent { x with inFlight := f } u := by
  unfold Port.Consistent at h ⊢
  cases hs : x.state <;> simp only [hs] at h ⊢
  case starting =>
    obtain ⟨-, -, idle, -⟩ := h
    exact absurd idle before
  case detached => exact h
  case ready =>
    obtain ⟨-, -, idle, -⟩ := h
    exact absurd idle before
  case busy =>
    obtain ⟨ended, slot, -, frame⟩ := h
    exact ⟨ended, slot, after, frame⟩

/-- A reply takes the place of the request: it fills a PENDING slot, and the port becomes READY (R144). -/
theorem filled {x : Port} {u : Startup} (h : x.Consistent u) {tag : Byte} (slot : x.slot = .pending tag) (r : Reply) :
    Port.Consistent { x with slot := .filled r, inFlight := .none, state := if x.state = .busy then .ready else x.state } u
    := by
  unfold Port.Consistent at h ⊢
  cases hs : x.state <;> simp only [hs, slot] at h ⊢
  case starting =>
    obtain ⟨-, empty, -⟩ := h
    cases empty
  case detached =>
    obtain ⟨-, empty, -⟩ := h
    cases empty
  case ready =>
    obtain ⟨-, free, -⟩ := h
    exact absurd rfl (free tag)
  case busy =>
    obtain ⟨ended, -, -, frame⟩ := h
    refine ⟨ended, nofun, trivial, fun f hf => ?_⟩
    obtain ⟨low, edges, received, part, -⟩ := frame f hf
    exact ⟨low, edges, received, part, fun _ => rfl⟩

/-- A reply without a PENDING slot is discarded (R144). -/
theorem discarded {x : Port} {u : Startup} (h : x.Consistent u) (slot : ∀ tag, x.slot ≠ .pending tag) :
    Port.Consistent { x with inFlight := .none } u := by
  unfold Port.Consistent at h ⊢
  cases hs : x.state <;> simp only [hs] at h ⊢
  case starting | ready =>
    obtain ⟨startup, empty, -, frame⟩ := h
    exact ⟨startup, empty, trivial, frame⟩
  case detached => exact h
  case busy =>
    obtain ⟨-, ⟨tag, pending⟩, -⟩ := h
    exact absurd pending (slot tag)

/-- A DETACHED port without a request in flight becomes READY (R154). -/
theorem readied {x : Port} {u : Startup} (h : x.Consistent u) (state : x.state = .detached) (idle : x.inFlight = .none) :
    Port.Consistent { x with state := .ready, senseOwed := false } u := by
  simp only [Port.Consistent, state] at h
  obtain ⟨ended, slot, frame⟩ := h
  exact ⟨ended, by simp [slot], idle, fun f hf => absurd (frame.symm.trans hf) nofun⟩

/-- A reset-sense assertion in READY and BUSY aborts the frame and empties the slot (R153). -/
theorem aborted {x : Port} {u : Startup} (h : x.Consistent u) (state : x.state = .ready ∨ x.state = .busy) :
    Port.Consistent { x with
      resetSense := true, senseOwed := true, frame := none, slot := .empty, overrun := false, frameErr := false,
      crcErr := false, state := .detached } u := by
  refine ⟨?_, rfl, rfl⟩
  rcases state with hs | hs <;> simp only [Port.Consistent, hs] at h <;> exact h.1

/-- Select falls on a port in READY or BUSY: a frame begins (R141). -/
theorem framed {x : Port} {u : Startup} (h : x.Consistent u) (state : x.state = .ready ∨ x.state = .busy)
    {snapshot : Snapshot} (shows : snapshot.filled = x.slot.isFilled) :
    Port.Consistent { x with
      selectLow := true, frame := some { snapshot := snapshot, edges := 0, received := [], partByte := [] } } u := by
  have fits : Port.FrameFits { x with
      selectLow := true, frame := some { snapshot := snapshot, edges := 0, received := [], partByte := [] } } := by
    rintro f ⟨⟩
    exact ⟨rfl, rfl, rfl, rfl, fun hf => shows ▸ hf⟩
  unfold Port.Consistent at h ⊢
  rcases state with hs | hs <;> simp only [hs] at h ⊢ <;>
  · obtain ⟨ended, slot, inFlight, -⟩ := h
    exact ⟨ended, slot, inFlight, fits⟩

/-- Select falls on a port in STARTING or DETACHED: the frame is ignored (R140). -/
theorem ignored {x : Port} {u : Startup} (h : x.Consistent u) (state : ¬ (x.state = .ready ∨ x.state = .busy)) :
    Port.Consistent { x with selectLow := true } u := by
  unfold Port.Consistent at h ⊢
  cases hs : x.state <;> simp only [hs] at h ⊢
  case starting | detached => exact h
  case ready | busy => exact absurd hs (by simp [hs] at state)

/-- Select rises: the frame is over (R146). -/
theorem closed {x : Port} {u : Startup} (h : x.Consistent u) :
    Port.Consistent { x with selectLow := false, frame := none } u := by
  have fits : Port.FrameFits { x with selectLow := false, frame := none } := by rintro f ⟨⟩
  unfold Port.Consistent at h ⊢
  cases hs : x.state <;> simp only [hs] at h ⊢
  case starting =>
    obtain ⟨startup, slot, idle, -⟩ := h
    exact ⟨startup, slot, idle, trivial⟩
  case detached =>
    obtain ⟨ended, slot, -⟩ := h
    exact ⟨ended, slot, trivial⟩
  case ready | busy =>
    obtain ⟨ended, slot, inFlight, -⟩ := h
    exact ⟨ended, slot, inFlight, fits⟩

/-- A delivery empties a FILLED slot, which a READY port alone has (R145). -/
theorem emptied {x : Port} {u : Startup} (h : x.Consistent u) (filled : x.slot.isFilled = true) (noFrame : x.frame = none)
    {y : Port} (state : y.state = x.state) (inFlight : y.inFlight = x.inFlight) (slot : y.slot = .empty)
    (frame : y.frame = x.frame) : y.Consistent u := by
  unfold Port.Consistent at h ⊢
  cases hs : x.state <;> simp only [hs, state] at h ⊢
  case starting | detached =>
    obtain ⟨-, empty, -⟩ := h
    simp [empty, ReplySlot.isFilled] at filled
  case ready =>
    obtain ⟨ended, -, idle, -⟩ := h
    exact ⟨ended, by simp [slot], inFlight.trans idle, fun f hf => absurd (noFrame ▸ frame ▸ hf) nofun⟩
  case busy =>
    obtain ⟨-, ⟨tag, pending⟩, -⟩ := h
    simp [pending, ReplySlot.isFilled] at filled

/-- The request received in a frame makes a READY port with an EMPTY slot BUSY, and sets a flag otherwise (R146 to R150). -/
theorem judge {x : Port} {u : Startup} (h : x.Consistent u) (state : x.state = .ready ∨ x.state = .busy)
    (noFrame : x.frame = none) (bytes : List Byte) : (x.judge bytes).Consistent u := by
  unfold Port.judge
  split
  · exact h.congr rfl rfl rfl rfl rfl
  · exact h.congr rfl rfl rfl rfl rfl
  split
  · exact h
  split
  · refine ⟨?_, ⟨_, rfl⟩, nofun, fun f hf => absurd (noFrame.symm.trans hf) nofun⟩
    rcases state with hs | hs <;> simp only [Port.Consistent, hs] at h <;> exact h.1
  all_goals exact h.congr rfl rfl rfl rfl rfl

/-- The end of start-up leaves each port DETACHED or READY (R152). -/
theorem started {x : Port} {u : Startup} (h : x.Consistent u) (running : u ≠ .ended) :
    Port.Consistent { x with state := if x.resetSense then .detached else .ready } .ended := by
  unfold Port.Consistent at h
  cases hs : x.state <;> simp only [hs] at h
  case starting =>
    obtain ⟨-, slot, idle, frame⟩ := h
    cases hr : x.resetSense
    · exact ⟨rfl, by simp [slot], idle, fun f hf => absurd (frame.symm.trans hf) nofun⟩
    · exact ⟨rfl, slot, frame⟩
  case detached | ready | busy => exact absurd h.1 running

/-- How far start-up has come does not matter until it has ended. -/
theorem before {x : Port} {u v : Startup} (h : x.Consistent u) (running : u ≠ .ended) (running' : v ≠ .ended) :
    x.Consistent v := by
  unfold Port.Consistent at h ⊢
  cases hs : x.state <;> simp only [hs] at h ⊢
  case starting => exact ⟨running', h.2⟩
  case detached | ready | busy => exact absurd h.1 running

/-- Until start-up has ended no port has a frame or a request in flight (R138, R152). -/
theorem idle {x : Port} {u : Startup} (h : x.Consistent u) (running : u ≠ .ended) : x.inFlight = .none := by
  unfold Port.Consistent at h
  cases hs : x.state <;> simp only [hs] at h
  case starting =>
    obtain ⟨-, -, idle, -⟩ := h
    exact idle
  case detached | ready | busy => exact absurd h.1 running

end Port.Consistent

/-- A port with a frame is READY or BUSY, and a FILLED snapshot is of a slot still FILLED (R138, R141). -/
theorem Port.Consistent.of_frame {x : Port} {u : Startup} (h : x.Consistent u) {f : Frame} (hf : x.frame = some f) :
    (x.state = .ready ∨ x.state = .busy) ∧ (f.snapshot.filled = true → x.slot.isFilled = true) := by
  unfold Port.Consistent at h
  cases hs : x.state <;> simp only [hs] at h
  case starting | detached => simp [h] at hf
  case ready | busy =>
    obtain ⟨-, -, -, fits⟩ := h
    obtain ⟨-, -, -, -, filled⟩ := fits f hf
    exact ⟨by simp, filled⟩

/-! ### Events at the ports -/

/-- An event at the ports: the notice sets aside, nothing else changes, and every port stays consistent. -/
structure State.AtPorts (s t : State) : Prop where
  time : s.SameTime t
  deadlines : t.deadlines = s.deadlines
  clients : t.clients = s.clients
  units : t.holdUnits = s.holdUnits
  ports : ∀ p, (s.port p).Consistent s.startup → (t.port p).Consistent s.startup

namespace State.AtPorts

theorem refl (s : State) : s.AtPorts s := ⟨⟨rfl, rfl, rfl⟩, rfl, rfl, rfl, fun _ => id⟩

theorem trans {s t u : State} (h : s.AtPorts t) (k : t.AtPorts u) : s.AtPorts u where
  time := ⟨k.time.1.trans h.time.1, k.time.2.1.trans h.time.2.1, k.time.2.2.trans h.time.2.2⟩
  deadlines := k.deadlines.trans h.deadlines
  clients := k.clients.trans h.clients
  units := k.units.trans h.units
  ports p hp := by
    have next := k.ports p
    rw [h.time.2.1] at next
    exact next (h.ports p hp)

/-- One port is given a value that is consistent if the port was before the event. -/
theorem setPort {s t : State} (h : s.AtPorts t) (p : ClientId) {x : Port}
    (keeps : (s.port p).Consistent s.startup → x.Consistent s.startup) : s.AtPorts (t.setPort p x) := by
  refine ⟨h.time, h.deadlines, h.clients, h.units, fun q hq => ?_⟩
  rw [State.port_setPort]
  split
  · rename_i hqp
    exact keeps (hqp ▸ hq)
  · exact h.ports q hq

theorem setNoticeSet {s t : State} (h : s.AtPorts t) (c : ClientId) (ns : NoticeSet) :
    s.AtPorts (t.setNoticeSet c ns) := h.trans ⟨⟨rfl, rfl, rfl⟩, rfl, rfl, rfl, fun _ => id⟩

end State.AtPorts

theorem State.portReady_atPorts (s : State) (p : ClientId) : s.AtPorts (s.portReady p) := by
  unfold State.portReady
  simp only
  split
  · rename_i h
    exact (State.AtPorts.refl s).setPort p fun k => k.readied h.1 h.2.2.1
  · exact .refl s

theorem State.placeReply_atPorts (s : State) (p : ClientId) (a : Answer) (data : List Byte) :
    s.AtPorts (s.placeReply p a data) := by
  unfold State.placeReply
  simp only
  split <;> rename_i slot
  · exact ((State.AtPorts.refl s).setPort p fun k => k.filled slot _).trans (State.portReady_atPorts _ p)
  all_goals exact ((State.AtPorts.refl s).setPort p fun k => k.discarded (by simp [slot])).trans (State.portReady_atPorts _ p)

theorem State.answerWaiting_atPorts (s : State) (p c : ClientId) : s.AtPorts (s.answerWaiting p c) := by
  unfold State.answerWaiting
  split
  · exact s.placeReply_atPorts p _ _
  · exact .refl s

end Sys2Proof.Machine
end

section
/-! SUPPORT. Every command but the part resets, the end of start-up and the clock: no time passes, every port stays consistent
(R138), the Deadline List stays in order (R73, R76), and a part without a session and without a deadline stays so. -/

namespace Sys2Proof.Machine

/-- Record terms and hold allowances in range (R1, R91, R103). -/
def State.InRange (s : State) : Prop := s.TermsLegal ∧ ∀ c, (s.client c).holdAllowance ≤ 600

/-- Nothing is under way, as before start-up has ended (R72, R89, R152): no deadline, no session, no freeze, no request. -/
structure State.Calm (s : State) : Prop where
  deadlines : s.deadlines = []
  sessions : ∀ c, (s.client c).session = .none
  freezes : ∀ c, (s.client c).freeze = .thawed
  requests : ∀ p, (s.port p).inFlight = .none

/-- What a command does that neither resets the part nor starts it up nor counts time. -/
structure State.Advances (s t : State) : Prop where
  time : s.SameTime t
  ports : ∀ p, (s.port p).Consistent s.startup → (t.port p).Consistent s.startup
  order : s.InRange → s.DeadlinesOrdered → t.DeadlinesOrdered
  calm : s.Calm → t.deadlines = [] ∧ ∀ c, (t.client c).session = .none

/-! ### Effects before their reply -/

/-- The effect of a request before its reply: no time passes, no port changes, the deadlines stay in order. -/
structure State.Stays (s t : State) : Prop where
  time : s.SameTime t
  ports : t.ports = s.ports
  order : s.InRange → s.DeadlinesOrdered → t.DeadlinesOrdered

theorem State.KeepsOrder.stays {s t : State} (h : s.KeepsOrder t) : s.Stays t :=
  ⟨h.time, h.ports, fun range => h.order range.1⟩

theorem State.Stays.of_same {s t : State} (time : s.SameTime t) (ports : t.ports = s.ports)
    (deadlines : t.deadlines = s.deadlines) (units : t.holdUnits = s.holdUnits) : s.Stays t :=
  ⟨time, ports, fun _ ordered => ordered.congr time.2.2 deadlines fun c => by simp only [State.holdUnit, units]⟩

theorem State.Stays.refl (s : State) : s.Stays s := .of_same ⟨rfl, rfl, rfl⟩ rfl rfl rfl

/-- The reply of a request in flight (R144). -/
theorem State.Advances.reply {s u : State} {p : ClientId} {q : Request} {ps : List Byte} (h : s.Stays u)
    (inFlight : s.InFlight p q ps) (a : Answer) (data : List Byte) : s.Advances (u.answer p a data) where
  time := h.time
  ports j hj := by
    have port : ∀ k, u.port k = s.port k := fun k => by simp only [State.port, h.ports]
    rw [State.answer, State.port_setPort, port, port]
    split
    · rename_i hjp
      refine (hjp ▸ hj).withInFlight ?_ nofun
      rw [inFlight]
      nofun
    · exact hj
  order range ordered := (h.order range ordered).congr rfl rfl fun _ => rfl
  calm calm := by
    have idle := calm.requests p
    rw [inFlight] at idle
    cases idle

theorem State.Advances.refl (s : State) : s.Advances s :=
  ⟨⟨rfl, rfl, rfl⟩, fun _ => id, fun _ => id, fun calm => ⟨calm.deadlines, calm.sessions⟩⟩

/-- A request that is in flight is refused or has its effect; one that is not is not taken (R164, log 2). -/
theorem State.Advances.request {s : State} {p : ClientId} {q : Request} {effect : List Byte → State}
    (taken : ∀ ps, s.Passes p q ps → s.Advances (effect ps)) : s.Advances (s.request p q effect) := by
  by_cases h : ∃ ps, s.InFlight p q ps
  · obtain ⟨ps, inFlight⟩ := h
    rw [s.request_inFlight p q ps inFlight]
    cases refusal : s.refusal p q ps with
    | some a => exact .reply (.refl s) inFlight a []
    | none => exact taken ps (State.passes_of_refusal inFlight refusal)
  · rw [s.request_idle p q effect fun ps inFlight => h ⟨ps, inFlight⟩]
    exact .refl s

/-- The same for a request that names a record (R2, R7). -/
theorem State.Advances.requestAtRecord {s : State} {p : ClientId} {q : Request} {key : List Byte → Key}
    {effect : List Byte → SlotId → Resource → State}
    (found : ∀ ps i r, s.Passes p q ps → s.record i = some r → s.Advances (effect ps i r)) :
    s.Advances (s.request p q fun ps => s.atRecord p q (key ps) (effect ps)) :=
  .request fun ps passes => State.atRecord_induction (.reply (.refl s) passes.1 · []) fun i r hr _ => found ps i r passes hr

/-! ### Events at the ports and the teardown -/

theorem State.AtPorts.advances {s t : State} (h : s.AtPorts t) : s.Advances t where
  time := h.time
  ports := h.ports
  order _ ordered := ordered.congr h.time.2.2 h.deadlines fun c => by simp only [State.holdUnit, h.units]
  calm calm := ⟨h.deadlines.trans calm.deadlines, fun c => by simpa only [State.client, h.clients] using calm.sessions c⟩

/-- A command that cannot be taken in a part where nothing is under way. -/
theorem State.Stays.advances {s t : State} (h : s.Stays t) (awake : ¬ s.Calm) : s.Advances t :=
  ⟨h.time, fun p hp => by simpa only [State.port, h.ports] using hp, h.order, fun calm => absurd calm awake⟩

/-- No time passes, every port stays consistent and the deadlines stay in order, whatever the terms. -/
structure State.Moves (s t : State) : Prop where
  time : s.SameTime t
  ports : ∀ p, (s.port p).Consistent s.startup → (t.port p).Consistent s.startup
  order : s.DeadlinesOrdered → t.DeadlinesOrdered

namespace State.Moves

theorem advances {s t : State} (h : s.Moves t) (awake : ¬ s.Calm) : s.Advances t :=
  ⟨h.time, h.ports, fun _ => h.order, fun calm => absurd calm awake⟩

theorem of_atPorts {s t : State} (h : s.AtPorts t) : s.Moves t :=
  ⟨h.time, h.ports, fun ordered => ordered.congr h.time.2.2 h.deadlines fun c => by simp only [State.holdUnit, h.units]⟩

theorem of_ports {s t : State} (time : s.SameTime t) (ports : t.ports = s.ports)
    (order : s.DeadlinesOrdered → t.DeadlinesOrdered) : s.Moves t :=
  ⟨time, fun p hp => by simpa only [State.port, ports] using hp, order⟩

theorem trans {s t u : State} (h : s.Moves t) (k : t.Moves u) : s.Moves u where
  time := ⟨k.time.1.trans h.time.1, k.time.2.1.trans h.time.2.1, k.time.2.2.trans h.time.2.2⟩
  ports p hp := by
    have next := k.ports p
    rw [h.time.2.1] at next
    exact next (h.ports p hp)
  order ordered := k.order (h.order ordered)

theorem setClient {s t : State} (h : s.Moves t) (c : ClientId) (x : Client) : s.Moves (t.setClient c x) :=
  h.trans (of_ports ⟨rfl, rfl, rfl⟩ rfl fun ordered => ordered.congr rfl rfl fun _ => rfl)

theorem setNoticeSet {s t : State} (h : s.Moves t) (c : ClientId) (ns : NoticeSet) : s.Moves (t.setNoticeSet c ns) :=
  h.trans (of_ports ⟨rfl, rfl, rfl⟩ rfl fun ordered => ordered.congr rfl rfl fun _ => rfl)

theorem refl (s : State) : s.Moves s := of_atPorts (.refl s)

end State.Moves

theorem State.thaw_frame (s : State) (c : ClientId) (next : Freeze) :
    s.SameTime (s.thaw c next) ∧ (s.thaw c next).ports = s.ports := by
  have same := State.foldl_putBack_same (s.holdUnit c).stored
    (((s.removeLive (.client c)).setClient c { s.client c with freeze := next }).setHoldUnit c
      { s.holdUnit c with freezeStart := none, stored := [] })
  exact ⟨⟨same.pending, same.startup, same.clock⟩, same.ports⟩

theorem State.endFreeze_frame (s : State) (c : ClientId) :
    s.SameTime (s.endFreeze c) ∧ (s.endFreeze c).ports = s.ports := by
  unfold State.endFreeze
  split
  · exact s.thaw_frame c _
  all_goals exact ⟨⟨rfl, rfl, rfl⟩, rfl⟩

theorem State.Moves.endFreeze {s t : State} (h : s.Moves t) (c : ClientId) : s.Moves (t.endFreeze c) :=
  h.trans (.of_ports (t.endFreeze_frame c).1 (t.endFreeze_frame c).2 fun ordered => ordered.endFreeze c)

theorem State.Moves.completeTeardown {s t : State} (h : s.Moves t) (c : ClientId) : s.Moves (t.completeTeardown c) := by
  unfold State.completeTeardown
  exact (h.setClient c _).trans (.of_atPorts (((State.answerWaiting_atPorts _ c c).trans
    (State.answerWaiting_atPorts _ _ c)).trans (State.portReady_atPorts _ c)))

theorem State.Moves.beginTeardown {s t : State} (h : s.Moves t) (c : ClientId) (cause : EndCause) :
    s.Moves (t.beginTeardown c cause) := by
  have closed := ((h.setClient c { t.client c with session := .teardown, endCause := cause, sweepFrom := 0 }).endFreeze
    c).setNoticeSet c NoticeSet.empty
  unfold State.beginTeardown
  simp only
  split
  · exact closed.completeTeardown c
  · exact closed

/-- The freeze evaluated after a change of client `c`'s record (R92): with the allowance in range the order stays. -/
theorem State.evaluateFreeze_stays {s u : State} {c : ClientId} (time : s.SameTime u) (ports : u.ports = s.ports)
    (order : s.DeadlinesOrdered → u.DeadlinesOrdered) (range : s.InRange → (u.client c).holdAllowance ≤ 600) :
    s.Stays (u.evaluateFreeze c) where
  time := by
    unfold State.evaluateFreeze
    split <;> exact time
  ports := by
    unfold State.evaluateFreeze
    split <;> exact ports
  order r ordered := (order ordered).evaluateFreeze (range r)

/-! ### The requests on claims -/

/-- A wait of 0 is never queued (R51). -/
theorem State.acquireAt_zero {P : State → Prop} {s : State} {p : ClientId} {i : SlotId} {r : Resource} {mode : Tenure}
    {priority : Fin 4} (refused : ∀ a data, P (s.answer p a data)) (granted : P (s.grantNow p i r mode)) :
    P (s.acquireAt p i r mode priority 0) := by
  unfold State.acquireAt
  split
  · exact refused _ _
  split
  · exact refused _ _
  split
  · exact refused _ _
  split
  · exact refused _ _
  split
  · exact granted
  · exact refused _ _

theorem execAcquire_advances (p : ClientId) (s : State) : ∃ t, execAcquire p s = .next t ∧ s.Advances t := by
  refine ⟨_, rfl, .requestAtRecord fun ps i r passes hr => ?_⟩
  have refused : ∀ a data, s.Advances (s.answer p a data) := .reply (.refl s) passes.1
  have granted : ∀ mode, s.Advances (s.grantNow p i r mode) := fun mode =>
    .reply (((State.KeepsOrder.refl s).createHolding i p mode .held).armLease hr i p).stays passes.1 _ _
  by_cases wait : wordAt ps 4 = 0
  · rw [wait]
    exact State.acquireAt_zero refused (granted _)
  · refine State.acquireAt_induction refused (fun _ => granted _) fun _ _ => ?_
    have queued := fun q => (State.KeepsOrder.refl s).setRecord (r' := { r with queue := q }) hr ⟨rfl, rfl, rfl, rfl, rfl⟩
    have armed := fun q => (queued q).arm (.waiter i p) .waitEnd (n := (wordAt ps 4).toNat) fun _ => by
      have word := (wordAt ps 4).isLt
      have positive := (ne_zero_iff_one_le _).mp wait
      omega
    unfold State.enqueue
    simp only
    refine .reply (State.KeepsOrder.stays ?_) passes.1 _ _
    split <;> split
    · exact (queued _).offerCheck i
    · exact (armed _).offerCheck i
    · exact queued _
    · exact armed _

theorem execAccept_advances (p : ClientId) (s : State) : ∃ t, execAccept p s = .next t ∧ s.Advances t := by
  refine ⟨_, rfl, .requestAtRecord fun ps i r passes hr => ?_⟩
  split
  · exact .reply (.refl s) passes.1 _ _
  · exact .reply ((((State.KeepsOrder.refl s).modifyHolding i p _).armLease hr i p).notices
      (State.setNoticeSet_same _ p _)).stays passes.1 _ _
  · exact .reply (.refl s) passes.1 _ _

theorem execDecline_advances (p : ClientId) (s : State) : ∃ t, execDecline p s = .next t ∧ s.Advances t := by
  refine ⟨_, rfl, .requestAtRecord fun ps i r passes _ => ?_⟩
  split
  · exact .reply (.refl s) passes.1 _ _
  · exact .reply ((State.KeepsOrder.refl s).endHolding i p _).stays passes.1 _ _

theorem execCancel_advances (p : ClientId) (s : State) : ∃ t, execCancel p s = .next t ∧ s.Advances t := by
  refine ⟨_, rfl, .requestAtRecord fun ps i r passes _ => ?_⟩
  split
  · exact .reply ((State.KeepsOrder.refl s).endWait i p).stays passes.1 _ _
  · exact .reply (.refl s) passes.1 _ _

theorem execRenew_advances (p : ClientId) (s : State) : ∃ t, execRenew p s = .next t ∧ s.Advances t := by
  refine ⟨_, rfl, .requestAtRecord fun ps i r passes hr => ?_⟩
  split
  · exact .reply (.refl s) passes.1 _ _
  · exact .reply ((((State.KeepsOrder.refl s).modifyHolding i p _).armLease hr i p).notices
      (State.setNoticeSet_same _ p _)).stays passes.1 _ _

theorem execRelease_advances (p : ClientId) (s : State) : ∃ t, execRelease p s = .next t ∧ s.Advances t := by
  refine ⟨_, rfl, .requestAtRecord fun ps i r passes _ => ?_⟩
  split
  · exact .reply (.refl s) passes.1 _ _
  · exact .reply ((State.KeepsOrder.refl s).endHolding i p _).stays passes.1 _ _

theorem execDowngrade_advances (p : ClientId) (s : State) : ∃ t, execDowngrade p s = .next t ∧ s.Advances t := by
  refine ⟨_, rfl, .requestAtRecord fun ps i r passes _ => ?_⟩
  split
  · exact .reply (.refl s) passes.1 _ _
  split
  · exact .reply (.refl s) passes.1 _ _
  split
  · exact .reply (.refl s) passes.1 _ _
  · exact .reply (((State.KeepsOrder.refl s).modifyHolding i p _).offerCheck i).stays passes.1 _ _

theorem execMarkSound_advances (p : ClientId) (s : State) : ∃ t, execMarkSound p s = .next t ∧ s.Advances t := by
  refine ⟨_, rfl, .requestAtRecord fun ps i r passes _ => ?_⟩
  split
  · exact .reply (.refl s) passes.1 _ _
  split
  · exact .reply (.refl s) passes.1 _ _
  · refine .reply ?_ passes.1 _ _
    exact .of_same ⟨rfl, rfl, rfl⟩ rfl rfl rfl

theorem execRevoke_advances (p : ClientId) (s : State) : ∃ t, execRevoke p s = .next t ∧ s.Advances t := by
  refine ⟨_, rfl, .requestAtRecord fun ps i r passes _ => ?_⟩
  simp only
  split
  · exact .reply ((State.KeepsOrder.refl s).endHolding i _ _).stays passes.1 _ _
  · exact .reply (.refl s) passes.1 _ _

/-! ### The requests of the directory -/

theorem execDefine_advances (p : ClientId) (s : State) : ∃ t, execDefine p s = .next t ∧ s.Advances t := by
  refine ⟨_, rfl, .request fun ps passes => ?_⟩
  split
  · exact .reply (.refl s) passes.1 _ _
  split
  · exact .reply (.refl s) passes.1 _ _
  · refine .reply ?_ passes.1 _ _
    exact .of_same ⟨rfl, rfl, rfl⟩ rfl rfl rfl

/-- The record stands on its new terms when the offer check follows (R14, R15). -/
theorem execAmend_advances (p : ClientId) (s : State) : ∃ t, execAmend p s = .next t ∧ s.Advances t := by
  refine ⟨_, rfl, .requestAtRecord fun ps i r passes hr => ?_⟩
  obtain ⟨inFlight, -, -, -, -, terms⟩ := passes
  simp only
  split
  · exact .reply (.refl s) inFlight _ _
  have amended : s.Stays (s.setRecord i (some (r.amended ps))) := .of_same ⟨rfl, rfl, rfl⟩ rfl rfl rfl
  refine .reply ?_ inFlight _ _
  split
  · have offers := (State.KeepsOrder.refl (s.setRecord i (some (r.amended ps)))).offerCheck i
    refine ⟨offers.time, offers.ports, fun range ordered => offers.order (fun j q hq => ?_) (amended.order range ordered)⟩
    by_cases hj : j = i
    · subst hj
      obtain rfl : r.amended ps = q := by simpa using hq
      exact terms.termsLegal (range.1 j r hr).1 rfl rfl rfl rfl
    · exact range.1 j q (by simpa [hj] using hq)
  · exact amended

theorem execRetire_advances (p : ClientId) (s : State) : ∃ t, execRetire p s = .next t ∧ s.Advances t := by
  refine ⟨_, rfl, .requestAtRecord fun ps i r passes _ => ?_⟩
  have withdrawn := (State.KeepsOrder.refl s).withdrawAll i r
  simp only
  split
  · exact .reply ((withdrawn.modifyRecord i (f := fun q => { q with lifecycle := .retiring })
      fun _ => ⟨rfl, rfl, rfl, rfl, rfl⟩).giveBackMany _).stays passes.1 _ _
  · exact .reply ((withdrawn.setRecord_none i).giveBackMany _).stays passes.1 _ _

theorem execQuery_advances (p : ClientId) (s : State) : ∃ t, execQuery p s = .next t ∧ s.Advances t :=
  ⟨_, rfl, .requestAtRecord fun _ _ _ passes _ => .reply (.refl s) passes.1 _ _⟩

/-! ### The requests of the Client Table and the Notice Unit -/

theorem execJoin_advances (p : ClientId) (s : State) : ∃ t, execJoin p s = .next t ∧ s.Advances t := by
  refine ⟨_, rfl, .request fun _ passes => .reply ?_ passes.1 _ _⟩
  refine State.evaluateFreeze_stays ⟨rfl, rfl, rfl⟩ rfl (fun ordered => ordered.congr rfl rfl fun _ => rfl) fun range => ?_
  simpa using range.2 p

theorem execSetClient_advances (p : ClientId) (s : State) : ∃ t, execSetClient p s = .next t ∧ s.Advances t := by
  refine ⟨_, rfl, .request fun ps passes => ?_⟩
  obtain ⟨inFlight, -, -, -, -, -, -, -, -, allowance, -⟩ := passes
  simp only
  split
  · exact .reply (.refl s) inFlight _ _
  · obtain ⟨time, ports⟩ := s.endFreeze_frame (clientOf (byteAt ps 0))
    refine .reply ?_ inFlight _ _
    refine State.evaluateFreeze_stays (u := s.applySettings (clientOf (byteAt ps 0)) ps) time ports (fun ordered => ?_)
      fun _ => ?_
    · exact (ordered.endFreeze _).congr rfl rfl fun _ => rfl
    · simpa [State.applySettings] using allowance

theorem execLeave_advances (p : ClientId) (s : State) : ∃ t, execLeave p s = .next t ∧ s.Advances t := by
  refine ⟨_, rfl, .request fun ps passes => ?_⟩
  have inFlight := passes.1
  have waits : s.AtPorts (s.setPort p { s.port p with inFlight := .waiting p }) := (State.AtPorts.refl s).setPort p fun h =>
    h.withInFlight (by rw [inFlight]; nofun) nofun
  exact ((State.Moves.of_atPorts waits).beginTeardown p _).advances fun calm => by
    have idle := calm.requests p
    rw [inFlight] at idle
    cases idle

theorem execEvict_advances (p : ClientId) (s : State) : ∃ t, execEvict p s = .next t ∧ s.Advances t := by
  refine ⟨_, rfl, .request fun ps passes => ?_⟩
  have inFlight := passes.1
  simp only
  split
  · exact .reply (.refl s) inFlight _ _
  · have waits : s.AtPorts (s.setPort p { s.port p with inFlight := .waiting (clientOf (byteAt ps 0)) }) :=
      (State.AtPorts.refl s).setPort p fun h => h.withInFlight (by rw [inFlight]; nofun) nofun
    exact ((State.Moves.of_atPorts waits).beginTeardown _ _).advances fun calm => by
      have idle := calm.requests p
      rw [inFlight] at idle
      cases idle

theorem execTakeNotice_advances (p : ClientId) (s : State) : ∃ t, execTakeNotice p s = .next t ∧ s.Advances t := by
  refine ⟨_, rfl, .request fun _ passes => ?_⟩
  split
  · exact .reply (.refl s) passes.1 _ _
  · refine .reply ?_ passes.1 _ _
    exact .of_same ⟨rfl, rfl, rfl⟩ rfl rfl rfl

theorem execInspectClient_advances (p : ClientId) (s : State) :
    ∃ t, execInspectClient p s = .next t ∧ s.Advances t := by
  refine ⟨_, rfl, .request fun _ passes => ?_⟩
  simp only
  split
  · exact .reply (.refl s) passes.1 _ _
  split <;> exact .reply (.refl s) passes.1 _ _

/-! ### The ports -/

theorem execUnknownCode_advances (p : ClientId) (s : State) : ∃ t, execUnknownCode p s = .next t ∧ s.Advances t := by
  refine ⟨_, rfl, State.AtPorts.advances ?_⟩
  split
  · rename_i inFlight
    split
    · exact .refl s
    · exact (State.AtPorts.refl s).setPort p fun h => h.withInFlight (by rw [inFlight]; nofun) nofun
  all_goals exact .refl s

theorem execFrameStart_advances (p : ClientId) (s : State) : ∃ t, execFrameStart p s = .next t ∧ s.Advances t := by
  refine ⟨_, rfl, State.AtPorts.advances ?_⟩
  simp only
  split
  · exact .refl s
  split
  · rename_i state
    exact ((State.AtPorts.refl s).setPort p fun h => h.framed state rfl).setNoticeSet p _
  · rename_i state
    exact (State.AtPorts.refl s).setPort p fun h => h.ignored state

/-- The bits of a frame do not reach its snapshot (R141). -/
theorem Frame.snapshot_foldl_sample (bits : List Bool) (f : Frame) : (bits.foldl Frame.sample f).snapshot = f.snapshot := by
  induction bits generalizing f with
  | nil => rfl
  | cons bit bits ih =>
    rw [List.foldl_cons, ih]
    unfold Frame.sample
    simp only
    split <;> rfl

/-- A delivery at the end of a frame empties the slot and clears flags, which the law of a port does not read (R145,
R151). -/
theorem Port.Consistent.delivered {x : Port} {u : Startup} (h : x.Consistent u) {f : Frame} (hf : x.frame = some f)
    (filled : f.snapshot.filled = true) (st : Status) (guarded : Bool) :
    let y := Port.clearShown { x with selectLow := false, frame := none, slot := .empty } st guarded
    y.Consistent u ∧ (y.state = .ready ∨ y.state = .busy) ∧ y.frame = none := by
  obtain ⟨state, shows⟩ := h.of_frame hf
  have emptied : Port.Consistent { x with selectLow := false, frame := none, slot := .empty } u :=
    h.closed.emptied (shows filled) rfl rfl rfl rfl rfl
  unfold Port.clearShown
  simp only
  split
  · exact ⟨emptied, state, rfl⟩
  · exact ⟨emptied.congr rfl rfl rfl rfl rfl, state, rfl⟩

theorem execFrameEnd_advances (p : ClientId) (n : Nat) (d : BitVec n) (s : State) :
    ∃ t, execFrameEnd p n d s = .next t ∧ s.Advances t := by
  refine ⟨_, rfl, State.AtPorts.advances ?_⟩
  have closed : s.AtPorts (s.setPort p { s.port p with selectLow := false, frame := none }) :=
    (State.AtPorts.refl s).setPort p Port.Consistent.closed
  simp only
  split
  · exact .refl s
  split
  · exact closed
  split
  · exact closed
  rename_i f hf _
  have snapshot := Frame.snapshot_foldl_sample (sampledBits n d) f
  generalize (sampledBits n d).foldl Frame.sample f = f' at snapshot
  split
  · rename_i delivers
    have filled : f.snapshot.filled = true := by
      simp only [Frame.delivers, Bool.and_eq_true, snapshot] at delivers
      exact delivers.1
    have delivered := fun h : (s.port p).Consistent s.startup => h.delivered hf filled f'.snapshot.status
      ((s.setPort p { s.port p with selectLow := false, frame := none }).deliveryProtected p)
    simp only [State.deliver, State.port_setPort_self, State.port_setNoticeSet]
    refine State.AtPorts.setPort ((closed.setPort p fun h => (delivered h).1).setNoticeSet p _) p fun h => ?_
    obtain ⟨consistent, state, noFrame⟩ := delivered h
    exact consistent.judge state noFrame _
  · rw [State.port_setPort_self]
    exact closed.setPort p fun h => h.closed.judge (h.of_frame hf).1 rfl _

theorem execReplyReady_advances (p : ClientId) (s : State) : ∃ t, execReplyReady p s = .next t ∧ s.Advances t := by
  refine ⟨_, rfl, State.AtPorts.advances ?_⟩
  split
  · exact s.placeReply_atPorts p _ _
  all_goals exact .refl s

theorem execResetSenseAssert_advances (p : ClientId) (s : State) :
    ∃ t, execResetSenseAssert p s = .next t ∧ s.Advances t := by
  refine ⟨_, rfl, State.AtPorts.advances ?_⟩
  simp only
  split
  · exact .refl s
  split
  · exact (State.AtPorts.refl s).setPort p fun h => h.congr rfl rfl rfl rfl rfl
  · exact (State.AtPorts.refl s).setPort p fun h => h.congr rfl rfl rfl rfl rfl
  · rename_i state
    exact (State.AtPorts.refl s).setPort p fun h => h.aborted (.inl state)
  · rename_i state
    exact (State.AtPorts.refl s).setPort p fun h => h.aborted (.inr state)

theorem execResetSenseRelease_advances (p : ClientId) (s : State) :
    ∃ t, execResetSenseRelease p s = .next t ∧ s.Advances t := by
  refine ⟨_, rfl, State.AtPorts.advances ?_⟩
  split
  · have released : s.AtPorts (s.setPort p { s.port p with resetSense := false }) :=
      (State.AtPorts.refl s).setPort p fun h => h.congr rfl rfl rfl rfl rfl
    exact released.trans (State.portReady_atPorts _ p)
  · exact .refl s

/-! ### Teardown -/

theorem execClientResetSense_advances (c : ClientId) (s : State) :
    ∃ t, execClientResetSense c s = .next t ∧ s.Advances t := by
  refine ⟨_, rfl, ?_⟩
  have taken : s.AtPorts (s.setPort c { s.port c with senseOwed := false }) :=
    (State.AtPorts.refl s).setPort c fun h => h.congr rfl rfl rfl rfl rfl
  simp only
  split
  · split
    · rename_i opened
      refine ((State.Moves.of_atPorts taken).beginTeardown c _).advances fun calm => ?_
      rw [calm.sessions c] at opened
      cases opened
    · exact taken.advances
  · exact .refl s

theorem execTeardownCompletion_advances (c : ClientId) (s : State) :
    ∃ t, execTeardownCompletion c s = .next t ∧ s.Advances t := by
  refine ⟨_, rfl, ?_⟩
  split
  · rename_i h
    refine ((State.Moves.refl s).completeTeardown c).advances fun calm => ?_
    rw [calm.sessions c] at h
    cases h.1
  · exact .refl s

theorem execSweepVisit_advances (c : ClientId) (s : State) : ∃ t, execSweepVisit c s = .next t ∧ s.Advances t := by
  refine ⟨_, rfl, ?_⟩
  split
  · rename_i teardown
    have awake : ¬ s.Calm := fun calm => by
      rw [calm.sessions c] at teardown
      cases teardown
    split
    · exact .refl s
    · rename_i i _
      have moved : s.KeepsOrder (s.setClient c { s.client c with sweepFrom := i.val + 1 }) :=
        .of_same (.of_quiet ((State.Quiet.refl s).setClient c _ .inl rfl rfl rfl)) ⟨rfl, rfl, rfl⟩ rfl rfl rfl
      simp only
      split
      · exact (moved.endHolding i c _).stays.advances awake
      · exact (moved.endWait i c).stays.advances awake
  · exact .refl s

/-! ### Expiries -/

/-- A deadline that is due is a deadline. -/
theorem State.not_calm_of_due {s : State} {o : Owner} {d : Deadline} (h : s.dueDeadline o = some d) : ¬ s.Calm :=
  fun calm => by
    have live := (State.dueDeadline_mem h).1
    rw [calm.deadlines] at live
    cases live

theorem State.not_calm_of_dueOfKind {s : State} {o : Owner} {k : DeadlineKind} (h : s.dueOfKind o k = true) :
    ¬ s.Calm := by
  cases due : s.dueDeadline o with
  | none => simp [State.dueOfKind, due] at h
  | some d => exact State.not_calm_of_due due

theorem execLeaseWarn_advances (i : SlotId) (c : ClientId) (s : State) :
    ∃ t, execLeaseWarn i c s = .next t ∧ s.Advances t := by
  refine ⟨_, rfl, ?_⟩
  split
  · rename_i interval due h
    obtain ⟨-, -, now⟩ := State.dueDeadline_mem h
    rw [show due = s.clock from now]
    exact (s.warnLease_keepsOrder i c interval).stays.advances (State.not_calm_of_due h)
  · exact .refl s

theorem execLeaseEnd_advances (i : SlotId) (c : ClientId) (s : State) :
    ∃ t, execLeaseEnd i c s = .next t ∧ s.Advances t := by
  refine ⟨_, rfl, ?_⟩
  split
  · rename_i h
    exact (((State.KeepsOrder.refl s).removeLive _).endHolding i c _).stays.advances (State.not_calm_of_dueOfKind h)
  · exact .refl s

theorem execOfferEnd_advances (i : SlotId) (c : ClientId) (s : State) :
    ∃ t, execOfferEnd i c s = .next t ∧ s.Advances t := by
  refine ⟨_, rfl, ?_⟩
  split
  · rename_i h
    exact (((State.KeepsOrder.refl s).removeLive _).endHolding i c _).stays.advances (State.not_calm_of_dueOfKind h)
  · exact .refl s

theorem execWaitEnd_advances (i : SlotId) (c : ClientId) (s : State) :
    ∃ t, execWaitEnd i c s = .next t ∧ s.Advances t := by
  refine ⟨_, rfl, ?_⟩
  split
  · rename_i h
    exact (((State.KeepsOrder.refl s).removeLive _).lapseWait i c).stays.advances (State.not_calm_of_dueOfKind h)
  · exact .refl s

theorem execAllowanceEnd_advances (c : ClientId) (s : State) :
    ∃ t, execAllowanceEnd c s = .next t ∧ s.Advances t := by
  refine ⟨_, rfl, ?_⟩
  split
  · rename_i h
    have spent := (State.Moves.refl s).setClient c { s.client c with holdUsed := (s.client c).allowanceMs }
    have frame := State.thaw_frame (s.setClient c { s.client c with holdUsed := (s.client c).allowanceMs }) c .overstayed
    exact (spent.trans (.of_ports frame.1 frame.2 fun ordered => ordered.thaw c _)).advances
      (State.not_calm_of_dueOfKind h.1)
  · exact .refl s

/-! ### Hold sense -/

theorem State.setLevel_moves (s : State) (c : ClientId) (level : Bool) : s.Moves (s.setLevel c level) := by
  refine .of_ports ⟨rfl, rfl, rfl⟩ rfl fun ordered => ordered.congr rfl rfl fun d => ?_
  rw [s.holdUnit_setLevel]
  split <;> simp [*]

theorem execHoldAssertion_advances (c : ClientId) (s : State) :
    ∃ t, execHoldAssertion c s = .next t ∧ s.Advances t := by
  refine ⟨_, rfl, ?_⟩
  have taken := s.setLevel_moves c true
  have same : s.Calm → (s.setLevel c true).deadlines = [] ∧ ∀ d, ((s.setLevel c true).client d).session = .none :=
    fun calm => ⟨calm.deadlines, calm.sessions⟩
  simp only
  split
  · exact .refl s
  split
  · split
    · rename_i condition
      simp only [State.freezeCondition, Bool.and_eq_true, beq_iff_eq] at condition
      exact ⟨taken.time, taken.ports, fun range ordered => (taken.order ordered).enterFreeze (range.2 c),
        fun calm => absurd (condition.1.1.symm.trans (calm.sessions c)) nofun⟩
    split
    · rename_i spent
      simp only [Client.allowanceSpent, Bool.and_eq_true, beq_iff_eq] at spent
      exact (taken.setClient c _).advances fun calm => absurd (spent.1.1.symm.trans (calm.sessions c)) nofun
    · exact ⟨taken.time, taken.ports, fun _ => taken.order, same⟩
  · exact ⟨taken.time, taken.ports, fun _ => taken.order, same⟩

theorem execHoldRelease_advances (c : ClientId) (s : State) : ∃ t, execHoldRelease c s = .next t ∧ s.Advances t := by
  refine ⟨_, rfl, ?_⟩
  have moved := (s.setLevel_moves c false).endFreeze c
  split
  · refine ⟨moved.time, moved.ports, fun _ => moved.order, fun calm => ?_⟩
    have thawed : ((s.setLevel c false).client c).freeze = .thawed := calm.freezes c
    simp only [State.endFreeze, thawed]
    refine ⟨calm.deadlines, fun d => ?_⟩
    rw [State.client_setClient]
    split
    · exact calm.sessions c
    · exact calm.sessions d
  · exact .refl s

end Sys2Proof.Machine
end

section
/-! PROOF. Every step keeps the ports consistent and the part quiet until start-up has ended (O50), and the Deadline List in
order (O59): every command but five advances the part in one way, and these five, the part resets, the end of start-up and
the clock, are taken one by one. -/

namespace Sys2Proof.Machine

/-- The command resets the part, starts it up or counts time. -/
def movesTime : Instr → Bool
  | .powerOn .. | .resetPin | .resetPinRelease _ | .startupEnd | .millisecondBoundary => true
  | _ => false

/-- Every other command advances the part without moving its time. -/
theorem exec_advances (c : Instr) (s : State) (h : movesTime c = false) : ∃ t, exec c s = .next t ∧ s.Advances t := by
  cases c with
  | powerOn | resetPin | resetPinRelease | startupEnd | millisecondBoundary => cases h
  | frameStart p => exact execFrameStart_advances p s
  | frameEnd p n d => exact execFrameEnd_advances p n d s
  | idle p => exact ⟨s, rfl, .refl s⟩
  | replyReady p => exact execReplyReady_advances p s
  | join p => exact execJoin_advances p s
  | leave p => exact execLeave_advances p s
  | acquire p => exact execAcquire_advances p s
  | accept p => exact execAccept_advances p s
  | decline p => exact execDecline_advances p s
  | cancel p => exact execCancel_advances p s
  | renew p => exact execRenew_advances p s
  | release p => exact execRelease_advances p s
  | downgrade p => exact execDowngrade_advances p s
  | markSound p => exact execMarkSound_advances p s
  | query p => exact execQuery_advances p s
  | takeNotice p => exact execTakeNotice_advances p s
  | define p => exact execDefine_advances p s
  | amend p => exact execAmend_advances p s
  | retire p => exact execRetire_advances p s
  | revoke p => exact execRevoke_advances p s
  | evict p => exact execEvict_advances p s
  | setClient p => exact execSetClient_advances p s
  | inspectClient p => exact execInspectClient_advances p s
  | unknownCode p => exact execUnknownCode_advances p s
  | sweepVisit c => exact execSweepVisit_advances c s
  | teardownCompletion c => exact execTeardownCompletion_advances c s
  | resetSenseAssert p => exact execResetSenseAssert_advances p s
  | clientResetSense c => exact execClientResetSense_advances c s
  | resetSenseRelease p => exact execResetSenseRelease_advances p s
  | holdAssertion c => exact execHoldAssertion_advances c s
  | holdRelease c => exact execHoldRelease_advances c s
  | leaseWarn i c => exact execLeaseWarn_advances i c s
  | leaseEnd i c => exact execLeaseEnd_advances i c s
  | offerEnd i c => exact execOfferEnd_advances i c s
  | waitEnd i c => exact execWaitEnd_advances i c s
  | allowanceEnd c => exact execAllowanceEnd_advances c s

/-! ### Ports and start-up -/

/-- Ports and start-up together, with the law that keeps a session without freeze (R138, R152). -/
structure State.PortsLawful (s : State) : Prop where
  ports : ∀ p, (s.port p).Consistent s.startup
  quiet : s.StartupQuiet

/-- Until start-up has ended nothing is under way (R89, R138, R152). -/
theorem State.PortsLawful.calm {s : State} (h : s.PortsLawful) (freeze : s.FreezeLaw) (running : s.startup ≠ .ended) :
    s.Calm := by
  obtain ⟨-, deadlines, sessions⟩ := h.quiet running
  refine ⟨deadlines, sessions, fun c => ?_, fun p => (h.ports p).idle running⟩
  by_contra hf
  have opened := ((s.freezeLaw_iff.mp freeze c).standing hf).1
  rw [sessions c] at opened
  cases opened

theorem State.Advances.portsLawful {s t : State} (h : s.Advances t) (lawful : s.PortsLawful) (freeze : s.FreezeLaw) :
    t.PortsLawful := by
  obtain ⟨-, startup, clock⟩ := h.time
  refine ⟨fun p => startup ▸ h.ports p (lawful.ports p), fun running => ?_⟩
  rw [startup] at running
  exact ⟨clock.trans (lawful.quiet running).1, h.calm (lawful.calm freeze running)⟩

/-- A port after a part reset is consistent while start-up lasts (R138, R152). -/
theorem Port.initial_consistent (selectLow resetSense : Bool) {u : Startup} (running : u ≠ .ended) :
    (Port.initial selectLow resetSense).Consistent u := ⟨running, rfl, rfl, rfl⟩

/-- The commands that move the time keep ports and start-up lawful (R72, R138, R152). -/
theorem exec_movesTime_portsLawful {c : Instr} (s : State) (h : movesTime c = true) (lawful : s.PortsLawful) :
    ∃ t, exec c s = .next t ∧ t.PortsLawful := by
  cases c with
  | powerOn sel rsn hld =>
    refine ⟨_, rfl, fun p => ?_, fun _ => ⟨rfl, rfl, fun c => ?_⟩⟩
    · simpa [State.port, State.powerOn] using Port.initial_consistent sel[p] rsn[p] (u := .counting) nofun
    · simp [State.client, State.powerOn, Client.initial]
  | resetPin =>
    refine ⟨_, rfl, fun p => ?_, fun _ => ⟨rfl, rfl, fun c => ?_⟩⟩
    · simpa [State.port] using
        Port.initial_consistent (s.port p).selectLow (s.port p).resetSense (u := .held) nofun
    · simp [State.client, Client.afterResetPin, Client.initial]
  | resetPinRelease levels =>
    refine ⟨_, rfl, ?_⟩
    split
    · rename_i held
      have running : s.startup ≠ .ended := by rw [held]; decide
      exact ⟨fun p => (lawful.ports p).before running nofun, fun _ => lawful.quiet running⟩
    · exact lawful
  | startupEnd =>
    refine ⟨_, rfl, ?_⟩
    split
    · rename_i counting
      refine ⟨fun p => ?_, fun running => absurd rfl running⟩
      simpa [State.port] using (lawful.ports p).started (by rw [counting]; decide)
    · exact lawful
  | millisecondBoundary =>
    refine ⟨_, rfl, ?_⟩
    split
    · rename_i condition
      exact ⟨lawful.ports, fun running => absurd condition.1 running⟩
    · exact lawful
  | _ => cases h

theorem exec_portsLawful (c : Instr) (s : State) (lawful : s.PortsLawful) (freeze : s.FreezeLaw) :
    ∃ t, exec c s = .next t ∧ t.PortsLawful := by
  by_cases hc : movesTime c = true
  · exact exec_movesTime_portsLawful s hc lawful
  · obtain ⟨t, ht, advances⟩ := exec_advances c s (by simpa using hc)
    exact ⟨t, ht, advances.portsLawful lawful freeze⟩

theorem State.portsLawful_iff (s : State) : s.PortsLawful ↔ s.PortsConsistent ∧ s.StartupQuiet :=
  ⟨fun h => ⟨fun p => (s.portConsistent_iff p).mpr (h.ports p), h.quiet⟩,
    fun h => ⟨fun p => (s.portConsistent_iff p).mp (h.1 p), h.2⟩⟩

/-- Settles O50: each command changes a port in one of the ways of R138; until start-up has ended, no command finds anything
under way. -/
theorem stepKeepsPortsConsistent : Obligations.StepKeepsPortsConsistent := by
  intro s t ports quiet freeze hstep
  refine t.portsLawful_iff.mp (step_leads (P := fun s => s.PortsLawful ∧ s.FreezeLaw) (fun _ _ h => ?_)
    (fun c s h => exec_portsLawful c s h.1 h.2) (fun _ h => h.1) ⟨s.portsLawful_iff.mpr ⟨ports, quiet⟩, freeze⟩ hstep)
  exact ⟨⟨h.1.ports, h.1.quiet⟩, h.2⟩

/-! ### The order of the Deadline List -/

/-- A part without a deadline, live or stored. -/
theorem State.deadlinesOrdered_of_none {t : State} (deadlines : t.deadlines = [])
    (stored : ∀ c, (t.holdUnit c).stored = []) : t.DeadlinesOrdered := by
  simp [State.DeadlinesOrdered, deadlines, stored]

/-- A due time that is not now is one ms nearer at the next reading (R72, R73). -/
theorem distance_tick (due clock : Time) (h : due ≠ clock) :
    (due - (clock + 1)).toNat + 1 = (due - clock).toNat := by
  bv_omega

/-- While no deadline is due, a boundary brings all of them one ms nearer (R72, R80). -/
theorem State.DeadlinesOrdered.tick {s t : State} (h : s.DeadlinesOrdered) (clock : t.clock = s.clock + 1)
    (deadlines : t.deadlines = s.deadlines) (units : t.holdUnits = s.holdUnits) (none : s.anyDue = false) :
    t.DeadlinesOrdered := by
  obtain ⟨ordered, near, range⟩ := h
  have nearer : ∀ d ∈ s.deadlines, t.distance d.due + 1 = s.distance d.due := fun d hd => by
    have later : d.due ≠ s.clock := by simpa using (List.any_eq_false.mp none) d hd
    rw [State.distance, clock]
    exact distance_tick d.due s.clock later
  refine ⟨?_, fun d hd => ?_, fun c => by simpa only [State.holdUnit, units] using range c⟩
  · rw [deadlines]
    refine ordered.imp_of_mem fun {d e} hd he hle => ?_
    have := nearer d hd
    have := nearer e he
    omega
  · rw [deadlines] at hd
    have := nearer d hd
    have := near d hd
    omega

/-- The commands that move the time keep the deadlines in order (R73, R76). -/
theorem exec_movesTime_ordered {c : Instr} (s : State) (h : movesTime c = true) (ordered : s.DeadlinesOrdered) :
    ∃ t, exec c s = .next t ∧ t.DeadlinesOrdered := by
  cases c with
  | powerOn sel rsn hld =>
    exact ⟨_, rfl, State.deadlinesOrdered_of_none rfl fun c => by simp [State.holdUnit, State.powerOn, HoldUnit.initial]⟩
  | resetPin => exact ⟨_, rfl, State.deadlinesOrdered_of_none rfl fun c => by simp [State.holdUnit, HoldUnit.initial]⟩
  | resetPinRelease levels =>
    refine ⟨_, rfl, ?_⟩
    split
    · exact ordered.congr rfl rfl fun c => by simp [State.holdUnit]
    · exact ordered
  | startupEnd =>
    refine ⟨_, rfl, ?_⟩
    split
    · exact ordered.congr rfl rfl fun _ => rfl
    · exact ordered
  | millisecondBoundary =>
    refine ⟨_, rfl, ?_⟩
    split
    · rename_i condition
      exact ordered.tick rfl rfl rfl condition.2
    · exact ordered
  | _ => cases h

theorem exec_ordered (c : Instr) (s : State) (range : s.InRange) (ordered : s.DeadlinesOrdered) :
    ∃ t, exec c s = .next t ∧ t.DeadlinesOrdered := by
  by_cases hc : movesTime c = true
  · exact exec_movesTime_ordered s hc ordered
  · obtain ⟨t, ht, advances⟩ := exec_advances c s (by simpa using hc)
    exact ⟨t, ht, advances.order range ordered⟩

/-- Settles O59: what a command arms is in range, by the terms of the records and the hold allowances, and is inserted in its
place; the clock comes nearer to every deadline at once. -/
theorem stepKeepsTheDeadlineOrder : Obligations.StepKeepsTheDeadlineOrder := by
  intro s t directory hold ordered hstep
  exact step_leads (P := fun s => s.InRange ∧ s.DeadlinesOrdered) (fun _ _ h => h)
    (fun c s h => exec_ordered c s h.1 h.2) (fun _ h => h.2) ⟨⟨directory.1, fun c => (hold c).2⟩, ordered⟩ hstep

end Sys2Proof.Machine
end

section
/-! PROOF. The clock and the lease warning (O6, O42), the end of the hold allowance (O45), and the changes of a hold-sense
input (O47, O48). -/

namespace Sys2Proof.Machine

/-! ### The clock (R72) -/

/-- Hold used counts while FROZEN, up to the allowance (R93). -/
theorem Client.countHold_eq (x : Client) : x.countHold = { x with
    holdUsed := if x.freeze = .frozen then min (x.holdUsed + 1) (1000 * x.holdAllowance) else x.holdUsed } := by
  unfold Client.countHold
  split <;> rfl

theorem State.anyDue_iff (s : State) : s.anyDue = true ↔ ∃ d ∈ s.deadlines, d.due = s.clock := by
  simp [State.anyDue]

/-- Settles O6: the boundary is taken exactly when start-up has ended and no deadline is due. -/
theorem millisecondBoundaryCounts : Obligations.MillisecondBoundaryCounts := by
  refine ⟨fun s ended later => ?_, fun s running => ?_, fun s due => ?_⟩
  · have notDue : s.anyDue = false := by
      rw [← Bool.not_eq_true, s.anyDue_iff]
      rintro ⟨d, hd, now⟩
      exact later d hd now
    refine ⟨_, congrArg Host.Outcome.next (if_pos ⟨ended, notDue⟩), rfl, fun c => ?_, rfl, rfl, ⟨rfl, rfl, rfl, rfl⟩, rfl,
      rfl, rfl⟩
    have counted : (Vector.ofFn fun d => (s.client d).countHold)[c] = (s.client c).countHold := by simp
    exact counted.trans (s.client c).countHold_eq
  · exact congrArg Host.Outcome.next (if_neg fun h => running h.1)
  · refine congrArg Host.Outcome.next (if_neg fun h => ?_)
    rw [s.anyDue_iff.mpr due] at h
    cases h.2

/-! ### The lease warning (R84) -/

/-- The ms of a 16-bit duration ahead of the clock (R73). -/
theorem State.distance_word (s : State) (n : Ms) : s.distance (s.clock + n.setWidth 32) = n.toNat := by
  have word := n.isLt
  rw [← BitVec.ofNat_toNat]
  exact s.distance_add _ (by omega)

/-- The LEASE-END that replaces a LEASE-WARN (R84). -/
def State.leaseEndAfter (s : State) (i : SlotId) (c : ClientId) (interval : Ms) : Deadline :=
  { owner := .holding i c, kind := .leaseEnd, due := s.clock + interval.setWidth 32 }

/-- The record with a client's holding warned (R84). -/
def Resource.warns (r : Resource) (c : ClientId) : Resource :=
  { r with holders := r.holders.map fun h => if h.client = c then { h with warned := true } else h }

/-- What a lease warning makes of the state, its notice aside: the deadline replaced and the record marked (R84). -/
def State.warned (s : State) (i : SlotId) (c : ClientId) (r : Resource) (interval : Ms) : State :=
  ((s.removeLive (.holding i c)).insertDeadline (s.leaseEndAfter i c interval)).setRecord i (some (r.warns c))

theorem State.warnLease_eq {s : State} {i : SlotId} {c : ClientId} {r : Resource} {h : Holding} (interval : Ms)
    (hr : s.record i = some r) (hh : r.holdingOf c = some h) :
    s.warnLease i c s.clock interval
      = (s.warned i c r interval).raiseNotice c (notice r.key (.expiring interval) (some h.gen)) := by
  have marked := State.modifyRecord_some ((s.removeLive (.holding i c)).insertDeadline (s.leaseEndAfter i c interval)) i
    (fun r => r.warns c) r hr
  simp only [State.warnLease, hr, hh, s.distance_word, BitVec.ofNat_toNat, BitVec.setWidth_eq, State.warned, ← marked]
  rfl

/-- With one claim at most, the holding warned is the client's one (R49). -/
theorem Resource.warns_eq {r : Resource} {c : ClientId} {h : Holding} (one : r.claimsOf c ≤ 1)
    (hh : r.holdingOf c = some h) :
    r.warns c = { r with holders := r.holders.map fun g => if g.client = c then { h with warned := true } else g } := by
  refine congrArg (fun l => { r with holders := l }) (List.map_congr_left fun g hg => ?_)
  by_cases hc : g.client = c
  · rw [if_pos hc, if_pos hc, Resource.holdingOf_unique one hh g hg hc]
  · rw [if_neg hc, if_neg hc]

section
variable (s : State) (i : SlotId) (c : ClientId) (r : Resource) (interval : Ms)

theorem State.deadlineOf_warned_self :
    (s.warned i c r interval).deadlineOf (.holding i c) = some (.leaseEnd, interval.toNat, false) := by
  rw [← s.distance_word interval]
  exact State.deadlineOf_insertDeadline_self _ (s.leaseEndAfter i c interval) fun e he => by
    simpa [State.leaseEndAfter] using (List.mem_filter.mp he).2

theorem State.deadlineOf_warned_ne {o : Owner} (ho : o ≠ .holding i c) :
    (s.warned i c r interval).deadlineOf o = s.deadlineOf o :=
  (State.deadlineOf_insertDeadline_ne _ (s.leaseEndAfter i c interval) o (Ne.symm ho)).trans
    (s.deadlineOf_removeLive_ne _ _ ho)

theorem State.warned_insertedInto : s.InsertedInto (s.leaseEndAfter i c interval)
    (s.deadlines.filter fun d => d.owner != .holding i c) (s.warned i c r interval).deadlines :=
  (s.removeLive (.holding i c)).insertDeadline_insertedInto (s.leaseEndAfter i c interval)

end

/-- Settles O42: the deadline that is due is taken, its LEASE-END inserted, the record marked and the notice raised. -/
theorem leaseWarnRaisesExpiring : Obligations.LeaseWarnRaisesExpiring := by
  intro i c s r h interval due hr hh one
  have taken : exec (.leaseWarn i c) s = .next (s.warnLease i c s.clock interval) := by
    simp only [exec, execLeaseWarn, s.dueDeadline_isDue _ _ due]
  rw [State.warnLease_eq interval hr hh] at taken
  have told := (s.warned i c r interval).raiseNotice_same c (notice r.key (.expiring interval) (some h.gen))
  have here := (s.warned i c r interval).noticeSet_raiseNotice_self c (notice r.key (.expiring interval) (some h.gen))
  have record : ∀ j, ((s.warned i c r interval).raiseNotice c
      (notice r.key (.expiring interval) (some h.gen))).record j = (s.warned i c r interval).record j := fun j => by
    simp only [State.record, told.slots]
  refine ⟨_, taken, (State.deadlineOf_same told _).trans (s.deadlineOf_warned_self i c r interval),
    fun o ho => (State.deadlineOf_same told o).trans (s.deadlineOf_warned_ne i c r interval ho), ?_, ?_,
    fun opened => here.trans (if_pos opened), fun closed => here.trans (if_neg closed),
    fun d hd => (s.warned i c r interval).noticeSet_raiseNotice_ne c d _ hd, ⟨told.pending, told.startup, told.clock⟩,
    fun j hj => (record j).trans (State.record_setRecord_ne _ i _ j hj), told.backlog, told.grant, told.clients,
    told.holdUnits, told.ports⟩
  · rw [told.deadlines]
    exact s.warned_insertedInto i c r interval
  · rw [record, ← Resource.warns_eq (one i r c hr) hh]
    exact State.record_setRecord_self _ i _

/-! ### What a freeze and its end leave (R92, R95) -/

/-- Nothing has changed but the deadlines and the client record and hold-sense record of one client. -/
structure State.OnlyFreeze (s t : State) (c : ClientId) : Prop where
  clients : s.SameClientsBut t c
  units : s.SameUnitsBut t c
  time : s.SameTime t
  slots : t.slots = s.slots
  backlog : t.backlog = s.backlog
  grant : t.grant = s.grant
  notices : t.notices = s.notices
  ports : t.ports = s.ports

namespace State.OnlyFreeze

theorem trans {s t u : State} {c : ClientId} (h : s.OnlyFreeze t c) (k : t.OnlyFreeze u c) : s.OnlyFreeze u c where
  clients d hd := (k.clients d hd).trans (h.clients d hd)
  units d hd := (k.units d hd).trans (h.units d hd)
  time := ⟨k.time.1.trans h.time.1, k.time.2.1.trans h.time.2.1, k.time.2.2.trans h.time.2.2⟩
  slots := k.slots.trans h.slots
  backlog := k.backlog.trans h.backlog
  grant := k.grant.trans h.grant
  notices := k.notices.trans h.notices
  ports := k.ports.trans h.ports

theorem of_setClient (s : State) (c : ClientId) (x : Client) : s.OnlyFreeze (s.setClient c x) c :=
  ⟨fun d hd => by simp [hd], fun _ _ => rfl, ⟨rfl, rfl, rfl⟩, rfl, rfl, rfl, rfl, rfl⟩

theorem of_setLevel (s : State) (c : ClientId) (level : Bool) : s.OnlyFreeze (s.setLevel c level) c :=
  ⟨fun _ _ => rfl, fun d hd => by rw [s.holdUnit_setLevel, if_neg hd], ⟨rfl, rfl, rfl⟩, rfl, rfl, rfl, rfl, rfl⟩

theorem of_enterFreeze (s : State) (c : ClientId) : s.OnlyFreeze (s.enterFreeze c) c :=
  ⟨fun d hd => by rw [s.enterFreeze_client, if_neg hd], fun d hd => by rw [s.enterFreeze_holdUnit, if_neg hd],
    ⟨rfl, rfl, rfl⟩, rfl, rfl, rfl, rfl, rfl⟩

theorem of_thaw (s : State) (c : ClientId) (next : Freeze) : s.OnlyFreeze (s.thaw c next) c := by
  have same := State.foldl_putBack_same (s.holdUnit c).stored
    (((s.removeLive (.client c)).setClient c { s.client c with freeze := next }).setHoldUnit c
      { s.holdUnit c with freezeStart := none, stored := [] })
  exact ⟨fun d hd => by rw [s.thaw_client, if_neg hd], fun d hd => by rw [s.thaw_holdUnit, if_neg hd],
    ⟨same.pending, same.startup, same.clock⟩, same.slots, same.backlog, same.grant, same.notices, same.ports⟩

theorem of_endFreeze (s : State) (c : ClientId) : s.OnlyFreeze (s.endFreeze c) c := by
  unfold State.endFreeze
  split
  · exact .of_thaw s c _
  all_goals exact .of_setClient s c _

end State.OnlyFreeze

/-! ### ALLOWANCE-END (R96) -/

/-- A client whose ALLOWANCE-END runs is FROZEN (R92). -/
theorem State.FreezeLaw.frozen_of_isDue {s : State} (law : s.FreezeLaw) {c : ClientId} {k : DeadlineKind}
    (due : s.IsDue (.client c) k) : (s.client c).freeze = .frozen := by
  obtain ⟨before, after, list, -⟩ := due
  by_contra running
  exact (((s.freezeLaw_iff.mp law) c).running running).2.2 _ (list ▸ List.mem_append_right _ List.mem_cons_self) rfl

/-- Hold used is no part of the laws of the deadlines (R75, R92). -/
theorem State.DeadlinesLawful.setHoldUsed {s : State} (h : s.DeadlinesLawful) (c : ClientId) (n : Nat) :
    (s.setClient c { s.client c with holdUsed := n }).DeadlinesLawful := by
  obtain ⟨freeze, one, ordered⟩ := h
  have aside := State.Aside.of_setClient s c { s.client c with holdUsed := n } Iff.rfl id
  obtain ⟨freeze', one'⟩ := (State.deadlinesApart_iff _).mp
    (State.DeadlinesApart.aside (s.deadlinesApart_iff.mpr ⟨freeze, one⟩) aside)
  exact ⟨freeze', one', ordered⟩

/-- Where deadlines put back one after another stand depends on the clock alone. -/
theorem State.InsertedInTurn.congr {s t : State} {l old new : List Deadline} (clock : t.clock = s.clock)
    (h : t.InsertedInTurn l old new) : s.InsertedInTurn l old new := by
  induction l generalizing old with
  | nil => exact h
  | cons d l ih =>
    obtain ⟨mid, first, rest⟩ := h
    exact ⟨mid, first.congr clock, ih rest⟩

/-- A change of a client record is no change of what the end of a freeze starts from. -/
theorem State.DeadlinesThaw.of_setClient {s t : State} {c d : ClientId} {x : Client}
    (h : (s.setClient d x).DeadlinesThaw t c) : s.DeadlinesThaw t c := by
  obtain ⟨start, stored, own, unarmed, others, back⟩ := h
  exact ⟨start, stored, own, unarmed, others, back.congr (t := s.setClient d x) rfl⟩

/-- The client record with the whole allowance used (R96). -/
def Client.spent (x : Client) : Client := { x with holdUsed := x.allowanceMs }

/-- Settles O45: one not due is not taken; one that is sets hold used, and the end of the freeze does the rest. -/
theorem allowanceEndOverstays : Obligations.AllowanceEndOverstays := by
  refine ⟨fun c s later => (expiriesNeedALiveDueDeadline 0 c s).2.2 later, fun c s due lawful => ?_⟩
  have frozen := lawful.1.frozen_of_isDue due
  have kind : s.dueOfKind (.client c) .allowanceEnd = true := by simp [State.dueOfKind, s.dueDeadline_isDue _ _ due]
  have taken : exec (.allowanceEnd c) s = .next ((s.setClient c (s.client c).spent).thaw c .overstayed) :=
    congrArg Host.Outcome.next (if_pos ⟨kind, frozen⟩)
  have client : (s.setClient c (s.client c).spent).client c = (s.client c).spent := by simp
  obtain ⟨thaws, overstayed⟩ := (s.setClient c (s.client c).spent).thaw_spec c .overstayed (lawful.setHoldUsed c _)
    (by rw [client]; exact frozen)
  have only := (State.OnlyFreeze.of_setClient s c (s.client c).spent).trans (.of_thaw _ c .overstayed)
  rw [client] at overstayed
  have level : (((s.setClient c (s.client c).spent).thaw c .overstayed).holdUnit c).level = (s.holdUnit c).level := by
    rw [State.thaw_holdUnit, if_pos rfl]
    rfl
  exact ⟨_, taken, overstayed, thaws.of_setClient, level, only.clients, only.units, only.time, only.slots, only.backlog,
    only.grant, only.notices, only.ports⟩

/-! ### HOLD_RELEASE (R90, R95, R97) -/

/-- The end of a freeze reads the list, the clock and what is stored, and nothing else. -/
theorem State.DeadlinesThaw.congr {s t u : State} {c : ClientId} (h : s.DeadlinesThaw t c)
    (deadlines : u.deadlines = t.deadlines) (clock : u.clock = t.clock)
    (start : (u.holdUnit c).freezeStart = (t.holdUnit c).freezeStart)
    (stored : ∀ d, (u.holdUnit d).stored = (t.holdUnit d).stored) : s.DeadlinesThaw u c := by
  have same : ∀ o, u.deadlineOf o = t.deadlineOf o := fun o =>
    State.deadlineOf_congr o clock (by rw [deadlines]) (by rw [stored])
  simpa only [State.DeadlinesThaw, same, deadlines, start, stored] using h

theorem State.stored_setLevel (s : State) (c : ClientId) (level : Bool) (d : ClientId) :
    ((s.setLevel c level).holdUnit d).stored = (s.holdUnit d).stored := by
  rw [s.holdUnit_setLevel]
  split <;> simp [*]

/-- What is put back joins the list by the clock alone. -/
theorem State.deadlines_foldl_putBack (l : List StoredDeadline) {s t : State} (deadlines : t.deadlines = s.deadlines)
    (clock : t.clock = s.clock) : (l.foldl State.putBack t).deadlines = (l.foldl State.putBack s).deadlines := by
  induction l generalizing s t with
  | nil => exact deadlines
  | cons d l ih =>
    refine ih ?_ clock
    simp only [State.putBack, State.insertDeadline, State.setDeadlines, State.distance, deadlines, clock]
    rfl

/-- The level of a hold-sense input has no part in what the end of a freeze puts back. -/
theorem State.endFreeze_setLevel_deadlines (s : State) (c : ClientId) (level : Bool) :
    ((s.setLevel c level).endFreeze c).deadlines = (s.endFreeze c).deadlines := by
  have stored := s.stored_setLevel c level c
  unfold State.endFreeze
  cases hf : (s.client c).freeze with
  | frozen =>
    simp only [show ((s.setLevel c level).client c).freeze = .frozen from hf, State.thaw, stored]
    exact State.deadlines_foldl_putBack _ rfl rfl
  | thawed | overstayed =>
    simp only [show ((s.setLevel c level).client c).freeze = _ from hf]
    rfl

theorem State.endFreeze_of_running {s : State} {c : ClientId} (running : (s.client c).freeze ≠ .frozen) :
    s.endFreeze c = s.setClient c { s.client c with freeze := .thawed } := by
  unfold State.endFreeze
  split
  · exact absurd ‹_› running
  all_goals rfl

theorem State.endFreeze_holdUnit (s : State) (c d : ClientId) : (s.endFreeze c).holdUnit d
    = if d = c ∧ (s.client c).freeze = .frozen then { s.holdUnit c with freezeStart := none, stored := [] }
      else s.holdUnit d := by
  by_cases frozen : (s.client c).freeze = .frozen
  · simp only [State.endFreeze, frozen, State.thaw_holdUnit, and_true]
  · rw [State.endFreeze_of_running frozen, if_neg fun h => frozen h.2]
    rfl

/-- The level of a hold-sense input has no part in the end of a freeze (R95). -/
theorem State.endFreeze_setLevel_thaws {s : State} (lawful : s.DeadlinesLawful) (c : ClientId) (level : Bool) :
    s.DeadlinesThaw ((s.setLevel c level).endFreeze c) c := by
  have frozen : ((s.setLevel c level).client c).freeze = (s.client c).freeze := rfl
  refine (s.endFreeze_spec c lawful).1.congr (s.endFreeze_setLevel_deadlines c level) ?_ ?_ fun d => ?_
  · exact ((s.setLevel c level).endFreeze_frame c).1.2.2.trans (s.endFreeze_frame c).1.2.2.symm
  · simp only [State.endFreeze_holdUnit, State.holdUnit_setLevel, frozen, if_pos]
    split <;> rfl
  · simp only [State.endFreeze_holdUnit, State.holdUnit_setLevel, frozen, if_pos]
    split
    · rfl
    · split <;> simp [*]

/-- Settles O48: the level is recorded, and the end of the freeze does the rest. -/
theorem holdReleaseThaws : Obligations.HoldReleaseThaws := by
  intro c s level lawful
  have taken : exec (.holdRelease c) s = .next ((s.setLevel c false).endFreeze c) :=
    congrArg Host.Outcome.next (if_pos level)
  have only := (State.OnlyFreeze.of_setLevel s c false).trans (.of_endFreeze _ c)
  have released : (((s.setLevel c false).endFreeze c).holdUnit c).level = false := by
    rw [State.endFreeze_holdUnit, State.holdUnit_setLevel, if_pos rfl]
    split <;> rfl
  refine ⟨_, taken, released, (s.setLevel c false).endFreeze_client c, State.endFreeze_setLevel_thaws lawful c false,
    fun running => ?_, only.clients, only.units, only.time, only.slots, only.backlog, only.grant, only.notices, only.ports⟩
  rw [s.endFreeze_setLevel_deadlines, State.endFreeze_of_running running]
  rfl

/-! ### HOLD_ASSERTION (R90, R92, R97) -/

/-- A client whose hold sense is not asserted is THAWED (R92, R98). -/
theorem State.FreezeLaw.thawed_of_level {s : State} (law : s.FreezeLaw) {c : ClientId}
    (level : (s.holdUnit c).level = false) : (s.client c).freeze = .thawed := by
  by_contra hf
  have asserted := (((s.freezeLaw_iff.mp law) c).standing hf).2
  rw [level] at asserted
  cases asserted

/-- What an assertion makes of the state of a THAWED client (R90, R92, R97). -/
def State.holdAsserted (s : State) (c : ClientId) : State :=
  if (s.setLevel c true).freezeCondition c then (s.setLevel c true).enterFreeze c
  else if (s.client c).allowanceSpent then (s.setLevel c true).setClient c { s.client c with freeze := .overstayed }
  else s.setLevel c true

theorem execHoldAssertion_eq {s : State} {c : ClientId} (level : (s.holdUnit c).level = false)
    (thawed : (s.client c).freeze = .thawed) : execHoldAssertion c s = .next (s.holdAsserted c) :=
  congrArg Host.Outcome.next ((if_neg (by simp [level])).trans (if_pos thawed))

theorem State.freezeCondition_setLevel (s : State) (c : ClientId) : (s.setLevel c true).freezeCondition c = true
    ↔ (s.client c).session = .opened ∧ (s.client c).holdUsed < (s.client c).allowanceMs := by
  have client : (s.setLevel c true).client c = s.client c := rfl
  simp [State.freezeCondition, s.holdUnit_setLevel, client]

theorem Client.allowanceSpent_iff (x : Client) : x.allowanceSpent = true
    ↔ x.session = .opened ∧ 0 < x.holdAllowance ∧ x.holdUsed = x.allowanceMs := by
  simp [Client.allowanceSpent, and_assoc]

theorem State.OnlyFreeze.of_holdAsserted (s : State) (c : ClientId) : s.OnlyFreeze (s.holdAsserted c) c := by
  have set := State.OnlyFreeze.of_setLevel s c true
  unfold State.holdAsserted
  split
  · exact set.trans (.of_enterFreeze _ c)
  split
  · exact set.trans (.of_setClient _ c _)
  · exact set

theorem State.holdAsserted_level (s : State) (c : ClientId) : ((s.holdAsserted c).holdUnit c).level = true := by
  have set : ((s.setLevel c true).holdUnit c).level = true := by rw [s.holdUnit_setLevel, if_pos rfl]
  unfold State.holdAsserted
  split
  · rw [State.enterFreeze_holdUnit, if_pos rfl]
    exact set
  split <;> exact set

/-- For a client that is not FROZEN, recording the level is no end of a freeze and no entry (R90). -/
theorem State.setLevel_thaws {s : State} (lawful : s.DeadlinesLawful) {c : ClientId}
    (running : (s.client c).freeze ≠ .frozen) (level : Bool) : s.DeadlinesThaw (s.setLevel c level) c := by
  have thaws := State.endFreeze_setLevel_thaws lawful c level
  rw [State.endFreeze_of_running (s := s.setLevel c level) running] at thaws
  exact thaws.congr rfl rfl rfl fun _ => rfl

theorem State.DeadlinesLawful.freezeLaw_setLevel {s : State} (lawful : s.DeadlinesLawful) (c : ClientId) :
    (s.setLevel c true).FreezeLaw := by
  obtain ⟨freeze, one, -⟩ := lawful
  exact ((State.deadlinesApart_iff _).mp ((s.deadlinesApart_iff.mpr ⟨freeze, one⟩).aside (.of_setLevel s c))).1

/-- Settles O47: the level is recorded; then the freeze condition (R92) and the spent allowance (R97) part the cases. -/
theorem holdAssertionFreezes : Obligations.HoldAssertionFreezes := by
  intro c s level lawful within
  have thawed := lawful.1.thawed_of_level level
  have running : (s.client c).freeze ≠ .frozen := by rw [thawed]; decide
  have recorded := State.setLevel_thaws lawful running true
  have ⟨start, stored, _⟩ := recorded
  have bound : (s.client c).allowanceMs - (s.client c).holdUsed < 2 ^ 32 := by
    have := (within c).2
    unfold Client.allowanceMs
    omega
  have only := State.OnlyFreeze.of_holdAsserted s c
  refine ⟨_, execHoldAssertion_eq level thawed, s.holdAsserted_level c, fun freezes => ?_, fun spent => ?_,
    fun stays => ?_, only.clients, only.units, only.time, only.slots, only.backlog, only.grant, only.notices, only.ports⟩
  · obtain ⟨entered, frozen⟩ := (s.setLevel c true).enterFreeze_spec c (lawful.freezeLaw_setLevel c) running bound
    rw [State.holdAsserted, if_pos ((s.freezeCondition_setLevel c).mpr freezes)]
    exact ⟨frozen, recorded.freeze entered rfl⟩
  · obtain ⟨opened, allowed, used⟩ := spent
    have unmet : ¬ (s.setLevel c true).freezeCondition c = true := by
      rw [s.freezeCondition_setLevel]
      exact fun h => absurd h.2 (used ▸ lt_irrefl _)
    rw [State.holdAsserted, if_neg unmet, if_pos ((s.client c).allowanceSpent_iff.mpr ⟨opened, allowed, used⟩)]
    exact ⟨by simp, rfl, start, stored⟩
  · have unmet : ¬ (s.setLevel c true).freezeCondition c = true := by
      rw [s.freezeCondition_setLevel]
      rintro ⟨opened, below⟩
      exact stays.elim (absurd opened) fun none => absurd below (by simp [Client.allowanceMs, none])
    have unspent : ¬ (s.client c).allowanceSpent = true := by
      rw [Client.allowanceSpent_iff]
      rintro ⟨opened, allowed, -⟩
      exact stays.elim (absurd opened) allowed.ne'
    rw [State.holdAsserted, if_neg unmet, if_neg unspent]
    exact ⟨congrArg (fun f => { s.client c with freeze := f }) thawed, rfl, start, stored⟩

end Sys2Proof.Machine
end

section
/-! PROOF. INSPECT CLIENT reads the record summary or the n-th claim: O24. -/

namespace Sys2Proof.Machine

/-! ### Which reply (R121) -/

/-- What INSPECT CLIENT answers for a claim number (R121). -/
def State.inspectData (s : State) (c : ClientId) : Nat → List Byte
  | 0 => s.inspectSummary c
  | n + 1 => ((s.claimSlots c)[n]?).elim [0] fun i => s.inspectClaim i c

theorem exec_inspectClient {s : State} {p c : ClientId} {ps : List Byte} (passes : s.Passes p .inspectClient ps)
    (client : (byteAt ps 0).toNat = c.val) :
    exec (.inspectClient p) s = .next (s.answer p .done (s.inspectData c (byteAt ps 1).toNat)) := by
  refine congrArg Host.Outcome.next ((s.request_passes p _ ps passes _).trans ?_)
  simp only [clientOf_eq client, claimNumberOf]
  cases (byteAt ps 1).toNat with
  | zero => rfl
  | succ n => cases h : (s.claimSlots c)[n]? <;> simp [State.inspectData, h]

/-! ### The record summary (R170) -/

section
variable (s : State) (c : ClientId)

theorem State.inspectSummary_flags : (byteAt (s.inspectSummary c) 0).toNat
    = (s.client c).session.code * 64 + (s.client c).freeze.code * 16 + bitValue (s.client c).holdConsumes 3
      + bitValue (s.noticeSet c).lost 2 := by
  refine toNat_ofNat_byte ?_
  generalize (s.client c).session = session, (s.client c).freeze = freeze, (s.client c).holdConsumes = consumes,
    (s.noticeSet c).lost = lost
  revert consumes lost
  cases session <;> cases freeze <;> decide

theorem State.inspectSummary_epoch : wordAt (s.inspectSummary c) 1 = (s.client c).epoch := word_of_bytes _

theorem EndCause.code_toNat (e : EndCause) : e.code.toNat = e.number := by cases e <;> rfl

theorem EndCause.number_le (e : EndCause) : e.number ≤ 4 := by cases e <;> decide

theorem State.inspectSummary_ending : (byteAt (s.inspectSummary c) 3).toNat
    = (s.client c).endCause.number * 16 + (s.client c).ceiling.val := by
  have cause := (s.client c).endCause.number_le
  have ceiling := (s.client c).ceiling.isLt
  rw [← EndCause.code_toNat] at cause ⊢
  exact toNat_ofNat_byte (by omega)

theorem State.inspectSummary_mask : (byteAt (s.inspectSummary c) 5).toNat = (s.client c).mask.toNat :=
  BitVec.toNat_setWidth_of_le (w := 6) (w' := 8) (by decide)

theorem State.inspectSummary_allowance (h : (s.client c).holdAllowance ≤ 600) :
    (wordAt (s.inspectSummary c) 6).toNat = (s.client c).holdAllowance := by
  have word : wordAt (s.inspectSummary c) 6 = BitVec.ofNat 16 (s.client c).holdAllowance := word_of_bytes _
  rw [word, BitVec.toNat_ofNat, Nat.mod_eq_of_lt (by omega)]

/-- A count below 2^24 reads back from its three bytes. -/
theorem State.inspectSummary_holdUsed (h : (s.client c).holdUsed < 2 ^ 24) :
    (byteAt (s.inspectSummary c) 8).toNat * 65536 + (wordAt (s.inspectSummary c) 9).toNat = (s.client c).holdUsed := by
  have high : (byteAt (s.inspectSummary c) 8).toNat = (s.client c).holdUsed / 65536 := toNat_ofNat_byte (by omega)
  have low : wordAt (s.inspectSummary c) 9 = BitVec.ofNat 16 (s.client c).holdUsed := word_of_bytes _
  rw [high, low, BitVec.toNat_ofNat]
  omega

end

/-! ### The claims in ascending order of slot (R106, R121) -/

theorem State.claimSlots_eq (s : State) (c : ClientId) :
    s.claimSlots c = allSlots.filter fun i => (s.record i).any fun r => decide (r.claimsOf c ≠ 0) := by
  refine List.filter_congr fun i _ => Bool.eq_iff_iff.mpr ?_
  rw [State.hasClaim_iff]
  cases s.record i <;> simp

/-- Of an ascending list, an element that satisfies a test stands among those that do at the place their number up to
it gives. -/
theorem getElem?_filter_of_countP {l : List SlotId} (ascending : l.Pairwise (· < ·)) {p : SlotId → Bool} {i : SlotId}
    (mem : i ∈ l) (hp : p i = true) {n : Nat} (count : (l.countP fun j => decide (j ≤ i) && p j) = n + 1) :
    (l.filter p)[n]? = some i := by
  obtain ⟨before, after, rfl⟩ := List.append_of_mem mem
  obtain ⟨-, ⟨above, -⟩, below⟩ := by simpa [List.pairwise_append] using ascending
  have first : (before.countP fun j => decide (j ≤ i) && p j) = (before.filter p).length := by
    rw [← List.countP_eq_length_filter]
    exact List.countP_congr fun j hj => by simp [(below j hj).1.le]
  have last : (after.countP fun j => decide (j ≤ i) && p j) = 0 :=
    List.countP_eq_zero.mpr fun j hj => by simp [(above j hj).not_ge]
  rw [List.countP_append, List.countP_cons_of_pos (by simp [hp]), first, last] at count
  obtain rfl : (before.filter p).length = n := by omega
  simp [hp]

theorem State.claimSlots_getElem? {s : State} {c : ClientId} {i : SlotId} {r : Resource} {n : Nat}
    (hr : s.record i = some r) (claims : r.claimsOf c ≠ 0)
    (count : (allSlots.countP fun j => decide (j ≤ i) && (s.record j).any fun r' => decide (r'.claimsOf c ≠ 0)) = n + 1) :
    (s.claimSlots c)[n]? = some i := by
  rw [s.claimSlots_eq]
  exact getElem?_filter_of_countP (List.pairwise_lt_finRange 64) (mem_allSlots i) (by simp [hr, claims]) count

/-! ### A claim's description (R170) -/

section
variable (flags : Nat) (key : Key) (i : SlotId) (priority : Nat) (gen : Gen) (left : Nat)

theorem claimBytes_key : wordAt (claimBytes flags key i priority gen left) 1 = key := word_of_bytes key

theorem claimBytes_slot : (byteAt (claimBytes flags key i priority gen left) 3).toNat = i.val :=
  toNat_ofNat_byte (i.isLt.trans (by decide))

theorem claimBytes_gen : longAt (claimBytes flags key i priority gen left) 5 = gen :=
  longAt_longBytes ([BitVec.ofNat 8 flags] ++ wordBytes key ++ [BitVec.ofNat 8 i.val, BitVec.ofNat 8 priority]) _ gen

theorem claimBytes_left : wordAt (claimBytes flags key i priority gen left) 9 = BitVec.ofNat 16 left := word_of_bytes _

end

/-- The relation and the bits of a description's first byte, read back. -/
theorem claimFlags_read (relation : Fin 4) (shared suspect warned stored unbounded : Bool) :
    let x := BitVec.ofNat 8 (relation.val * 64 + bitValue shared 5 + bitValue suspect 4 + bitValue warned 3
      + bitValue stored 2 + bitValue unbounded 1)
    x.toNat / 64 = relation.val ∧ x.getLsbD 5 = shared ∧ x.getLsbD 4 = suspect ∧ x.getLsbD 3 = warned
    ∧ x.getLsbD 2 = stored ∧ x.getLsbD 1 = unbounded := by
  revert relation shared suspect warned stored unbounded
  decide

theorem Tenure.bit_iff (t : Tenure) : t.bit = true ↔ t = .shared := by cases t <;> decide

/-- The relation code of a holding (R170). -/
def Holding.relation (h : Holding) : Fin 4 := if h.state = .held then 3 else 2

section
variable {s : State} {i : SlotId} {c : ClientId} {r : Resource}

theorem State.inspectClaim_holding {h : Holding} (hr : s.record i = some r) (hh : r.holdingOf c = some h) :
    s.inspectClaim i c = claimBytes (h.relation.val * 64 + bitValue h.tenure.bit 5 + bitValue h.suspect 4
        + bitValue (h.state == .held && h.warned) 3 + bitValue (s.leftFrozen (.holding i c)) 2 + bitValue false 1)
      r.key i 0 h.gen (s.msLeft (.holding i c)) := by
  have relation : h.relation.val = if h.state = .held then 3 else 2 := by
    unfold Holding.relation
    split <;> rfl
  simp only [State.inspectClaim, hr, hh, relation]
  rfl

theorem State.inspectClaim_waiter {w : Waiter} (hr : s.record i = some r) (hh : r.holdingOf c = none)
    (hw : r.waiterOf c = some w) :
    s.inspectClaim i c = claimBytes ((1 : Fin 4).val * 64 + bitValue w.mode.bit 5 + bitValue false 4 + bitValue false 3
        + bitValue (s.leftFrozen (.waiter i c)) 2 + bitValue (s.deadlineOf (.waiter i c)).isNone 1)
      r.key i w.priority.val 0 (s.msLeft (.waiter i c)) := by
  simp only [State.inspectClaim, hr, hh, hw]
  rfl

end

/-- Settles O24: the summary byte by byte, then the claim of its place, by its relation, or none there. -/
theorem inspectClientReads : Obligations.InspectClientReads := by
  intro p s ps c passes client
  have taken := exec_inspectClient passes client
  refine ⟨fun number within legal quota notices => ?_, fun i r hr count claims => ?_, fun past => ?_⟩
  · rw [number] at taken
    obtain ⟨used, allowance⟩ := within c
    obtain ⟨-, most, -⟩ := legal c
    have claims := (quota c).trans most
    have records : (s.noticeSet c).records.length ≤ 16 := (notices c).1
    have short : (s.client c).holdUsed < 2 ^ 24 := by
      unfold Client.allowanceMs at used
      omega
    refine ⟨_, _, taken, s.answer_onlyAnswered p _ _, rfl, (s.inspectSummary_flags c).trans ?_, s.inspectSummary_epoch c,
      s.inspectSummary_ending c, toNat_ofNat_byte (by omega), s.inspectSummary_mask c,
      s.inspectSummary_allowance c allowance, s.inspectSummary_holdUsed c short, toNat_ofNat_byte (by omega),
      toNat_ofNat_byte (by omega)⟩
    cases (s.client c).session <;> cases (s.client c).freeze <;> rfl
  · have positive : (byteAt ps 1).toNat ≠ 0 := by
      rw [← count]
      exact (List.countP_pos_iff.mpr ⟨i, mem_allSlots i, by simp [hr, claims]⟩).ne'
    obtain ⟨n, number⟩ := Nat.exists_eq_succ_of_ne_zero positive
    have data : s.inspectData c (n + 1) = s.inspectClaim i c := by
      rw [State.inspectData, State.claimSlots_getElem? hr claims (count.trans number)]
      rfl
    rw [number, data] at taken
    cases hh : r.holdingOf c with
    | some h =>
      rw [State.inspectClaim_holding hr hh] at taken
      obtain ⟨relation, shared, suspect, warned, stored, -⟩ := claimFlags_read h.relation h.tenure.bit h.suspect
        (h.state == .held && h.warned) (s.leftFrozen (.holding i c)) false
      refine ⟨_, _, _, _, taken, s.answer_onlyAnswered p _ _, rfl, stored, claimBytes_left .., claimBytes_key ..,
        claimBytes_slot .., fun g hg => ?_, fun w noHolding => ?_⟩
      · cases hg
        refine ⟨s.left_msLeft _, relation.trans ?_, ?_, suspect, ?_, rfl, claimBytes_gen ..⟩
        · unfold Holding.relation
          split <;> rfl
        · exact (Bool.eq_iff_iff.mp shared).trans h.tenure.bit_iff
        · exact (Bool.eq_iff_iff.mp warned).trans (by simp)
      · cases noHolding
    | none =>
      have waits : r.waiterOf c ≠ none := fun hw => claims (Resource.claimsOf_eq_zero.mpr ⟨hh, hw⟩)
      obtain ⟨w, hw⟩ := Option.ne_none_iff_exists'.mp waits
      rw [State.inspectClaim_waiter hr hh hw] at taken
      obtain ⟨relation, shared, -, -, stored, unbounded⟩ := claimFlags_read 1 w.mode.bit false false
        (s.leftFrozen (.waiter i c)) (s.deadlineOf (.waiter i c)).isNone
      refine ⟨_, _, _, _, taken, s.answer_onlyAnswered p _ _, rfl, stored, claimBytes_left .., claimBytes_key ..,
        claimBytes_slot .., fun h holding => ?_, fun v _ hv => ?_⟩
      · cases holding
      · cases hw.symm.trans hv
        exact ⟨s.left_msLeft _, relation, (Bool.eq_iff_iff.mp shared).trans w.mode.bit_iff,
          (Bool.eq_iff_iff.mp unbounded).trans Option.isNone_iff_eq_none,
          toNat_ofNat_byte (w.priority.isLt.trans (by decide)), claimBytes_gen ..⟩
  · obtain ⟨n, number⟩ := Nat.exists_eq_succ_of_ne_zero (Nat.ne_zero_of_lt past)
    have noClaim : (s.claimSlots c)[n]? = none := by
      rw [List.getElem?_eq_none_iff, s.claimSlots_eq, ← List.countP_eq_length_filter]
      omega
    have data : s.inspectData c (n + 1) = [0x00#8] := by
      rw [State.inspectData, noClaim]
      rfl
    rw [number, data] at taken
    exact ⟨_, taken, s.answer_onlyAnswered p _ _⟩

end Sys2Proof.Machine
end

section
/-! PROOF. SET CLIENT replaces the settings and deals with the freeze anew: O23. -/

namespace Sys2Proof.Machine

/-! ### The settings of SET CLIENT (R99, R119) -/

theorem State.OnlyFreeze.of_evaluateFreeze (s : State) (c : ClientId) : s.OnlyFreeze (s.evaluateFreeze c) c := by
  unfold State.evaluateFreeze
  split
  · exact .of_enterFreeze s c
  · exact ⟨fun _ _ => rfl, fun _ _ => rfl, ⟨rfl, rfl, rfl⟩, rfl, rfl, rfl, rfl, rfl⟩

theorem State.evaluateFreeze_level (s : State) (c : ClientId) :
    ((s.evaluateFreeze c).holdUnit c).level = (s.holdUnit c).level := by
  unfold State.evaluateFreeze
  split
  · rw [s.enterFreeze_holdUnit, if_pos rfl]
  · rfl

/-- The freeze state is all that an evaluation of the freeze condition changes in the client record (R92). -/
theorem State.evaluateFreeze_client (s : State) (c : ClientId) :
    (s.evaluateFreeze c).client c = { s.client c with freeze := ((s.evaluateFreeze c).client c).freeze } := by
  unfold State.evaluateFreeze
  split
  · rw [s.enterFreeze_client, if_pos rfl]
  · rfl

/-- The client record with the settings of a SET CLIENT, hold used 0 and the freeze ended (R99, R119). -/
def Client.withSettings (x : Client) (ps : List Byte) : Client :=
  { x with
    quota := (byteAt ps 1).toNat
    ceiling := priorityOf (byteAt ps 2)
    mask := (byteAt ps 3).setWidth 6
    holdAllowance := (wordAt ps 4).toNat
    holdConsumes := (byteAt ps 6).getLsbD 0
    holdUsed := 0
    freeze := .thawed }

section
variable (s : State) (c : ClientId) (ps : List Byte)

theorem State.applySettings_client : (s.applySettings c ps).client c = (s.client c).withSettings ps := by
  simp only [State.applySettings, State.client_setClient_self, s.endFreeze_client, Client.withSettings]

theorem State.OnlyFreeze.of_applySettings : s.OnlyFreeze (s.applySettings c ps) c :=
  (State.OnlyFreeze.of_endFreeze s c).trans (.of_setClient _ c _)

theorem State.applySettings_level : ((s.applySettings c ps).holdUnit c).level = (s.holdUnit c).level := by
  rw [State.applySettings, State.holdUnit_setClient, s.endFreeze_holdUnit]
  split <;> rfl

/-- The freeze condition with the new settings, hold used being 0 (R92, R99). -/
theorem State.freezeCondition_applySettings : (s.applySettings c ps).freezeCondition c = true
    ↔ (s.client c).session = .opened ∧ (s.holdUnit c).level = true ∧ 0 < (wordAt ps 4).toNat := by
  simp [State.freezeCondition, s.applySettings_client, s.applySettings_level, Client.withSettings, Client.allowanceMs,
    and_assoc]

/-- The allowance left after a SET CLIENT is the new one, in ms (R91, R99). -/
theorem State.applySettings_allowanceLeft : ((s.applySettings c ps).client c).allowanceMs
    - ((s.applySettings c ps).client c).holdUsed = 1000 * (wordAt ps 4).toNat := by
  rw [s.applySettings_client]
  rfl

variable {s}

theorem State.applySettings_thaws (lawful : s.DeadlinesLawful) : s.DeadlinesThaw (s.applySettings c ps) c :=
  (s.endFreeze_spec c lawful).1.congr rfl rfl rfl fun _ => rfl

/-- The settings have no part in the law of the freeze, which the end of one keeps (R91, R98). -/
theorem State.DeadlinesLawful.freezeLaw_applySettings (lawful : s.DeadlinesLawful) :
    (s.applySettings c ps).FreezeLaw := by
  obtain ⟨freeze, one, -⟩ := lawful
  have changes : s.Changes (s.applySettings c ps) :=
    (State.endFreeze_changes (.refl s c)).setClient c _ Iff.rfl id
  exact ((State.deadlinesApart_iff _).mp
    (changes.keeps (fun _ _ change => change.deadlinesApart) (s.deadlinesApart_iff.mpr ⟨freeze, one⟩))).1

/-- The freeze is entered anew where the new settings meet its condition (R92, R99). -/
theorem State.applySettings_freezes (lawful : s.DeadlinesLawful)
    (meets : (s.applySettings c ps).freezeCondition c = true) :
    (((s.applySettings c ps).evaluateFreeze c).client c).freeze = .frozen
    ∧ s.DeadlinesFreeze ((s.applySettings c ps).evaluateFreeze c) c (1000 * (wordAt ps 4).toNat) := by
  have thawed : ((s.applySettings c ps).client c).freeze = .thawed := by rw [s.applySettings_client, Client.withSettings]
  have bound : ((s.applySettings c ps).client c).allowanceMs - ((s.applySettings c ps).client c).holdUsed < 2 ^ 32 := by
    have word := (wordAt ps 4).isLt
    rw [s.applySettings_allowanceLeft]
    omega
  obtain ⟨entered, frozen⟩ := (s.applySettings c ps).enterFreeze_spec c (lawful.freezeLaw_applySettings c ps)
    (by rw [thawed]; decide) bound
  rw [s.applySettings_allowanceLeft] at entered
  rw [State.evaluateFreeze, if_pos ⟨thawed, meets⟩, frozen]
  exact ⟨rfl, (State.applySettings_thaws c ps lawful).freeze entered (State.OnlyFreeze.of_applySettings s c ps).time.2.2⟩

/-- Where the new settings do not meet the freeze condition, the client stays THAWED (R99). -/
theorem State.applySettings_stays (lawful : s.DeadlinesLawful)
    (unmet : ¬ (s.applySettings c ps).freezeCondition c = true) :
    (((s.applySettings c ps).evaluateFreeze c).client c).freeze = .thawed
    ∧ s.DeadlinesThaw ((s.applySettings c ps).evaluateFreeze c) c := by
  rw [State.evaluateFreeze, if_neg fun h => unmet h.2, s.applySettings_client]
  exact ⟨rfl, State.applySettings_thaws c ps lawful⟩

end

theorem priorityOf_val {b : Byte} (h : b.toNat ≤ 3) : (priorityOf b).val = b.toNat := by
  rw [priorityOf, dif_pos (by omega)]

/-- Settles O23: IN-USE changes nothing else; else the settings end the freeze, and its condition is evaluated anew. -/
theorem setClientReplacesTheSettings : Obligations.SetClientReplacesTheSettings := by
  intro p s ps c passes named
  have taken : exec (.setClient p) s = .next
      (if (byteAt ps 1).toNat < s.claimCount c then s.answer p .inUse []
        else ((s.applySettings c ps).evaluateFreeze c).answer p .done []) := by
    rw [← clientOf_eq named]
    exact congrArg Host.Outcome.next (s.request_passes p _ ps passes _)
  refine ⟨fun inUse => ?_, fun fits lawful => ?_⟩
  · rw [if_pos inUse] at taken
    exact ⟨_, taken, s.answer_onlyAnswered p _ _⟩
  rw [if_neg (by omega)] at taken
  obtain ⟨-, -, -, -, -, -, -, ceiling, -⟩ := passes
  have only := (State.OnlyFreeze.of_applySettings s c ps).trans (.of_evaluateFreeze _ c)
  have level := ((s.applySettings c ps).evaluateFreeze_level c).trans (s.applySettings_level c ps)
  have client := (s.applySettings c ps).evaluateFreeze_client c
  rw [s.applySettings_client] at client
  have freezes := State.applySettings_freezes c ps lawful
  have stays := State.applySettings_stays c ps lawful
  rw [s.freezeCondition_applySettings] at freezes stays
  generalize (s.applySettings c ps).evaluateFreeze c = t at taken only level client freezes stays
  have read {α : Type} (field : Client → α) := congrArg field client
  exact ⟨_, taken, State.answer_answered s t p _ _ only.ports, read Client.quota,
    (read fun x => x.ceiling.val).trans (priorityOf_val ceiling),
    fun k hk => (read fun x => x.mask.getLsbD k).trans (by simp [hk, Client.withSettings]), read Client.holdAllowance,
    read Client.holdConsumes, read Client.holdUsed, read Client.session, read Client.epoch, read Client.endCause,
    read Client.sweepFrom, freezes, stays, level, only.units, only.clients, only.time, only.slots, only.backlog,
    only.grant, only.notices⟩

end Sys2Proof.Machine
end

section
/-! PROOF. The end of a frame that delivers a reply (O9), and start-up (O5). -/

namespace Sys2Proof.Machine

/-! ### The frame-level checks of a request (R147) -/

/-- A request whose bytes are all there is judged by its CRC (R147). -/
theorem judgeBytes_complete (code tag : Byte) {ps : List Byte} (crc : Byte) (filler : List Byte) (h : ps.length ≤ 12) :
    judgeBytes ([code, tag, BitVec.ofNat 8 ps.length] ++ ps ++ crc :: filler)
      = if crc8 ([code, tag, BitVec.ofNat 8 ps.length] ++ ps) = crc then .wellFormed code tag ps else .crcErr := by
  have count : (BitVec.ofNat 8 ps.length).toNat = ps.length := toNat_ofNat_byte (by omega)
  have present : ¬ (ps ++ crc :: filler).length < ps.length + 1 := by simp
  have sent : byteAt (ps ++ crc :: filler) ps.length = crc := by simp [byteAt]
  simp only [judgeBytes, List.cons_append, List.nil_append, count, if_neg (Nat.not_lt.mpr h), if_neg present,
    List.take_left, sent]

theorem judgeBytes_requestBytes (code tag : Byte) {ps : List Byte} (filler : List Byte) (h : ps.length ≤ 12) :
    judgeBytes (requestBytes code tag ps ++ filler) = .wellFormed code tag ps := by
  have complete := judgeBytes_complete code tag (crc8 ([code, tag, BitVec.ofNat 8 ps.length] ++ ps)) filler h
  rw [if_pos rfl] at complete
  rw [← complete, requestBytes, List.append_assoc]
  rfl

/-- A request that is truncated, or whose length is above 12, fails the first check (R147). -/
theorem judgeBytes_frameErr {bytes : List Byte}
    (h : bytes.length < 3 ∨ 12 < (byteAt bytes 2).toNat ∨ bytes.length < 4 + (byteAt bytes 2).toNat) :
    judgeBytes bytes = .frameErr := by
  match bytes, h with
  | [], _ => rfl
  | [_], _ => rfl
  | [_, _], _ => rfl
  | code :: tag :: count :: rest, h =>
    have short : 12 < count.toNat ∨ rest.length + 3 < 4 + count.toNat := by
      refine h.resolve_left ?_
      simp only [List.length_cons]
      omega
    by_cases long : 12 < count.toNat
    · exact if_pos long
    · exact (if_neg long).trans (if_pos (by omega))

/-! ### The request judged against an EMPTY slot (R146) -/

section
variable {x : Port} {bytes : List Byte} {code tag : Byte} {ps : List Byte}

theorem Port.judge_takes (empty : x.slot = .empty) (h : judgeBytes bytes = .wellFormed code tag ps)
    (hc : code ≠ idleCode) :
    x.judge bytes = { x with slot := .pending tag, state := .busy, inFlight := .taken code ps } := by
  simp only [Port.judge, h, if_neg hc, empty]

theorem Port.judge_idle (h : judgeBytes bytes = .wellFormed idleCode tag ps) : x.judge bytes = x := by
  simp only [Port.judge, h, if_pos]

theorem Port.judge_crcErr (h : judgeBytes bytes = .crcErr) : x.judge bytes = { x with crcErr := true } := by
  simp only [Port.judge, h]

theorem Port.judge_frameErr (h : judgeBytes bytes = .frameErr) : x.judge bytes = { x with frameErr := true } := by
  simp only [Port.judge, h]

end

/-! ### The delivery of a reply at the end of its frame (R145) -/

/-- The state after the delivery that ends frame `f`, select high again (R145). -/
def State.delivered (s : State) (p : ClientId) (f : Frame) : State :=
  (s.setPort p { s.port p with selectLow := false, frame := none }).deliver p f

/-- The end of a frame that shifted a FILLED reply in full: the delivery, then the judgement of the bytes received. -/
theorem execFrameEnd_delivers {p : ClientId} {s : State} {f : Frame} {edges : Nat} {dataIn : BitVec edges}
    {bytes : List Byte} {extra : List Bool} (low : (s.port p).selectLow = true) (frame : (s.port p).frame = some f)
    (start : f.edges = 0) (fresh : f.received = []) (noPart : f.partByte = []) (filled : f.snapshot.filled = true)
    (sampled : sampledBits edges dataIn = bitsOf bytes ++ extra) (left : extra.length < 8)
    (full : 8 * f.snapshot.bytes.length ≤ edges) :
    execFrameEnd p edges dataIn s
      = .next ((s.delivered p f).setPort p (((s.delivered p f).port p).judge bytes)) := by
  have ended : (sampledBits edges dataIn).foldl Frame.sample f
      = { f with edges := edges, received := bytes, partByte := extra } := by
    rw [sampled, f.foldl_sample bytes extra noPart left, ← sampled, length_sampledBits, start, fresh, Nat.zero_add,
      List.nil_append]
  have clocked : edges ≠ 0 := by
    have : 0 < f.snapshot.bytes.length := by simp [Snapshot.bytes]
    omega
  have delivers : Frame.delivers { f with edges := edges, received := bytes, partByte := extra } = true := by
    simp [Frame.delivers, filled, full]
  simp only [execFrameEnd, low, frame, ended, delivers, if_neg clocked, reduceCtorEq, if_true, if_false]
  rfl

section
variable (s : State) (p : ClientId) (f : Frame)

theorem State.deliveryProtected_iff : s.deliveryProtected p = true ↔ s.DeliveryProtected p := by
  simp [State.deliveryProtected, State.DeliveryProtected]

theorem State.delivered_port : (s.delivered p f).port p
    = Port.clearShown { s.port p with selectLow := false, frame := none, slot := .empty } f.snapshot.status
        (s.deliveryProtected p) := by
  simp [State.delivered, State.deliver, State.deliveryProtected]

theorem State.delivered_noticeSet :
    (s.delivered p f).noticeSet p = (s.noticeSet p).delivered (s.deliveryProtected p) := by
  simp [State.delivered, State.deliver, State.deliveryProtected]

theorem State.delivered_slot : ((s.delivered p f).port p).slot = .empty := by
  rw [s.delivered_port, Port.clearShown]
  split <;> rfl

/-- A delivery changes one port and one notice set. -/
theorem State.delivered_elsewhere :
    s.SameTime (s.delivered p f) ∧ s.SameResources (s.delivered p f) ∧ (s.delivered p f).clients = s.clients
    ∧ (s.delivered p f).holdUnits = s.holdUnits ∧ s.SameNoticesBut (s.delivered p f) p
    ∧ s.SamePortsBut (s.delivered p f) p := by
  refine ⟨⟨rfl, rfl, rfl⟩, ⟨rfl, rfl, rfl, rfl⟩, rfl, rfl, fun d hd => ?_, fun q hq => ?_⟩
  · simp [State.delivered, State.deliver, hd]
  · simp [State.delivered, State.deliver, hq]

/-- The sticky flags after a delivery (R101, R151). -/
theorem State.delivered_portDelivered : s.PortDelivered p f.snapshot.status ((s.delivered p f).port p) := by
  rw [s.delivered_port, State.PortDelivered, ← s.deliveryProtected_iff]
  cases s.deliveryProtected p <;> simp [Port.clearShown]

/-- The notice set after a delivery (R101, R127, R132). -/
theorem State.delivered_noticesDelivered : s.NoticesDelivered (s.delivered p f) p := by
  rw [State.NoticesDelivered, ← s.deliveryProtected_iff, s.delivered_noticeSet]
  refine ⟨fun guarded => ?_, fun free => ?_⟩
  · simp [NoticeSet.delivered, guarded]
  · rw [Bool.eq_false_of_not_eq_true free]
    exact ⟨rfl, fun lost shown => by simp [NoticeSet.delivered, lost, shown],
      fun unshown => by simp [NoticeSet.delivered, unshown]⟩

end

/-- Settles O9: the delivery empties the slot, and the judgement of the bytes is one of the four of R146. -/
theorem frameEndDeliversTheReply : Obligations.FrameEndDeliversTheReply := by
  intro p s f edges dataIn bytes extra low frame start fresh noPart filled sampled left full
  have ended := execFrameEnd_delivers low frame start fresh noPart filled sampled left full
  have emptied := s.delivered_slot p f
  have portDelivered := s.delivered_portDelivered p f
  have noticesDelivered := s.delivered_noticesDelivered p f
  have elsewhere := s.delivered_elsewhere p f
  generalize s.delivered p f = u at ended emptied portDelivered noticesDelivered elsewhere
  obtain ⟨time, resources, clients, units, notices, ports⟩ := elsewhere
  have port : (u.setPort p ((u.port p).judge bytes)).port p = (u.port p).judge bytes := u.port_setPort_self p _
  refine ⟨_, u.port p, ended, portDelivered, noticesDelivered, fun code tag ps filler hb short => ?_,
    fun code tag ps crc filler hb short wrong => ?_, fun truncated => ?_, time, resources, clients, units, notices,
    fun q hq => (u.port_setPort_ne p _ q hq).trans (ports q hq)⟩
  · have formed : judgeBytes bytes = .wellFormed code tag ps := hb ▸ judgeBytes_requestBytes code tag filler short
    refine ⟨fun request => port.trans (Port.judge_takes emptied formed request), fun idle => ?_⟩
    exact port.trans (Port.judge_idle (formed.trans (by rw [idle]; rfl)))
  · have crcErr : judgeBytes bytes = .crcErr := by
      rw [hb, judgeBytes_complete code tag crc filler short, if_neg (Ne.symm wrong)]
    exact port.trans (Port.judge_crcErr crcErr)
  · exact port.trans (Port.judge_frameErr (judgeBytes_frameErr truncated))

/-! ### Start-up (R90, R152) -/

/-- Settles O5, field by field; out of its turn neither command is taken. -/
theorem startUpReleasesThePorts : Obligations.StartUpReleasesThePorts := by
  refine ⟨fun levels s held => ?_, fun s counting => ?_, fun levels s notHeld => ?_, fun s notCounting => ?_⟩
  · refine ⟨_, congrArg Host.Outcome.next (if_pos held), rfl, fun c => ?_, rfl, rfl, ⟨rfl, rfl, rfl, rfl⟩, rfl, rfl, rfl⟩
    simp [State.holdUnit]
  · refine ⟨_, congrArg Host.Outcome.next (if_pos counting), rfl, fun p => ?_, rfl, rfl, ⟨rfl, rfl, rfl, rfl⟩, rfl, rfl,
      rfl⟩
    simp [State.port]
  · exact congrArg Host.Outcome.next (if_neg notHeld)
  · exact congrArg Host.Outcome.next (if_neg notCounting)

end Sys2Proof.Machine
end

section
/-! SUPPORT. A teardown at the ports and at the client record: the DONE of the LEAVE or EVICT that waits for it (R116, R144),
the port that leaves DETACHED (R154), and what the start and the completion of a teardown leave (R113, R116). -/

namespace Sys2Proof.Machine

/-! ### One port (R144, R154) -/

/-- The port, READY if the conditions of R154 hold with the client's session as given. -/
def Port.settled (x : Port) (session : Session) : Port :=
  if x.state = .detached ∧ x.resetSense = false ∧ x.inFlight = .none ∧ session ≠ .teardown
      ∧ ¬ (x.senseOwed = true ∧ session = .opened) then
    { x with state := .ready, senseOwed := false }
  else x

/-- The port with the reply of its request in a PENDING slot, or discarded where the slot is not (R144). -/
def Port.replied (x : Port) (a : Answer) (data : List Byte) : Port :=
  match x.slot with
  | .pending tag =>
    { x with slot := .filled { tag := tag, answer := a, data := data }, inFlight := .none,
             state := if x.state = .busy then .ready else x.state }
  | .empty | .filled _ => { x with inFlight := .none }

/-- The port with the DONE of the LEAVE or EVICT that waits on it for the teardown of client `c`, if one does (R116). -/
def Port.doneFor (x : Port) (c : ClientId) (session : Session) : Port :=
  if x.inFlight = .waiting c then (x.replied .done []).settled session else x

section
variable (x : Port) (session : Session)

theorem Port.settled_settles : x.Settles (x.settled session) session :=
  ⟨fun ready => if_pos ready, fun stays => if_neg stays⟩

theorem Port.settled_inFlight : (x.settled session).inFlight = x.inFlight := by
  unfold Port.settled
  split <;> rfl

/-- A port that has left DETACHED does not leave it again. -/
theorem Port.settled_settled : (x.settled session).settled session = x.settled session := by
  by_cases ready : x.state = .detached ∧ x.resetSense = false ∧ x.inFlight = .none ∧ session ≠ .teardown
      ∧ ¬ (x.senseOwed = true ∧ session = .opened)
  · rw [show x.settled session = { x with state := .ready, senseOwed := false } from if_pos ready]
    exact if_neg fun h => nomatch h.1
  · rw [show x.settled session = x from if_neg ready]
    exact if_neg ready

theorem Port.replied_inFlight (a : Answer) (data : List Byte) : (x.replied a data).inFlight = .none := by
  unfold Port.replied
  split <;> rfl

/-- A port that is not DETACHED stays as it is (R154). -/
theorem Port.settled_of_state (h : x.state ≠ .detached) : x.settled session = x := if_neg fun ready => h ready.1

/-- The DONE fills a PENDING slot, or is discarded where the slot is empty (R116, R144). -/
theorem Port.replied_takesDone : x.TakesDone ((x.replied .done []).settled session) session := by
  refine ⟨fun tag pending busy => ?_, fun empty => ?_⟩
  · have filled : x.replied .done [] = x.filledWith tag .done [] := by simp [Port.replied, pending, busy, Port.filledWith]
    rw [filled]
    exact Port.settled_of_state _ _ nofun
  · have discarded : x.replied .done [] = { x with inFlight := .none } := by simp [Port.replied, empty]
    rw [discarded]
    exact Port.settled_settles _ _

variable (c : ClientId)

theorem Port.doneFor_of_waiting (h : x.inFlight = .waiting c) :
    x.doneFor c session = (x.replied .done []).settled session := if_pos h

theorem Port.doneFor_of_not_waiting (h : x.inFlight ≠ .waiting c) : x.doneFor c session = x := if_neg h

/-- A LEAVE or an EVICT is answered once. -/
theorem Port.doneFor_doneFor : (x.doneFor c session).doneFor c session = x.doneFor c session := by
  by_cases waits : x.inFlight = .waiting c
  · refine Port.doneFor_of_not_waiting _ _ _ ?_
    rw [x.doneFor_of_waiting session c waits, Port.settled_inFlight, Port.replied_inFlight]
    nofun
  · rw [x.doneFor_of_not_waiting session c waits, x.doneFor_of_not_waiting session c waits]

/-- No request waits for the teardown any more; another request goes on. -/
theorem Port.doneFor_inFlight :
    (x.doneFor c session).inFlight = if x.inFlight = .waiting c then .none else x.inFlight := by
  unfold Port.doneFor
  split
  · rw [Port.settled_inFlight, Port.replied_inFlight]
  · rfl

end

/-! ### The operations at the ports, as one change of a port -/

theorem State.setPort_port (s : State) (p : ClientId) : s.setPort p (s.port p) = s := by
  simp [State.setPort, State.port]

theorem State.portReady_eq (s : State) (p : ClientId) :
    s.portReady p = s.setPort p ((s.port p).settled (s.client p).session) := by
  unfold State.portReady Port.settled
  simp only
  split
  · rfl
  · rw [s.setPort_port]

theorem State.setPort_setPort (s : State) (p : ClientId) (x y : Port) : (s.setPort p x).setPort p y = s.setPort p y := by
  simp [State.setPort]

theorem State.placeReply_eq (s : State) (p : ClientId) (a : Answer) (data : List Byte) :
    s.placeReply p a data = s.setPort p (((s.port p).replied a data).settled (s.client p).session) := by
  cases slot : (s.port p).slot <;>
    simp only [State.placeReply, Port.replied, slot, State.portReady_eq, State.setPort_setPort, State.port_setPort_self,
      State.client_setPort]

theorem State.answerWaiting_eq (s : State) (p c : ClientId) :
    s.answerWaiting p c = s.setPort p ((s.port p).doneFor c (s.client p).session) := by
  unfold State.answerWaiting Port.doneFor
  split
  · exact s.placeReply_eq p _ _
  · rw [s.setPort_port]

/-! ### The completion of a teardown (R116) -/

/-- Port `q` after the teardown of client `c` has completed (R116, R144, R154). -/
def State.portAfter (s : State) (c q : ClientId) : Port :=
  if q = c then ((s.port c).doneFor c .none).settled .none
  else if q = Config.supervisor then (s.port q).doneFor c (s.client q).session
  else s.port q

section
variable (s : State) (c : ClientId)

/-- The completion changes the client's session, its port and the supervisor's. -/
theorem State.completeTeardown_eq : ∃ x y z, s.completeTeardown c
    = (((s.setClient c { s.client c with session := .none }).setPort c x).setPort Config.supervisor y).setPort c z := by
  unfold State.completeTeardown
  rw [State.portReady_eq, State.answerWaiting_eq, State.answerWaiting_eq]
  exact ⟨_, _, _, rfl⟩

theorem State.completeTeardown_port (q : ClientId) : (s.completeTeardown c).port q = s.portAfter c q := by
  unfold State.completeTeardown State.portAfter
  simp only [State.portReady_eq, State.answerWaiting_eq, State.port_setPort, State.client_setPort, State.port_setClient,
    State.client_setClient]
  by_cases hq : q = c
  · subst hq
    by_cases hz : q = Config.supervisor
    · subst hz
      simp [Port.doneFor_doneFor]
    · simp [hz]
  · by_cases hz : q = Config.supervisor
    · subst hz
      simp [hq]
    · simp [hq, hz]

theorem State.portAfter_inFlight (q : ClientId) : (s.portAfter c q).inFlight
    = if (q = c ∨ q = Config.supervisor) ∧ (s.port q).inFlight = .waiting c then .none else (s.port q).inFlight := by
  unfold State.portAfter
  by_cases hq : q = c
  · subst hq
    simp [Port.settled_inFlight, Port.doneFor_inFlight]
  · by_cases hz : q = Config.supervisor
    · rw [if_neg hq, if_pos hz, Port.doneFor_inFlight]
      simp [hz]
    · simp [hq, hz]

end

/-- Settles O22: the completion is taken with no claim left, and says at each port what R116, R144 and R154 say. -/
theorem teardownCompletes : Obligations.TeardownCompletes := by
  intro c s teardown
  refine ⟨fun free => ?_, fun claims => congrArg Host.Outcome.next (if_neg fun h => claims h.2)⟩
  have taken : exec (.teardownCompletion c) s = .next (s.completeTeardown c) :=
    congrArg Host.Outcome.next (if_pos ⟨teardown, free⟩)
  have port := s.completeTeardown_port c
  obtain ⟨x, y, z, completed⟩ := s.completeTeardown_eq c
  generalize s.completeTeardown c = t at taken port completed
  have here : t.port c = ((s.port c).doneFor c .none).settled .none := (port c).trans (if_pos rfl)
  have there : c ≠ 0 → t.port 0 = (s.port 0).doneFor c (s.client 0).session := fun hc =>
    (port 0).trans ((if_neg hc.symm).trans (if_pos rfl))
  refine ⟨t, taken, by simp [completed], fun d hd => by simp [completed, hd], ?_, ?_, by rw [completed]; rfl,
    by rw [completed]; rfl, fun q hq hz => ?_, fun waits => ?_, fun idle => ?_, fun hc waits => ?_, fun hc idle => ?_⟩
  · rw [completed]
    exact ⟨rfl, rfl, rfl⟩
  · rw [completed]
    exact ⟨rfl, rfl, rfl, rfl⟩
  · exact (port q).trans ((if_neg hq).trans (if_neg hz))
  · rw [here, Port.doneFor_of_waiting _ _ c waits, Port.settled_settled]
    exact Port.replied_takesDone _ _
  · rw [here, Port.doneFor_of_not_waiting _ _ c idle]
    exact Port.settled_settles _ _
  · rw [there hc, Port.doneFor_of_waiting _ _ c waits]
    exact Port.replied_takesDone _ _
  · rw [there hc, Port.doneFor_of_not_waiting _ _ c idle]

/-! ### The reset-sense input at the port (R153, R154) -/

theorem State.setPort_onlyPort (s : State) (p : ClientId) (x : Port) : s.OnlyPort (s.setPort p x) p :=
  ⟨⟨rfl, rfl, rfl⟩, ⟨rfl, rfl, rfl, rfl⟩, ⟨rfl, rfl, rfl⟩, fun q hq => s.port_setPort_ne p x q hq⟩

/-- The port after an assertion of its reset-sense input, by its state (R153). -/
def Port.senseAsserted (x : Port) : Port :=
  match x.state with
  | .starting => { x with resetSense := true }
  | .detached => { x with resetSense := true, senseOwed := true }
  | .ready | .busy =>
    { x with resetSense := true, senseOwed := true, frame := none, slot := .empty, overrun := false, frameErr := false,
             crcErr := false, state := .detached }

theorem exec_resetSenseAssert {s : State} {p : ClientId} (released : (s.port p).resetSense = false) :
    exec (.resetSenseAssert p) s = .next (s.setPort p (s.port p).senseAsserted) := by
  refine congrArg Host.Outcome.next ((if_neg (by simp [released])).trans ?_)
  unfold Port.senseAsserted
  split <;> simp only [*]

theorem exec_resetSenseRelease {s : State} {p : ClientId} (asserted : (s.port p).resetSense = true) :
    exec (.resetSenseRelease p) s
      = .next (s.setPort p (Port.settled { s.port p with resetSense := false } (s.client p).session)) := by
  refine congrArg Host.Outcome.next ((if_pos asserted).trans ?_)
  rw [State.portReady_eq, State.setPort_setPort, State.port_setPort_self, State.client_setPort]

/-- Settles O12: the assertion by the port's state; the release, and then R154. -/
theorem resetSenseActsAtThePort : Obligations.ResetSenseActsAtThePort := by
  refine ⟨fun p s released => ?_, fun p s asserted => ?_⟩
  · refine ⟨_, exec_resetSenseAssert released, s.setPort_onlyPort p _, fun attached => ?_, fun detached => ?_,
      fun starting => ?_⟩ <;> rw [State.port_setPort_self]
    · rcases attached with ready | busy
      · simp only [Port.senseAsserted, ready]
      · simp only [Port.senseAsserted, busy]
    · simp only [Port.senseAsserted, detached]
    · simp only [Port.senseAsserted, starting]
  · obtain ⟨ready, stays⟩ := Port.settled_settles { s.port p with resetSense := false } (s.client p).session
    refine ⟨_, exec_resetSenseRelease asserted, s.setPort_onlyPort p _, fun h => ?_, fun h => ?_⟩ <;>
      rw [State.port_setPort_self]
    · obtain ⟨detached, idle, session, owed⟩ := h
      exact ready ⟨detached, rfl, idle, session, owed⟩
    · exact stays fun ⟨detached, _, idle, session, owed⟩ => h ⟨detached, idle, session, owed⟩

end Sys2Proof.Machine
end

section
/-! PROOF. The start of a teardown (R113), which completes in the same event for a client without a claim (R116): by a LEAVE
(O18), an EVICT (O19) or a reset-sense assertion (O20). -/

namespace Sys2Proof.Machine

/-! ### What the start of a teardown changes (R113) -/

/-- The client record once a teardown has begun. -/
def Client.tornDown (x : Client) (cause : EndCause) : Client :=
  { x with session := .teardown, endCause := cause, freeze := .thawed, sweepFrom := 0 }

/-- The state once a teardown has begun, before its completion where the client has no claim. -/
def State.tornDown (s : State) (c : ClientId) (cause : EndCause) : State :=
  ((s.setClient c { s.client c with session := .teardown, endCause := cause, sweepFrom := 0 }).endFreeze c).setNoticeSet c
    NoticeSet.empty

/-- What a change of the client's record that is none of its freeze state has no part in. -/
theorem State.endFreeze_setClient_thaws {s : State} (lawful : s.DeadlinesLawful) (c : ClientId) {x : Client}
    (freeze : x.freeze = (s.client c).freeze) : s.DeadlinesThaw ((s.setClient c x).endFreeze c) c := by
  have frozen : ((s.setClient c x).client c).freeze = (s.client c).freeze := by rw [State.client_setClient_self, freeze]
  have unit : ∀ d, ((s.setClient c x).endFreeze c).holdUnit d = (s.endFreeze c).holdUnit d := fun d => by
    simp only [State.endFreeze_holdUnit, frozen, State.holdUnit_setClient]
  have deadlines : ((s.setClient c x).endFreeze c).deadlines = (s.endFreeze c).deadlines := by
    by_cases hf : (s.client c).freeze = .frozen
    · simp only [State.endFreeze, frozen, hf]
      exact State.deadlines_foldl_putBack _ rfl rfl
    · rw [State.endFreeze_of_running hf, State.endFreeze_of_running (frozen ▸ hf)]
      rfl
  exact (s.endFreeze_spec c lawful).1.congr deadlines
    (((s.setClient c x).endFreeze_frame c).1.2.2.trans (s.endFreeze_frame c).1.2.2.symm)
    (congrArg HoldUnit.freezeStart (unit c)) fun d => congrArg HoldUnit.stored (unit d)

section
variable (s : State) (c : ClientId) (cause : EndCause)

theorem State.tornDown_client : (s.tornDown c cause).client c = (s.client c).tornDown cause := by
  rw [State.tornDown, State.client_setNoticeSet, State.endFreeze_client, State.client_setClient_self]
  rfl

theorem State.tornDown_noticeSet (d : ClientId) :
    (s.tornDown c cause).noticeSet d = if d = c then NoticeSet.empty else s.noticeSet d := by
  have kept : ∀ d, ((s.setClient c { s.client c with session := .teardown, endCause := cause, sweepFrom := 0 }).endFreeze
      c).noticeSet d = s.noticeSet d := fun d => by simp only [State.noticeSet, (State.OnlyFreeze.of_endFreeze _ c).notices]; rfl
  rw [State.tornDown, State.noticeSet_setNoticeSet, kept]

/-- The deadlines, the client's record and its notice set aside, nothing else has changed. -/
theorem State.tornDown_only :
    s.OnlyFreeze ((s.setClient c { s.client c with session := .teardown, endCause := cause, sweepFrom := 0 }).endFreeze c) c :=
  (State.OnlyFreeze.of_setClient s c _).trans (.of_endFreeze _ c)

theorem State.tornDown_slots : (s.tornDown c cause).slots = s.slots := (s.tornDown_only c cause).slots

theorem State.tornDown_port (q : ClientId) : (s.tornDown c cause).port q = s.port q := by
  rw [State.tornDown, State.port_setNoticeSet]
  simp only [State.port, (s.tornDown_only c cause).ports]

theorem State.tornDown_client_ne {d : ClientId} (hd : d ≠ c) : (s.tornDown c cause).client d = s.client d :=
  (s.tornDown_only c cause).clients d hd

/-- With a claim left the teardown is under way; with none it completes in the same event (R116). -/
theorem State.beginTeardown_eq : s.beginTeardown c cause
    = if s.claimCount c = 0 then (s.tornDown c cause).completeTeardown c else s.tornDown c cause := by
  rw [← State.claimCount_of_slots (s.tornDown_slots c cause) c]
  rfl

/-- Port `q` once a teardown of client `c` has begun. -/
theorem State.beginTeardown_port (q : ClientId) :
    (s.beginTeardown c cause).port q = if s.claimCount c = 0 then s.portAfter c q else s.port q := by
  rw [s.beginTeardown_eq]
  split
  · rw [State.completeTeardown_port]
    unfold State.portAfter
    by_cases hq : q = c
    · simp only [hq, if_true, s.tornDown_port]
    · simp only [hq, if_false, s.tornDown_port, s.tornDown_client_ne c cause hq]
  · exact s.tornDown_port c cause q

/-- The start of a teardown, completed or not, apart from the ports (R113, R116). -/
theorem State.beginTeardown_begins (lawful : s.DeadlinesLawful) : s.TeardownBegins (s.beginTeardown c cause) c cause := by
  have only := s.tornDown_only c cause
  have thaws : s.DeadlinesThaw (s.tornDown c cause) c := State.endFreeze_setClient_thaws lawful c rfl
  have client := s.tornDown_client c cause
  have noticeSet := s.tornDown_noticeSet c cause
  have told : (s.tornDown c cause).noticeSet c = NoticeSet.empty := (noticeSet c).trans (if_pos rfl)
  have untold : s.SameNoticesBut (s.tornDown c cause) c := fun d hd => (noticeSet d).trans (if_neg hd)
  have level : ((s.tornDown c cause).holdUnit c).level = (s.holdUnit c).level := by
    rw [State.tornDown, State.holdUnit_setNoticeSet, State.endFreeze_holdUnit]
    split <;> rfl
  have ⟨time, slots, backlog, grant, clients, units⟩ : s.SameTime (s.tornDown c cause)
      ∧ (s.tornDown c cause).slots = s.slots ∧ (s.tornDown c cause).backlog = s.backlog
      ∧ (s.tornDown c cause).grant = s.grant ∧ s.SameClientsBut (s.tornDown c cause) c
      ∧ s.SameUnitsBut (s.tornDown c cause) c :=
    ⟨only.time, only.slots, only.backlog, only.grant, only.clients, only.units⟩
  rw [s.beginTeardown_eq]
  generalize s.tornDown c cause = u at *
  by_cases claims : s.claimCount c = 0
  · obtain ⟨x, y, z, completed⟩ := u.completeTeardown_eq c
    rw [if_pos claims, completed]
    refine ⟨?_, told, level, thaws.congr rfl rfl rfl fun _ => rfl, time, slots, backlog, grant, fun d hd => ?_, untold,
      units⟩
    · simp only [State.client_setPort, State.client_setClient_self, client, if_pos claims]
      rfl
    · simpa only [State.client_setPort, State.client_setClient_ne _ _ _ _ hd] using clients d hd
  · rw [if_neg claims]
    refine ⟨?_, told, level, thaws, time, slots, backlog, grant, clients, untold, units⟩
    rw [client, if_neg claims]
    rfl

end

/-- The ports have no part in what the start of a teardown leaves elsewhere. -/
theorem State.TeardownBegins.of_setPort {s t : State} {p : ClientId} {x : Port} {c : ClientId} {cause : EndCause}
    (h : (s.setPort p x).TeardownBegins t c cause) : s.TeardownBegins t c cause := by
  obtain ⟨client, told, level, ⟨start, stored, own, unarmed, others, back⟩, rest⟩ := h
  exact ⟨client, told, level, ⟨start, stored, own, unarmed, others, back.congr (t := s.setPort p x) rfl⟩, rest⟩

/-- No request waits for the teardown of a client whose session is OPEN (R109, R110). -/
theorem State.WaitsLegal.not_waiting {s : State} (law : s.WaitsLegal) {c : ClientId}
    (opened : (s.client c).session = .opened) (q : ClientId) : (s.port q).inFlight ≠ .waiting c := fun waits => by
  have teardown := (law q c waits).1
  rw [opened] at teardown
  cases teardown

/-- A port on which nothing waits for the teardown is as before, but for leaving DETACHED where it is the client's own. -/
theorem State.portAfter_of_not_waiting {s : State} {c q : ClientId} (idle : (s.port q).inFlight ≠ .waiting c) :
    s.portAfter c q = if q = c then (s.port q).settled .none else s.port q := by
  unfold State.portAfter
  by_cases hq : q = c
  · subst hq
    rw [if_pos rfl, if_pos rfl, Port.doneFor_of_not_waiting _ _ _ idle]
  · rw [if_neg hq, if_neg hq, Port.doneFor_of_not_waiting _ _ _ idle, ite_self]

/-! ### A request that waits for the teardown it begins (R109, R110) -/

/-- The request of port `p` waits for the teardown of client `c`. -/
def State.waitsFor (s : State) (p c : ClientId) : State := s.setPort p { s.port p with inFlight := .waiting c }

section
variable {s : State} {p c : ClientId}

theorem State.waitsFor_port : (s.waitsFor p c).port p = { s.port p with inFlight := .waiting c } :=
  s.port_setPort_self p _

theorem State.waitsFor_port_ne {q : ClientId} (hq : q ≠ p) : (s.waitsFor p c).port q = s.port q :=
  s.port_setPort_ne p _ q hq

/-- The DONE that a request waits for is that of the request as it was taken. -/
theorem Port.TakesDone.of_waiting {x y : Port} {session : Session}
    (h : Port.TakesDone { x with inFlight := .waiting c } y session) : x.TakesDone y session := h

/-- The request is answered in the event in which the teardown completes (R116, log 7). -/
theorem State.waitsFor_takesDone (target : p = c ∨ p = Config.supervisor) :
    (s.port p).TakesDone ((s.waitsFor p c).portAfter c p) (if p = c then .none else (s.client p).session) := by
  have waits : ((s.waitsFor p c).port p).inFlight = .waiting c := congrArg Port.inFlight State.waitsFor_port
  refine Port.TakesDone.of_waiting (c := c) ?_
  rw [← State.waitsFor_port]
  unfold State.portAfter
  by_cases hp : p = c
  · subst hp
    rw [if_pos rfl, if_pos rfl, Port.doneFor_of_waiting _ _ _ waits, Port.settled_settled]
    exact Port.replied_takesDone _ _
  · rw [if_neg hp, if_neg hp, if_pos (target.resolve_left hp), Port.doneFor_of_waiting _ _ _ waits]
    exact Port.replied_takesDone _ _

end

/-! ### LEAVE, EVICT and the reset-sense assertion -/

/-- Settles O18: the caller's request waits, and nothing else waited for its teardown. -/
theorem leaveBeginsTheTeardown : Obligations.LeaveBeginsTheTeardown := by
  intro p s passes lawful law
  have taken : exec (.leave p) s = .next ((s.waitsFor p p).beginTeardown p .leave) :=
    congrArg Host.Outcome.next (s.request_passes p .leave [] passes _)
  obtain ⟨-, opened, -⟩ := passes
  have count : (s.waitsFor p p).claimCount p = s.claimCount p := rfl
  have port := (s.waitsFor p p).beginTeardown_port p .leave
  rw [count] at port
  refine ⟨_, taken, State.TeardownBegins.of_setPort (State.beginTeardown_begins _ p .leave lawful), fun q hq => ?_,
    fun claims => ?_, fun free => ?_⟩ <;> rw [port]
  · have same : (s.waitsFor p p).port q = s.port q := State.waitsFor_port_ne hq
    rw [State.portAfter_of_not_waiting (by rw [same]; exact law.not_waiting opened q), if_neg hq, ite_self, same]
  · rw [if_neg claims, State.waitsFor_port]
  · rw [if_pos free]
    simpa using State.waitsFor_takesDone (s := s) (.inl (rfl : p = p))

/-- Settles O19: the caller is the supervisor, whose request waits; the named client's port leaves DETACHED at most. -/
theorem evictBeginsTheTeardown : Obligations.EvictBeginsTheTeardown := by
  intro p s ps c passes named
  have taken : exec (.evict p) s = .next (if c = Config.supervisor ∨ (s.client c).session ≠ .opened
      then s.answer p .badTarget [] else (s.waitsFor p c).beginTeardown c .evicted) := by
    rw [← clientOf_eq named]
    exact congrArg Host.Outcome.next (s.request_passes p .evict ps passes _)
  refine ⟨fun target => ?_, fun other opened lawful law => ?_⟩
  · rw [if_pos (show c = Config.supervisor ∨ _ from target)] at taken
    exact ⟨_, taken, s.answer_onlyAnswered p _ _⟩
  rw [if_neg fun h => h.elim other (· opened)] at taken
  obtain ⟨-, -, role, -⟩ := passes
  obtain rfl : p = 0 := role (by simp [Request.ForSupervisor])
  have count : (s.waitsFor 0 c).claimCount c = s.claimCount c := rfl
  have port := (s.waitsFor 0 c).beginTeardown_port c .evicted
  rw [count] at port
  have elsewhere : ∀ q, q ≠ 0 → (s.waitsFor 0 c).port q = s.port q := fun q hq => State.waitsFor_port_ne hq
  have idle : ∀ q, q ≠ 0 → ((s.waitsFor 0 c).port q).inFlight ≠ .waiting c := fun q hq => by
    rw [elsewhere q hq]
    exact law.not_waiting opened q
  refine ⟨_, taken, State.TeardownBegins.of_setPort (State.beginTeardown_begins _ c .evicted lawful), fun q hq hqc => ?_,
    fun claims => ?_, fun free => ?_⟩ <;> simp only [port]
  · rw [State.portAfter_of_not_waiting (idle q hq), if_neg hqc, ite_self, elsewhere q hq]
  · rw [if_neg claims, if_neg claims, State.waitsFor_port, elsewhere c other]
    exact ⟨rfl, rfl⟩
  · rw [if_pos free, if_pos free, State.portAfter_of_not_waiting (idle c other), if_pos rfl, elsewhere c other]
    refine ⟨?_, Port.settled_settles _ _⟩
    have done := State.waitsFor_takesDone (s := s) (p := 0) (c := c) (.inr rfl)
    rwa [if_neg other.symm] at done

/-- Settles O20: the mark is cleared, and an OPEN session begins its teardown, for which no request waits. -/
theorem resetSenseEndsTheSession : Obligations.ResetSenseEndsTheSession := by
  intro c s owed course
  have lets : (s.port c).inFlight.letsAssertion c = true := by
    rcases course with idle | ⟨a, data, answered⟩ | waits
    · rw [idle]; rfl
    · rw [answered]; rfl
    · rw [waits]; simp [InFlight.letsAssertion]
  generalize marked : s.setPort c { s.port c with senseOwed := false } = u
  have taken : exec (.clientResetSense c) s
      = .next (if (s.client c).session = .opened then u.beginTeardown c .resetLine else u) :=
    marked ▸ congrArg Host.Outcome.next (if_pos ⟨owed, lets⟩)
  have own : u.port c = { s.port c with senseOwed := false } := marked ▸ s.port_setPort_self c _
  have elsewhere : ∀ q, q ≠ c → u.port q = s.port q := fun q hq => marked ▸ s.port_setPort_ne c _ q hq
  refine ⟨fun opened lawful law => ?_, fun closed => ?_⟩
  · rw [if_pos opened] at taken
    have count : u.claimCount c = s.claimCount c := marked ▸ rfl
    have idle : ∀ q, (u.port q).inFlight ≠ .waiting c := fun q => by
      by_cases hq : q = c
      · subst hq
        rw [own]
        exact law.not_waiting opened q
      · rw [elsewhere q hq]
        exact law.not_waiting opened q
    have port := u.beginTeardown_port c .resetLine
    rw [count] at port
    have begins : s.TeardownBegins (u.beginTeardown c .resetLine) c .resetLine := by
      subst marked
      exact State.TeardownBegins.of_setPort (State.beginTeardown_begins _ c _ lawful)
    refine ⟨_, taken, begins, fun q hq => ?_, fun claims => ?_, fun free => ?_⟩ <;> rw [port]
    · rw [State.portAfter_of_not_waiting (idle q), if_neg hq, ite_self, elsewhere q hq]
    · rw [if_neg claims, own]
    · rw [if_pos free, State.portAfter_of_not_waiting (idle c), if_pos rfl, own]
      exact Port.settled_settles _ _
  · rw [if_neg closed] at taken
    exact ⟨u, taken, own, marked ▸ s.setPort_onlyPort c _⟩

end Sys2Proof.Machine
end

section
/-! PROOF. JOIN opens a session (O17). -/

namespace Sys2Proof.Machine

/-! ### JOIN (R107) -/

/-- The client record with its session OPEN, in the next epoch, with nothing of the allowance used (R107). -/
def Client.joined (x : Client) : Client := { x with epoch := nextEpoch x.epoch, session := .opened, holdUsed := 0 }

/-- A client without a session is THAWED (R92, R98). -/
theorem State.FreezeLaw.thawed_of_closed {s : State} (law : s.FreezeLaw) {c : ClientId}
    (closed : (s.client c).session ≠ .opened) : (s.client c).freeze = .thawed := by
  by_contra hf
  exact closed (((s.freezeLaw_iff.mp law) c).standing hf).1

/-- A client whose freeze state stays keeps the laws of its deadlines, THAWED (R92, R98). -/
theorem State.DeadlinesLawful.setThawed {s : State} (h : s.DeadlinesLawful) {c : ClientId} {x : Client}
    (before : (s.client c).freeze = .thawed) (after : x.freeze = .thawed) : (s.setClient c x).DeadlinesLawful := by
  obtain ⟨freeze, one, ordered⟩ := h
  have aside := State.Aside.of_setClient s c x (by rw [before, after]) fun _ hx => absurd after hx
  obtain ⟨freeze', one'⟩ := (State.deadlinesApart_iff _).mp
    (State.DeadlinesApart.aside (s.deadlinesApart_iff.mpr ⟨freeze, one⟩) aside)
  exact ⟨freeze', one', ordered⟩

/-- For a THAWED client the end of a freeze leaves every deadline as it is. -/
theorem State.setThawed_thaws {s : State} (lawful : s.DeadlinesLawful) {c : ClientId} {x : Client}
    (before : (s.client c).freeze = .thawed) : s.DeadlinesThaw (s.setClient c x) c := by
  have ended := (s.endFreeze_spec c lawful).1
  rw [State.endFreeze_of_running (by rw [before]; decide)] at ended
  exact ended.congr rfl rfl rfl fun _ => rfl

/-- The state in which JOIN has opened the session of client `c`, before the freeze is evaluated (R107). -/
def State.joined (s : State) (c : ClientId) : State := s.setClient c (s.client c).joined

section
variable (s : State) (c : ClientId)

theorem State.joined_client : (s.joined c).client c = (s.client c).joined := s.client_setClient_self c _

theorem State.freezeCondition_joined : (s.joined c).freezeCondition c = true
    ↔ (s.holdUnit c).level = true ∧ 0 < (s.client c).holdAllowance := by
  simp [State.joined, State.freezeCondition, Client.joined, Client.allowanceMs]

theorem State.joined_stays (unmet : ¬ ((s.holdUnit c).level = true ∧ 0 < (s.client c).holdAllowance)) :
    (s.joined c).evaluateFreeze c = s.joined c := if_neg fun h => unmet ((s.freezeCondition_joined c).mp h.2)

end

/-- The client enters FROZEN with its whole allowance left (R92, R107). -/
theorem State.joined_freezes {s : State} {c : ClientId} (lawful : s.DeadlinesLawful)
    (thawed : (s.client c).freeze = .thawed) (within : s.HoldWithinAllowance)
    (meets : (s.holdUnit c).level = true ∧ 0 < (s.client c).holdAllowance) :
    ((s.joined c).evaluateFreeze c).client c = { (s.client c).joined with freeze := .frozen }
    ∧ s.DeadlinesFreeze ((s.joined c).evaluateFreeze c) c (1000 * (s.client c).holdAllowance) := by
  have client := s.joined_client c
  have still : ((s.joined c).client c).freeze = .thawed := by rw [client]; exact thawed
  have left : ((s.joined c).client c).allowanceMs - ((s.joined c).client c).holdUsed
      = 1000 * (s.client c).holdAllowance := by rw [client]; rfl
  have bound : ((s.joined c).client c).allowanceMs - ((s.joined c).client c).holdUsed < 2 ^ 32 := by
    have allowed := (within c).2
    omega
  have law : (s.joined c).FreezeLaw := (lawful.setThawed (x := (s.client c).joined) thawed thawed).1
  obtain ⟨entered, frozen⟩ := (s.joined c).enterFreeze_spec c law (by rw [still]; decide) bound
  rw [left] at entered
  rw [client] at frozen
  rw [State.evaluateFreeze, if_pos ⟨still, (s.freezeCondition_joined c).mpr meets⟩]
  exact ⟨frozen, (State.setThawed_thaws lawful thawed).freeze entered rfl⟩

theorem EndCause.code_eq (e : EndCause) : e.code = BitVec.ofNat 8 e.number := by cases e <;> rfl

/-- Settles O17: the session is OPEN before the freeze is evaluated, and its condition parts the two cases. -/
theorem joinOpensTheSession : Obligations.JoinOpensTheSession := by
  intro p s passes lawful within
  have taken : exec (.join p) s = .next (((s.joined p).evaluateFreeze p).answer p .done
      ([BitVec.ofNat 8 p.val] ++ wordBytes (nextEpoch (s.client p).epoch) ++ [(s.client p).endCause.code])) :=
    congrArg Host.Outcome.next (s.request_passes p .join [] passes _)
  obtain ⟨-, closed, -⟩ := passes
  replace closed : (s.client p).session = .none := closed
  have thawed := lawful.1.thawed_of_closed (c := p) (by rw [closed]; decide)
  have only : s.OnlyFreeze ((s.joined p).evaluateFreeze p) p :=
    (State.OnlyFreeze.of_setClient s p _).trans (.of_evaluateFreeze _ p)
  have level := (s.joined p).evaluateFreeze_level p
  have freezes := State.joined_freezes lawful thawed within
  have stays := s.joined_stays p
  generalize (s.joined p).evaluateFreeze p = t at taken only level freezes stays
  refine ⟨_, nextEpoch (s.client p).epoch, taken, rfl, ?_, freezes, fun unmet => ?_, level, only.units, only.time,
    only.slots, only.backlog, only.grant, only.notices, only.clients, fun clean => ?_⟩
  · rw [EndCause.code_eq]
    exact State.answer_answered s t p _ _ only.ports
  · rw [stays unmet]
    exact ⟨(s.joined_client p).trans (congrArg (fun f => { (s.client p).joined with freeze := f }) thawed), rfl, rfl⟩
  · obtain ⟨free, untold⟩ := clean p
    have told : t.noticeSet p = s.noticeSet p := by simp only [State.noticeSet, only.notices]
    exact ⟨told.trans (untold (by rw [closed]; decide)),
      (State.claimCount_of_slots only.slots p).trans (free closed)⟩

end Sys2Proof.Machine
end

section
/-! PROOF. The checks that a taken request meets first (R164): the session check (O13), then role, length and ranges (O14). No
effect of a request answers what these checks answer. -/

namespace Sys2Proof.Machine

/-! ### The answers of stages 1 to 5 (R105, R165) -/

/-- The session check answers it. -/
def Answer.ofSession (a : Answer) : Prop := a = .noSession ∨ a = .inSession ∨ a = .ending

/-- The checks of role, length and ranges answer it. -/
def Answer.ofForm (a : Answer) : Prop := a = .notSupervisor ∨ a = .badRequest ∨ a = .badParam

/-- The stages 1 to 5 answer it, as a test. -/
def Answer.early : Answer → Bool
  | .noSession | .inSession | .ending | .notSupervisor | .badRequest | .badParam => true
  | _ => false

theorem Answer.early_iff (a : Answer) : a.early = true ↔ a.ofSession ∨ a.ofForm := by
  cases a <;> simp [Answer.early, Answer.ofSession, Answer.ofForm]

/-- The request of port `p` has no answer of stages 1 to 5. -/
def State.PastStages (t : State) (p : ClientId) : Prop :=
  ∀ a data, (t.port p).inFlight = .answered a data → a.early = false

/-! ### What the checks answer -/

/-- A request whose session check passes is refused by role, length and ranges in that order, or not at all (R164). -/
theorem State.refusal_of_session {s : State} {p : ClientId} {q : Request} (session : s.SessionPasses p q) (ps : List Byte) :
    s.refusal p q ps = if q.supervisorOnly && p != Config.supervisor then some .notSupervisor
      else if !q.fits ps.length then some .badRequest else if !q.inRange ps then some .badParam else none := by
  have none : sessionRefusal (s.client p).session (q == .join) = none := by
    rw [show (s.client p).session = _ from session]
    by_cases join : q = .join
    · simp [join, sessionRefusal]
    · have other : (q == .join) = false := by simpa using join
      simp [join, other, sessionRefusal]
  unfold State.refusal
  rw [none]

/-- What the session check refuses, nothing else is asked of (R105). -/
theorem State.refusal_session {s : State} {p : ClientId} {q : Request} {a : Answer}
    (refused : sessionRefusal (s.client p).session (q == .join) = some a) (ps : List Byte) :
    s.refusal p q ps = some a := by
  unfold State.refusal
  rw [refused]

/-- The command of a request is the request taken, with an effect of its own. -/
theorem exec_request (q : Request) (p : ClientId) (s : State) :
    ∃ effect : List Byte → State, exec (q.instr p) s = .next (s.request p q effect) := by
  cases q <;> exact ⟨_, rfl⟩

/-- A request that stages 1 to 5 refuse is answered, and changes nothing else (R165). -/
theorem exec_refused {s : State} {p : ClientId} {q : Request} {ps : List Byte} (flight : s.InFlight p q ps) {a : Answer}
    (refused : s.refusal p q ps = some a) : ∃ t, exec (q.instr p) s = .next t ∧ s.OnlyAnswered t p a [] := by
  obtain ⟨effect, taken⟩ := exec_request q p s
  refine ⟨s.answer p a [], ?_, s.answer_onlyAnswered p a []⟩
  rw [taken, s.request_inFlight p q ps flight, refused]

/-! ### No effect answers what stages 1 to 5 answer -/

theorem State.PastStages.answer (s : State) (p : ClientId) {a : Answer} (past : a.early = false) (data : List Byte) :
    (s.answer p a data).PastStages p := fun b data' answered => by
  rw [State.answer, State.port_setPort_self] at answered
  obtain ⟨rfl, -⟩ := InFlight.answered.inj answered
  exact past

theorem State.PastStages.atRecord {s : State} {p : ClientId} {q : Request} {key : Key}
    {effect : SlotId → Resource → State} (found : ∀ i r, (effect i r).PastStages p) :
    (s.atRecord p q key effect).PastStages p := by
  unfold State.atRecord
  split
  · exact .answer s p rfl []
  split
  · exact .answer s p rfl []
  split
  · exact .answer s p rfl []
  · exact found _ _

/-- A request that begins a teardown waits for it, or has its DONE in its slot already (R109, R110). -/
theorem State.PastStages.teardown (s : State) (p c : ClientId) (cause : EndCause) :
    ((s.waitsFor p c).beginTeardown c cause).PastStages p := fun a data answered => by
  have waits : ((s.waitsFor p c).port p).inFlight = .waiting c := congrArg Port.inFlight State.waitsFor_port
  rw [State.beginTeardown_port] at answered
  split at answered
  · rw [State.portAfter_inFlight, waits] at answered
    split at answered <;> cases answered
  · rw [waits] at answered
    cases answered

theorem Resource.holderRefusal_early {r : Resource} {c : ClientId} {gen : Gen} {a : Answer}
    (h : r.holderRefusal c gen = some a) : a.early = false := by
  unfold Resource.holderRefusal at h
  split at h
  · cases h; rfl
  · split at h
    · cases h; rfl
    · split at h <;> cases h
      rfl

theorem Resource.offerRefusal_early {r : Resource} {c : ClientId} {gen : Gen} {a : Answer}
    (h : r.offerRefusal c gen = some a) : a.early = false := by
  unfold Resource.offerRefusal at h
  split at h
  · cases h; rfl
  · split at h
    · cases h; rfl
    · split at h <;> cases h
      rfl

theorem State.PastStages.acquireAt (s : State) (p : ClientId) (i : SlotId) (r : Resource) (mode : Tenure)
    (priority : Fin 4) (wait : Ms) : (s.acquireAt p i r mode priority wait).PastStages p := by
  unfold State.acquireAt
  split
  · exact .answer s p rfl []
  split
  · exact .answer s p rfl []
  split
  · exact .answer s p rfl []
  split
  · exact .answer s p rfl []
  split
  · exact .answer _ p rfl _
  split
  · exact .answer s p rfl _
  split
  · exact .answer s p rfl []
  · exact .answer _ p rfl _

/-- The effect of a request that passes stages 1 to 5 answers nothing that these stages answer. -/
theorem exec_pastStages {q : Request} {p : ClientId} {s : State} {ps : List Byte} (passes : s.Passes p q ps) :
    ∃ t, exec (q.instr p) s = .next t ∧ t.PastStages p := by
  have taken : ∀ effect, (.next (s.request p q effect) : Host.Outcome State Fault Refusal) = .next (effect ps) :=
    fun effect => congrArg _ (s.request_passes p q ps passes effect)
  cases q <;> refine ⟨_, taken _, ?_⟩
  case join => exact .answer _ p rfl _
  case leave => exact .teardown s p p .leave
  case acquire => exact .atRecord fun i r => .acquireAt s p i r _ _ _
  case accept =>
    refine .atRecord fun i r => ?_
    split
    · exact .answer s p (Resource.offerRefusal_early ‹_›) []
    · exact .answer _ p rfl _
    · exact .answer s p rfl []
  case decline =>
    refine .atRecord fun i r => ?_
    split
    · exact .answer s p (Resource.offerRefusal_early ‹_›) []
    · exact .answer _ p rfl []
  case cancel =>
    refine .atRecord fun i r => ?_
    split <;> exact .answer _ p rfl []
  case renew =>
    refine .atRecord fun i r => ?_
    split
    · exact .answer s p (Resource.holderRefusal_early ‹_›) []
    · exact .answer _ p rfl _
  case release =>
    refine .atRecord fun i r => ?_
    split
    · exact .answer s p (Resource.holderRefusal_early ‹_›) []
    · exact .answer _ p rfl []
  case downgrade =>
    refine .atRecord fun i r => ?_
    split
    · exact .answer s p (Resource.holderRefusal_early ‹_›) []
    split
    · exact .answer s p rfl []
    split <;> exact .answer _ p rfl []
  case markSound =>
    refine .atRecord fun i r => ?_
    split
    · exact .answer s p (Resource.holderRefusal_early ‹_›) []
    split <;> exact .answer _ p rfl []
  case query => exact .atRecord fun i r => .answer s p rfl _
  case takeNotice =>
    split <;> exact .answer _ p rfl _
  case define =>
    split
    · exact .answer s p rfl []
    split <;> exact .answer _ p rfl _
  case amend =>
    refine .atRecord fun i r => ?_
    simp only
    split <;> exact .answer _ p rfl []
  case retire =>
    refine .atRecord fun i r => ?_
    simp only
    split <;> exact .answer _ p rfl _
  case revoke =>
    refine .atRecord fun i r => ?_
    simp only
    split <;> exact .answer _ p rfl []
  case evict =>
    simp only
    split
    · exact .answer s p rfl []
    · exact .teardown s p _ .evicted
  case setClient =>
    simp only
    split <;> exact .answer _ p rfl []
  case inspectClient =>
    simp only
    split
    · exact .answer s p rfl _
    split <;> exact .answer s p rfl _

/-! ### The stages in their order (R164) -/

/-- With the session check passed, the answer is not one of it, whatever the other stages say. -/
theorem exec_notOfSession {q : Request} {p : ClientId} {s : State} {ps : List Byte} (flight : s.InFlight p q ps)
    (session : s.SessionPasses p q) : ∃ t, exec (q.instr p) s = .next t
      ∧ ∀ a data, (t.port p).inFlight = .answered a data → ¬ a.ofSession := by
  cases refusal : s.refusal p q ps with
  | none =>
    obtain ⟨t, taken, past⟩ := exec_pastStages (State.passes_of_refusal flight refusal)
    refine ⟨t, taken, fun a data answered early => ?_⟩
    have late := past a data answered
    rw [a.early_iff.mpr (.inl early)] at late
    cases late
  | some a =>
    obtain ⟨t, taken, ⟨port, -⟩, -⟩ := exec_refused flight refusal
    have late : ¬ a.ofSession := by
      rw [State.refusal_of_session session] at refusal
      split at refusal
      · cases refusal; simp [Answer.ofSession]
      split at refusal
      · cases refusal; simp [Answer.ofSession]
      split at refusal <;> cases refusal
      simp [Answer.ofSession]
    refine ⟨t, taken, fun b data answered => ?_⟩
    rw [port] at answered
    obtain ⟨rfl, -⟩ := InFlight.answered.inj answered
    exact late

theorem knownCode_eq_false {code : Byte} (idle : code ≠ 0x00#8) (unknown : ∀ q : Request, code ≠ q.code) :
    knownCode code = false := by
  have others : (Request.all.any fun q => q.code == code) = false :=
    List.any_eq_false.mpr fun q _ => by simpa using (unknown q).symm
  rw [knownCode, others, Bool.or_false]
  simpa [idleCode] using idle

/-- A request of an unknown code meets the session check too (R105, R165). -/
theorem exec_unknownCode_refused {p : ClientId} {s : State} {code : Byte} {ps : List Byte}
    (flight : (s.port p).inFlight = .taken code ps) (unknown : knownCode code = false) {a : Answer}
    (refused : sessionRefusal (s.client p).session false = some a) :
    ∃ t, exec (.unknownCode p) s = .next t ∧ s.OnlyAnswered t p a [] := by
  refine ⟨s.answer p a [], ?_, s.answer_onlyAnswered p a []⟩
  change execUnknownCode p s = _
  simp [execUnknownCode, flight, unknown, refused]

/-- Settles O13: the session check is the first of the stages, and nothing that follows answers as it does. -/
theorem sessionCheckComesFirst : Obligations.SessionCheckComesFirst := by
  refine ⟨fun q p s ps flight => ⟨fun none other => ?_, fun opened join => ?_, fun teardown => ?_, fun session => ?_⟩,
    fun p s code ps flight idle unknown => ⟨fun none => ?_, fun teardown => ?_⟩, fun p s => rfl⟩
  · have hjoin : (q == .join) = false := by simpa using other
    exact exec_refused flight (State.refusal_session (by rw [none, hjoin]; rfl) ps)
  · subst join
    exact exec_refused flight (State.refusal_session (by rw [opened]; rfl) ps)
  · exact exec_refused flight (State.refusal_session (by rw [teardown]; rfl) ps)
  · obtain ⟨t, taken, past⟩ := exec_notOfSession flight session
    refine ⟨t, taken, fun a data answered => ?_⟩
    simpa [Answer.ofSession] using past a data answered
  · exact exec_unknownCode_refused flight (knownCode_eq_false idle unknown) (by rw [none]; rfl)
  · exact exec_unknownCode_refused flight (knownCode_eq_false idle unknown) (by rw [teardown]; rfl)

/-- Settles O14: the three checks one after another, and nothing that follows answers as they do. -/
theorem roleLengthAndRangesInOrder : Obligations.RoleLengthAndRangesInOrder := by
  intro q p s ps flight session
  have stages := State.refusal_of_session session ps
  have role : (q.ForSupervisor → p = 0) → (q.supervisorOnly && p != Config.supervisor) = false := fun h => by
    by_cases supervisor : q.supervisorOnly = true
    · simp [h (q.supervisorOnly_iff.mp supervisor), Config.supervisor]
    · simp [supervisor]
  refine ⟨fun supervisor other => ?_, fun allowed length => ?_, fun allowed length ranges => ?_,
    fun allowed length ranges => ?_⟩
  · have refused : (q.supervisorOnly && p != Config.supervisor) = true := by
      simpa [q.supervisorOnly_iff.mpr supervisor, Config.supervisor] using other
    rw [if_pos refused] at stages
    exact exec_refused flight stages
  · have misfits : q.fits ps.length = false := by rwa [← Bool.not_eq_true, q.fits_iff]
    rw [role allowed, misfits] at stages
    exact exec_refused flight stages
  · have outside : q.inRange ps = false := by rwa [← Bool.not_eq_true, q.inRange_iff]
    rw [role allowed, (q.fits_iff _).mpr length, outside] at stages
    exact exec_refused flight stages
  · obtain ⟨t, taken, past⟩ := exec_pastStages ⟨flight, session, allowed, length, ranges⟩
    refine ⟨t, taken, fun a data answered => ?_⟩
    have late : ¬ a.ofForm := fun early => by
      have := past a data answered
      rw [a.early_iff.mpr (.inr early)] at this
      cases this
    simpa [Answer.ofForm] using late

end Sys2Proof.Machine
end

section
/-! SUPPORT. What clients whose session is not OPEN are spared (`State.Spares`): no change of any session, and for such a client
no new claim (R116), no notice (R129) and no request that comes to wait for its teardown (R109, R110). -/

namespace Sys2Proof.Machine

/-- Every session is as before, and a client whose session is not OPEN has gained no claim, no notice and no request that waits
for its teardown. -/
structure State.Spares (s t : State) : Prop where
  sessions : ∀ c, (t.client c).session = (s.client c).session
  claims : ∀ c, (s.client c).session ≠ .opened → t.claimCount c ≤ s.claimCount c
  notices : ∀ c, (s.client c).session ≠ .opened → s.noticeSet c = NoticeSet.empty → t.noticeSet c = NoticeSet.empty
  waits : ∀ p c, (t.port p).inFlight = .waiting c → (s.port p).inFlight = .waiting c

/-- A record's claims of a client, 0 where there is no record. -/
def claimsIn (x : Option Resource) (c : ClientId) : Nat := x.elim 0 fun r => r.claimsOf c

theorem Resource.claimsOf_eraseWaiter_le (r : Resource) (p : Waiter → Bool) (c : ClientId) :
    Resource.claimsOf { r with queue := r.queue.eraseP p } c ≤ r.claimsOf c :=
  Nat.add_le_add_left (List.eraseP_sublist.countP_le) _

/-- An edit of each holding that keeps its client keeps the claims. -/
theorem Resource.claimsOf_mapHolders (r : Resource) {f : Holding → Holding} (client : ∀ g, (f g).client = g.client)
    (c : ClientId) : Resource.claimsOf { r with holders := r.holders.map f } c = r.claimsOf c := by
  have same : ((fun h => h.client == c) ∘ f) = fun h => h.client == c := funext fun g => by simp [client]
  simp only [Resource.claimsOf, List.countP_map, same]

namespace State.Spares

theorem trans {s t u : State} (h : s.Spares t) (k : t.Spares u) : s.Spares u where
  sessions c := (k.sessions c).trans (h.sessions c)
  claims c hc := (k.claims c ((h.sessions c).symm ▸ hc)).trans (h.claims c hc)
  notices c hc told := k.notices c ((h.sessions c).symm ▸ hc) (h.notices c hc told)
  waits p c waits := h.waits p c (k.waits p c waits)

/-- Where the records, the sessions, the notice sets and the ports stay, everybody is spared. -/
theorem of_same {s t : State} (slots : t.slots = s.slots) (sessions : ∀ c, (t.client c).session = (s.client c).session)
    (notices : t.notices = s.notices) (ports : t.ports = s.ports) : s.Spares t where
  sessions := sessions
  claims c _ := Nat.le_of_eq (State.claimCount_of_slots slots c)
  notices c _ told := by simpa only [State.noticeSet, notices] using told
  waits p c waits := by simpa only [State.port, ports] using waits

theorem refl (s : State) : s.Spares s := of_same rfl (fun _ => rfl) rfl rfl

section
variable {s t u : State} (h : s.Spares t)
include h

theorem same (slots : u.slots = t.slots) (clients : u.clients = t.clients) (notices : u.notices = t.notices)
    (ports : u.ports = t.ports) : s.Spares u :=
  h.trans (of_same slots (fun c => by simp only [State.client, clients]) notices ports)

theorem deadlines (k : t.SameButDeadlines u) : s.Spares u := h.same k.slots k.clients k.notices k.ports

theorem setBacklog (l : List SlotId) : s.Spares (t.setBacklog l) := h.same rfl rfl rfl rfl

theorem setHoldUnit (c : ClientId) (x : HoldUnit) : s.Spares (t.setHoldUnit c x) := h.same rfl rfl rfl rfl

/-- A client record changes, its session not. -/
theorem setClient (c : ClientId) {x : Client} (session : x.session = (t.client c).session) : s.Spares (t.setClient c x) := by
  refine h.trans (of_same rfl (fun d => ?_) rfl rfl)
  rw [State.client_setClient]
  split <;> simp [*]

/-! ### Ports -/

/-- A port comes to wait for no teardown. -/
theorem setPort (p : ClientId) {x : Port} (waits : ∀ c, x.inFlight = .waiting c → (t.port p).inFlight = .waiting c) :
    s.Spares (t.setPort p x) := by
  refine h.trans ⟨fun _ => rfl, fun _ _ => Nat.le_refl _, fun _ _ => id, fun q c hq => ?_⟩
  rw [State.port_setPort] at hq
  split at hq
  · rename_i hqp
    exact hqp ▸ waits c hq
  · exact hq

theorem answer (p : ClientId) (a : Answer) (data : List Byte) : s.Spares (t.answer p a data) := h.setPort p nofun

theorem portReady (p : ClientId) : s.Spares (t.portReady p) := by
  rw [t.portReady_eq]
  exact h.setPort p fun c waits => by rwa [Port.settled_inFlight] at waits

theorem placeReply (p : ClientId) (a : Answer) (data : List Byte) : s.Spares (t.placeReply p a data) := by
  rw [t.placeReply_eq]
  refine h.setPort p fun c waits => ?_
  rw [Port.settled_inFlight, Port.replied_inFlight] at waits
  cases waits

/-! ### Notices (R125, R129) -/

theorem setNoticeSet (c : ClientId) {ns : NoticeSet}
    (told : (t.client c).session ≠ .opened → t.noticeSet c = NoticeSet.empty → ns = NoticeSet.empty) :
    s.Spares (t.setNoticeSet c ns) := by
  refine h.trans ⟨fun _ => rfl, fun _ _ => Nat.le_refl _, fun d hd hempty => ?_, fun _ _ => id⟩
  rw [State.noticeSet_setNoticeSet]
  split
  · rename_i hdc
    subst hdc
    exact told hd hempty
  · exact hempty

theorem raiseNotice (c : ClientId) (n : Notice) : s.Spares (t.raiseNotice c n) := by
  rw [t.raiseNotice_eq]
  refine h.setNoticeSet c fun closed told => ?_
  rw [State.raisedFor, if_neg closed, told]

/-- Notices are only cleared (R128). -/
theorem clearNotices (c : ClientId) (p : Notice → Bool) : s.Spares (t.clearNotices c p) :=
  h.setNoticeSet c fun _ told => by simp [told, NoticeSet.empty]

/-- The notices of a holding's end are raised to an OPEN session alone (R38, R125). -/
theorem endNotices (key : Key) (g : Holding) (cause : HoldingEnd) : s.Spares (t.endNotices key g cause) := by
  have cleared : s.Spares (if g.state = .held then t.clearExpiring g.client key g.gen else t) := by
    split
    · exact h.clearNotices _ _
    · exact h
  unfold State.endNotices
  cases cause <;> simp only
  case released | left | tornDown => exact cleared
  case expired | revoked => exact cleared.raiseNotice _ _
  case declined => exact cleared.clearNotices _ _
  case lapsed | withdrawn => exact (cleared.clearNotices _ _).raiseNotice _ _

/-! ### Records -/

theorem setRecord (i : SlotId) {x : Option Resource}
    (claims : ∀ c, (t.client c).session ≠ .opened → claimsIn x c ≤ claimsIn (t.record i) c) : s.Spares (t.setRecord i x) := by
  refine h.trans ⟨fun _ => rfl, fun c hc => State.total_mono fun j => ?_, fun _ _ => id, fun _ _ => id⟩
  rw [State.record_setRecord]
  split
  · rename_i hj
    subst hj
    exact claims c hc
  · exact Nat.le_refl _

theorem setRecord_none (i : SlotId) : s.Spares (t.setRecord i none) := h.setRecord i fun _ _ => Nat.zero_le _

theorem modifyRecord (i : SlotId) {f : Resource → Resource}
    (claims : ∀ r c, (t.client c).session ≠ .opened → (f r).claimsOf c ≤ r.claimsOf c) : s.Spares (t.modifyRecord i f) := by
  unfold State.modifyRecord
  split
  · exact h
  · rename_i r hr
    exact h.setRecord i fun c hc => by simpa only [hr, claimsIn, Option.elim_some] using claims r c hc

theorem modifyHolding (i : SlotId) (c : ClientId) {f : Holding → Holding} (client : ∀ g, (f g).client = g.client) :
    s.Spares (t.modifyHolding i c f) :=
  h.modifyRecord i fun r d _ => Nat.le_of_eq (r.claimsOf_mapHolders (fun g => by split <;> simp [client]) d)

theorem dropWaiter (i : SlotId) (c : ClientId) : s.Spares (t.dropWaiter i c) :=
  (h.modifyRecord i fun r d _ => Resource.claimsOf_eraseWaiter_le r _ d).deadlines (State.disarm_same _ _)

/-- A holding is created for a client whose session is OPEN. -/
theorem createHolding (i : SlotId) {c : ClientId} (opened : (t.client c).session = .opened) (m : Tenure) (st : HoldState) :
    s.Spares (t.createHolding i c m st) := by
  refine State.Spares.modifyRecord (h.same (u := t.setGrant (t.grant + 1)) rfl rfl rfl rfl) i fun r d hd => ?_
  have other : c ≠ d := fun hcd => hd (hcd ▸ opened)
  simp [Resource.claimsOf, other]

theorem dropHolding {i : SlotId} {r : Resource} (hr : t.record i = some r) (g : Holding) (cause : HoldingEnd) :
    s.Spares (t.dropHolding i r g cause) := by
  refine ((h.setRecord i fun c _ => ?_).deadlines (State.disarm_same _ _)).endNotices _ g cause
  rw [hr]
  exact Nat.add_le_add_right List.eraseP_sublist.countP_le _

/-! ### Offers (R11, R67) -/

/-- Offers turn entries into holdings of the same clients, and are told to OPEN sessions alone (R57, R125). -/
theorem offers {os : List Offer} (k : t.OffersMade u os) (ports : u.ports = t.ports) : s.Spares u := by
  refine h.trans ⟨fun c => by rw [k.client], fun c _ => State.total_mono fun i => k.claims_le i c, fun c hc told => ?_,
    fun p c waits => by simpa only [State.port, ports] using waits⟩
  rw [k.notices]
  refine List.foldlRecOn (motive := (· = NoticeSet.empty)) _ _ told fun ns hns x _ => ?_
  rw [State.raisedFor, if_neg hc, hns]

theorem offerCheck (i : SlotId) : s.Spares (t.offerCheck i) := by
  obtain ⟨os, made, -⟩ := t.offerCheck_offersFrom i
  exact h.offers made (t.offerCheck_ports i)

theorem giveBack : s.Spares t.giveBack.1 := by
  obtain ⟨os, made, -⟩ := t.giveBack_handed.offers
  exact h.offers made t.giveBack_ports

theorem giveBackMany (n : Nat) : s.Spares (State.giveBackMany n t) := by
  obtain ⟨os, made, -⟩ := (State.giveBackMany_spec n t).1
  exact h.offers made (State.giveBackMany_ports n t)

theorem giveBackAndCheck (i : SlotId) : s.Spares (t.giveBackAndCheck i) := by
  obtain ⟨os, made, -⟩ := t.giveBackAndCheck_offersFrom i
  exact h.offers made (t.giveBackAndCheck_ports i)

/-! ### The end of a holding and of a wait (R40, R47), and RETIRE (R16) -/

theorem endHolding (i : SlotId) (c : ClientId) (cause : HoldingEnd) : s.Spares (t.endHolding i c cause) := by
  unfold State.endHolding
  split
  · exact h
  rename_i r hr
  split
  · exact h
  rename_i g _
  have dropped := h.dropHolding hr g cause
  simp only
  split
  · exact ((dropped.setRecord_none i).setBacklog _).giveBack
  · exact dropped.giveBackAndCheck i

theorem endWait (i : SlotId) (c : ClientId) : s.Spares (t.endWait i c) := by
  unfold State.endWait
  split
  · exact h
  simp only
  split
  · exact (h.dropWaiter i c).offerCheck i
  · exact h.dropWaiter i c

theorem lapseWait (i : SlotId) (c : ClientId) : s.Spares (t.lapseWait i c) := by
  unfold State.lapseWait
  split
  · exact h
  simp only
  split
  · exact ((h.dropWaiter i c).raiseNotice c _).offerCheck i
  · exact (h.dropWaiter i c).raiseNotice c _

theorem withdrawAll (i : SlotId) (r : Resource) : s.Spares (t.withdrawAll i r) := by
  refine State.Spares.setBacklog ?_ _
  refine List.foldlRecOn _ _ ?_ fun v hv g _ => ?_
  · exact List.foldlRecOn _ _ h fun v hv w _ => (hv.dropWaiter i w.client).raiseNotice w.client _
  · unfold State.withdrawOffer
    split
    · exact hv
    · exact hv.dropHolding ‹_› g _

/-! ### The freeze (R92, R95) -/

theorem onlyFreeze {c : ClientId} (k : t.OnlyFreeze u c) (session : (u.client c).session = (t.client c).session) :
    s.Spares u := by
  refine h.trans (of_same k.slots (fun d => ?_) k.notices k.ports)
  by_cases hd : d = c
  · exact hd ▸ session
  · rw [k.clients d hd]

theorem evaluateFreeze (c : ClientId) : s.Spares (t.evaluateFreeze c) :=
  h.onlyFreeze (.of_evaluateFreeze t c) (by rw [t.evaluateFreeze_client c])

theorem endFreeze (c : ClientId) : s.Spares (t.endFreeze c) :=
  h.onlyFreeze (.of_endFreeze t c) (by rw [t.endFreeze_client c])

end

end State.Spares

end Sys2Proof.Machine
end

section
/-! PROOF. Every command but JOIN, those that begin or complete a teardown and the part resets spares the clients whose session is
not OPEN; with these one by one, every step keeps clients without a session clean, and lets no request wait for a teardown
that is not under way (O57). -/

namespace Sys2Proof.Machine

/-- The command opens a session, begins or completes a teardown, or resets the part. -/
def changesSessions : Instr → Bool
  | .powerOn .. | .resetPin | .join _ | .leave _ | .evict _ | .clientResetSense _ | .teardownCompletion _ => true
  | _ => false

/-! ### The ports -/

section
variable (s : State) (p c : ClientId) (i : SlotId)

theorem Port.judge_waits (x : Port) (bytes : List Byte) {c : ClientId} (h : (x.judge bytes).inFlight = .waiting c) :
    x.inFlight = .waiting c := by
  unfold Port.judge at h
  split at h
  · exact h
  · exact h
  · split at h
    · exact h
    split at h
    · cases h
    all_goals exact h

theorem execFrameStart_spares : ∃ t, execFrameStart p s = .next t ∧ s.Spares t := by
  have hrefl := State.Spares.refl s
  refine ⟨_, rfl, ?_⟩
  simp only
  split
  · exact hrefl
  split
  · refine (hrefl.setPort p fun _ waits => ?_).setNoticeSet p fun _ told => ?_
    · exact waits
    · rw [State.noticeSet_setPort] at told
      simp [told, NoticeSet.markShown, NoticeSet.empty]
  · exact hrefl.setPort p fun _ => id

theorem State.Spares.deliver {s t : State} (h : s.Spares t) (p : ClientId) (f : Frame) : s.Spares (t.deliver p f) := by
  unfold State.deliver
  refine (h.setPort p fun c waits => ?_).setNoticeSet p fun _ told => ?_
  · unfold Port.clearShown at waits
    split at waits <;> exact waits
  · rw [State.noticeSet_setPort] at told
    rw [told]
    unfold NoticeSet.delivered
    split <;> rfl

theorem execFrameEnd_spares (n : Nat) (d : BitVec n) : ∃ t, execFrameEnd p n d s = .next t ∧ s.Spares t := by
  refine ⟨_, rfl, ?_⟩
  simp only
  have closed : s.Spares (s.setPort p { s.port p with selectLow := false, frame := none }) :=
    (State.Spares.refl s).setPort p fun _ => id
  split
  · exact .refl s
  split
  · exact closed
  split
  · exact closed
  · refine State.Spares.setPort ?_ p fun c => Port.judge_waits _ _
    split
    · exact closed.deliver p _
    · exact closed

theorem execReplyReady_spares : ∃ t, execReplyReady p s = .next t ∧ s.Spares t := by
  refine ⟨_, rfl, ?_⟩
  split
  · exact (State.Spares.refl s).placeReply p _ _
  all_goals exact .refl s

theorem execResetSenseAssert_spares : ∃ t, execResetSenseAssert p s = .next t ∧ s.Spares t := by
  refine ⟨_, rfl, ?_⟩
  simp only
  split
  · exact .refl s
  split <;> exact (State.Spares.refl s).setPort p fun _ => id

theorem execResetSenseRelease_spares : ∃ t, execResetSenseRelease p s = .next t ∧ s.Spares t := by
  refine ⟨_, rfl, ?_⟩
  split
  · exact ((State.Spares.refl s).setPort p (x := { s.port p with resetSense := false }) fun _ => id).portReady p
  · exact .refl s

/-! ### The requests on claims -/

theorem State.Spares.request {s : State} {p : ClientId} {q : Request} {effect : List Byte → State}
    (taken : ∀ ps, s.Passes p q ps → s.Spares (effect ps)) : s.Spares (s.request p q effect) :=
  State.request_induction (.refl s) ((State.Spares.refl s).answer p · []) taken

theorem State.Spares.requestAtRecord {s : State} {p : ClientId} {q : Request} {key : List Byte → Key}
    {effect : List Byte → SlotId → Resource → State}
    (found : ∀ ps i r, s.Passes p q ps → s.record i = some r → s.Spares (effect ps i r)) :
    s.Spares (s.request p q fun ps => s.atRecord p q (key ps) (effect ps)) :=
  State.requestAtRecord_induction (.refl s) ((State.Spares.refl s).answer p · []) fun ps i r passes hr _ =>
    found ps i r passes hr

/-- A new entry is that of a client whose session is OPEN (R52). -/
theorem State.Spares.enqueue {s : State} {i : SlotId} {r : Resource} (hr : s.record i = some r) {w : Waiter}
    (opened : (s.client w.client).session = .opened) (wait : Ms) : s.Spares (s.enqueue w.client i r w wait) := by
  have queued : s.Spares (s.setRecord i (some { r with queue := r.queueWith w })) := by
    refine (State.Spares.refl s).setRecord i fun d hd => ?_
    have other : w.client ≠ d := fun h => hd (h ▸ opened)
    have entries := (perm_insertAfterLast (fun v => decide (w.priority ≤ v.priority)) w r.queue).countP_eq
      fun v => v.client == d
    rw [List.countP_cons_of_neg (by simpa using other)] at entries
    rw [hr]
    exact Nat.le_of_eq (congrArg _ entries)
  have armed := queued.deadlines (State.arm_same _ (.waiter i w.client) .waitEnd wait.toNat)
  unfold State.enqueue
  simp only
  refine State.Spares.answer ?_ _ _ _
  split <;> split
  · exact queued.offerCheck i
  · exact armed.offerCheck i
  · exact queued
  · exact armed

theorem execAcquire_spares : ∃ t, execAcquire p s = .next t ∧ s.Spares t := by
  have hrefl := State.Spares.refl s
  refine ⟨_, rfl, .requestAtRecord fun ps i r passes hr => ?_⟩
  have opened : (s.client p).session = .opened := passes.2.1
  refine State.acquireAt_induction (hrefl.answer p) (fun _ => ?_) fun _ _ => ?_
  · exact ((hrefl.createHolding i opened _ _).deadlines (State.armLease_same _ i p r)).answer p _ _
  · exact .enqueue (w := { client := p, mode := _, priority := _ }) hr opened _

theorem execAccept_spares : ∃ t, execAccept p s = .next t ∧ s.Spares t := by
  have hrefl := State.Spares.refl s
  refine ⟨_, rfl, .requestAtRecord fun ps i r _ _ => ?_⟩
  split
  · exact hrefl.answer p _ _
  · have edited := hrefl.modifyHolding i p (f := fun g => { g with state := .held, warned := false }) fun _ => rfl
    exact ((edited.deadlines (State.armLease_same _ i p r)).clearNotices p _).answer p _ _
  · exact hrefl.answer p _ _

theorem execDecline_spares : ∃ t, execDecline p s = .next t ∧ s.Spares t := by
  have hrefl := State.Spares.refl s
  refine ⟨_, rfl, .requestAtRecord fun ps i r _ _ => ?_⟩
  split
  · exact hrefl.answer p _ _
  · exact (hrefl.endHolding i p _).answer p _ _

theorem execCancel_spares : ∃ t, execCancel p s = .next t ∧ s.Spares t := by
  have hrefl := State.Spares.refl s
  refine ⟨_, rfl, .requestAtRecord fun ps i r _ _ => ?_⟩
  split
  · exact (hrefl.endWait i p).answer p _ _
  · exact hrefl.answer p _ _

theorem execRenew_spares : ∃ t, execRenew p s = .next t ∧ s.Spares t := by
  have hrefl := State.Spares.refl s
  refine ⟨_, rfl, .requestAtRecord fun ps i r _ _ => ?_⟩
  split
  · exact hrefl.answer p _ _
  · have edited := hrefl.modifyHolding i p (f := fun g => { g with warned := false }) fun _ => rfl
    exact ((edited.deadlines (State.armLease_same _ i p r)).clearNotices p _).answer p _ _

theorem execRelease_spares : ∃ t, execRelease p s = .next t ∧ s.Spares t := by
  have hrefl := State.Spares.refl s
  refine ⟨_, rfl, .requestAtRecord fun ps i r _ _ => ?_⟩
  split
  · exact hrefl.answer p _ _
  · exact (hrefl.endHolding i p _).answer p _ _

theorem execDowngrade_spares : ∃ t, execDowngrade p s = .next t ∧ s.Spares t := by
  have hrefl := State.Spares.refl s
  refine ⟨_, rfl, .requestAtRecord fun ps i r _ _ => ?_⟩
  split
  · exact hrefl.answer p _ _
  split
  · exact hrefl.answer p _ _
  split
  · exact hrefl.answer p _ _
  · exact ((hrefl.modifyHolding i p (f := fun g => { g with tenure := .shared }) fun _ => rfl).offerCheck i).answer p _ _

theorem execMarkSound_spares : ∃ t, execMarkSound p s = .next t ∧ s.Spares t := by
  have hrefl := State.Spares.refl s
  refine ⟨_, rfl, .requestAtRecord fun ps i r _ hr => ?_⟩
  split
  · exact hrefl.answer p _ _
  split
  · exact hrefl.answer p _ _
  · refine (hrefl.setRecord i fun c _ => ?_).answer p _ _
    rw [hr]
    exact Nat.le_refl _

theorem execRevoke_spares : ∃ t, execRevoke p s = .next t ∧ s.Spares t := by
  have hrefl := State.Spares.refl s
  refine ⟨_, rfl, .requestAtRecord fun ps i r _ _ => ?_⟩
  simp only
  split
  · exact (hrefl.endHolding i _ _).answer p _ _
  · exact hrefl.answer p _ _

/-! ### The requests of the directory, the Client Table and the Notice Unit -/

theorem execDefine_spares : ∃ t, execDefine p s = .next t ∧ s.Spares t := by
  have hrefl := State.Spares.refl s
  refine ⟨_, rfl, .request fun ps _ => ?_⟩
  split
  · exact hrefl.answer p _ _
  split
  · exact hrefl.answer p _ _
  · exact (hrefl.setRecord _ fun c _ => Nat.zero_le _).answer p _ _

theorem execAmend_spares : ∃ t, execAmend p s = .next t ∧ s.Spares t := by
  have hrefl := State.Spares.refl s
  refine ⟨_, rfl, .requestAtRecord fun ps i r _ hr => ?_⟩
  have amended : s.Spares (s.setRecord i (some (r.amended ps))) := hrefl.setRecord i fun c _ => by
    rw [hr]
    exact Nat.le_refl _
  simp only
  split
  · exact hrefl.answer p _ _
  · refine State.Spares.answer ?_ p _ _
    split
    · exact amended.offerCheck i
    · exact amended

theorem execRetire_spares : ∃ t, execRetire p s = .next t ∧ s.Spares t := by
  have hrefl := State.Spares.refl s
  refine ⟨_, rfl, .requestAtRecord fun ps i r _ _ => ?_⟩
  have withdrawn := hrefl.withdrawAll i r
  simp only
  split
  · exact ((withdrawn.modifyRecord i (f := fun q => { q with lifecycle := .retiring }) fun _ _ _ => Nat.le_refl _).giveBackMany _).answer p _ _
  · exact ((withdrawn.setRecord_none i).giveBackMany _).answer p _ _

theorem execQuery_spares : ∃ t, execQuery p s = .next t ∧ s.Spares t :=
  ⟨_, rfl, .requestAtRecord fun _ _ _ _ _ => (State.Spares.refl s).answer p _ _⟩

theorem execTakeNotice_spares : ∃ t, execTakeNotice p s = .next t ∧ s.Spares t := by
  have hrefl := State.Spares.refl s
  refine ⟨_, rfl, .request fun _ _ => ?_⟩
  split
  · exact hrefl.answer p _ _
  · refine (hrefl.setNoticeSet p fun _ told => ?_).answer p _ _
    rw [told]
    rfl

theorem execSetClient_spares : ∃ t, execSetClient p s = .next t ∧ s.Spares t := by
  have hrefl := State.Spares.refl s
  refine ⟨_, rfl, .request fun ps _ => ?_⟩
  simp only
  split
  · exact hrefl.answer p _ _
  · refine State.Spares.answer (State.Spares.evaluateFreeze ?_ _) p _ _
    refine (hrefl.endFreeze _).setClient _ ?_
    rfl

theorem execInspectClient_spares : ∃ t, execInspectClient p s = .next t ∧ s.Spares t := by
  have hrefl := State.Spares.refl s
  refine ⟨_, rfl, .request fun _ _ => ?_⟩
  simp only
  split
  · exact hrefl.answer p _ _
  split <;> exact hrefl.answer p _ _

theorem execUnknownCode_spares : ∃ t, execUnknownCode p s = .next t ∧ s.Spares t := by
  refine ⟨_, rfl, ?_⟩
  split
  · split
    · exact .refl s
    · exact (State.Spares.refl s).answer p _ _
  all_goals exact .refl s

/-! ### The sweep, the deadlines and hold sense -/

theorem execSweepVisit_spares : ∃ t, execSweepVisit c s = .next t ∧ s.Spares t := by
  refine ⟨_, rfl, ?_⟩
  split
  · split
    · exact .refl s
    rename_i i _
    have swept : s.Spares (s.setClient c { s.client c with sweepFrom := i.val + 1 }) := (State.Spares.refl s).setClient c rfl
    simp only
    split
    · exact swept.endHolding i c _
    · exact swept.endWait i c
  · exact .refl s

theorem State.removeLive_spares (o : Owner) : s.Spares (s.removeLive o) :=
  (State.Spares.refl s).deadlines (s.removeLive_same o)

theorem execLeaseWarn_spares : ∃ t, execLeaseWarn i c s = .next t ∧ s.Spares t := by
  refine ⟨_, rfl, ?_⟩
  split
  · have warned := fun d => ((s.removeLive_spares (.holding i c)).deadlines (State.insertDeadline_same _ d)).modifyHolding i c
      (f := fun h => { h with warned := true }) fun _ => rfl
    unfold State.warnLease
    simp only
    split
    · exact warned _
    split
    · exact warned _
    · exact (warned _).raiseNotice c _
  · exact .refl s

theorem execLeaseEnd_spares : ∃ t, execLeaseEnd i c s = .next t ∧ s.Spares t := by
  refine ⟨_, rfl, ?_⟩
  split
  · exact (s.removeLive_spares _).endHolding i c _
  · exact .refl s

theorem execOfferEnd_spares : ∃ t, execOfferEnd i c s = .next t ∧ s.Spares t := by
  refine ⟨_, rfl, ?_⟩
  split
  · exact (s.removeLive_spares _).endHolding i c _
  · exact .refl s

theorem execWaitEnd_spares : ∃ t, execWaitEnd i c s = .next t ∧ s.Spares t := by
  refine ⟨_, rfl, ?_⟩
  split
  · exact (s.removeLive_spares _).lapseWait i c
  · exact .refl s

theorem execAllowanceEnd_spares : ∃ t, execAllowanceEnd c s = .next t ∧ s.Spares t := by
  refine ⟨_, rfl, ?_⟩
  split
  · refine ((State.Spares.refl s).setClient c ?_).onlyFreeze (.of_thaw _ c _) ?_
    · rfl
    · rw [State.thaw_client, if_pos rfl]
  · exact .refl s

theorem execHoldAssertion_spares : ∃ t, execHoldAssertion c s = .next t ∧ s.Spares t := by
  have level : s.Spares (s.setLevel c true) := (State.Spares.refl s).setHoldUnit c _
  refine ⟨_, rfl, ?_⟩
  simp only
  split
  · exact .refl s
  split
  · split
    · exact level.onlyFreeze (.of_enterFreeze _ c) (by rw [State.enterFreeze_client, if_pos rfl])
    split
    · exact level.setClient c rfl
    · exact level
  · exact level

theorem execHoldRelease_spares : ∃ t, execHoldRelease c s = .next t ∧ s.Spares t := by
  refine ⟨_, rfl, ?_⟩
  split
  · exact ((State.Spares.refl s).setHoldUnit c _).endFreeze c
  · exact .refl s

/-! ### The part as a whole -/

theorem execResetPinRelease_spares (levels : BitVec 6) : ∃ t, execResetPinRelease levels s = .next t ∧ s.Spares t := by
  refine ⟨_, rfl, ?_⟩
  split
  · exact .of_same rfl (fun _ => rfl) rfl rfl
  · exact .refl s

theorem execStartupEnd_spares : ∃ t, execStartupEnd s = .next t ∧ s.Spares t := by
  refine ⟨_, rfl, ?_⟩
  split
  · exact ⟨fun _ => rfl, fun _ _ => Nat.le_refl _, fun _ _ => id, fun p c waits => by simpa [State.port] using waits⟩
  · exact .refl s

theorem execMillisecondBoundary_spares : ∃ t, execMillisecondBoundary s = .next t ∧ s.Spares t := by
  refine ⟨_, rfl, ?_⟩
  split
  · refine .of_same rfl (fun c => ?_) rfl rfl
    have counted : (Vector.ofFn fun d => (s.client d).countHold)[c] = (s.client c).countHold := by simp
    exact (congrArg Client.session counted).trans (s.client c).countHold_session
  · exact .refl s

end

/-- Every command that leaves the sessions alone spares the clients whose session is not OPEN. -/
theorem exec_spares (c : Instr) (s : State) (h : changesSessions c = false) : ∃ t, exec c s = .next t ∧ s.Spares t := by
  cases c with
  | powerOn | resetPin | join | leave | evict | clientResetSense | teardownCompletion => cases h
  | resetPinRelease levels => exact execResetPinRelease_spares s levels
  | startupEnd => exact execStartupEnd_spares s
  | millisecondBoundary => exact execMillisecondBoundary_spares s
  | frameStart p => exact execFrameStart_spares s p
  | frameEnd p n d => exact execFrameEnd_spares s p n d
  | idle p => exact ⟨s, rfl, .refl s⟩
  | replyReady p => exact execReplyReady_spares s p
  | acquire p => exact execAcquire_spares s p
  | accept p => exact execAccept_spares s p
  | decline p => exact execDecline_spares s p
  | cancel p => exact execCancel_spares s p
  | renew p => exact execRenew_spares s p
  | release p => exact execRelease_spares s p
  | downgrade p => exact execDowngrade_spares s p
  | markSound p => exact execMarkSound_spares s p
  | query p => exact execQuery_spares s p
  | takeNotice p => exact execTakeNotice_spares s p
  | define p => exact execDefine_spares s p
  | amend p => exact execAmend_spares s p
  | retire p => exact execRetire_spares s p
  | revoke p => exact execRevoke_spares s p
  | setClient p => exact execSetClient_spares s p
  | inspectClient p => exact execInspectClient_spares s p
  | unknownCode p => exact execUnknownCode_spares s p
  | sweepVisit c => exact execSweepVisit_spares s c
  | resetSenseAssert p => exact execResetSenseAssert_spares s p
  | resetSenseRelease p => exact execResetSenseRelease_spares s p
  | holdAssertion c => exact execHoldAssertion_spares s c
  | holdRelease c => exact execHoldRelease_spares s c
  | leaseWarn i c => exact execLeaseWarn_spares s c i
  | leaseEnd i c => exact execLeaseEnd_spares s c i
  | offerEnd i c => exact execOfferEnd_spares s c i
  | waitEnd i c => exact execWaitEnd_spares s c i
  | allowanceEnd c => exact execAllowanceEnd_spares s c

end Sys2Proof.Machine
end

section
/-! PROOF. The commands that change a session, one by one, keep clients without a session clean, and let no request wait for a
teardown that is not under way; with `exec_spares` every step does (O57). -/

namespace Sys2Proof.Machine

/-! ### The law, client by client (R109, R110, R116, R129) -/

/-- A client without a session owns no claim, only an OPEN one a notice, and a request waits for its teardown only while that is
under way, on its own port or the supervisor's. -/
structure State.CleanAt (s : State) (c : ClientId) : Prop where
  unclaimed : (s.client c).session = .none → s.claimCount c = 0
  untold : (s.client c).session ≠ .opened → s.noticeSet c = NoticeSet.empty
  waits : ∀ p, (s.port p).inFlight = .waiting c → (s.client c).session = .teardown ∧ (p = c ∨ p = Config.supervisor)

/-- The law at every client. -/
def State.Clean (s : State) : Prop := ∀ c, s.CleanAt c

theorem State.clean_iff (s : State) : s.Clean ↔ s.SessionsClean ∧ s.WaitsLegal :=
  ⟨fun h => ⟨fun c => ⟨(h c).unclaimed, (h c).untold⟩, fun p c => (h c).waits p⟩,
    fun ⟨clean, waits⟩ c => ⟨(clean c).1, (clean c).2, fun p => waits p c⟩⟩

/-- What spares the clients whose session is not OPEN keeps the law. -/
theorem State.Spares.cleanAt {s t : State} (h : s.Spares t) {c : ClientId} (law : s.CleanAt c) : t.CleanAt c := by
  have session := h.sessions c
  refine ⟨fun closed => ?_, fun closed => ?_, fun p waits => ?_⟩
  · rw [session] at closed
    have free := law.unclaimed closed
    have fewer := h.claims c (by rw [closed]; decide)
    omega
  · rw [session] at closed
    exact h.notices c closed (law.untold closed)
  · rw [session]
    exact law.waits p (h.waits p c waits)

theorem State.Spares.clean {s t : State} (h : s.Spares t) (law : s.Clean) : t.Clean := fun c => h.cleanAt (law c)

/-! ### The start and the completion of a teardown (R113, R116) -/

/-- What a teardown of client `c` leaves at another client's record, notices and claims, and at the ports: no request comes to
wait for anything. -/
theorem State.CleanAt.of_elsewhere {s t : State} {d : ClientId} (law : s.CleanAt d) (slots : t.slots = s.slots)
    (client : t.client d = s.client d) (notices : t.noticeSet d = s.noticeSet d)
    (waits : ∀ q, (t.port q).inFlight = .waiting d → (s.port q).inFlight = .waiting d) : t.CleanAt d := by
  refine ⟨fun closed => ?_, fun closed => ?_, fun q waiting => ?_⟩
  · rw [client] at closed
    rw [State.claimCount_of_slots slots]
    exact law.unclaimed closed
  · rw [client] at closed
    rw [notices]
    exact law.untold closed
  · rw [client]
    exact law.waits q (waits q waiting)

section
variable (s : State) (c : ClientId)

/-- After the completion no request waits for the teardown: it was on the client's own port or the supervisor's. -/
theorem State.portAfter_not_waiting (law : ∀ p, (s.port p).inFlight = .waiting c → p = c ∨ p = Config.supervisor)
    (q : ClientId) : (s.portAfter c q).inFlight ≠ .waiting c := fun waits => by
  rw [State.portAfter_inFlight] at waits
  split at waits
  · cases waits
  · rename_i not
    exact not ⟨law q waits, waits⟩

/-- The completion lets no request wait. -/
theorem State.portAfter_waits {d q : ClientId} (waits : (s.portAfter c q).inFlight = .waiting d) :
    (s.port q).inFlight = .waiting d := by
  rw [State.portAfter_inFlight] at waits
  split at waits
  · cases waits
  · exact waits

/-- The completion leaves the records, the notice sets and the other clients (R116). -/
theorem State.completeTeardown_frame : (s.completeTeardown c).slots = s.slots
    ∧ (∀ d, (s.completeTeardown c).noticeSet d = s.noticeSet d) ∧ s.SameClientsBut (s.completeTeardown c) c
    ∧ ((s.completeTeardown c).client c).session = .none := by
  obtain ⟨x, y, z, completed⟩ := s.completeTeardown_eq c
  rw [completed]
  exact ⟨rfl, fun _ => rfl, fun d hd => by simp [hd], by simp⟩

variable {s c}

/-- The completion of a teardown with no claim left keeps the law. -/
theorem State.completeTeardown_clean (law : ∀ d, d ≠ c → s.CleanAt d) (free : s.claimCount c = 0)
    (untold : s.noticeSet c = NoticeSet.empty)
    (target : ∀ p, (s.port p).inFlight = .waiting c → p = c ∨ p = Config.supervisor) : (s.completeTeardown c).Clean := by
  have port := s.completeTeardown_port c
  obtain ⟨slots, notices, clients, session⟩ := s.completeTeardown_frame c
  generalize s.completeTeardown c = t at port slots notices clients session
  intro d
  by_cases hd : d = c
  · subst hd
    refine ⟨fun _ => (State.claimCount_of_slots slots d).trans free, fun _ => (notices d).trans untold, fun q waits => ?_⟩
    rw [port] at waits
    exact absurd waits (s.portAfter_not_waiting d target q)
  · refine (law d hd).of_elsewhere slots (clients d hd) (notices d) fun q waits => ?_
    rw [port] at waits
    exact s.portAfter_waits c waits

/-- The start of a teardown keeps the law, with requests that wait for it where R109 and R110 let them. -/
theorem State.beginTeardown_clean (law : ∀ d, d ≠ c → s.CleanAt d) (cause : EndCause)
    (target : ∀ p, (s.port p).inFlight = .waiting c → p = c ∨ p = Config.supervisor) : (s.beginTeardown c cause).Clean := by
  have slots := s.tornDown_slots c cause
  have port := s.tornDown_port c cause
  have notices := s.tornDown_noticeSet c cause
  have client := s.tornDown_client c cause
  have clients := fun d (hd : d ≠ c) => s.tornDown_client_ne c cause hd
  rw [s.beginTeardown_eq]
  generalize s.tornDown c cause = t at slots port notices client clients
  have told : t.noticeSet c = NoticeSet.empty := (notices c).trans (if_pos rfl)
  have others : ∀ d, d ≠ c → t.CleanAt d := fun d hd =>
    (law d hd).of_elsewhere slots (clients d hd) ((notices d).trans (if_neg hd)) fun q waits => port q ▸ waits
  have session : (t.client c).session = .teardown := by rw [client]; rfl
  have ownOrSupervisor : ∀ p, (t.port p).inFlight = .waiting c → p = c ∨ p = Config.supervisor := fun p waits =>
    target p (port p ▸ waits)
  split
  · exact State.completeTeardown_clean others ((State.claimCount_of_slots slots c).trans ‹_›) told ownOrSupervisor
  · intro d
    by_cases hd : d = c
    · subst hd
      exact ⟨fun none => (by rw [session] at none; cases none), fun _ => told, fun q waits => ⟨session, ownOrSupervisor q waits⟩⟩
    · exact others d hd

/-- A request of port `p` that comes to wait for the teardown of `c` is the only one that does. -/
theorem State.waitsFor_cleanAt {p d : ClientId} (law : s.CleanAt d) (hd : d ≠ c) : (s.waitsFor p c).CleanAt d := by
  refine law.of_elsewhere rfl rfl rfl fun q waits => ?_
  by_cases hq : q = p
  · subst hq
    rw [State.waitsFor_port] at waits
    exact absurd (InFlight.waiting.inj waits).symm hd
  · rwa [State.waitsFor_port_ne hq] at waits

theorem State.waitsFor_target {p : ClientId} (law : s.CleanAt c) (target : p = c ∨ p = Config.supervisor) (q : ClientId)
    (waits : ((s.waitsFor p c).port q).inFlight = .waiting c) : q = c ∨ q = Config.supervisor := by
  by_cases hq : q = p
  · exact hq ▸ target
  · rw [State.waitsFor_port_ne hq] at waits
    exact (law.waits q waits).2

/-- A LEAVE or an EVICT begins the teardown it waits for (R109, R110). -/
theorem State.Clean.teardown {p : ClientId} (law : s.Clean) (target : p = c ∨ p = Config.supervisor) (cause : EndCause) :
    ((s.waitsFor p c).beginTeardown c cause).Clean :=
  State.beginTeardown_clean (fun d hd => State.waitsFor_cleanAt (law d) hd) cause
    (State.waitsFor_target (law c) target)

theorem State.Clean.answer (law : s.Clean) (p : ClientId) (a : Answer) (data : List Byte) : (s.answer p a data).Clean :=
  ((State.Spares.refl s).answer p a data).clean law

end

/-! ### The commands that change a session -/

section
variable {s : State} (law : s.Clean) (p c : ClientId)
include law

/-- A JOIN is a client's that had no session, for whose teardown no request waits (R107). -/
theorem execJoin_clean : ∃ t, execJoin p s = .next t ∧ t.Clean := by
  refine ⟨_, rfl, State.request_induction law (law.answer p · []) fun _ passes => ?_⟩
  have none : (s.client p).session = .none := passes.2.1
  have joined : (s.joined p).Clean := fun d => by
    by_cases hd : d = p
    · subst hd
      have opened : ((s.joined d).client d).session = .opened := by rw [s.joined_client d]; rfl
      refine ⟨fun h => ?_, fun h => absurd opened h, fun q waits => ?_⟩
      · rw [opened] at h
        cases h
      · have teardown := ((law d).waits q waits).1
        rw [none] at teardown
        cases teardown
    · exact (law d).of_elsewhere rfl (s.client_setClient_ne p _ d hd) rfl fun _ => id
  exact (((State.Spares.refl _).evaluateFreeze p).answer p _ _).clean joined

theorem execLeave_clean : ∃ t, execLeave p s = .next t ∧ t.Clean :=
  ⟨_, rfl, State.request_induction law (law.answer p · []) fun _ _ => law.teardown (.inl rfl) .leave⟩

theorem execEvict_clean : ∃ t, execEvict p s = .next t ∧ t.Clean := by
  refine ⟨_, rfl, State.request_induction law (law.answer p · []) fun ps passes => ?_⟩
  obtain ⟨-, -, role, -⟩ := passes
  simp only
  split
  · exact law.answer p _ _
  · exact law.teardown (.inr (role (by simp [Request.ForSupervisor]))) .evicted

theorem execClientResetSense_clean : ∃ t, execClientResetSense c s = .next t ∧ t.Clean := by
  refine ⟨_, rfl, ?_⟩
  have marked : (s.setPort c { s.port c with senseOwed := false }).Clean :=
    ((State.Spares.refl s).setPort c (x := { s.port c with senseOwed := false }) fun _ => id).clean law
  simp only
  split
  · split
    · exact State.beginTeardown_clean (fun d _ => marked d) .resetLine fun p waits => ((marked c).waits p waits).2
    · exact marked
  · exact law

theorem execTeardownCompletion_clean : ∃ t, execTeardownCompletion c s = .next t ∧ t.Clean := by
  refine ⟨_, rfl, ?_⟩
  split
  · rename_i h
    obtain ⟨teardown, free⟩ := h
    exact State.completeTeardown_clean (fun d _ => law d) free ((law c).untold (by rw [teardown]; decide))
      fun p waits => ((law c).waits p waits).2
  · exact law

end

/-- A part reset leaves no record, no notice and no request. -/
theorem State.clean_of_reset {t : State} (slots : ∀ i, t.record i = none) (notices : ∀ c, t.noticeSet c = NoticeSet.empty)
    (requests : ∀ p, (t.port p).inFlight = .none) : t.Clean := fun c =>
  ⟨fun _ => State.total_of_empty slots _, fun _ => notices c, fun p waits => by rw [requests p] at waits; cases waits⟩

theorem exec_clean (c : Instr) (s : State) (law : s.Clean) : ∃ t, exec c s = .next t ∧ t.Clean := by
  by_cases hc : changesSessions c = true
  · cases c with
    | powerOn sel rsn hld =>
      exact ⟨_, rfl, State.clean_of_reset (fun i => by simp [State.record, State.powerOn])
        (fun c => by simp [State.noticeSet, State.powerOn]) fun p => by simp [State.port, State.powerOn, Port.initial]⟩
    | resetPin =>
      exact ⟨_, rfl, State.clean_of_reset (fun i => by simp [State.record]) (fun c => by simp [State.noticeSet])
        fun p => by simp [State.port, Port.initial]⟩
    | join p => exact execJoin_clean law p
    | leave p => exact execLeave_clean law p
    | evict p => exact execEvict_clean law p
    | clientResetSense c => exact execClientResetSense_clean law c
    | teardownCompletion c => exact execTeardownCompletion_clean law c
    | _ => cases hc
  · obtain ⟨t, taken, spares⟩ := exec_spares c s (by simpa using hc)
    exact ⟨t, taken, spares.clean law⟩

/-- Settles O57: a command spares the clients whose session is not OPEN, or changes one session as the law has it. -/
theorem stepKeepsSessionsClean : Obligations.StepKeepsSessionsClean := by
  intro s t clean waits hstep
  exact t.clean_iff.mp (step_leads (P := State.Clean) (fun _ _ h => fun c => ⟨(h c).unclaimed, (h c).untold, (h c).waits⟩)
    exec_clean (fun _ => id) (s.clean_iff.mpr ⟨clean, waits⟩) hstep)

end Sys2Proof.Machine
end

section
/-! SUPPORT. What the events of the Notice Unit make of one notice set: whether it stays legal (R123), and how many of its
records are marked presented (R131). -/

namespace Sys2Proof.Machine

/-! ### Legal sets (R123) -/

theorem Notice.sameAs_comm (m n : Notice) : m.sameAs n = n.sameAs m := by
  simp only [Notice.sameAs, Bool.beq_comm (a := m.key), Bool.beq_comm (a := m.body.kind)]

theorem Notice.sameAs_self (n : Notice) : n.sameAs n = true := by simp [Notice.sameAs]

/-- The records marked presented. -/
def NoticeSet.marks (ns : NoticeSet) : Nat := ns.records.countP fun n => n.presented

theorem NoticeSet.marks_pos (ns : NoticeSet) : 0 < ns.marks ↔ ∃ n ∈ ns.records, n.presented = true := List.countP_pos_iff

theorem NoticeSet.marks_empty : NoticeSet.empty.marks = 0 := rfl

theorem NoticeSet.empty_legal : NoticeSet.empty.Legal := ⟨Nat.zero_le _, List.Pairwise.nil⟩

theorem NoticeSet.Legal.of_sublist {a b : NoticeSet} (h : a.Legal) (sub : b.records.Sublist a.records) : b.Legal :=
  ⟨sub.length_le.trans h.1, h.2.sublist sub⟩

/-- An edit of each record that keeps its key and its kind keeps the set legal. -/
theorem NoticeSet.Legal.of_map {a b : NoticeSet} (h : a.Legal) {f : Notice → Notice}
    (same : ∀ m n, (f m).sameAs (f n) = m.sameAs n) (records : b.records = a.records.map f) : b.Legal := by
  rw [NoticeSet.Legal, records, List.length_map, List.pairwise_map]
  simp only [same]
  exact h

/-- Records without a match of the new one, and the new one behind them (R125). -/
theorem pairwise_sameAs_append {l : List Notice} {n : Notice} (distinct : l.Pairwise fun m m' => m.sameAs m' = false)
    (other : ∀ m ∈ l, m.sameAs n = false) : (l ++ [n]).Pairwise fun m m' => m.sameAs m' = false :=
  List.pairwise_append.mpr ⟨distinct, List.pairwise_singleton _ n, fun m hm _ hn => List.mem_singleton.mp hn ▸ other m hm⟩

/-- A raised notice takes its match's place in the count, fills a place that is free, or is lost (R123, R125, R126). -/
theorem NoticeSet.Legal.raise {ns : NoticeSet} (h : ns.Legal) (n : Notice) : (ns.raise n).Legal := by
  obtain ⟨few, distinct⟩ := h
  unfold NoticeSet.raise
  split
  · rename_i found
    obtain ⟨m, hm, same⟩ := List.any_eq_true.mp found
    have fewer : (ns.records.filter fun m => !m.sameAs n).length < ns.records.length :=
      List.length_filter_lt_length_iff_exists.mpr ⟨m, hm, by simp [same]⟩
    refine ⟨?_, pairwise_sameAs_append (distinct.sublist List.filter_sublist) fun m hm => ?_⟩
    · simp only [List.length_append, List.length_singleton]
      omega
    · simpa using (List.mem_filter.mp hm).2
  split
  · rename_i absent space
    refine ⟨?_, pairwise_sameAs_append distinct fun m hm => ?_⟩
    · simp only [List.length_append, List.length_singleton]
      omega
    · exact Bool.eq_false_of_not_eq_true fun same => absent (List.any_eq_true.mpr ⟨m, hm, same⟩)
  · exact ⟨few, distinct⟩

/-! ### Events that mark no record (R125, R128, R132) -/

/-- The set `b` is legal if `a` was, and has no more records marked presented. -/
structure NoticeSet.Yields (a b : NoticeSet) : Prop where
  legal : a.Legal → b.Legal
  marks : b.marks ≤ a.marks

namespace NoticeSet.Yields

theorem trans {a b c : NoticeSet} (h : a.Yields b) (k : b.Yields c) : a.Yields c :=
  ⟨fun legal => k.legal (h.legal legal), k.marks.trans h.marks⟩

theorem of_sublist {a b : NoticeSet} (sub : b.records.Sublist a.records) : a.Yields b :=
  ⟨fun legal => legal.of_sublist sub, sub.countP_le⟩

theorem refl (a : NoticeSet) : a.Yields a := of_sublist (.refl _)

theorem without {a b : NoticeSet} (h : a.Yields b) (p : Notice → Bool) : a.Yields (b.without p) :=
  h.trans (of_sublist List.filter_sublist)

/-- A notice is not presented as it is raised (R125). -/
theorem raise {a b : NoticeSet} (h : a.Yields b) {n : Notice} (fresh : n.presented = false) : a.Yields (b.raise n) := by
  refine h.trans ⟨fun legal => legal.raise n, ?_⟩
  unfold NoticeSet.raise NoticeSet.marks
  split
  · simpa [fresh] using List.filter_sublist.countP_le
  split
  · simp [fresh]
  · exact Nat.le_refl _

theorem raisedFor {a b : NoticeSet} (h : a.Yields b) (s : State) (c : ClientId) {n : Notice} (fresh : n.presented = false) :
    a.Yields (s.raisedFor c b n) := by
  unfold State.raisedFor
  split
  · exact h.raise fresh
  · exact h

/-- The notices of a holding's end (R38). -/
theorem noticesAfter (s : State) (key : Key) (g : Holding) (cause : HoldingEnd) :
    (s.noticeSet g.client).Yields (s.noticesAfter key g cause) := by
  have kept : (s.noticeSet g.client).Yields (if g.state = .held then
      (s.noticeSet g.client).without (Notice.isExpiringFor key g.gen) else s.noticeSet g.client) := by
    split
    · exact (refl _).without _
    · exact refl _
  unfold State.noticesAfter
  cases cause <;> simp only
  case released | left | tornDown => exact kept
  case expired | revoked => exact kept.raisedFor s _ rfl
  case declined => exact kept.without _
  case lapsed | withdrawn => exact (kept.without _).raisedFor s _ rfl

theorem markShown (a : NoticeSet) (filled : Bool) : a.Yields (a.markShown filled) := by
  unfold NoticeSet.markShown
  split <;> exact of_sublist (.refl _)

end NoticeSet.Yields

/-- A delivery leaves no record marked presented, protected or not (R127, R132). -/
theorem NoticeSet.delivered_marks (ns : NoticeSet) (guarded : Bool) : (ns.delivered guarded).marks = 0 := by
  unfold NoticeSet.delivered NoticeSet.marks
  split <;> simp [List.countP_eq_zero]

theorem NoticeSet.delivered_yields (ns : NoticeSet) (guarded : Bool) : ns.Yields (ns.delivered guarded) := by
  refine ⟨fun legal => ?_, by simp [ns.delivered_marks guarded]⟩
  unfold NoticeSet.delivered
  split
  · exact legal.of_map (f := fun n => { n with presented := false }) (fun _ _ => rfl) rfl
  · exact legal.of_sublist List.filter_sublist

/-! ### TAKE NOTICE at the set (R130) -/

/-- A kind's rank is its number (R124, R162). -/
theorem NoticeBody.kind_rank (b : NoticeBody) : b.kind.rank = b.number := by cases b <;> rfl

theorem bestNotice_mem {l : List Notice} {n : Notice} (h : bestNotice l = some n) : n ∈ l := by
  induction l generalizing n with
  | nil => cases h
  | cons m rest ih =>
    cases best : bestNotice rest with
    | none =>
      simp only [bestNotice, best, Option.some.injEq] at h
      simp [h]
    | some k =>
      simp only [bestNotice, best] at h
      split at h <;> cases h
      · exact List.mem_cons_of_mem _ (ih best)
      · exact List.mem_cons_self

theorem NoticeSet.present_legal {ns : NoticeSet} (h : ns.Legal) (n : Notice) : (ns.present n).Legal := by
  refine h.of_map (f := fun m => if m.sameAs n then { m with presented := true } else m) (fun m m' => ?_) rfl
  split <;> split <;> rfl

/-- Of a legal set, the record presented is the only one that changes. -/
theorem NoticeSet.present_records {ns : NoticeSet} (legal : ns.Legal) {before after : List Notice} {n : Notice}
    (h : ns.records = before ++ n :: after) :
    (ns.present n).records = before ++ { n with presented := true } :: after := by
  have distinct := legal.2
  rw [h, List.pairwise_append, List.pairwise_cons] at distinct
  obtain ⟨-, ⟨behind, -⟩, ahead⟩ := distinct
  have kept : ∀ l : List Notice, (∀ m ∈ l, m.sameAs n = false) →
      l.map (fun m => if m.sameAs n then { m with presented := true } else m) = l := fun l other =>
    (List.map_congr_left fun m hm => if_neg (by simp [other m hm])).trans (List.map_id' l)
  simp only [NoticeSet.present, h, List.map_append, List.map_cons, n.sameAs_self, if_true]
  rw [kept before fun m hm => ahead m hm n List.mem_cons_self, kept after fun m hm => n.sameAs_comm m ▸ behind m hm]

/-- Presenting a record of a legal set without a mark marks one record (R131). -/
theorem NoticeSet.present_marks {ns : NoticeSet} (legal : ns.Legal) (unmarked : ns.marks = 0) {n : Notice}
    (best : bestNotice ns.records = some n) : (ns.present n).marks = 1 := by
  obtain ⟨before, after, split⟩ := List.append_of_mem (bestNotice_mem best)
  simp only [NoticeSet.marks, split, List.countP_append, List.countP_cons] at unmarked
  simp only [NoticeSet.marks, NoticeSet.present_records legal split, List.countP_append, List.countP_cons, if_true]
  omega

end Sys2Proof.Machine
end

section
/-! SUPPORT. What the events at resources and clients make of the notice sets (`State.Tells`): no port changes, every set stays
legal (R123), and no record comes to be marked presented (R125, R128). -/

namespace Sys2Proof.Machine

/-- The ports are as before, and every notice set stays legal, with no more records marked presented. -/
structure State.Tells (s t : State) : Prop where
  ports : t.ports = s.ports
  sets : ∀ c, (s.noticeSet c).Yields (t.noticeSet c)

namespace State.Tells

theorem trans {s t u : State} (h : s.Tells t) (k : t.Tells u) : s.Tells u :=
  ⟨k.ports.trans h.ports, fun c => (h.sets c).trans (k.sets c)⟩

theorem of_same {s t : State} (notices : t.notices = s.notices) (ports : t.ports = s.ports) : s.Tells t :=
  ⟨ports, fun c => by simpa only [State.noticeSet, notices] using NoticeSet.Yields.refl (s.noticeSet c)⟩

theorem refl (s : State) : s.Tells s := of_same rfl rfl

theorem port {s t : State} (h : s.Tells t) (p : ClientId) : t.port p = s.port p := by simp only [State.port, h.ports]

section
variable {s t u : State} (h : s.Tells t)
include h

theorem same (notices : u.notices = t.notices) (ports : u.ports = t.ports) : s.Tells u := h.trans (of_same notices ports)

theorem deadlines (k : t.SameButDeadlines u) : s.Tells u := h.same k.notices k.ports

theorem onlyFreeze {c : ClientId} (k : t.OnlyFreeze u c) : s.Tells u := h.same k.notices k.ports

/-! ### One notice set -/

theorem setNoticeSet (c : ClientId) {ns : NoticeSet} (told : (t.noticeSet c).Yields ns) : s.Tells (t.setNoticeSet c ns) := by
  refine h.trans ⟨rfl, fun d => ?_⟩
  rw [State.noticeSet_setNoticeSet]
  split
  · rename_i hd
    exact hd ▸ told
  · exact .refl _

theorem raiseNotice (c : ClientId) {n : Notice} (fresh : n.presented = false) : s.Tells (t.raiseNotice c n) := by
  rw [t.raiseNotice_eq]
  exact h.setNoticeSet c ((NoticeSet.Yields.refl _).raisedFor t c fresh)

theorem clearNotices (c : ClientId) (p : Notice → Bool) : s.Tells (t.clearNotices c p) :=
  h.setNoticeSet c ((NoticeSet.Yields.refl _).without p)

/-! ### Records -/

theorem setRecord (i : SlotId) (x : Option Resource) : s.Tells (t.setRecord i x) := h.same rfl rfl

theorem setBacklog (l : List SlotId) : s.Tells (t.setBacklog l) := h.same rfl rfl

theorem modifyRecord (i : SlotId) (f : Resource → Resource) : s.Tells (t.modifyRecord i f) := by
  unfold State.modifyRecord
  split
  · exact h
  · exact h.setRecord i _

theorem createHolding (i : SlotId) (c : ClientId) (m : Tenure) (st : HoldState) : s.Tells (t.createHolding i c m st) :=
  (h.same (u := t.setGrant (t.grant + 1)) rfl rfl).modifyRecord i _

theorem dropWaiter (i : SlotId) (c : ClientId) : s.Tells (t.dropWaiter i c) :=
  (h.modifyRecord i _).deadlines (State.disarm_same _ _)

theorem dropHolding (i : SlotId) (r : Resource) (g : Holding) (cause : HoldingEnd) : s.Tells (t.dropHolding i r g cause) := by
  unfold State.dropHolding
  rw [State.endNotices_eq]
  exact ((h.setRecord i _).deadlines (State.disarm_same _ _)).setNoticeSet _ (.noticesAfter _ _ g cause)

/-! ### Offers (R11, R57, R67) -/

/-- Each offer raises its OFFER notice (R57). -/
theorem offers {os : List Offer} (k : t.OffersMade u os) (ports : u.ports = t.ports) : s.Tells u := by
  refine h.trans ⟨ports, fun c => ?_⟩
  rw [k.notices]
  exact List.foldlRecOn _ _ (NoticeSet.Yields.refl _) fun ns told x _ => told.raisedFor t c rfl

theorem offerCheck (i : SlotId) : s.Tells (t.offerCheck i) := by
  obtain ⟨os, made, -⟩ := t.offerCheck_offersFrom i
  exact h.offers made (t.offerCheck_ports i)

theorem giveBack : s.Tells t.giveBack.1 := by
  obtain ⟨os, made, -⟩ := t.giveBack_handed.offers
  exact h.offers made t.giveBack_ports

theorem giveBackMany (n : Nat) : s.Tells (State.giveBackMany n t) := by
  obtain ⟨os, made, -⟩ := (State.giveBackMany_spec n t).1
  exact h.offers made (State.giveBackMany_ports n t)

theorem giveBackAndCheck (i : SlotId) : s.Tells (t.giveBackAndCheck i) := by
  obtain ⟨os, made, -⟩ := t.giveBackAndCheck_offersFrom i
  exact h.offers made (t.giveBackAndCheck_ports i)

/-! ### The end of a holding and of a wait (R40, R47), and RETIRE (R16) -/

theorem endHolding (i : SlotId) (c : ClientId) (cause : HoldingEnd) : s.Tells (t.endHolding i c cause) := by
  cases hr : t.record i with
  | none => simpa only [State.endHolding, hr] using h
  | some r =>
    cases hg : r.holdingOf c with
    | none => simpa only [State.endHolding, hr, hg] using h
    | some g =>
      rw [t.endHolding_eq i c cause r g hr hg]
      have dropped := h.dropHolding i r g cause
      split
      · exact ((dropped.setRecord i none).setBacklog _).giveBack
      · exact dropped.giveBackAndCheck i

theorem endWait (i : SlotId) (c : ClientId) : s.Tells (t.endWait i c) := by
  unfold State.endWait
  split
  · exact h
  simp only
  split
  · exact (h.dropWaiter i c).offerCheck i
  · exact h.dropWaiter i c

theorem lapseWait (i : SlotId) (c : ClientId) : s.Tells (t.lapseWait i c) := by
  unfold State.lapseWait
  split
  · exact h
  rename_i r _
  have told := (h.dropWaiter i c).raiseNotice c (n := notice r.key .waitLapsed none) rfl
  simp only
  split
  · exact told.offerCheck i
  · exact told

theorem withdrawOffer (i : SlotId) (g : Holding) : s.Tells (State.withdrawOffer i t g) := by
  unfold State.withdrawOffer
  split
  · exact h
  · exact h.dropHolding i _ g _

theorem withdrawAll (i : SlotId) (r : Resource) : s.Tells (t.withdrawAll i r) := by
  refine State.Tells.setBacklog ?_ _
  refine List.foldlRecOn _ _ ?_ fun v told g _ => told.withdrawOffer i g
  exact List.foldlRecOn _ _ h fun v told w _ => (told.dropWaiter i w.client).raiseNotice w.client rfl

end

/-- The lease warning raises EXPIRING (R84). -/
theorem warnLease (s : State) (i : SlotId) (c : ClientId) (due : Time) (interval : Ms) :
    s.Tells (s.warnLease i c due interval) := by
  have warned := fun d => (((refl s).deadlines (s.removeLive_same (.holding i c))).deadlines
    (State.insertDeadline_same _ d)).modifyRecord i fun r =>
      { r with holders := r.holders.map fun h => if h.client = c then { h with warned := true } else h }
  unfold State.warnLease
  simp only
  split
  · exact warned _
  split
  · exact warned _
  · exact (warned _).raiseNotice c rfl

end State.Tells

end Sys2Proof.Machine
end

section
/-! SUPPORT. The presented mark at one port and one notice set (R131): while a record is marked, the reply that carries it is on
its way or stands in the slot, or the session is about to end; and what the operations on a port make of that. -/

namespace Sys2Proof.Machine

/-- The port has a request that has still to take effect (R150, log 6). -/
def Port.Taken (x : Port) : Prop := ∃ code ps, x.inFlight = .taken code ps

/-- The port can have the reply that carries a presented record: in its slot, on its way, or, the port DETACHED, discarded or to
be discarded, with the reset-sense assertion still to clear the set (R129, R132, log 8). -/
def Port.Carries (x : Port) : Prop :=
  x.slot.isFilled = true
  ∨ (x.state = .busy ∧ ∃ a data, x.inFlight = .answered a data)
  ∨ (x.state = .detached ∧ x.senseOwed = true ∧ ¬ x.Taken)

/-- The law of the presented mark at one set and its client's port (R131). -/
structure NoticeSet.CarriedBy (ns : NoticeSet) (x : Port) : Prop where
  one : ns.marks ≤ 1
  carried : 0 < ns.marks → x.Carries
  owed : x.state = .detached → x.Taken → x.senseOwed = true

theorem State.presentedLaw_iff (s : State) : s.PresentedLaw ↔ ∀ c, (s.noticeSet c).CarriedBy (s.port c) := by
  refine ⟨fun h c => ?_, fun h c => ⟨(h c).one, fun marked => ?_, (h c).owed⟩⟩
  · obtain ⟨one, carried, owed⟩ := h c
    exact ⟨one, fun marked => carried ((s.noticeSet c).marks_pos.mp marked), owed⟩
  · exact (h c).carried ((s.noticeSet c).marks_pos.mpr marked)

/-- While a request has still to take effect, a record is marked only for the reply in the slot. -/
theorem Port.Carries.filled_of_taken {x : Port} (h : x.Carries) (taken : x.Taken) : x.slot.isFilled = true := by
  rcases h with filled | ⟨-, a, data, answered⟩ | ⟨-, -, idle⟩
  · exact filled
  · obtain ⟨code, ps, inFlight⟩ := taken
    rw [inFlight] at answered
    cases answered
  · exact absurd taken idle

/-- A port with a request that has still to take effect is BUSY or DETACHED, without a reply (R138, R143, R153). -/
theorem Port.Consistent.of_taken {x : Port} {u : Startup} (h : x.Consistent u) (taken : x.Taken) :
    (x.state = .busy ∨ x.state = .detached) ∧ x.slot.isFilled = false := by
  obtain ⟨code, ps, inFlight⟩ := taken
  unfold Port.Consistent at h
  cases hs : x.state <;> simp only [hs, inFlight] at h
  case starting | ready => simp at h
  case detached =>
    obtain ⟨-, empty, -⟩ := h
    simp [empty, ReplySlot.isFilled]
  case busy =>
    obtain ⟨-, ⟨tag, pending⟩, -⟩ := h
    simp [pending, ReplySlot.isFilled]

/-- A BUSY port's slot is not EMPTY (R138). -/
theorem Port.Consistent.not_busy_of_empty {x : Port} {u : Startup} (h : x.Consistent u) (empty : x.slot = .empty) :
    x.state ≠ .busy := fun busy => by
  simp [Port.Consistent, busy, empty] at h

/-- A port in READY or BUSY with an EMPTY slot is READY (R138). -/
theorem Port.Consistent.ready_of_empty {x : Port} {u : Startup} (h : x.Consistent u)
    (state : x.state = .ready ∨ x.state = .busy) (empty : x.slot = .empty) : x.state = .ready :=
  state.resolve_right (h.not_busy_of_empty empty)

namespace NoticeSet.CarriedBy

section
variable {ns : NoticeSet} {x : Port} (h : ns.CarriedBy x)
include h

theorem fewer {ns' : NoticeSet} (marks : ns'.marks ≤ ns.marks) : ns'.CarriedBy x :=
  ⟨marks.trans h.one, fun marked => h.carried (Nat.lt_of_lt_of_le marked marks), h.owed⟩

/-- The law reads state, slot, request and owed mark alone. -/
theorem congr {y : Port} (state : y.state = x.state) (slot : y.slot = x.slot) (inFlight : y.inFlight = x.inFlight)
    (sense : y.senseOwed = x.senseOwed) : ns.CarriedBy y := by
  obtain ⟨one, carried, owed⟩ := h
  exact ⟨one, by simpa only [Port.Carries, Port.Taken, state, slot, inFlight, sense] using carried,
    by simpa only [Port.Taken, state, inFlight, sense] using owed⟩

/-- A request takes effect: the records marked before are those of a reply in the slot. -/
theorem withInFlight (taken : x.Taken) {f : InFlight} (after : ∀ code ps, f ≠ .taken code ps) :
    ns.CarriedBy { x with inFlight := f } :=
  ⟨h.one, fun marked => .inl ((h.carried marked).filled_of_taken taken), fun _ ⟨code, ps, hf⟩ => absurd hf (after code ps)⟩

/-- A port becomes READY only when no assertion is owed to an OPEN session (R154, log 8). -/
theorem settled (session : Session) (told : session ≠ .opened → ns.marks = 0) : ns.CarriedBy (x.settled session) := by
  unfold Port.settled
  split
  · rename_i ready
    obtain ⟨detached, -, idle, -, unowed⟩ := ready
    refine ⟨h.one, fun marked => ?_, nofun⟩
    have opened : session = .opened := by
      by_contra closed
      have := told closed
      omega
    rcases h.carried marked with filled | ⟨busy, -⟩ | ⟨-, owed, -⟩
    · exact .inl filled
    · rw [detached] at busy
      cases busy
    · exact absurd ⟨owed, opened⟩ unowed
  · exact h

/-- The reply fills a PENDING slot, or is discarded by a DETACHED port, whose assertion is still owed (R144). -/
theorem replied {u : Startup} (consistent : x.Consistent u) (a : Answer) (data : List Byte) :
    ns.CarriedBy (x.replied a data) := by
  unfold Port.replied
  split
  · exact ⟨h.one, fun _ => .inl rfl, fun _ ⟨_, _, hf⟩ => nomatch hf⟩
  · rename_i empty
    refine ⟨h.one, fun marked => ?_, fun _ ⟨_, _, hf⟩ => nomatch hf⟩
    rcases h.carried marked with filled | ⟨busy, -⟩ | ⟨detached, owed, -⟩
    · exact .inl filled
    · exact absurd busy (consistent.not_busy_of_empty empty)
    · exact .inr (.inr ⟨detached, owed, fun ⟨_, _, hf⟩ => nomatch hf⟩)
  · rename_i reply filled
    exact ⟨h.one, fun _ => .inl (by simp [filled, ReplySlot.isFilled]), fun _ ⟨_, _, hf⟩ => nomatch hf⟩

theorem doneFor {u : Startup} (consistent : x.Consistent u) (c : ClientId) (session : Session)
    (told : session ≠ .opened → ns.marks = 0) : ns.CarriedBy (x.doneFor c session) := by
  unfold Port.doneFor
  split
  · exact (h.replied consistent .done []).settled session told
  · exact h

/-- A reset-sense assertion discards the reply in the slot or on its way, and is owed to the client record (R111, R153). -/
theorem senseAsserted {u : Startup} (consistent : x.Consistent u) : ns.CarriedBy x.senseAsserted := by
  unfold Port.senseAsserted
  split
  · exact h.congr rfl rfl rfl rfl
  · rename_i state
    refine ⟨h.one, fun marked => ?_, fun _ _ => rfl⟩
    rcases h.carried marked with filled | ⟨busy, -⟩ | ⟨detached, -, idle⟩
    · exact .inl filled
    · rw [state] at busy
      cases busy
    · exact .inr (.inr ⟨detached, rfl, idle⟩)
  all_goals
    refine ⟨h.one, fun marked => .inr (.inr ⟨rfl, rfl, fun taken => ?_⟩), fun _ _ => rfl⟩
    have filled := (h.carried marked).filled_of_taken taken
    rw [(consistent.of_taken taken).2] at filled
    cases filled

/-- A request received is taken only by a READY port with an EMPTY slot, which carries nothing (R146, R150). -/
theorem judge (free : x.slot = .empty → x.state = .ready) (bytes : List Byte) : ns.CarriedBy (x.judge bytes) := by
  unfold Port.judge
  split
  · exact h.congr rfl rfl rfl rfl
  · exact h.congr rfl rfl rfl rfl
  split
  · exact h
  split
  · rename_i empty
    refine ⟨h.one, fun marked => ?_, nofun⟩
    rcases h.carried marked with filled | ⟨busy, -⟩ | ⟨detached, -⟩
    · simp [empty, ReplySlot.isFilled] at filled
    · simp [free empty] at busy
    · simp [free empty] at detached
  all_goals exact h.congr rfl rfl rfl rfl

end

/-- A set without a marked record, at a port that keeps an assertion owed for the request it still has (R111). -/
theorem of_unmarked {ns : NoticeSet} {x : Port} (unmarked : ns.marks = 0)
    (owed : x.state = .detached → x.Taken → x.senseOwed = true) : ns.CarriedBy x :=
  ⟨by omega, fun marked => by omega, owed⟩

end NoticeSet.CarriedBy

/-- An assertion is taken at the client record only when no request has still to take effect (R111). -/
theorem Port.not_taken_of_letsAssertion {x : Port} {c : ClientId} (h : x.inFlight.letsAssertion c = true) : ¬ x.Taken :=
  fun ⟨code, ps, taken⟩ => by simp [taken, InFlight.letsAssertion] at h

end Sys2Proof.Machine
end

section
/-! SUPPORT. What a command makes of the notice sets and the ports (`State.KeepsNotices`), for the commands that change only
resources and clients, for those of a request, and for the start and the completion of a teardown. -/

namespace Sys2Proof.Machine

/-- Consistent ports (R138), no notice without an OPEN session (R129), and the law of the presented mark (R131). -/
structure State.Attended (s : State) : Prop where
  ports : ∀ p, (s.port p).Consistent s.startup
  told : ∀ c, (s.client c).session ≠ .opened → s.noticeSet c = NoticeSet.empty
  carried : ∀ c, (s.noticeSet c).CarriedBy (s.port c)

/-- Legal sets stay legal, and the law of the presented mark is kept where the laws it rests on hold. -/
structure State.KeepsNotices (s t : State) : Prop where
  legal : ∀ c, (s.noticeSet c).Legal → (t.noticeSet c).Legal
  carried : s.NoticesLegal → s.StartupQuiet → s.Attended → ∀ c, (t.noticeSet c).CarriedBy (t.port c)

theorem State.Attended.unmarked {s : State} (h : s.Attended) {c : ClientId} (closed : (s.client c).session ≠ .opened) :
    (s.noticeSet c).marks = 0 := by rw [h.told c closed, NoticeSet.marks_empty]

/-! ### Changes of resources and clients, and of one port -/

theorem State.Tells.keepsNotices {s t : State} (h : s.Tells t) : s.KeepsNotices t :=
  ⟨fun c => (h.sets c).legal, fun _ _ attended c => by
    rw [h.port c]
    exact (attended.carried c).fewer (h.sets c).marks⟩

theorem State.KeepsNotices.refl (s : State) : s.KeepsNotices s := (State.Tells.refl s).keepsNotices

/-- One port and its client's notice set change. -/
theorem State.KeepsNotices.setBoth {s : State} (p : ClientId) {x : Port} {ns : NoticeSet}
    (legal : (s.noticeSet p).Legal → ns.Legal)
    (carried : s.NoticesLegal → s.StartupQuiet → s.Attended → ns.CarriedBy x) :
    s.KeepsNotices ((s.setPort p x).setNoticeSet p ns) := by
  refine ⟨fun c hc => ?_, fun sets quiet attended c => ?_⟩ <;>
    rw [State.noticeSet_setNoticeSet]
  · split
    · rename_i hcp
      exact legal (hcp ▸ hc)
    · exact hc
  · by_cases hcp : c = p
    · subst hcp
      simpa using carried sets quiet attended
    · simpa [hcp] using attended.carried c

/-- One port changes. -/
theorem State.KeepsNotices.setPort {s : State} (p : ClientId) {x : Port}
    (carried : s.Attended → (s.noticeSet p).CarriedBy x) : s.KeepsNotices (s.setPort p x) := by
  have both := State.KeepsNotices.setBoth (s := s) p id fun _ _ => carried
  rwa [show s.noticeSet p = (s.setPort p x).noticeSet p from rfl, State.setNoticeSet_noticeSet] at both

/-! ### Requests (R144, R164) -/

/-- The reply of a request that has taken effect (R144). -/
theorem State.Tells.reply {s u : State} (h : s.Tells u) {p : ClientId} (taken : (s.port p).Taken) (a : Answer)
    (data : List Byte) : s.KeepsNotices (u.answer p a data) := by
  refine ⟨fun c => (h.sets c).legal, fun _ _ attended c => ?_⟩
  have carried := (attended.carried c).fewer (h.sets c).marks
  rw [State.answer, State.port_setPort, h.port]
  split
  · rename_i hc
    subst hc
    exact carried.withInFlight taken nofun
  · rwa [h.port c]

theorem State.InFlight.taken {s : State} {p : ClientId} {q : Request} {ps : List Byte} (h : s.InFlight p q ps) :
    (s.port p).Taken := ⟨_, _, h⟩

/-- A request that is in flight is refused or has its effect; one that is not is not taken (R164, log 2). -/
theorem State.KeepsNotices.request {s : State} {p : ClientId} {q : Request} {effect : List Byte → State}
    (effective : ∀ ps, s.Passes p q ps → s.KeepsNotices (effect ps)) : s.KeepsNotices (s.request p q effect) := by
  by_cases h : ∃ ps, s.InFlight p q ps
  · obtain ⟨ps, inFlight⟩ := h
    rw [s.request_inFlight p q ps inFlight]
    cases refusal : s.refusal p q ps with
    | some a => exact (State.Tells.refl s).reply inFlight.taken a []
    | none => exact effective ps (State.passes_of_refusal inFlight refusal)
  · rw [s.request_idle p q effect fun ps inFlight => h ⟨ps, inFlight⟩]
    exact .refl s

/-- The same for a request that names a record (R2, R7). -/
theorem State.KeepsNotices.requestAtRecord {s : State} {p : ClientId} {q : Request} {key : List Byte → Key}
    {effect : List Byte → SlotId → Resource → State}
    (found : ∀ ps i r, (s.port p).Taken → s.KeepsNotices (effect ps i r)) :
    s.KeepsNotices (s.request p q fun ps => s.atRecord p q (key ps) (effect ps)) :=
  .request fun ps passes =>
    State.atRecord_induction ((State.Tells.refl s).reply passes.1.taken · []) fun i r _ _ => found ps i r passes.1.taken

/-! ### Teardown (R113, R116) -/

/-- The completion answers the request that waits and may let a DETACHED port become READY (R116, R144, R154). -/
theorem State.Attended.completeTeardown {s : State} (h : s.Attended) {c : ClientId}
    (cleared : s.noticeSet c = NoticeSet.empty) (d : ClientId) :
    ((s.completeTeardown c).noticeSet d).CarriedBy ((s.completeTeardown c).port d) := by
  obtain ⟨-, notices, -⟩ := s.completeTeardown_frame c
  rw [notices, State.completeTeardown_port]
  unfold State.portAfter
  split
  · rename_i hd
    subst hd
    have unmarked : (s.noticeSet d).marks = 0 := by rw [cleared, NoticeSet.marks_empty]
    exact ((h.carried d).doneFor (h.ports d) d .none fun _ => unmarked).settled .none fun _ => unmarked
  split
  · exact (h.carried d).doneFor (h.ports d) c _ h.unmarked
  · exact h.carried d

/-- The start of a teardown clears the client's set, whatever its port carried (R113). -/
theorem State.Attended.of_tornDown {s : State} {c : ClientId} (ports : ∀ p, (s.port p).Consistent s.startup)
    (told : ∀ d, (s.client d).session ≠ .opened → s.noticeSet d = NoticeSet.empty)
    (carried : ∀ d, d ≠ c → (s.noticeSet d).CarriedBy (s.port d))
    (owed : (s.port c).state = .detached → (s.port c).Taken → (s.port c).senseOwed = true) (cause : EndCause) :
    (s.tornDown c cause).Attended := by
  have startup : (s.tornDown c cause).startup = s.startup := (s.tornDown_only c cause).time.2.1
  refine ⟨fun p => ?_, fun d closed => ?_, fun d => ?_⟩
  · rw [startup, s.tornDown_port]
    exact ports p
  all_goals
    rw [s.tornDown_noticeSet]
    split
  · rfl
  · rename_i hd
    rw [s.tornDown_client_ne c cause hd] at closed
    exact told d closed
  · rename_i hd
    subst hd
    rw [s.tornDown_port]
    exact .of_unmarked NoticeSet.marks_empty owed
  · rename_i hd
    rw [s.tornDown_port]
    exact carried d hd

theorem State.Attended.beginTeardown {s : State} {c : ClientId} {cause : EndCause} (h : (s.tornDown c cause).Attended)
    (d : ClientId) : ((s.beginTeardown c cause).noticeSet d).CarriedBy ((s.beginTeardown c cause).port d) := by
  rw [s.beginTeardown_eq]
  split
  · exact h.completeTeardown (by rw [s.tornDown_noticeSet, if_pos rfl]) d
  · exact h.carried d

theorem State.beginTeardown_noticeSet (s : State) (c : ClientId) (cause : EndCause) (d : ClientId) :
    (s.beginTeardown c cause).noticeSet d = if d = c then NoticeSet.empty else s.noticeSet d := by
  rw [s.beginTeardown_eq, ← s.tornDown_noticeSet c cause]
  split
  · exact (State.completeTeardown_frame _ c).2.1 d
  · rfl

theorem State.beginTeardown_legal {s : State} (c : ClientId) (cause : EndCause) {d : ClientId}
    (legal : (s.noticeSet d).Legal) : ((s.beginTeardown c cause).noticeSet d).Legal := by
  rw [s.beginTeardown_noticeSet]
  split
  · exact NoticeSet.empty_legal
  · exact legal

/-- A request comes to wait for the teardown it begins (R109, R110). -/
theorem State.Attended.waitsFor {s : State} (h : s.Attended) {p : ClientId} (taken : (s.port p).Taken) (c : ClientId) :
    (s.waitsFor p c).Attended := by
  refine ⟨fun q => ?_, h.told, fun q => ?_⟩ <;> rw [State.waitsFor, State.port_setPort] <;> split
  · obtain ⟨code, ps, inFlight⟩ := taken
    exact (h.ports p).withInFlight (by rw [inFlight]; nofun) nofun
  · exact h.ports q
  · rename_i hq
    subst hq
    exact (h.carried q).withInFlight taken nofun
  · exact h.carried q

/-- A LEAVE or an EVICT (R109, R110). -/
theorem State.KeepsNotices.teardown {s : State} {p : ClientId} (taken : (s.port p).Taken) (c : ClientId)
    (cause : EndCause) : s.KeepsNotices ((s.waitsFor p c).beginTeardown c cause) :=
  ⟨fun _ legal => State.beginTeardown_legal c cause legal, fun _ _ attended =>
    have waits := attended.waitsFor taken c
    State.Attended.beginTeardown
      (.of_tornDown waits.ports waits.told (fun d _ => waits.carried d) (waits.carried c).owed cause)⟩

end Sys2Proof.Machine
end

section
/-! PROOF. Every command keeps the notice sets legal (R123) and the presented mark to a reply on its way (R131), command by
command; and the attention output is what R136 says (O60). -/

namespace Sys2Proof.Machine

section
variable (s : State) (p c : ClientId) (i : SlotId)

/-! ### The requests on claims -/

theorem execAcquire_keepsNotices : ∃ t, execAcquire p s = .next t ∧ s.KeepsNotices t := by
  have told := State.Tells.refl s
  refine ⟨_, rfl, .requestAtRecord fun ps i r taken => ?_⟩
  refine State.acquireAt_induction (told.reply taken) (fun _ => ?_) fun _ _ => ?_
  · exact ((told.createHolding i p _ _).deadlines (State.armLease_same _ i p r)).reply taken _ _
  · have queued := fun q => told.setRecord i (some { r with queue := q })
    have armed := fun q => (queued q).deadlines (State.arm_same _ (.waiter i p) .waitEnd (wordAt ps 4).toNat)
    unfold State.enqueue
    simp only
    refine State.Tells.reply ?_ taken _ _
    split <;> split
    · exact (queued _).offerCheck i
    · exact (armed _).offerCheck i
    · exact queued _
    · exact armed _

theorem execAccept_keepsNotices : ∃ t, execAccept p s = .next t ∧ s.KeepsNotices t := by
  have told := State.Tells.refl s
  refine ⟨_, rfl, .requestAtRecord fun ps i r taken => ?_⟩
  split
  · exact told.reply taken _ _
  · exact (((told.modifyRecord i _).deadlines (State.armLease_same _ i p r)).clearNotices p _).reply taken _ _
  · exact told.reply taken _ _

theorem execDecline_keepsNotices : ∃ t, execDecline p s = .next t ∧ s.KeepsNotices t := by
  have told := State.Tells.refl s
  refine ⟨_, rfl, .requestAtRecord fun ps i r taken => ?_⟩
  split
  · exact told.reply taken _ _
  · exact (told.endHolding i p _).reply taken _ _

theorem execCancel_keepsNotices : ∃ t, execCancel p s = .next t ∧ s.KeepsNotices t := by
  have told := State.Tells.refl s
  refine ⟨_, rfl, .requestAtRecord fun ps i r taken => ?_⟩
  split
  · exact (told.endWait i p).reply taken _ _
  · exact told.reply taken _ _

theorem execRenew_keepsNotices : ∃ t, execRenew p s = .next t ∧ s.KeepsNotices t := by
  have told := State.Tells.refl s
  refine ⟨_, rfl, .requestAtRecord fun ps i r taken => ?_⟩
  split
  · exact told.reply taken _ _
  · exact (((told.modifyRecord i _).deadlines (State.armLease_same _ i p r)).clearNotices p _).reply taken _ _

theorem execRelease_keepsNotices : ∃ t, execRelease p s = .next t ∧ s.KeepsNotices t := by
  have told := State.Tells.refl s
  refine ⟨_, rfl, .requestAtRecord fun ps i r taken => ?_⟩
  split
  · exact told.reply taken _ _
  · exact (told.endHolding i p _).reply taken _ _

theorem execDowngrade_keepsNotices : ∃ t, execDowngrade p s = .next t ∧ s.KeepsNotices t := by
  have told := State.Tells.refl s
  refine ⟨_, rfl, .requestAtRecord fun ps i r taken => ?_⟩
  split
  · exact told.reply taken _ _
  split
  · exact told.reply taken _ _
  split
  · exact told.reply taken _ _
  · exact ((told.modifyRecord i _).offerCheck i).reply taken _ _

theorem execMarkSound_keepsNotices : ∃ t, execMarkSound p s = .next t ∧ s.KeepsNotices t := by
  have told := State.Tells.refl s
  refine ⟨_, rfl, .requestAtRecord fun ps i r taken => ?_⟩
  split
  · exact told.reply taken _ _
  split
  · exact told.reply taken _ _
  · exact (told.setRecord i _).reply taken _ _

theorem execRevoke_keepsNotices : ∃ t, execRevoke p s = .next t ∧ s.KeepsNotices t := by
  have told := State.Tells.refl s
  refine ⟨_, rfl, .requestAtRecord fun ps i r taken => ?_⟩
  simp only
  split
  · exact (told.endHolding i _ _).reply taken _ _
  · exact told.reply taken _ _

/-! ### The requests of the directory -/

theorem execDefine_keepsNotices : ∃ t, execDefine p s = .next t ∧ s.KeepsNotices t := by
  have told := State.Tells.refl s
  refine ⟨_, rfl, .request fun ps passes => ?_⟩
  split
  · exact told.reply passes.1.taken _ _
  split
  · exact told.reply passes.1.taken _ _
  · exact (told.setRecord _ _).reply passes.1.taken _ _

theorem execAmend_keepsNotices : ∃ t, execAmend p s = .next t ∧ s.KeepsNotices t := by
  have told := State.Tells.refl s
  refine ⟨_, rfl, .requestAtRecord fun ps i r taken => ?_⟩
  have amended := told.setRecord i (some (r.amended ps))
  simp only
  split
  · exact told.reply taken _ _
  · refine State.Tells.reply ?_ taken _ _
    split
    · exact amended.offerCheck i
    · exact amended

theorem execRetire_keepsNotices : ∃ t, execRetire p s = .next t ∧ s.KeepsNotices t := by
  refine ⟨_, rfl, .requestAtRecord fun ps i r taken => ?_⟩
  have withdrawn := (State.Tells.refl s).withdrawAll i r
  simp only
  split
  · exact ((withdrawn.modifyRecord i _).giveBackMany _).reply taken _ _
  · exact ((withdrawn.setRecord i none).giveBackMany _).reply taken _ _

theorem execQuery_keepsNotices : ∃ t, execQuery p s = .next t ∧ s.KeepsNotices t :=
  ⟨_, rfl, .requestAtRecord fun _ _ _ taken => (State.Tells.refl s).reply taken _ _⟩

/-! ### The requests of the Client Table and the Notice Unit -/

theorem execJoin_keepsNotices : ∃ t, execJoin p s = .next t ∧ s.KeepsNotices t := by
  refine ⟨_, rfl, .request fun _ passes => State.Tells.reply ?_ passes.1.taken _ _⟩
  exact ((State.Tells.refl s).onlyFreeze (.of_setClient s p _)).onlyFreeze (.of_evaluateFreeze _ p)

theorem execLeave_keepsNotices : ∃ t, execLeave p s = .next t ∧ s.KeepsNotices t :=
  ⟨_, rfl, .request fun _ passes => .teardown passes.1.taken p .leave⟩

theorem execEvict_keepsNotices : ∃ t, execEvict p s = .next t ∧ s.KeepsNotices t := by
  refine ⟨_, rfl, .request fun ps passes => ?_⟩
  simp only
  split
  · exact (State.Tells.refl s).reply passes.1.taken _ _
  · exact .teardown passes.1.taken _ .evicted

theorem execSetClient_keepsNotices : ∃ t, execSetClient p s = .next t ∧ s.KeepsNotices t := by
  have told := State.Tells.refl s
  refine ⟨_, rfl, .request fun ps passes => ?_⟩
  simp only
  split
  · exact told.reply passes.1.taken _ _
  · exact ((told.onlyFreeze (.of_applySettings s _ ps)).onlyFreeze (.of_evaluateFreeze _ _)).reply passes.1.taken _ _

theorem execInspectClient_keepsNotices : ∃ t, execInspectClient p s = .next t ∧ s.KeepsNotices t := by
  have told := State.Tells.refl s
  refine ⟨_, rfl, .request fun _ passes => ?_⟩
  simp only
  split
  · exact told.reply passes.1.taken _ _
  split <;> exact told.reply passes.1.taken _ _

theorem execUnknownCode_keepsNotices : ∃ t, execUnknownCode p s = .next t ∧ s.KeepsNotices t := by
  refine ⟨_, rfl, ?_⟩
  split
  · rename_i code ps inFlight
    split
    · exact .refl s
    · exact (State.Tells.refl s).reply ⟨code, ps, inFlight⟩ _ _
  all_goals exact .refl s

/-- The record presented is the only one marked: no reply stands in the slot of a port whose request has still to take effect
(R130, R131). -/
theorem execTakeNotice_keepsNotices : ∃ t, execTakeNotice p s = .next t ∧ s.KeepsNotices t := by
  refine ⟨_, rfl, .request fun ps passes => ?_⟩
  have taken := passes.1.taken
  split
  · exact (State.Tells.refl s).reply taken _ _
  rename_i n best
  suffices answered : s.KeepsNotices ((s.setPort p { s.port p with inFlight := .answered .done n.data }).setNoticeSet p
      ((s.noticeSet p).present n)) by
    simpa [State.answer, State.setPort, State.setNoticeSet, State.port] using answered
  refine .setBoth p (NoticeSet.present_legal · n) fun sets _ attended => ?_
  obtain ⟨state, free⟩ := (attended.ports p).of_taken taken
  obtain ⟨-, carried, owed⟩ := attended.carried p
  have unmarked : (s.noticeSet p).marks = 0 := by
    by_contra marked
    rw [(carried (Nat.pos_of_ne_zero marked)).filled_of_taken taken] at free
    cases free
  refine ⟨Nat.le_of_eq (NoticeSet.present_marks (sets p) unmarked best), fun _ => ?_, fun _ ⟨_, _, hf⟩ => nomatch hf⟩
  rcases state with busy | detached
  · exact .inr (.inl ⟨busy, _, _, rfl⟩)
  · exact .inr (.inr ⟨detached, owed detached taken, fun ⟨_, _, hf⟩ => nomatch hf⟩)

/-! ### The sweep, the deadlines and hold sense -/

theorem execSweepVisit_keepsNotices : ∃ t, execSweepVisit c s = .next t ∧ s.KeepsNotices t := by
  refine ⟨_, rfl, ?_⟩
  split
  · split
    · exact .refl s
    rename_i i _
    have swept := (State.Tells.refl s).onlyFreeze (.of_setClient s c { s.client c with sweepFrom := i.val + 1 })
    simp only
    split
    · exact (swept.endHolding i c _).keepsNotices
    · exact (swept.endWait i c).keepsNotices
  · exact .refl s

theorem State.removeLive_tells (o : Owner) : s.Tells (s.removeLive o) := (State.Tells.refl s).deadlines (s.removeLive_same o)

theorem execLeaseWarn_keepsNotices : ∃ t, execLeaseWarn i c s = .next t ∧ s.KeepsNotices t := by
  refine ⟨_, rfl, ?_⟩
  split
  · exact (State.Tells.warnLease s i c _ _).keepsNotices
  · exact .refl s

theorem execLeaseEnd_keepsNotices : ∃ t, execLeaseEnd i c s = .next t ∧ s.KeepsNotices t := by
  refine ⟨_, rfl, ?_⟩
  split
  · exact ((s.removeLive_tells _).endHolding i c _).keepsNotices
  · exact .refl s

theorem execOfferEnd_keepsNotices : ∃ t, execOfferEnd i c s = .next t ∧ s.KeepsNotices t := by
  refine ⟨_, rfl, ?_⟩
  split
  · exact ((s.removeLive_tells _).endHolding i c _).keepsNotices
  · exact .refl s

theorem execWaitEnd_keepsNotices : ∃ t, execWaitEnd i c s = .next t ∧ s.KeepsNotices t := by
  refine ⟨_, rfl, ?_⟩
  split
  · exact ((s.removeLive_tells _).lapseWait i c).keepsNotices
  · exact .refl s

theorem execAllowanceEnd_keepsNotices : ∃ t, execAllowanceEnd c s = .next t ∧ s.KeepsNotices t := by
  refine ⟨_, rfl, ?_⟩
  split
  · exact (((State.Tells.refl s).onlyFreeze (.of_setClient s c _)).onlyFreeze (.of_thaw _ c _)).keepsNotices
  · exact .refl s

theorem execHoldAssertion_keepsNotices : ∃ t, execHoldAssertion c s = .next t ∧ s.KeepsNotices t := by
  have level := (State.Tells.refl s).onlyFreeze (.of_setLevel s c true)
  refine ⟨_, rfl, ?_⟩
  simp only
  split
  · exact .refl s
  refine State.Tells.keepsNotices ?_
  split
  · split
    · exact level.onlyFreeze (.of_enterFreeze _ c)
    split
    · exact level.onlyFreeze (.of_setClient _ c _)
    · exact level
  · exact level

theorem execHoldRelease_keepsNotices : ∃ t, execHoldRelease c s = .next t ∧ s.KeepsNotices t := by
  refine ⟨_, rfl, ?_⟩
  split
  · exact (((State.Tells.refl s).onlyFreeze (.of_setLevel s c false)).onlyFreeze (.of_endFreeze _ c)).keepsNotices
  · exact .refl s

/-! ### The ports -/

theorem execFrameStart_keepsNotices : ∃ t, execFrameStart p s = .next t ∧ s.KeepsNotices t := by
  refine ⟨_, rfl, ?_⟩
  simp only
  split
  · exact .refl s
  split
  · have shown := NoticeSet.Yields.markShown (s.noticeSet p) (s.port p).slot.isFilled
    exact .setBoth p shown.legal fun _ _ attended => ((attended.carried p).fewer shown.marks).congr rfl rfl rfl rfl
  · exact .setPort p fun attended => (attended.carried p).congr rfl rfl rfl rfl

/-- A delivery leaves no record marked (R132, R145), and the request received with it is judged at an EMPTY slot (R146). -/
theorem State.delivered_keepsNotices {f f' : Frame} (hf : (s.port p).frame = some f) (filled : f.snapshot.filled = true)
    (bytes : List Byte) :
    s.KeepsNotices ((s.delivered p f').setPort p (((s.delivered p f').port p).judge bytes)) := by
  have merged : ∀ x, (s.delivered p f').setPort p x
      = (s.setPort p x).setNoticeSet p ((s.noticeSet p).delivered (s.deliveryProtected p)) := fun x => by
    simp [State.delivered, State.deliver, State.deliveryProtected, State.setPort, State.setNoticeSet, State.client,
      State.holdUnit, State.noticeSet]
  rw [merged, s.delivered_port]
  refine .setBoth p ((s.noticeSet p).delivered_yields _).legal fun _ _ attended => ?_
  obtain ⟨consistent, state, -⟩ := (attended.ports p).delivered hf filled f'.snapshot.status (s.deliveryProtected p)
  refine NoticeSet.CarriedBy.judge (.of_unmarked ((s.noticeSet p).delivered_marks _) ?_)
    (consistent.ready_of_empty state) bytes
  unfold Port.clearShown
  split <;> exact (attended.carried p).owed

/-- A request is taken only by a READY port with an EMPTY slot, which has no reply to carry a record (R145, R150). -/
theorem execFrameEnd_keepsNotices (n : Nat) (d : BitVec n) : ∃ t, execFrameEnd p n d s = .next t ∧ s.KeepsNotices t := by
  refine ⟨_, rfl, ?_⟩
  simp only
  have closed : s.KeepsNotices (s.setPort p { s.port p with selectLow := false, frame := none }) :=
    .setPort p fun attended => (attended.carried p).congr rfl rfl rfl rfl
  split
  · exact .refl s
  split
  · exact closed
  split
  · exact closed
  rename_i f hf _
  have snapshot := Frame.snapshot_foldl_sample (sampledBits n d) f
  generalize (sampledBits n d).foldl Frame.sample f = f' at snapshot
  split
  · rename_i delivers
    simp only [Frame.delivers, Bool.and_eq_true, snapshot] at delivers
    exact s.delivered_keepsNotices p hf delivers.1 f'.received
  · rw [State.port_setPort_self, State.setPort_setPort]
    refine .setPort p fun attended => ?_
    have consistent := (attended.ports p).closed
    have carried : (s.noticeSet p).CarriedBy { s.port p with selectLow := false, frame := none } :=
      (attended.carried p).congr rfl rfl rfl rfl
    exact carried.judge (consistent.ready_of_empty ((attended.ports p).of_frame hf).1) _

theorem execReplyReady_keepsNotices : ∃ t, execReplyReady p s = .next t ∧ s.KeepsNotices t := by
  refine ⟨_, rfl, ?_⟩
  split
  · rw [State.placeReply_eq]
    exact .setPort p fun attended => ((attended.carried p).replied (attended.ports p) _ _).settled _ attended.unmarked
  all_goals exact .refl s

theorem execResetSenseAssert_keepsNotices : ∃ t, execResetSenseAssert p s = .next t ∧ s.KeepsNotices t := by
  by_cases asserted : (s.port p).resetSense = true
  · exact ⟨s, congrArg Host.Outcome.next (if_pos asserted), .refl s⟩
  · exact ⟨_, exec_resetSenseAssert (by simpa using asserted),
      .setPort p fun attended => (attended.carried p).senseAsserted (attended.ports p)⟩

theorem execResetSenseRelease_keepsNotices : ∃ t, execResetSenseRelease p s = .next t ∧ s.KeepsNotices t := by
  by_cases asserted : (s.port p).resetSense = true
  · refine ⟨_, exec_resetSenseRelease asserted, .setPort p fun attended => ?_⟩
    have released : (s.noticeSet p).CarriedBy { s.port p with resetSense := false } :=
      (attended.carried p).congr rfl rfl rfl rfl
    exact released.settled _ attended.unmarked
  · exact ⟨s, congrArg Host.Outcome.next (if_neg asserted), .refl s⟩

/-! ### Teardown -/

/-- The assertion is taken with no request still to take effect, and the session it ends has its set cleared (R111, R113). -/
theorem execClientResetSense_keepsNotices : ∃ t, execClientResetSense c s = .next t ∧ s.KeepsNotices t := by
  refine ⟨_, rfl, ?_⟩
  simp only
  split
  · rename_i h
    have idle := Port.not_taken_of_letsAssertion h.2
    split
    · refine ⟨fun _ legal => State.beginTeardown_legal c _ legal, fun _ _ attended => ?_⟩
      refine State.Attended.beginTeardown (State.Attended.of_tornDown (s := s.setPort c _) (fun q => ?_) attended.told
        (fun d hd => ?_) (fun _ taken => ?_) _)
      · rw [State.port_setPort]
        split
        · exact (attended.ports c).congr rfl rfl rfl rfl rfl
        · exact attended.ports q
      · rw [State.port_setPort_ne _ _ _ _ hd]
        exact attended.carried d
      · rw [State.port_setPort_self] at taken
        exact absurd taken idle
    · rename_i closed
      exact .setPort c fun attended => .of_unmarked (attended.unmarked closed) fun _ taken => absurd taken idle
  · exact .refl s

theorem execTeardownCompletion_keepsNotices : ∃ t, execTeardownCompletion c s = .next t ∧ s.KeepsNotices t := by
  refine ⟨_, rfl, ?_⟩
  split
  · rename_i h
    refine ⟨fun d legal => ?_, fun _ _ attended => attended.completeTeardown (attended.told c (by rw [h.1]; decide))⟩
    rwa [(s.completeTeardown_frame c).2.1 d]
  · exact .refl s

/-! ### The part as a whole -/

/-- A part reset leaves no notice and no request (R122, R137, R138). -/
theorem State.KeepsNotices.of_reset {t : State} (sets : ∀ c, t.noticeSet c = NoticeSet.empty)
    (requests : ∀ q, (t.port q).inFlight = .none) : s.KeepsNotices t := by
  refine ⟨fun d _ => sets d ▸ NoticeSet.empty_legal, fun _ _ _ d => ?_⟩
  rw [sets d]
  refine .of_unmarked NoticeSet.marks_empty fun _ ⟨_, _, taken⟩ => ?_
  rw [requests d] at taken
  cases taken

theorem execPowerOn_keepsNotices (sel rsn hld : BitVec 6) : ∃ t, execPowerOn sel rsn hld s = .next t ∧ s.KeepsNotices t :=
  ⟨_, rfl, .of_reset s (fun d => by simp [State.noticeSet, State.powerOn])
    fun q => by simp [State.port, State.powerOn, Port.initial]⟩

theorem execResetPin_keepsNotices : ∃ t, execResetPin s = .next t ∧ s.KeepsNotices t :=
  ⟨_, rfl, .of_reset s (fun d => by simp [State.noticeSet]) fun q => by simp [State.port, Port.initial]⟩

theorem execResetPinRelease_keepsNotices (levels : BitVec 6) :
    ∃ t, execResetPinRelease levels s = .next t ∧ s.KeepsNotices t := by
  refine ⟨_, rfl, ?_⟩
  split
  · refine State.Tells.keepsNotices ?_
    exact .of_same rfl rfl
  · exact .refl s

/-- Until start-up has ended no session is OPEN, so that no set holds a record, and no request is in flight (R129, R138,
R152). -/
theorem execStartupEnd_keepsNotices : ∃ t, execStartupEnd s = .next t ∧ s.KeepsNotices t := by
  refine ⟨_, rfl, ?_⟩
  split
  · rename_i counting
    have running : s.startup ≠ .ended := by rw [counting]; decide
    refine ⟨fun _ => id, fun _ quiet attended d => .of_unmarked (attended.unmarked ?_) fun _ ⟨_, _, taken⟩ => ?_⟩
    · rw [(quiet running).2.2 d]
      decide
    · have idle := (attended.ports d).idle running
      simp only [State.port, Fin.getElem_fin, Vector.getElem_ofFn] at taken idle
      rw [idle] at taken
      cases taken
  · exact .refl s

theorem execMillisecondBoundary_keepsNotices : ∃ t, execMillisecondBoundary s = .next t ∧ s.KeepsNotices t := by
  refine ⟨_, rfl, ?_⟩
  split
  · refine State.Tells.keepsNotices ?_
    exact .of_same rfl rfl
  · exact .refl s

end

/-- Every command. -/
theorem exec_keepsNotices (c : Instr) (s : State) : ∃ t, exec c s = .next t ∧ s.KeepsNotices t := by
  cases c with
  | powerOn sel rsn hld => exact execPowerOn_keepsNotices s sel rsn hld
  | resetPin => exact execResetPin_keepsNotices s
  | resetPinRelease levels => exact execResetPinRelease_keepsNotices s levels
  | startupEnd => exact execStartupEnd_keepsNotices s
  | millisecondBoundary => exact execMillisecondBoundary_keepsNotices s
  | frameStart p => exact execFrameStart_keepsNotices s p
  | frameEnd p n d => exact execFrameEnd_keepsNotices s p n d
  | idle p => exact ⟨s, rfl, .refl s⟩
  | replyReady p => exact execReplyReady_keepsNotices s p
  | join p => exact execJoin_keepsNotices s p
  | leave p => exact execLeave_keepsNotices s p
  | acquire p => exact execAcquire_keepsNotices s p
  | accept p => exact execAccept_keepsNotices s p
  | decline p => exact execDecline_keepsNotices s p
  | cancel p => exact execCancel_keepsNotices s p
  | renew p => exact execRenew_keepsNotices s p
  | release p => exact execRelease_keepsNotices s p
  | downgrade p => exact execDowngrade_keepsNotices s p
  | markSound p => exact execMarkSound_keepsNotices s p
  | query p => exact execQuery_keepsNotices s p
  | takeNotice p => exact execTakeNotice_keepsNotices s p
  | define p => exact execDefine_keepsNotices s p
  | amend p => exact execAmend_keepsNotices s p
  | retire p => exact execRetire_keepsNotices s p
  | revoke p => exact execRevoke_keepsNotices s p
  | evict p => exact execEvict_keepsNotices s p
  | setClient p => exact execSetClient_keepsNotices s p
  | inspectClient p => exact execInspectClient_keepsNotices s p
  | unknownCode p => exact execUnknownCode_keepsNotices s p
  | sweepVisit c => exact execSweepVisit_keepsNotices s c
  | teardownCompletion c => exact execTeardownCompletion_keepsNotices s c
  | resetSenseAssert p => exact execResetSenseAssert_keepsNotices s p
  | clientResetSense c => exact execClientResetSense_keepsNotices s c
  | resetSenseRelease p => exact execResetSenseRelease_keepsNotices s p
  | holdAssertion c => exact execHoldAssertion_keepsNotices s c
  | holdRelease c => exact execHoldRelease_keepsNotices s c
  | leaseWarn i c => exact execLeaseWarn_keepsNotices s c i
  | leaseEnd i c => exact execLeaseEnd_keepsNotices s c i
  | offerEnd i c => exact execOfferEnd_keepsNotices s c i
  | waitEnd i c => exact execWaitEnd_keepsNotices s c i
  | allowanceEnd c => exact execAllowanceEnd_keepsNotices s c

/-! ### The laws, and the attention output (R123, R131, R136) -/

/-- What the law of the presented mark rests on: legal sets, quiet until start-up has ended, and `Attended`. -/
structure State.NoticesLawful (s : State) : Prop extends s.Attended where
  legal : s.NoticesLegal
  quiet : s.StartupQuiet

theorem exec_presented (c : Instr) (s : State) (h : s.NoticesLawful) : ∃ t, exec c s = .next t ∧ t.PresentedLaw := by
  obtain ⟨t, taken, keeps⟩ := exec_keepsNotices c s
  exact ⟨t, taken, t.presentedLaw_iff.mpr (keeps.carried h.legal h.quiet h.toAttended)⟩

theorem exec_noticesLegal (c : Instr) (s : State) (h : s.NoticesLegal) : ∃ t, exec c s = .next t ∧ t.NoticesLegal := by
  obtain ⟨t, taken, keeps⟩ := exec_keepsNotices c s
  exact ⟨t, taken, fun d => keeps.legal d (h d)⟩

theorem State.attention_iff (s : State) (c : ClientId) : s.attention c = true ↔
    s.startup = .ended ∧ ∃ n ∈ (s.noticeSet c).records, (s.client c).mask.getLsbD (n.body.number - 1) = true := by
  simp [State.attention, maskEnables, NoticeBody.kind_rank]

/-- Settles O60: every command raises unmarked notices, clears records, or marks the one record that its reply carries. -/
theorem stepKeepsTheNoticeSets : Obligations.StepKeepsTheNoticeSets := by
  refine ⟨fun s t legal hstep => ?_, fun s t ports quiet clean legal presented hstep => ?_, State.attention_iff⟩
  · exact step_leads (P := State.NoticesLegal) (fun _ _ h => h) exec_noticesLegal (fun _ => id) legal hstep
  · have attended : s.Attended := ⟨fun p => (s.portConsistent_iff p).mp (ports p), fun c => (clean c).2,
      s.presentedLaw_iff.mp presented⟩
    exact step_leads (P := State.NoticesLawful)
      (fun s q h => ⟨⟨h.ports, h.told, h.carried⟩, h.legal, h.quiet⟩) exec_presented
      (fun s h => s.presentedLaw_iff.mpr h.carried) ⟨attended, legal, quiet⟩ hstep

end Sys2Proof.Machine
end

section
/-! PROOF. TAKE NOTICE presents the record of best rank, the earliest of that rank (O41). -/

namespace Sys2Proof.Machine

/-! ### The record chosen (R130) -/

/-- A record that nothing behind it outranks, and that outranks all ahead of it, is the best. -/
theorem bestNotice_split {before after : List Notice} {n : Notice} (ahead : ∀ m ∈ before, n.body.number < m.body.number)
    (behind : ∀ m ∈ after, n.body.number ≤ m.body.number) : bestNotice (before ++ n :: after) = some n := by
  induction before with
  | nil =>
    cases best : bestNotice after with
    | none => simp [bestNotice, best]
    | some m =>
      have last := behind m (bestNotice_mem best)
      simp [bestNotice, best, NoticeBody.kind_rank, Nat.not_lt.mpr last]
  | cons m before ih =>
    obtain ⟨first, rest⟩ := List.forall_mem_cons.mp ahead
    simp [bestNotice, ih rest, NoticeBody.kind_rank, first]

/-! ### The reply's data (R169) -/

section
variable (n : Notice)

theorem Notice.data_key : wordAt n.data 0 = n.key := word_of_bytes n.key

theorem Notice.data_kind : (byteAt n.data 2).toNat = n.body.number := by
  have small : n.body.number < 256 := by cases n.body <;> simp [NoticeBody.number]
  rw [← n.body.kind_rank] at small ⊢
  exact toNat_ofNat_byte small

theorem Notice.data_gen : longAt n.data 3 = n.gen.getD 0 :=
  longAt_longBytes (wordBytes n.key ++ [BitVec.ofNat 8 n.body.kind.rank]) (wordBytes n.body.detail) (n.gen.getD 0)

theorem Notice.data_detail : wordAt n.data 7 = n.body.detail := word_of_bytes n.body.detail

end

theorem NoticeBody.offer_detail (tenure : Tenure) (suspect : Bool) : (NoticeBody.offer tenure suspect).detail.toNat
    = (if tenure = .shared then 1 else 0) + (if suspect = true then 2 else 0) := by
  cases tenure <;> cases suspect <;> rfl

/-! ### TAKE NOTICE -/

section
variable {p : ClientId} {s : State} (passes : s.Passes p .takeNotice [])
include passes

theorem exec_takeNotice_empty (empty : (s.noticeSet p).records = []) :
    exec (.takeNotice p) s = .next (s.answer p .noNotice []) := by
  refine congrArg Host.Outcome.next ((s.request_passes p .takeNotice [] passes _).trans ?_)
  simp only [empty, bestNotice]

theorem exec_takeNotice_best {n : Notice} (best : bestNotice (s.noticeSet p).records = some n) :
    exec (.takeNotice p) s = .next ((s.setNoticeSet p ((s.noticeSet p).present n)).answer p .done n.data) := by
  refine congrArg Host.Outcome.next ((s.request_passes p .takeNotice [] passes _).trans ?_)
  simp only [best]

end

/-- Settles O41: the record chosen is the one record of a legal set with its key and kind, so it alone is marked. -/
theorem takeNoticePresentsTheBest : Obligations.TakeNoticePresentsTheBest := by
  intro p s passes
  refine ⟨fun empty => ⟨_, exec_takeNotice_empty passes empty, s.answer_onlyAnswered p _ _⟩,
    fun before n after legal records ahead behind => ?_⟩
  have best : bestNotice (s.noticeSet p).records = some n := records ▸ bestNotice_split ahead behind
  have presented : (s.noticeSet p).present n
      = { s.noticeSet p with records := before ++ { n with presented := true } :: after } := by
    rw [← NoticeSet.present_records (legal p) records]
    rfl
  refine ⟨_, n.data, exec_takeNotice_best passes best, State.answer_answered s (s.setNoticeSet p _) p _ _ rfl, ?_,
    fun d hd => ?_, ⟨rfl, rfl, rfl⟩, ⟨rfl, rfl, rfl, rfl⟩, rfl, rfl, rfl, n.data_key, n.data_kind, n.data_gen, ?_⟩
  · simp [State.answer, presented]
  · simp [State.answer, hd]
  rw [n.data_detail]
  refine ⟨fun expired => by rw [expired]; rfl, fun revoked => by rw [revoked]; rfl, fun withdrawn => by rw [withdrawn]; rfl,
    fun tenure suspect offer => ?_, fun lapsed => ?_, fun ms expiring => by rw [expiring]; rfl⟩
  · rw [offer, NoticeBody.offer_detail]
  · rcases lapsed with offer | wait
    · rw [offer]; rfl
    · rw [wait]; rfl

end Sys2Proof.Machine
end

section
/-! PROOF. FRAME_START takes the snapshot, and data out shifts it (O7). -/

namespace Sys2Proof.Machine

/-! ### The status byte (R160) -/

theorem Status.byte_bits (st : Status) :
    st.byte.getLsbD 7 = st.session ∧ st.byte.getLsbD 6 = st.busy ∧ st.byte.getLsbD 5 = st.notice
    ∧ st.byte.getLsbD 4 = st.frozen ∧ st.byte.getLsbD 3 = st.lost ∧ st.byte.getLsbD 2 = st.crcErr
    ∧ st.byte.getLsbD 1 = st.frameErr ∧ st.byte.getLsbD 0 = st.overrun := by
  obtain ⟨session, busy, notice, frozen, lost, crcErr, frameErr, overrun⟩ := st
  revert session busy notice frozen lost crcErr frameErr overrun
  decide

/-! ### Data out (R140, R141) -/

/-- Bit `k` of byte `n`, the most significant first. -/
theorem getElem?_bitsOf {bytes : List Byte} {n k : Nat} {byte : Byte} (h : bytes[n]? = some byte) (hk : k < 8) :
    (bitsOf bytes)[8 * n + k]? = some (byte.getLsbD (7 - k)) := by
  induction bytes generalizing n with
  | nil => simp at h
  | cons b bytes ih =>
    rw [bitsOf_cons]
    cases n with
    | zero =>
      obtain rfl : b = byte := by simpa using h
      rw [List.getElem?_append_left (by simpa [length_bitsOf] using hk)]
      interval_cases k <;> rfl
    | succ n =>
      rw [List.getElem?_append_right (by simp [length_bitsOf]; omega), length_bitsOf]
      have place : 8 * (n + 1) + k - 8 * [b].length = 8 * n + k := by simp; omega
      rw [place]
      exact ih (by simpa using h)

theorem Frame.dataOut_bit (f : Frame) {n k : Nat} {byte : Byte} (h : f.snapshot.bytes[n]? = some byte) (hk : k < 8) :
    f.dataOut (8 * n + k) = byte.getLsbD (7 - k) := by
  rw [Frame.dataOut, List.getD_eq_getElem?_getD, getElem?_bitsOf h hk, Option.getD_some]

theorem Frame.dataOut_past (f : Frame) {k : Nat} (h : 8 * f.snapshot.bytes.length ≤ k) : f.dataOut k = true :=
  List.getD_eq_default _ _ ((length_bitsOf _).le.trans h)

theorem State.dataOut_of_frame {t : State} {p : ClientId} {f : Frame} (low : (t.port p).selectLow = true)
    (frame : (t.port p).frame = some f) (k : Nat) : t.dataOut p k = some (f.dataOut k) := by
  simp [State.dataOut, low, frame]

/-! ### The snapshot (R141, R143) -/

/-- The frame that begins at port `p`. -/
def State.newFrame (s : State) (p : ClientId) : Frame :=
  { snapshot := s.snapshot p, edges := 0, received := [], partByte := [] }

/-- The state once the frame has begun at a port in READY or BUSY. -/
def State.framed (s : State) (p : ClientId) : State :=
  (s.setPort p { s.port p with selectLow := true, frame := some (s.newFrame p) }).setNoticeSet p
    ((s.noticeSet p).markShown (s.port p).slot.isFilled)

section
variable {s : State} {p : ClientId} (high : (s.port p).selectLow = false)
include high

theorem exec_frameStart (state : (s.port p).state = .ready ∨ (s.port p).state = .busy) :
    exec (.frameStart p) s = .next (s.framed p) :=
  congrArg Host.Outcome.next ((if_neg (by simp [high])).trans (if_pos state))

theorem exec_frameStart_ignored (state : ¬ ((s.port p).state = .ready ∨ (s.port p).state = .busy)) :
    exec (.frameStart p) s = .next (s.setPort p { s.port p with selectLow := true }) :=
  congrArg Host.Outcome.next ((if_neg (by simp [high])).trans (if_neg state))

end

section
variable (s : State) (p : ClientId)

theorem State.framed_port :
    (s.framed p).port p = { s.port p with selectLow := true, frame := some (s.newFrame p) } := by
  simp [State.framed]

theorem State.framed_noticeSet : (s.framed p).noticeSet p
    = if (s.newFrame p).snapshot.filled = true ∧ (s.noticeSet p).lost = true
      then { s.noticeSet p with lostShown := true } else s.noticeSet p := by
  rw [State.framed, State.noticeSet_setNoticeSet_self]
  exact if_congr (by simp [State.newFrame, State.snapshot]) rfl rfl

theorem State.framed_elsewhere : s.SameNoticesBut (s.framed p) p ∧ s.SamePortsBut (s.framed p) p :=
  ⟨fun d hd => by simp [State.framed, hd], fun q hq => by simp [State.framed, hq]⟩

/-- Select that is high releases data out, and so does the absence of a frame (R141). -/
theorem State.dataOut_released (h : (s.port p).selectLow = false ∨ (s.port p).frame = none) (k : Nat) :
    s.dataOut p k = none := by
  rcases h with high | noFrame
  · simp [State.dataOut, high]
  · simp [State.dataOut, noFrame]

/-- The status flags sampled (R143, R160). -/
theorem State.sampleStatus_bits :
    ((s.sampleStatus p).session = true ↔ (s.client p).session = .opened)
    ∧ ((s.sampleStatus p).busy = true ↔ ∃ tag, (s.port p).slot = .pending tag)
    ∧ ((s.sampleStatus p).notice = true ↔ ∃ n ∈ (s.noticeSet p).records, n.presented = false)
    ∧ ((s.sampleStatus p).frozen = true ↔ (s.client p).freeze = .frozen) := by
  refine ⟨by simp [State.sampleStatus], ?_, by simp [State.sampleStatus], by simp [State.sampleStatus]⟩
  cases slot : (s.port p).slot <;> simp [State.sampleStatus, slot]

end

/-- Settles O7: the frame that begins, its snapshot's bytes and bits; in STARTING and DETACHED the level of the line. -/
theorem frameStartTakesTheSnapshot : Obligations.FrameStartTakesTheSnapshot := by
  refine ⟨fun p s high => ⟨s.dataOut_released p (.inl high), fun state => ?_, fun state => ?_⟩, rfl⟩
  · have port := s.framed_port p
    have noticeSet := s.framed_noticeSet p
    obtain ⟨notices, ports⟩ := s.framed_elsewhere p
    have dataOut := State.dataOut_of_frame (congrArg Port.selectLow port) (congrArg Port.frame port)
    obtain ⟨session, busy, notice, frozen, lost, crcErr, frameErr, overrun⟩ := (s.sampleStatus p).byte_bits
    obtain ⟨opened, pending, unpresented, freeze⟩ := s.sampleStatus_bits p
    refine ⟨s.framed p, s.newFrame p, (s.sampleStatus p).byte, _, exec_frameStart high state, port, rfl, rfl, rfl,
      fun empty => ?_, fun tag pending => ?_, fun reply filled => ?_, rfl, rfl, fun n byte k hb hk => ?_, fun k past => ?_,
      session ▸ opened, busy ▸ pending, notice ▸ unpresented, frozen ▸ freeze, lost, crcErr, frameErr, overrun, noticeSet,
      ⟨rfl, rfl, rfl⟩, ⟨rfl, rfl, rfl, rfl⟩, rfl, rfl, notices, ports⟩
    · simp [State.newFrame, State.snapshot, empty, ReplySlot.shown, ReplySlot.isFilled]
    · simp [State.newFrame, State.snapshot, pending, ReplySlot.shown, ReplySlot.isFilled]
    · simp [State.newFrame, State.snapshot, filled, ReplySlot.shown, ReplySlot.isFilled]
    · rw [dataOut, (s.newFrame p).dataOut_bit hb hk]
    · rw [dataOut, (s.newFrame p).dataOut_past past]
  · have ignored : ¬ ((s.port p).state = .ready ∨ (s.port p).state = .busy) := by
      rcases state with starting | detached
      · simp [starting]
      · simp [detached]
    refine ⟨_, exec_frameStart_ignored high ignored, s.port_setPort_self p _, s.setPort_onlyPort p _, fun noFrame => ?_⟩
    exact State.dataOut_released _ p (.inr (by rw [State.port_setPort_self]; exact noFrame))

end Sys2Proof.Machine
end

section
/-! PROOF. The end of a frame that delivers nothing (O8), IDLE (O10), the arrival of a reply (O11), and the queue of
commands: what a step runs (O1), and that every command gives a next state (O2). -/

namespace Sys2Proof.Machine

/-! ### The queue of commands -/

/-- Settles O1, by the two rules of a step. -/
theorem stepRunsFrontCommand : Obligations.StepRunsFrontCommand :=
  ⟨fun c rest s front => step_cons s c rest front, step_nil⟩

/-- The commands that reset the part, start it up or count time keep the queue, taken in their turn or out of it. -/
theorem exec_movesTime_pending {c : Instr} (s : State) (h : movesTime c = true) :
    ∃ t, exec c s = .next t ∧ t.pending = s.pending := by
  cases c with
  | powerOn | resetPin => exact ⟨_, rfl, rfl⟩
  | resetPinRelease | startupEnd | millisecondBoundary =>
    refine ⟨_, rfl, ?_⟩
    split <;> rfl
  | _ => cases h

/-- Settles O2: a command that does not move the time keeps the queue with it; the five that do are taken one by one. -/
theorem everyCommandGivesANextState : Obligations.EveryCommandGivesANextState := by
  intro c s
  by_cases moves : movesTime c = true
  · exact exec_movesTime_pending s moves
  · obtain ⟨t, next, advances⟩ := exec_advances c s (by simpa using moves)
    obtain ⟨pending, -, -⟩ := advances.time
    exact ⟨t, next, pending⟩

/-! ### The arrival of a reply (R144, R154) -/

section
variable {s : State} {p : ClientId} {a : Answer} {data : List Byte}

theorem exec_replyReady (answered : (s.port p).inFlight = .answered a data) :
    exec (.replyReady p) s
      = .next (s.setPort p (((s.port p).replied a data).settled (s.client p).session)) := by
  rw [← s.placeReply_eq p a data]
  simp only [exec, execReplyReady, answered]

theorem Port.replied_filled {x : Port} {tag : Byte} (pending : x.slot = .pending tag) (busy : x.state = .busy) :
    x.replied a data = x.filledWith tag a data := by
  simp [Port.replied, Port.filledWith, pending, busy]

theorem Port.replied_discarded {x : Port} (empty : x.slot = .empty) :
    x.replied a data = { x with inFlight := .none } := by
  simp [Port.replied, empty]

end

/-- Settles O11: the slot takes the reply of a BUSY port; a DETACHED port is left with no request, and then R154. -/
theorem replyReadyFillsTheSlot : Obligations.ReplyReadyFillsTheSlot := by
  intro p s a data answered
  have placed := exec_replyReady answered
  refine ⟨fun tag pending busy => ⟨_, placed, ?_, s.setPort_onlyPort p _⟩, fun empty detached => ?_⟩
  · rw [State.port_setPort_self, Port.replied_filled pending busy]
    exact Port.settled_of_state _ _ nofun
  · rw [Port.replied_discarded empty] at placed
    obtain ⟨ready, stays⟩ := Port.settled_settles { s.port p with inFlight := .none } (s.client p).session
    refine ⟨_, placed, s.setPort_onlyPort p _, fun h => ?_, fun h => ?_⟩ <;> rw [State.port_setPort_self]
    · obtain ⟨released, session, owed⟩ := h
      exact ready ⟨detached, released, rfl, session, owed⟩
    · exact stays fun ⟨_, released, _, session, owed⟩ => h ⟨released, session, owed⟩

/-! ### The end of a frame that delivers nothing (R140, R145, R146) -/

/-- The port with select high again and no frame. -/
def Port.deselected (x : Port) : Port := { x with selectLow := false, frame := none }

/-- A request other than IDLE that finds the slot in use is not taken (R150). -/
theorem Port.judge_overrun {x : Port} {bytes : List Byte} {code tag : Byte} {ps : List Byte} (used : x.slot ≠ .empty)
    (h : judgeBytes bytes = .wellFormed code tag ps) (hc : code ≠ idleCode) :
    x.judge bytes = { x with overrun := true } := by
  cases slot : x.slot with
  | empty => exact absurd slot used
  | pending tag => simp only [Port.judge, h, if_neg hc, slot]
  | filled r => simp only [Port.judge, h, if_neg hc, slot]

section
variable {p : ClientId} {s : State} {f : Frame} {edges : Nat} {dataIn : BitVec edges} {bytes : List Byte}
  {extra : List Bool}

/-- An ignored or aborted frame ends with nothing (R140). -/
theorem exec_frameEnd_ignored (low : (s.port p).selectLow = true) (noFrame : (s.port p).frame = none) :
    exec (.frameEnd p edges dataIn) s = .next (s.setPort p (s.port p).deselected) := by
  simp only [exec, execFrameEnd, low, noFrame, Port.deselected, reduceCtorEq, if_false]

/-- A frame without a rising edge ends with nothing (R140). -/
theorem exec_frameEnd_unclocked (low : (s.port p).selectLow = true) (frame : (s.port p).frame = some f)
    (start : f.edges = 0) : exec (.frameEnd p 0 0#0) s = .next (s.setPort p (s.port p).deselected) := by
  have unclocked : ((sampledBits 0 0#0).foldl Frame.sample f).edges = 0 := start
  simp only [exec, execFrameEnd, low, frame, if_pos unclocked, Port.deselected, reduceCtorEq, if_false]

/-- What a frame has counted and received at its end: the edges, the bytes, and the bits left over (R140, R142). -/
theorem Frame.foldl_sampledBits (start : f.edges = 0) (fresh : f.received = []) (noPart : f.partByte = [])
    (sampled : sampledBits edges dataIn = bitsOf bytes ++ extra) (left : extra.length < 8) :
    (sampledBits edges dataIn).foldl Frame.sample f
      = { f with edges := edges, received := bytes, partByte := extra } := by
  rw [sampled, f.foldl_sample bytes extra noPart left, ← sampled, length_sampledBits, start, fresh, Nat.zero_add,
    List.nil_append]

/-- The end of a clocked frame that delivers nothing: the port, select high again, judges the bytes received. -/
theorem exec_frameEnd_judges (low : (s.port p).selectLow = true) (frame : (s.port p).frame = some f)
    (start : f.edges = 0) (fresh : f.received = []) (noPart : f.partByte = [])
    (sampled : sampledBits edges dataIn = bitsOf bytes ++ extra) (left : extra.length < 8) (clocked : 0 < edges)
    (kept : f.snapshot.filled = false ∨ edges < 8 * f.snapshot.bytes.length) :
    exec (.frameEnd p edges dataIn) s = .next (s.setPort p ((s.port p).deselected.judge bytes)) := by
  have ended := Frame.foldl_sampledBits start fresh noPart sampled left
  have keeps : Frame.delivers { f with edges := edges, received := bytes, partByte := extra } = false := by
    rcases kept with notFilled | short
    · simp [Frame.delivers, notFilled]
    · simp [Frame.delivers, short]
  simp only [exec, execFrameEnd, low, frame, ended, keeps, if_neg clocked.ne', State.port_setPort_self,
    State.setPort_setPort, Port.deselected, reduceCtorEq, if_false]

end

/-- Settles O8: with no frame or no edge select only rises; else the bytes are judged, by R147 and then by the slot. -/
theorem frameEndJudgesTheRequest : Obligations.FrameEndJudgesTheRequest := by
  intro p s low closed
  refine ⟨fun noFrame edges dataIn =>
    ⟨_, exec_frameEnd_ignored low noFrame, s.port_setPort_self p _, s.setPort_onlyPort p _⟩,
    fun f frame start fresh noPart =>
    ⟨⟨_, exec_frameEnd_unclocked low frame start, s.port_setPort_self p _, s.setPort_onlyPort p _⟩, ?_⟩⟩
  intro edges dataIn bytes extra sampled left clocked kept
  have judged := exec_frameEnd_judges low frame start fresh noPart sampled left clocked kept
  have port := s.port_setPort_self p ((s.port p).deselected.judge bytes)
  have only := s.setPort_onlyPort p ((s.port p).deselected.judge bytes)
  refine ⟨fun code tag ps filler hb short request => ?_, fun code tag ps crc filler hb short wrong => ?_,
    fun truncated => ?_⟩
  · have formed : judgeBytes bytes = .wellFormed code tag ps := hb ▸ judgeBytes_requestBytes code tag filler short
    exact ⟨_, judged, only, fun empty => port.trans (Port.judge_takes empty formed request),
      fun used => port.trans (Port.judge_overrun used formed request)⟩
  · have crcErr : judgeBytes bytes = .crcErr := by
      rw [hb, judgeBytes_complete code tag crc filler short, if_neg (Ne.symm wrong)]
    exact ⟨_, judged, port.trans (Port.judge_crcErr crcErr), only⟩
  · exact ⟨_, judged, port.trans (Port.judge_frameErr (judgeBytes_frameErr truncated)), only⟩

/-! ### IDLE (R148, R158) -/

/-- The CRC of an IDLE without tag and parameters, byte by byte (R158). -/
theorem requestBytes_idle : requestBytes 0x00#8 0x00#8 [] = [0x00#8, 0x00#8, 0x00#8, 0x69#8] := by
  have first : crcByte 0xFF#8 0x00#8 = 0x42#8 := by decide
  have second : crcByte 0x42#8 0x00#8 = 0xB8#8 := by decide
  have third : crcByte 0xB8#8 0x00#8 = 0x69#8 := by decide
  simp [requestBytes, crc8, first, second, third]

/-- A frame that received a byte was clocked. -/
theorem clocked_of_sampledBits {edges : Nat} {dataIn : BitVec edges} {bytes : List Byte} {extra : List Bool}
    (sampled : sampledBits edges dataIn = bitsOf bytes ++ extra) (received : bytes ≠ []) : 0 < edges := by
  have count := congrArg List.length sampled
  rw [length_sampledBits, List.length_append, length_bitsOf] at count
  have := List.length_pos_iff.mpr received
  omega

/-- Settles O10: the judgement of an IDLE leaves the port, closed or after a delivery, as it finds it. -/
theorem idleDoesNothing : Obligations.IdleDoesNothing := by
  refine ⟨fun p s => rfl, requestBytes_idle, ?_⟩
  intro p s f edges dataIn tag ps filler extra low frame start fresh noPart short sampled left
  have formed : judgeBytes (requestBytes 0x00#8 tag ps ++ filler) = .wellFormed idleCode tag ps :=
    judgeBytes_requestBytes 0x00#8 tag filler short
  by_cases delivers : f.snapshot.filled = true ∧ 8 * f.snapshot.bytes.length ≤ edges
  · obtain ⟨filled, full⟩ := delivers
    have ended := execFrameEnd_delivers low frame start fresh noPart filled sampled left full
    rw [Port.judge_idle formed, State.setPort_port] at ended
    refine ⟨_, ended, fun kept => ?_, fun _ _ =>
      ⟨s.delivered_portDelivered p f, s.delivered_noticesDelivered p f, s.delivered_elsewhere p f⟩⟩
    rcases kept with notFilled | cut
    · exact absurd (filled.symm.trans notFilled) nofun
    · exact absurd full (Nat.not_le.mpr cut)
  · have kept : f.snapshot.filled = false ∨ edges < 8 * f.snapshot.bytes.length :=
      (not_and_or.mp delivers).imp Bool.eq_false_of_not_eq_true Nat.lt_of_not_le
    have clocked : 0 < edges := clocked_of_sampledBits sampled (by simp [requestBytes])
    have judged := exec_frameEnd_judges low frame start fresh noPart sampled left clocked kept
    rw [Port.judge_idle formed] at judged
    exact ⟨_, judged, fun _ => ⟨s.port_setPort_self p _, s.setPort_onlyPort p _⟩,
      fun filled full => absurd ⟨filled, full⟩ delivers⟩

end Sys2Proof.Machine
end

section
/-! PROOF. Unknown codes and lengths that do not fit: O16. -/

namespace Sys2Proof.Machine

/-- A request of an unknown code is answered as the session check says, and BAD-REQUEST where it says nothing (R165). -/
theorem exec_unknownCode {p : ClientId} {s : State} {code : Byte} {ps : List Byte}
    (flight : (s.port p).inFlight = .taken code ps) (unknown : knownCode code = false) :
    exec (.unknownCode p) s
      = .next (s.answer p ((sessionRefusal (s.client p).session false).getD .badRequest) []) := by
  change execUnknownCode p s = _
  simp [execUnknownCode, flight, unknown]

/-- A request whose role and length are right is not answered BAD-REQUEST: BAD-PARAM where its ranges fail, and else by
the stages that follow (R164, R165). -/
theorem exec_notBadRequest_of_fits {q : Request} {p : ClientId} {s : State} {ps : List Byte}
    (flight : s.InFlight p q ps) (session : s.SessionPasses p q) (allowed : q.ForSupervisor → p = 0)
    (fits : q.LengthFits ps.length) :
    ∃ t, exec (q.instr p) s = .next t ∧ ∀ a data, (t.port p).inFlight = .answered a data → a ≠ .badRequest := by
  obtain ⟨-, -, outOfRange, past⟩ := roleLengthAndRangesInOrder q p s ps flight session
  by_cases ranges : q.RangesHold ps
  · obtain ⟨t, taken, late⟩ := past allowed fits ranges
    refine ⟨t, taken, fun a data answered => ?_⟩
    obtain ⟨-, notBadRequest, -⟩ := late a data answered
    exact notBadRequest
  · obtain ⟨t, taken, ⟨port, -⟩, -⟩ := outOfRange allowed fits ranges
    refine ⟨t, taken, fun a data answered => ?_⟩
    rw [port] at answered
    obtain ⟨rfl, -⟩ := InFlight.answered.inj answered
    nofun

/-- Settles O16: an unknown code by the session alone, a wrong length at stage 4 of R164, and INSPECT CLIENT by its two
lengths, which both fit. -/
theorem unknownCodesAndWrongLengths : Obligations.UnknownCodesAndWrongLengths := by
  refine ⟨fun p s code ps flight idle unknown => ?_, fun q p s ps flight session => ?_,
    fun s ps flight session lengths => ?_⟩
  · refine ⟨_, exec_unknownCode flight (knownCode_eq_false idle unknown), ?_⟩
    cases (s.client p).session with
    | none => exact s.answer_onlyAnswered p .noSession []
    | teardown => exact s.answer_onlyAnswered p .ending []
    | opened => exact s.answer_onlyAnswered p .badRequest []
  · obtain ⟨-, wrongLength, -⟩ := roleLengthAndRangesInOrder q p s ps flight session
    exact wrongLength
  · exact exec_notBadRequest_of_fits flight session (fun _ => rfl) lengths

end Sys2Proof.Machine
end
